-- ==== Sys2Proof/Word.lean ====
section
/-! DEFINITION. The word types of ZIS-CORE and the one integer helper of R9 (00_scope.md). -/

namespace Sys2Proof

/-- An 8-bit value (R9: `u8`). -/
abbrev Byte := BitVec 8

/-- A 16-bit value (R9: `u16`). -/
abbrev Half := BitVec 16

/-- A 32-bit value (R9: `u32`), the register width (R7). -/
abbrev Word := BitVec 32

/-- `ceil(a/b)` for b > 0 (R9). -/
def ceilDiv (a b : Nat) : Nat := (a + b - 1) / b

end Sys2Proof
end

