-- ==== Sys2Proof/Config.lean ====
section
/-! DEFINITION. What an implementation of ZIS-CORE fixes (R7), and the free values: constants without a body, one for
each kind of value the spec calls unspecified. -/

namespace Sys2Proof

/-- The OPEN parameters of R7 and R88. They are not state (R31): no step writes them. The fixed type of `exec` leaves
State as the one place where a model can take them as an argument (log 4). -/
structure Params where
  /-- MAX_SEGS, 1 to 224: segment descriptor slots. -/
  maxSegs   : Nat
  /-- RAW_CAP_MAX, 1 to 2^32 - 1: bytes of RAW. -/
  rawCapMax : Nat
  /-- REG_BASE: the platform address of the register window (R88). DESIGN CHOICE: a 32-bit
  address, with no range of its own (log 27). -/
  regBase   : Word
deriving DecidableEq, Repr

/-- The ranges R7 gives the OPEN parameters. -/
abbrev Params.Legal (p : Params) : Prop :=
  1 ≤ p.maxSegs ∧ p.maxSegs ≤ 224 ∧ 1 ≤ p.rawCapMax ∧ p.rawCapMax ≤ 2 ^ 32 - 1

/-- A Huffman table (R56): how many symbols there are of each length 0 to 15, and the symbols of nonzero length sorted
by length, then by value. -/
structure HuffTable where
  count  : List Nat
  symbol : List Nat
deriving DecidableEq, Repr, Inhabited

/-- PAL[i] not written since the reset with draw number `epoch` (R45: "a model treats it as a draw"; log 6). -/
opaque Config.freePal (epoch i : Nat) : BitVec 24

/-- TRNS[i] not written since the reset with draw number `epoch` (R46; log 6). -/
opaque Config.freeTrns (epoch i : Nat) : Byte

/-- RAW[i] not written since the reset or error with draw number `epoch` (R60, R412; log 7). -/
opaque Config.freeRaw (epoch i : Nat) : Byte

/-- The HMEM byte at `a` after the error or reset with draw number `id` (R412, R451, R92; log 10). -/
opaque Config.freeHmem (id a : Nat) : Byte

/-- What the core reads from a segment byte that the host wrote while BUSY (R92; log 11). -/
opaque Config.freeRace (id a : Nat) : Byte

/-- What a host read of RAW_SIZE, OUT_PRODUCED or IN_CONSUMED returns while BUSY (R51; log 12). -/
opaque Config.freeCounter (id : Nat) : Word

/-- What a host read of an OUT byte returns while BUSY (R91; log 12). -/
opaque Config.freeOutRead (id a : Nat) : Byte

/-- LT (which = 0), DT (1) and CLT (2) after the error with draw number `id` (R412; log 9). -/
opaque Config.freeTable (id which : Nat) : HuffTable

end Sys2Proof
end

