-- ==== Sys2Proof/Syntax.lean ====
section
/-! DEFINITION. The encoded elements of ZIS-CORE's three inputs (R2): one constructor of `Instr` per row of
opcode_table.json, and the seven carriers they are read from (R110). -/

namespace Sys2Proof

/-- The carriers of R110 that select an element. `F_STORED` and `F_DYNHDR` select nothing: they are the operands of
BLK_STORED and BLK_DYNAMIC. -/
inductive Format where
  | cmd      -- F_CMD: a 32-bit write to CTRL
  | bhdr     -- F_BHDR: the 3 header bits, in read order
  | cl       -- F_CL: a code-length symbol, 0 to 18
  | litlen   -- F_LITLEN: a literal/length symbol, 0 to 287
  | dist     -- F_DIST: a distance symbol, 0 to 31
  | filter   -- F_FILTER: the tag byte of a row
  | pixfmt   -- F_PIXFMT: the FORMAT register
deriving DecidableEq, Repr

/-- The elements, in the order of opcode_table.json. -/
inductive Instr where
  /-- CTRL write, START = 1, CMD = 0 (R335). -/
  | cmdReserved (inchk ie clear : Bool)
  /-- CTRL write, START = 1, CMD = 1 (R332). -/
  | cmdDecode (inchk ie clear : Bool)
  /-- CTRL write, START = 1, CMD = 2 (R333). -/
  | cmdExpand (inchk ie clear : Bool)
  /-- CTRL write, START = 1, CMD = 3 (R334). -/
  | cmdDecodeExpand (inchk ie clear : Bool)
  /-- CTRL write, START = 0, CLEAR = 1; CMD, INCHK and IE are stored (R339). -/
  | ctrlClear (cmd : BitVec 2) (inchk ie : Bool)
  /-- Block header, BTYPE = 0 (R204). -/
  | blkStored (bfinal : Bool)
  /-- Block header, BTYPE = 1 (R205). -/
  | blkFixed (bfinal : Bool)
  /-- Block header, BTYPE = 2 (R207). -/
  | blkDynamic (bfinal : Bool)
  /-- Block header, BTYPE = 3 (R202). -/
  | blkInvalid (bfinal : Bool)
  /-- Code-length symbol 0 to 15: a code length (R210). -/
  | clLen (v : Nat)
  /-- Code-length symbol 16 (R211). -/
  | clRepPrev
  /-- Code-length symbol 17 (R212). -/
  | clRepZero3
  /-- Code-length symbol 18 (R213). -/
  | clRepZero11
  /-- Literal/length symbol 0 to 255: the byte (R217). -/
  | lit (b : Byte)
  /-- Literal/length symbol 256 (R218). -/
  | eob
  /-- Literal/length symbol 257 to 285 (R219). -/
  | len (sym : Nat)
  /-- Literal/length symbol 286 or 287 (R225). -/
  | lenInvalid (sym : Nat)
  /-- Distance symbol 0 to 29 (R223). -/
  | dist (sym : Nat)
  /-- Distance symbol 30 or 31 (R226). -/
  | distInvalid (sym : Nat)
  /-- Row tag 0 (R253). -/
  | filtNone
  /-- Row tag 1 (R254). -/
  | filtSub
  /-- Row tag 2 (R255). -/
  | filtUp
  /-- Row tag 3 (R256). -/
  | filtAvg
  /-- Row tag 4 (R257). -/
  | filtPaeth
  /-- Row tag 5 to 255 (R258). -/
  | filtInvalid (tag : Byte)
  /-- Grayscale, depth 1 (R311). In each PIX element `il` is FORMAT.INTERLACE, 0 or 1 (R141, R142). -/
  | pixG1 (il : Byte)
  /-- Grayscale, depth 2 (R312). -/
  | pixG2 (il : Byte)
  /-- Grayscale, depth 4 (R313). -/
  | pixG4 (il : Byte)
  /-- Grayscale, depth 8 (R314). -/
  | pixG8 (il : Byte)
  /-- Grayscale, depth 16 (R315). -/
  | pixG16 (il : Byte)
  /-- True-color, depth 8 (R316). -/
  | pixRgb8 (il : Byte)
  /-- True-color, depth 16 (R317). -/
  | pixRgb16 (il : Byte)
  /-- Palette, depth 1 (R318). -/
  | pixP1 (il : Byte)
  /-- Palette, depth 2 (R319). -/
  | pixP2 (il : Byte)
  /-- Palette, depth 4 (R320). -/
  | pixP4 (il : Byte)
  /-- Palette, depth 8 (R321). -/
  | pixP8 (il : Byte)
  /-- Grayscale+alpha, depth 8 (R322). -/
  | pixGa8 (il : Byte)
  /-- Grayscale+alpha, depth 16 (R323). -/
  | pixGa16 (il : Byte)
  /-- True-color+alpha, depth 8 (R324). -/
  | pixRgba8 (il : Byte)
  /-- True-color+alpha, depth 16 (R325). -/
  | pixRgba16 (il : Byte)
deriving DecidableEq, Repr

end Sys2Proof
end

