-- ==== Sys2Proof/WellFormed.lean ====
section
/-! DEFINITION. Which terms of `Instr` are elements the encodings admit. -/

namespace Sys2Proof

/-- The operand ranges of 30_encoding.md: R118 (CL_LEN), R119 (LEN, LEN_INVALID), R120 (DIST, DIST_INVALID), R125
(FILT_INVALID), R141 and R142 (INTERLACE of a PIX element). -/
def Instr.wellFormed : Instr → Bool
  | .cmdReserved _ _ _ => true
  | .cmdDecode _ _ _ => true
  | .cmdExpand _ _ _ => true
  | .cmdDecodeExpand _ _ _ => true
  | .ctrlClear _ _ _ => true
  | .blkStored _ => true
  | .blkFixed _ => true
  | .blkDynamic _ => true
  | .blkInvalid _ => true
  | .clLen v => v ≤ 15
  | .clRepPrev => true
  | .clRepZero3 => true
  | .clRepZero11 => true
  | .lit _ => true
  | .eob => true
  | .len sym => 257 ≤ sym && sym ≤ 285
  | .lenInvalid sym => 286 ≤ sym && sym ≤ 287
  | .dist sym => sym ≤ 29
  | .distInvalid sym => 30 ≤ sym && sym ≤ 31
  | .filtNone => true
  | .filtSub => true
  | .filtUp => true
  | .filtAvg => true
  | .filtPaeth => true
  | .filtInvalid tag => 5 ≤ tag.toNat
  | .pixG1 il => il.toNat ≤ 1
  | .pixG2 il => il.toNat ≤ 1
  | .pixG4 il => il.toNat ≤ 1
  | .pixG8 il => il.toNat ≤ 1
  | .pixG16 il => il.toNat ≤ 1
  | .pixRgb8 il => il.toNat ≤ 1
  | .pixRgb16 il => il.toNat ≤ 1
  | .pixP1 il => il.toNat ≤ 1
  | .pixP2 il => il.toNat ≤ 1
  | .pixP4 il => il.toNat ≤ 1
  | .pixP8 il => il.toNat ≤ 1
  | .pixGa8 il => il.toNat ≤ 1
  | .pixGa16 il => il.toNat ≤ 1
  | .pixRgba8 il => il.toNat ≤ 1
  | .pixRgba16 il => il.toNat ≤ 1

end Sys2Proof
end

