-- ==== Sys2Proof/Decode.lean ====
section
/-! DEFINITION. The decoder of each carrier of R110 (total: a word of no element is rejected by name), the encoder
(after it, from the same tables of 30_encoding.md), and the fixed Huffman codes of R123 and R124 as bits of the stream. -/

namespace Sys2Proof

/-- Why a word of a carrier is no element. -/
inductive DecodeError where
  /-- The word has a bit above its carrier's length (R110). -/
  | wordTooWide
  /-- A CTRL write with START = 0 and CLEAR = 0: a plain register write, no command word (R112). -/
  | plainCtrlWrite
  /-- A code-length symbol above 18 (R118). -/
  | noSuchCodeLengthSymbol
  /-- A literal/length symbol above 287 (R119). -/
  | noSuchLitLenSymbol
  /-- A distance symbol above 31 (R120). -/
  | noSuchDistSymbol
  /-- A (COLOR_MODEL, BIT_DEPTH) pair outside the table of R142. -/
  | unsupportedPixelFormat
  /-- An INTERLACE value above 1 (R141). -/
  | unsupportedInterlace
deriving DecidableEq, Repr

/-- F_CMD (R111, R112): START[0], CMD[2:1], INCHK[3], IE[4], CLEAR[5]; bits [31:6] are reserved and dropped (R32). -/
def decodeCmd (w : Nat) : Except DecodeError Instr :=
  if 2 ^ 32 ≤ w then .error .wordTooWide
  else if w.testBit 0 then
    match w / 2 % 4 with
    | 0 => .ok (.cmdReserved (w.testBit 3) (w.testBit 4) (w.testBit 5))
    | 1 => .ok (.cmdDecode (w.testBit 3) (w.testBit 4) (w.testBit 5))
    | 2 => .ok (.cmdExpand (w.testBit 3) (w.testBit 4) (w.testBit 5))
    | _ => .ok (.cmdDecodeExpand (w.testBit 3) (w.testBit 4) (w.testBit 5))
  else if w.testBit 5 then
    .ok (.ctrlClear (BitVec.ofNat 2 (w / 2 % 4)) (w.testBit 3) (w.testBit 4))
  else .error .plainCtrlWrite

/-- F_BHDR (R113, R114), bits in read order: BFINAL is bit 0, BTYPE bits 2:1. -/
def decodeHeader (w : Nat) : Except DecodeError Instr :=
  if 8 ≤ w then .error .wordTooWide
  else
    match w / 2 with
    | 0 => .ok (.blkStored (w.testBit 0))
    | 1 => .ok (.blkFixed (w.testBit 0))
    | 2 => .ok (.blkDynamic (w.testBit 0))
    | _ => .ok (.blkInvalid (w.testBit 0))

/-- F_CL (R118), on the decoded code-length symbol. -/
def decodeCodeLength (sym : Nat) : Except DecodeError Instr :=
  if sym ≤ 15 then .ok (.clLen sym)
  else if sym = 16 then .ok .clRepPrev
  else if sym = 17 then .ok .clRepZero3
  else if sym = 18 then .ok .clRepZero11
  else .error .noSuchCodeLengthSymbol

/-- F_LITLEN (R119), on the decoded literal/length symbol. -/
def decodeLitLen (sym : Nat) : Except DecodeError Instr :=
  if sym < 256 then .ok (.lit (BitVec.ofNat 8 sym))
  else if sym = 256 then .ok .eob
  else if sym ≤ 285 then .ok (.len sym)
  else if sym ≤ 287 then .ok (.lenInvalid sym)
  else .error .noSuchLitLenSymbol

/-- F_DIST (R120), on the distance symbol. -/
def decodeDist (sym : Nat) : Except DecodeError Instr :=
  if sym ≤ 29 then .ok (.dist sym)
  else if sym ≤ 31 then .ok (.distInvalid sym)
  else .error .noSuchDistSymbol

/-- F_FILTER (R125), on the tag byte. -/
def decodeFilter (tag : Nat) : Except DecodeError Instr :=
  match tag with
  | 0 => .ok .filtNone
  | 1 => .ok .filtSub
  | 2 => .ok .filtUp
  | 3 => .ok .filtAvg
  | 4 => .ok .filtPaeth
  | n => if n < 256 then .ok (.filtInvalid (BitVec.ofNat 8 n)) else .error .wordTooWide

/-- F_PIXFMT (R142): BIT_DEPTH[7:0], COLOR_MODEL[15:8], INTERLACE[23:16]; bits [31:24] are reserved and dropped
(R39). -/
def decodePixel (w : Nat) : Except DecodeError Instr :=
  let il : Byte := BitVec.ofNat 8 (w / 65536 % 256)
  if 2 ^ 32 ≤ w then .error .wordTooWide
  else if 1 < w / 65536 % 256 then .error .unsupportedInterlace
  else
    match w / 256 % 256, w % 256 with
    | 0, 1 => .ok (.pixG1 il)
    | 0, 2 => .ok (.pixG2 il)
    | 0, 4 => .ok (.pixG4 il)
    | 0, 8 => .ok (.pixG8 il)
    | 0, 16 => .ok (.pixG16 il)
    | 2, 8 => .ok (.pixRgb8 il)
    | 2, 16 => .ok (.pixRgb16 il)
    | 3, 1 => .ok (.pixP1 il)
    | 3, 2 => .ok (.pixP2 il)
    | 3, 4 => .ok (.pixP4 il)
    | 3, 8 => .ok (.pixP8 il)
    | 4, 8 => .ok (.pixGa8 il)
    | 4, 16 => .ok (.pixGa16 il)
    | 6, 8 => .ok (.pixRgba8 il)
    | 6, 16 => .ok (.pixRgba16 il)
    | _, _ => .error .unsupportedPixelFormat

/-- The element a word of a carrier stands for. A word alone names no element: the sequencer's phase says which
carrier it is read from (R62, R110). -/
def decode (f : Format) (w : Nat) : Except DecodeError Instr :=
  match f with
  | .cmd => decodeCmd w
  | .bhdr => decodeHeader w
  | .cl => decodeCodeLength w
  | .litlen => decodeLitLen w
  | .dist => decodeDist w
  | .filter => decodeFilter w
  | .pixfmt => decodePixel w

/-! ## The encoder -/

/-- The carrier an element is read from (R110). -/
def Instr.format : Instr → Format
  | .cmdReserved _ _ _ | .cmdDecode _ _ _ | .cmdExpand _ _ _ | .cmdDecodeExpand _ _ _ | .ctrlClear _ _ _ => .cmd
  | .blkStored _ | .blkFixed _ | .blkDynamic _ | .blkInvalid _ => .bhdr
  | .clLen _ | .clRepPrev | .clRepZero3 | .clRepZero11 => .cl
  | .lit _ | .eob | .len _ | .lenInvalid _ => .litlen
  | .dist _ | .distInvalid _ => .dist
  | .filtNone | .filtSub | .filtUp | .filtAvg | .filtPaeth | .filtInvalid _ => .filter
  | .pixG1 _ | .pixG2 _ | .pixG4 _ | .pixG8 _ | .pixG16 _ | .pixRgb8 _ | .pixRgb16 _ | .pixP1 _ | .pixP2 _
  | .pixP4 _ | .pixP8 _ | .pixGa8 _ | .pixGa16 _ | .pixRgba8 _ | .pixRgba16 _ => .pixfmt

/-- How many bits a word of a carrier has: R110 for F_CMD, F_BHDR, F_FILTER and F_PIXFMT; for a symbol, the width of
the alphabet's numbers (opcode_table.json: "the decoded 5-bit code-length symbol", "the decoded 9-bit literal/length
symbol", "the decoded 5-bit distance symbol"). -/
def Format.bits : Format → Nat
  | .cmd => 32
  | .bhdr => 3
  | .cl => 5
  | .litlen => 9
  | .dist => 5
  | .filter => 8
  | .pixfmt => 24

/-- A START write (R111). -/
def encodeStart (cmd : Nat) (inchk ie clear : Bool) : Nat :=
  1 + 2 * cmd + 8 * inchk.toNat + 16 * ie.toNat + 32 * clear.toNat

/-- A FORMAT word (R110, R142). -/
def encodeFormat (model depth : Nat) (il : Byte) : Nat := depth + 256 * model + 65536 * il.toNat

/-- The word of an element in its carrier. -/
def encode : Instr → Nat
  | .cmdReserved inchk ie clear => encodeStart 0 inchk ie clear
  | .cmdDecode inchk ie clear => encodeStart 1 inchk ie clear
  | .cmdExpand inchk ie clear => encodeStart 2 inchk ie clear
  | .cmdDecodeExpand inchk ie clear => encodeStart 3 inchk ie clear
  | .ctrlClear cmd inchk ie => 2 * cmd.toNat + 8 * inchk.toNat + 16 * ie.toNat + 32
  | .blkStored bfinal => bfinal.toNat
  | .blkFixed bfinal => bfinal.toNat + 2
  | .blkDynamic bfinal => bfinal.toNat + 4
  | .blkInvalid bfinal => bfinal.toNat + 6
  | .clLen v => v
  | .clRepPrev => 16
  | .clRepZero3 => 17
  | .clRepZero11 => 18
  | .lit b => b.toNat
  | .eob => 256
  | .len sym => sym
  | .lenInvalid sym => sym
  | .dist sym => sym
  | .distInvalid sym => sym
  | .filtNone => 0
  | .filtSub => 1
  | .filtUp => 2
  | .filtAvg => 3
  | .filtPaeth => 4
  | .filtInvalid tag => tag.toNat
  | .pixG1 il => encodeFormat 0 1 il
  | .pixG2 il => encodeFormat 0 2 il
  | .pixG4 il => encodeFormat 0 4 il
  | .pixG8 il => encodeFormat 0 8 il
  | .pixG16 il => encodeFormat 0 16 il
  | .pixRgb8 il => encodeFormat 2 8 il
  | .pixRgb16 il => encodeFormat 2 16 il
  | .pixP1 il => encodeFormat 3 1 il
  | .pixP2 il => encodeFormat 3 2 il
  | .pixP4 il => encodeFormat 3 4 il
  | .pixP8 il => encodeFormat 3 8 il
  | .pixGa8 il => encodeFormat 4 8 il
  | .pixGa16 il => encodeFormat 4 16 il
  | .pixRgba8 il => encodeFormat 6 8 il
  | .pixRgba16 il => encodeFormat 6 16 il

/-! ## The fixed Huffman codes as stream bits -/

/-- The `n` low bits of `v`, most significant first: the order a Huffman code stands in the stream (R84, R186). -/
def codeBits : Nat → Nat → List Bool
  | 0, _ => []
  | n + 1, v => v.testBit n :: codeBits n v

/-- The fixed literal/length code of a symbol (R123). -/
def fixedLitLenCode (sym : Nat) : List Bool :=
  if sym < 144 then codeBits 8 (0x30 + sym)
  else if sym < 256 then codeBits 9 (0x190 + (sym - 144))
  else if sym < 280 then codeBits 7 (sym - 256)
  else codeBits 8 (0xC0 + (sym - 280))

/-- The fixed distance code of a symbol; 30 and 31 give the two unassigned codes (R124). -/
def fixedDistCode (sym : Nat) : List Bool := codeBits 5 sym

/-- The number whose bit k is the k-th element: how stream bits lie in bytes (R84). -/
def packBits : List Bool → Nat
  | [] => 0
  | b :: r => b.toNat + 2 * packBits r

/-! ## Words of the opcode table -/

/-- True if the word is an element of the carrier. -/
def isElement (f : Format) (w : Nat) : Bool :=
  match decode f w with
  | .ok _ => true
  | .error _ => false

/-- DESIGN CHOICE (log 15): which carrier a word of opcode_table.json is read from. The table's words name no carrier,
and words of different carriers coincide (0x01 is a CTRL word, a block header, a code-length symbol, a filter tag);
the word's length in whole bytes and, among equal lengths, this order decide. -/
def tableFormat (nbits w : Nat) : Format :=
  if nbits ≤ 8 then
    if isElement .cmd w then .cmd
    else if isElement .bhdr w then .bhdr
    else if isElement .cl w then .cl
    else if isElement .dist w then .dist
    else .filter
  else if nbits ≤ 16 then
    if isElement .pixfmt w then .pixfmt else .litlen
  else if nbits ≤ 24 then
    if isElement .cl w then .cl else .pixfmt
  else if w < 64 && isElement .cmd w then .cmd
  else if isElement .pixfmt w then .pixfmt
  else if isElement .dist w then .dist
  else .cmd

/-- The element the decoder reads from a word numbered as opcode_table.json numbers it. -/
def decodeTableWord (nbits w : Nat) : Option Instr :=
  match decode (tableFormat nbits w) w with
  | .ok i => some i
  | .error _ => none

end Sys2Proof
end

