-- ==== Sys2Proof/Machine/State.lean ====
section
/-! DEFINITION. The state of ZIS-CORE and its host: every piece of state 10_state.md names, as plain data; the errors of
60_exceptions.md R402; the faults and refusals of the model; the state right after reset (R67). -/

namespace Sys2Proof.Machine

/-- STATUS.STATE (R36). -/
inductive CoreState where
  | idle | busy | done | error
deriving DecidableEq, Repr

/-- The sequencer's phases (R62). `ended` is END. -/
inductive Phase where
  | idle | startCheck | infHdr | infStored | infDynHdr | infSym | infEnd | recon | expand | ended
deriving DecidableEq, Repr

/-- The errors of R402. The four parser errors are numbered there and never raised (R401). -/
inductive Err where
  | truncatedInput | badSignature | unexpectedRecordType | duplicateRecord | recordOrderingViolation
  | unsupportedTransparency | missingImageData | invalidBlockType | oversubscribedCode | incompleteCode
  | lengthCheckFailed | distanceTooFar | outputOverflow | sizeMismatch | unsupportedPixelFormat | malformedHeader
  | invalidCode | badCodeLengthRepeat | badCodeCount | invalidFilterType | paletteIndexOutOfRange | illegalCommand
deriving DecidableEq, Repr

/-- Where the machine stops because an access goes to an address the spec says does not exist. No state a run reaches
gets there (R82, R83; log 18). -/
inductive Fault where
  /-- Raised by fetchByte and putPixel: an HMEM address at or above 2^32 (R80). Safe: the model stops, and the spec
  gives no such address a meaning. -/
  | hmemOutOfRange
  /-- Raised by emit, the row and pixel operations and the tag fetch: a RAW index at or above RAW_CAP_MAX (R80, R83).
  Safe, for the same reason. -/
  | rawOutOfRange
deriving DecidableEq, Repr

/-- Where the model has no step. -/
inductive Refusal where
  /-- An instruction without a meaning yet; raised by no arm of `exec`. Safe. -/
  | notModelled (mnemonic : String)
  /-- Raised by a host register access that is not 32 bits wide, not a multiple of 4, or outside the window: "a model
  refuses it: the host has no step" (R32; log 19). Safe. -/
  | illegalRegisterAccess
  /-- Raised by the core's fetch when a symbol or the FORMAT register names no element; in no state a run reaches
  (log 20). Safe. -/
  | undecodable (e : DecodeError)
deriving DecidableEq, Repr

/-- CTRL's stored fields (R34). START and CLEAR read 0. -/
structure CtrlReg where
  cmd   : BitVec 2
  inchk : Bool
  ie    : Bool
deriving DecidableEq, Repr

/-- STATUS (R35). -/
structure StatusReg where
  state    : CoreState
  rawvalid : Bool
  errCode  : Byte
deriving DecidableEq, Repr

/-- FORMAT (R39). -/
structure FormatReg where
  bitDepth   : Byte
  colorModel : Byte
  interlace  : Byte
deriving DecidableEq, Repr

/-- WIDTH, HEIGHT and FORMAT (R37 to R39): a write to any of them clears RAWVALID (R52). -/
structure GeomRegs where
  width  : Word
  height : Word
  format : FormatReg
deriving DecidableEq, Repr

/-- The input description (R40 to R42, R44). An entry of `base` or `len` that is not listed holds 0. -/
structure SegRegs where
  count  : BitVec 16
  inSkip : Word
  expIn  : Word
  base   : List (Nat × Word)
  len    : List (Nat × Word)
deriving DecidableEq, Repr

/-- Palette and transparency (R43, R45, R46). An entry of `pal` or `trns` that is not listed holds the free value of
`epoch` (log 6). -/
structure ColorRegs where
  palCount : BitVec 9
  trnsLen  : BitVec 9
  pal      : List (Nat × BitVec 24)
  trns     : List (Nat × Byte)
  epoch    : Nat
deriving DecidableEq, Repr

/-- OUT_BASE and OUT_CAP (R47). -/
structure OutRegs where
  base : Word
  cap  : Word
deriving DecidableEq, Repr

/-- The Bit Cursor's registers (R54). `consumed` is IN_CONSUMED (R50). -/
structure Cursor where
  segIdx   : Nat
  segOff   : Nat
  bitbuf   : Word
  bitcnt   : Nat
  consumed : Word
deriving DecidableEq, Repr

/-- The Inflate Engine's registers (R55). `outPos` is OUT_PRODUCED (R49). `lenIdx` is the index i of R210; `needDist`
is the model's own: a length symbol has been read and its distance element comes next (R117; log 22). -/
structure InflateRegs where
  bfinal    : Bool
  btype     : BitVec 2
  outPos    : Word
  hlit      : Nat
  hdist     : Nat
  hclen     : Nat
  clLen     : List Nat
  len       : List Nat
  lenIdx    : Nat
  storedLen : Half
  matchLen  : Nat
  matchDist : Nat
  needDist  : Bool
deriving DecidableEq, Repr

/-- The writable Huffman tables (R56). -/
structure Tables where
  lt  : HuffTable
  dt  : HuffTable
  clt : HuffTable
deriving DecidableEq, Repr

/-- The Scanline Reconstructor's registers (R58). Between rows `cur` is the index of the first data byte of the row
that comes next, so its tag is RAW[cur - 1]. -/
structure ReconRegs where
  pass     : Nat
  row      : Nat
  bpp      : Nat
  rowbytes : Nat
  cur      : Nat
  prev     : Option Nat
deriving DecidableEq, Repr

/-- sample[0..3] (R59). -/
structure Samples where
  s0 : Half
  s1 : Half
  s2 : Half
  s3 : Half
deriving DecidableEq, Repr

/-- The Pixel Normalizer's registers (R59): the pixel that comes next, and the samples of the last one. -/
structure NormRegs where
  pass   : Nat
  row    : Nat
  col    : Nat
  rawpos : Nat
  sample : Samples
deriving DecidableEq, Repr

/-- RAW (R60): the bytes written since the last reset or error, by index, rising. Any other byte is the free value of
`epoch` (log 7). -/
structure RawBuf where
  cells : List Host.Cell
  epoch : Nat
deriving DecidableEq, Repr

/-- A range [lo, hi) of HMEM whose bytes the spec leaves unspecified; `id` is its draw number (R412, R451, R92). -/
structure FreeRange where
  lo : Nat
  hi : Nat
  id : Nat
deriving DecidableEq, Repr

/-- HMEM (R80): the listed bytes, and the ranges left unspecified. Any other byte reads as `unlistedByte`. -/
structure Memory where
  cells : List Host.Cell
  free  : List FreeRange
deriving DecidableEq, Repr

/-- What the host does next (log 1). Register accesses carry the platform address and the access width in bits, so that
the accesses R32 gives no meaning can be written down. -/
inductive HostMove where
  /-- The host leaves the core one step. -/
  | yieldCore
  /-- POLL STATUS.STATE != BUSY (R150): the host waits until the core is not BUSY. -/
  | pollNotBusy
  | regWrite (addr : Word) (bits : Nat) (data : Word)
  | regRead (addr : Word) (bits : Nat)
  | memWrite (addr : Word) (value : Byte)
  | memRead (addr : Word)
  /-- The platform asserts the reset input (R450). -/
  | reset
deriving DecidableEq, Repr

/-- The host's side: its pending moves, and what its last read returned (log 1, log 21). -/
structure BusSide where
  queue    : List HostMove
  readData : Word
deriving DecidableEq, Repr

/-- The machine. INVENTORY.md lists every field with its rule and reset value. -/
structure State where
  params  : Params
  ctrl    : CtrlReg
  status  : StatusReg
  geom    : GeomRegs
  segs    : SegRegs
  color   : ColorRegs
  out     : OutRegs
  rawSize : Word
  cursor  : Cursor
  inflate : InflateRegs
  tables  : Tables
  recon   : ReconRegs
  norm    : NormRegs
  raw     : RawBuf
  phase   : Phase
  hmem    : Memory
  /-- HMEM bytes the host wrote while BUSY in this command, newest first, each with its draw number (R92; log 11). -/
  race    : List (Nat × Nat)
  /-- How many free values have been drawn (log 25). -/
  draws   : Nat
  bus     : BusSide
deriving DecidableEq, Repr

/-- What a step of the core's datapath gives: a value and the state after it, a raised error and the state at the
failing step (R410, R417), or a fault. -/
inductive CoreResult (α : Type) where
  | ok (val : α) (s : State)
  | raise (e : Err) (s : State)
  | fault (f : Fault)
deriving Repr

/-- The machine right after reset (R67), with nothing placed in HMEM and no host move pending. -/
def State.reset : State where
  params := { maxSegs := 224, rawCapMax := 2 ^ 32 - 1, regBase := 0 }
  ctrl := { cmd := 0, inchk := false, ie := false }
  status := { state := .idle, rawvalid := false, errCode := 0 }
  geom := { width := 0, height := 0, format := { bitDepth := 0, colorModel := 0, interlace := 0 } }
  segs := { count := 0, inSkip := 0, expIn := 0, base := [], len := [] }
  color := { palCount := 0, trnsLen := 0, pal := [], trns := [], epoch := 0 }
  out := { base := 0, cap := 0 }
  rawSize := 0
  cursor := { segIdx := 0, segOff := 0, bitbuf := 0, bitcnt := 0, consumed := 0 }
  inflate :=
    { bfinal := false, btype := 0, outPos := 0, hlit := 0, hdist := 0, hclen := 0,
      clLen := List.replicate 19 0, len := List.replicate 320 0, lenIdx := 0,
      storedLen := 0, matchLen := 0, matchDist := 0, needDist := false }
  tables := { lt := ⟨[], []⟩, dt := ⟨[], []⟩, clt := ⟨[], []⟩ }
  recon := { pass := 0, row := 0, bpp := 0, rowbytes := 0, cur := 0, prev := none }
  norm := { pass := 0, row := 0, col := 0, rawpos := 0, sample := ⟨0, 0, 0, 0⟩ }
  raw := { cells := [], epoch := 0 }
  phase := .idle
  hmem := { cells := [], free := [] }
  race := []
  draws := 1
  bus := { queue := [], readData := 0 }

end Sys2Proof.Machine
end

