-- ==== Sys2Proof/Machine/Flags.lean ====
section
/-! DEFINITION. ZIS-CORE's flags (R63): the codes and words of STATUS and CTRL, `irq`, and the changes of STATUS. -/

namespace Sys2Proof.Machine

/-- STATE's two bits (R36). -/
def CoreState.code : CoreState → BitVec 2
  | .idle => 0
  | .busy => 1
  | .done => 2
  | .error => 3

/-- ERR_CODE of an error (R402). -/
def Err.code : Err → Byte
  | .truncatedInput => 1
  | .badSignature => 2
  | .unexpectedRecordType => 3
  | .duplicateRecord => 4
  | .recordOrderingViolation => 5
  | .unsupportedTransparency => 6
  | .missingImageData => 7
  | .invalidBlockType => 8
  | .oversubscribedCode => 9
  | .incompleteCode => 10
  | .lengthCheckFailed => 11
  | .distanceTooFar => 12
  | .outputOverflow => 13
  | .sizeMismatch => 14
  | .unsupportedPixelFormat => 15
  | .malformedHeader => 16
  | .invalidCode => 17
  | .badCodeLengthRepeat => 18
  | .badCodeCount => 19
  | .invalidFilterType => 20
  | .paletteIndexOutOfRange => 21
  | .illegalCommand => 22

/-- STATE = BUSY. -/
def State.isBusy (s : State) : Bool := s.status.state == .busy

/-- The irq output (R66). -/
def State.irq (s : State) : Bool := s.ctrl.ie && (s.status.state == .done || s.status.state == .error)

/-- The STATUS word (R35): STATE[1:0], RAWVALID[2], ERR_CODE[15:8]. -/
def statusWord (r : StatusReg) : Word :=
  BitVec.ofNat 32 (r.state.code.toNat + 4 * r.rawvalid.toNat + 256 * r.errCode.toNat)

/-- The CTRL word as the host reads it (R34): START and CLEAR read 0. -/
def ctrlWord (r : CtrlReg) : Word :=
  BitVec.ofNat 32 (2 * r.cmd.toNat + 8 * r.inchk.toNat + 16 * r.ie.toNat)

/-- The FORMAT word (R39). -/
def formatWord (r : FormatReg) : Word :=
  BitVec.ofNat 32 (r.bitDepth.toNat + 256 * r.colorModel.toNat + 65536 * r.interlace.toNat)

/-- The command decodes: CMD is DECODE or DECODE_EXPAND (`dec` of R331). -/
def State.isDecode (s : State) : Bool := s.ctrl.cmd == 1 || s.ctrl.cmd == 3

/-- The command expands: CMD is EXPAND or DECODE_EXPAND (`exp` of R331). -/
def State.isExpand (s : State) : Bool := s.ctrl.cmd == 2 || s.ctrl.cmd == 3

/-- STATUS.RAWVALID <- v, the other fields unchanged (R52). -/
def StatusReg.setRawValid (r : StatusReg) (v : Bool) : StatusReg := { r with rawvalid := v }

/-- STATUS at a START: BUSY, ERR_CODE 0 (R330). -/
def StatusReg.started (r : StatusReg) : StatusReg := { r with state := .busy, errCode := 0 }

/-- STATUS after finish(): DONE, ERR_CODE left as it is (R338). -/
def StatusReg.finished (r : StatusReg) : StatusReg := { r with state := .done }

/-- STATUS after CLEAR: IDLE and ERR_CODE 0 from DONE or ERROR, unchanged from IDLE (R339). -/
def StatusReg.cleared (r : StatusReg) : StatusReg :=
  if r.state = .done ∨ r.state = .error then { r with state := .idle, errCode := 0 } else r

/-- STATUS after `raise e` (R410). -/
def StatusReg.raised (_ : StatusReg) (e : Err) : StatusReg := ⟨.error, false, e.code⟩

end Sys2Proof.Machine
end

