-- ==== Sys2Proof/Machine/Ops.lean ====
section
/-! DEFINITION. The named operations over memory and registers: sparse lists, HMEM, RAW, the palette and transparency
RAMs; taking an error (R410), ending a command (R338) and the return (R339); how a datapath result becomes an outcome. -/

namespace Sys2Proof.Machine

/-! ## Sparse lists: (key, value) pairs, keys rising -/

/-- The value listed for a key. -/
def lookupCell {α : Type} (k : Nat) : List (Nat × α) → Option α
  | [] => none
  | (j, v) :: r => if j = k then some v else lookupCell k r

/-- List `v` for the key `k`, replacing what was listed. -/
def insertCell {α : Type} (k : Nat) (v : α) : List (Nat × α) → List (Nat × α)
  | [] => [(k, v)]
  | (j, u) :: r =>
    if k < j then (k, v) :: (j, u) :: r
    else if k = j then (k, v) :: r
    else (j, u) :: insertCell k v r

/-- List nothing for the key `k`. -/
def eraseCell {α : Type} (k : Nat) : List (Nat × α) → List (Nat × α)
  | [] => []
  | (j, u) :: r => if j = k then r else (j, u) :: eraseCell k r

/-- The keys rise strictly. -/
def risingFrom {α : Type} : Nat → List (Nat × α) → Bool
  | _, [] => true
  | lo, (j, _) :: r => decide (lo ≤ j) && risingFrom (j + 1) r

/-! ## HMEM (R80, R81) -/

/-- DESIGN CHOICE (log 8): what an HMEM byte that nothing has written reads as. -/
def unlistedByte : Byte := 0

/-- The unspecified range an address lies in. -/
def freeRangeAt (a : Nat) : List FreeRange → Option FreeRange
  | [] => none
  | r :: rs => if r.lo ≤ a ∧ a < r.hi then some r else freeRangeAt a rs

/-- `MemRead(HMEM, a, 1)` (R10). -/
def Memory.read (m : Memory) (a : Nat) : Byte :=
  match freeRangeAt a m.free with
  | some r => Config.freeHmem r.id a
  | none => (lookupCell a m.cells).getD unlistedByte

/-- The part of a range outside [lo, hi). -/
def FreeRange.minus (r : FreeRange) (lo hi : Nat) : List FreeRange :=
  (if r.lo < min r.hi lo then [⟨r.lo, min r.hi lo, r.id⟩] else []) ++
  (if max r.lo hi < r.hi then [⟨max r.lo hi, r.hi, r.id⟩] else [])

/-- The ranges outside [lo, hi). -/
def carve (lo hi : Nat) : List FreeRange → List FreeRange
  | [] => []
  | r :: rs => if lo < hi then r.minus lo hi ++ carve lo hi rs else r :: carve lo hi rs

/-- Put a range in its place. -/
def insertRange (n : FreeRange) : List FreeRange → List FreeRange
  | [] => [n]
  | r :: rs => if n.lo < r.lo then n :: r :: rs else r :: insertRange n rs

/-- `MemWrite(HMEM, a, 1, b)` (R10). -/
def Memory.write (m : Memory) (a : Nat) (b : Byte) : Memory :=
  { cells := if b = unlistedByte then eraseCell a m.cells else insertCell a b m.cells
    free := carve a (a + 1) m.free }

/-- The bytes of [lo, hi) become unspecified, with draw number `id` (log 10). -/
def Memory.makeFree (m : Memory) (lo hi id : Nat) : Memory :=
  if lo < hi then
    { cells := m.cells.filter fun c => decide (c.1 < lo) || decide (hi ≤ c.1)
      free := insertRange ⟨lo, hi, id⟩ (carve lo hi m.free) }
  else m

/-- Ranges are nonempty, below 2^32, disjoint and rising from `lo`. -/
def rangesFrom : Nat → List FreeRange → Bool
  | _, [] => true
  | lo, r :: rs => decide (lo ≤ r.lo) && decide (r.lo < r.hi) && decide (r.hi ≤ 2 ^ 32) && rangesFrom r.hi rs

/-- The canonical form of HMEM: addresses strictly rising and below 2^32, no entry equal to what an unlisted address
reads as and none in an unspecified range; the ranges in order. -/
def Memory.wf (m : Memory) : Bool :=
  risingFrom 0 m.cells
    && m.cells.all (fun c => decide (c.1 < 2 ^ 32) && decide (c.2 ≠ unlistedByte) && (freeRangeAt c.1 m.free).isNone)
    && rangesFrom 0 m.free

/-! ## RAW, PAL, TRNS and the segment table -/

/-- `RAW[i]` (R10, R60). A listed byte past RAW_SIZE keeps what an earlier command wrote there (log 7). -/
def RawBuf.read (r : RawBuf) (i : Nat) : Byte := (lookupCell i r.cells).getD (Config.freeRaw r.epoch i)

/-- `RAW[i] <- b`. -/
def RawBuf.write (r : RawBuf) (i : Nat) (b : Byte) : RawBuf := { r with cells := insertCell i b r.cells }

/-- PAL[i] (R45). -/
def ColorRegs.palAt (c : ColorRegs) (i : Nat) : BitVec 24 := (lookupCell i c.pal).getD (Config.freePal c.epoch i)

/-- TRNS[i] (R46). -/
def ColorRegs.trnsAt (c : ColorRegs) (i : Nat) : Byte := (lookupCell i c.trns).getD (Config.freeTrns c.epoch i)

/-- SEG_BASE[i] (R44). -/
def SegRegs.baseAt (g : SegRegs) (i : Nat) : Word := (lookupCell i g.base).getD 0

/-- SEG_LEN[i] (R44). -/
def SegRegs.lenAt (g : SegRegs) (i : Nat) : Word := (lookupCell i g.len).getD 0

/-- Store an entry of a table whose unlisted entries hold 0. -/
def setEntry (i : Nat) (v : Word) (l : List (Nat × Word)) : List (Nat × Word) :=
  if v = 0 then eraseCell i l else insertCell i v l

/-! ## The OUT range and the bytes the host wrote while BUSY -/

/-- WIDTH × HEIGHT × 4, exact (R308, R349). -/
def State.rasterBytes (s : State) : Nat := s.geom.width.toNat * s.geom.height.toNat * 4

/-- The end of the OUT range, within HMEM (R308, R80). -/
def State.outEnd (s : State) : Nat := min (s.out.base.toNat + s.rasterBytes) (2 ^ 32)

/-- The address is an OUT byte (R308). -/
def State.inOut (s : State) (a : Nat) : Bool := decide (s.out.base.toNat ≤ a) && decide (a < s.outEnd)

/-- The raced bytes of [lo, hi) become unspecified (R92). -/
def settle (lo hi : Nat) : List (Nat × Nat) → Memory → Memory
  | [], m => m
  | (a, id) :: r, m => if lo ≤ a ∧ a < hi then (settle lo hi r m).makeFree a (a + 1) id else settle lo hi r m

/-- HMEM at the end of a command: an OUT byte the host wrote while BUSY is unspecified (R92; log 11). -/
def State.settledMem (s : State) : Memory := settle s.out.base.toNat s.outEnd s.race s.hmem

/-! ## Error entry, command end and return -/

/-- HMEM after an error, and after a reset that interrupts a command: for an EXPAND-type command the whole OUT range is unspecified too (R412,
R451; log 10). -/
def State.errorMem (s : State) : Memory :=
  if s.isExpand then s.settledMem.makeFree s.out.base.toNat s.outEnd s.draws else s.settledMem

/-- `raise E` (R410), with what R412 leaves unspecified: RAW, the tables, the OUT bytes of an EXPAND-type command. The
counters and every other register keep the values of the failing step (R411, R417). -/
def raiseError (e : Err) (s : State) : State :=
  { s with
    status := s.status.raised e
    phase := .ended
    raw := { cells := [], epoch := s.draws }
    tables :=
      { lt := Config.freeTable s.draws 0, dt := Config.freeTable s.draws 1, clt := Config.freeTable s.draws 2 }
    hmem := s.errorMem
    race := []
    draws := s.draws + 1 }

/-- `finish()` (R338): DONE, and the phase is END (R62). -/
def finishCommand (s : State) : State :=
  { s with status := s.status.finished, phase := .ended, hmem := s.settledMem, race := [] }

/-- The return (R415): the CTRL fields of the CLEAR write are stored, and DONE or ERROR becomes IDLE (R339). -/
def clearCommand (cmd : BitVec 2) (inchk ie : Bool) (s : State) : State :=
  { s with ctrl := ⟨cmd, inchk, ie⟩, status := s.status.cleared }

/-! ## Results -/

/-- Go on with the value, unless an error was raised (R10: "Nothing after a `raise` executes"). -/
def CoreResult.bind {α β : Type} (r : CoreResult α) (f : α → State → CoreResult β) : CoreResult β :=
  match r with
  | .ok v s => f v s
  | .raise e s => .raise e s
  | .fault f => .fault f

/-- The outcome of a finished datapath step: a raised error is taken (R410). -/
def CoreResult.outcome {α : Type} (r : CoreResult α) : Host.Outcome State Fault Refusal :=
  match r with
  | .ok _ s => .next s
  | .raise e s => .next (raiseError e s)
  | .fault f => .fault f

end Sys2Proof.Machine
end

