-- ==== Sys2Proof/Machine/Rom.lean ====
section
/-! DEFINITION. The constant tables of R57: contents from R206, R220, R221 and R271. FIXED_LIT and FIXED_DIST are built
in Machine/Huffman.lean from the lengths given here (R185). -/

namespace Sys2Proof.Machine

/-- LBASE (R220). -/
def lbaseTable : List Nat :=
  [3, 4, 5, 6, 7, 8, 9, 10, 11, 13, 15, 17, 19, 23, 27] ++
  [31, 35, 43, 51, 59, 67, 83, 99, 115, 131, 163, 195, 227, 258]

/-- LEXT (R220). -/
def lextTable : List Nat :=
  [0, 0, 0, 0, 0, 0, 0, 0, 1, 1, 1, 1, 2, 2, 2] ++
  [2, 3, 3, 3, 3, 4, 4, 4, 4, 5, 5, 5, 5, 0]

/-- DBASE (R221). -/
def dbaseTable : List Nat :=
  [1, 2, 3, 4, 5, 7, 9, 13, 17, 25, 33, 49, 65, 97, 129] ++
  [193, 257, 385, 513, 769, 1025, 1537, 2049, 3073, 4097, 6145, 8193, 12289, 16385, 24577]

/-- DEXT (R221). -/
def dextTable : List Nat :=
  [0, 0, 0, 0, 1, 1, 2, 2, 3, 3, 4, 4, 5, 5, 6] ++
  [6, 7, 7, 8, 8, 9, 9, 10, 10, 11, 11, 12, 12, 13, 13]

/-- LBASE[s] for s = sym - 257. -/
def lbase (s : Nat) : Nat := lbaseTable.getD s 0

/-- LEXT[s]. -/
def lext (s : Nat) : Nat := lextTable.getD s 0

/-- DBASE[d]. -/
def dbase (d : Nat) : Nat := dbaseTable.getD d 0

/-- DEXT[d]. -/
def dext (d : Nat) : Nat := dextTable.getD d 0

/-- CLORDER (R206). -/
def clOrder : List Nat := [16, 17, 18, 0, 8, 7, 9, 6, 10, 5, 11, 4, 12, 3, 13, 2, 14, 1, 15]

/-- The code lengths of FIXED_LIT (R185). -/
def fixedLitLens : List Nat :=
  List.replicate 144 8 ++ List.replicate 112 9 ++ List.replicate 24 7 ++ List.replicate 8 8

/-- The code lengths of FIXED_DIST (R185). -/
def fixedDistLens : List Nat := List.replicate 30 5

/-- A pass of the interlace scheme: start column and row, column and row stride (R270, R271). -/
structure PassGeom where
  xs : Nat
  ys : Nat
  dx : Nat
  dy : Nat
deriving DecidableEq, Repr

/-- ADAM7 (R271). -/
def adam7 : List PassGeom :=
  [⟨0, 0, 8, 8⟩, ⟨4, 0, 8, 8⟩, ⟨0, 4, 4, 8⟩, ⟨2, 0, 4, 4⟩, ⟨0, 2, 2, 4⟩, ⟨1, 0, 2, 2⟩, ⟨0, 1, 1, 2⟩]

end Sys2Proof.Machine
end

