-- ==== Sys2Proof/Machine/Operands.lean ====
section
/-! DEFINITION. Where operands come from: the Bit Cursor (40_bit_cursor.md), the pass geometry (44_interlace.md), the
samples of a pixel (R293, R294, R297) and the transparency keys (R300). -/

namespace Sys2Proof.Machine

/-! ## Bit Cursor -/

/-- Step over exhausted segments from (idx, off): the `while` of fetchByte (R161, R162). `fuel` bounds the segments
left. -/
def seekSegment (g : SegRegs) : (fuel idx off : Nat) → Nat × Nat
  | 0, idx, off => (idx, off)
  | fuel + 1, idx, off =>
    if idx < g.count.toNat ∧ (g.lenAt idx).toNat ≤ off then seekSegment g fuel (idx + 1) 0 else (idx, off)

/-- What the core reads at an HMEM address: a byte the host wrote there while BUSY is a draw (R92). Two reads after the
same write give the same draw (log 11). -/
def State.coreRead (s : State) (a : Nat) : Byte :=
  match lookupCell a s.race with
  | some id => Config.freeRace id a
  | none => s.hmem.read a

/-- `fetchByte()` (R162). -/
def fetchByte (s : State) : CoreResult Byte :=
  let p := seekSegment s.segs s.segs.count.toNat s.cursor.segIdx s.cursor.segOff
  if s.segs.count.toNat ≤ p.1 then
    .raise .truncatedInput { s with cursor := { s.cursor with segIdx := p.1, segOff := p.2 } }
  else
    let a := (s.segs.baseAt p.1).toNat + p.2
    if 2 ^ 32 ≤ a then .fault .hmemOutOfRange
    else
      .ok (s.coreRead a)
        { s with cursor := { s.cursor with segIdx := p.1, segOff := p.2 + 1, consumed := s.cursor.consumed + 1 } }

/-- The refill of takeBits: fetch bytes until n bits are valid (R163). Each fetch adds 8 bits, so n turns suffice. -/
def refill (n : Nat) : (fuel : Nat) → State → CoreResult Unit
  | 0, s => .ok () s
  | fuel + 1, s =>
    if s.cursor.bitcnt < n then
      (fetchByte s).bind fun b s1 =>
        refill n fuel
          { s1 with
            cursor :=
              { s1.cursor with
                bitbuf := s1.cursor.bitbuf ||| (b.setWidth 32 <<< s1.cursor.bitcnt)
                bitcnt := s1.cursor.bitcnt + 8 } }
    else .ok () s

/-- `takeBits(n)` (R163): the next n bits, the first read being bit 0 of the value. -/
def takeBits (n : Nat) (s : State) : CoreResult Nat :=
  (refill n n s).bind fun _ s1 =>
    .ok (s1.cursor.bitbuf.toNat % 2 ^ n)
      { s1 with cursor := { s1.cursor with bitbuf := s1.cursor.bitbuf >>> n, bitcnt := s1.cursor.bitcnt - n } }

/-- `align()` (R165). -/
def align (s : State) : State := { s with cursor := { s.cursor with bitbuf := 0, bitcnt := 0 } }

/-- The segment walk of cursorInit (R166): skip k bytes from the start of segment idx. -/
def skipBytes (g : SegRegs) : (fuel idx k : Nat) → Nat × Nat
  | 0, idx, _ => (idx, 0)
  | fuel + 1, idx, k =>
    if idx < g.count.toNat then
      if (g.lenAt idx).toNat ≤ k then skipBytes g fuel (idx + 1) (k - (g.lenAt idx).toNat) else (idx, k)
    else (idx, 0)

/-- `cursorInit()` (R166): the cursor at logical byte IN_SKIP. -/
def cursorInit (s : State) : State :=
  let p := skipBytes s.segs s.segs.count.toNat 0 s.segs.inSkip.toNat
  { s with cursor := { segIdx := p.1, segOff := p.2, bitbuf := 0, bitcnt := 0, consumed := 0 } }

/-! ## Geometry -/

/-- Channels of a colour model (R140, R291); 0 for a code that names no model. -/
def channels (model : Byte) : Nat :=
  if model = 0 then 1 else if model = 2 then 3 else if model = 3 then 1 else if model = 4 then 2
  else if model = 6 then 4 else 0

/-- bitsPerPixel = channels × BIT_DEPTH (R142). -/
def FormatReg.bitsPerPixel (f : FormatReg) : Nat := channels f.colorModel * f.bitDepth.toNat

/-- bpp = max(1, ceil(bitsPerPixel / 8)) (R251). -/
def FormatReg.filterUnit (f : FormatReg) : Nat := max 1 (ceilDiv f.bitsPerPixel 8)

/-- The (COLOR_MODEL, BIT_DEPTH) pair is one of the 15 of R142. -/
def FormatReg.supported (f : FormatReg) : Bool :=
  (f.colorModel == 0 && (f.bitDepth == 1 || f.bitDepth == 2 || f.bitDepth == 4 || f.bitDepth == 8 || f.bitDepth == 16))
  || (f.colorModel == 2 && (f.bitDepth == 8 || f.bitDepth == 16))
  || (f.colorModel == 3 && (f.bitDepth == 1 || f.bitDepth == 2 || f.bitDepth == 4 || f.bitDepth == 8))
  || (f.colorModel == 4 && (f.bitDepth == 8 || f.bitDepth == 16))
  || (f.colorModel == 6 && (f.bitDepth == 8 || f.bitDepth == 16))

/-- The passes of an INTERLACE code (R270). -/
def passesOf (il : Byte) : List PassGeom := if il = 1 then adam7 else [⟨0, 0, 1, 1⟩]

/-- Pass p, numbered from 1 (R270, R271). -/
def passGeom (il : Byte) (p : Nat) : PassGeom := (passesOf il).getD (p - 1) ⟨0, 0, 1, 1⟩

/-- pw of R272. -/
def PassGeom.pw (g : PassGeom) (width : Nat) : Nat := if g.xs < width then ceilDiv (width - g.xs) g.dx else 0

/-- ph of R272. -/
def PassGeom.ph (g : PassGeom) (height : Nat) : Nat := if g.ys < height then ceilDiv (height - g.ys) g.dy else 0

/-- The pass holds rows (R273). -/
def PassGeom.nonEmpty (g : PassGeom) (width height : Nat) : Bool := 0 < g.pw width && 0 < g.ph height

/-- The number of the first nonempty pass of a list whose head has number k. -/
def firstNonEmpty (width height : Nat) : (k : Nat) → List PassGeom → Option Nat
  | _, [] => none
  | k, g :: gs => if g.nonEmpty width height then some k else firstNonEmpty width height (k + 1) gs

/-- The next nonempty pass after pass p; p = 0 asks for the first (R273, R275). -/
def nextPass (il : Byte) (width height p : Nat) : Option Nat :=
  firstNonEmpty width height (p + 1) ((passesOf il).drop p)

/-- rowbytes = ceil(pw × bitsPerPixel / 8) (R250). -/
def PassGeom.rowBytes (g : PassGeom) (width bits : Nat) : Nat := ceilDiv (g.pw width * bits) 8

/-- The bytes of a pass in RAW: ph × (1 + rowbytes), none when it is empty (R273, R274). -/
def PassGeom.passBytes (g : PassGeom) (width height bits : Nat) : Nat :=
  if g.nonEmpty width height then g.ph height * (1 + g.rowBytes width bits) else 0

/-- S, the expected decompressed size (R274), exact. -/
def GeomRegs.rasterSize (g : GeomRegs) : Nat :=
  ((passesOf g.format.interlace).map fun p =>
    p.passBytes g.width.toNat g.height.toNat g.format.bitsPerPixel).sum

/-! ## Samples -/

/-- getSample for d < 8 (R293): `rowstart` is the row's first data byte. -/
def subByteSample (raw : RawBuf) (d rowstart i : Nat) : Half :=
  let bitpos := i * d
  BitVec.ofNat 16 ((raw.read (rowstart + bitpos / 8)).toNat / 2 ^ (8 - d - bitpos % 8) % 2 ^ d)

/-- getSample for d = 8 (R294). -/
def byteSample (raw : RawBuf) (ch rowstart i k : Nat) : Half := (raw.read (rowstart + i * ch + k)).setWidth 16

/-- getSample for d = 16 (R297): most significant byte first. -/
def wideSample (raw : RawBuf) (ch rowstart i k : Nat) : Half :=
  let off := 2 * (i * ch + k)
  raw.read (rowstart + off) ++ raw.read (rowstart + off + 1)

/-- getSample (R293, R294, R297). -/
def getSample (raw : RawBuf) (d ch rowstart i k : Nat) : Half :=
  if d < 8 then subByteSample raw d rowstart i
  else if d = 8 then byteSample raw ch rowstart i k
  else wideSample raw ch rowstart i k

/-- The last RAW byte that the samples of pixel i are read from. -/
def lastSampleByte (d ch rowstart i : Nat) : Nat :=
  if d < 8 then rowstart + i * d / 8
  else if d = 8 then rowstart + i * ch + (ch - 1)
  else rowstart + 2 * (i * ch + (ch - 1)) + 1

/-! ## Transparency -/

/-- A 16-bit key of the transparency record, most significant byte first (R300). -/
def ColorRegs.key (c : ColorRegs) (i : Nat) : Half := c.trnsAt i ++ c.trnsAt (i + 1)

end Sys2Proof.Machine
end

