-- ==== Sys2Proof/Machine/Huffman.lean ====
section
/-! DEFINITION. The Huffman Table Builder and the canonical decode (41_huffman.md), and the fixed tables (R185). -/

namespace Sys2Proof.Machine

/-- count[0..15] (R181). -/
def countLengths (lens : List Nat) : List Nat := (List.range 16).map fun l => lens.countP (· == l)

/-- The loop of R182 over the lengths l, l+1, …: the code space left, or `none` once it is over-subscribed. -/
def codeSpaceLeft (count : List Nat) : (fuel l left : Nat) → Option Nat
  | 0, _, left => some left
  | fuel + 1, l, left =>
    if 2 * left < count.getD l 0 then none else codeSpaceLeft count fuel (l + 1) (2 * left - count.getD l 0)

/-- The completeness check (R182): the error it raises, if any. -/
def checkLengths (lens : List Nat) : Option Err :=
  let count := countLengths lens
  match codeSpaceLeft count 15 1 1 with
  | none => some .oversubscribedCode
  | some 0 => none
  | some _ =>
    if count.getD 1 0 = 1 ∧ lens.length - count.getD 0 0 = 1 then none else some .incompleteCode

/-- The symbols of length l, rising (R183); the head of the list has symbol number s. -/
def symbolsFrom (l : Nat) : (s : Nat) → (lens : List Nat) → List Nat
  | _, [] => []
  | s, x :: r => if x = l then s :: symbolsFrom l (s + 1) r else symbolsFrom l (s + 1) r

/-- The sorted table (R183): by length, then by symbol value. -/
def sortedTable (lens : List Nat) : HuffTable where
  count := countLengths lens
  symbol := (List.range 15).flatMap fun l => symbolsFrom (l + 1) 0 lens

/-- `build(lens, check)` (R180 to R183). -/
def build (lens : List Nat) (check : Bool) : Except Err HuffTable :=
  match if check then checkLengths lens else none with
  | some e => .error e
  | none => .ok (sortedTable lens)

/-- FIXED_LIT (R185). -/
def fixedLit : HuffTable := sortedTable fixedLitLens

/-- FIXED_DIST (R185). -/
def fixedDist : HuffTable := sortedTable fixedDistLens

/-- What the canonical decode has found: a symbol, or no match yet and the code read so far. -/
inductive SymbolSearch where
  | found (sym : Nat)
  | missed (code : Nat)
deriving DecidableEq, Repr

/-- The loop of decodeSym (R186) for at most `fuel` bits, at length l. -/
def searchSym (t : HuffTable) : (fuel l code first index : Nat) → State → CoreResult SymbolSearch
  | 0, _, code, _, _, s => .ok (.missed (code / 2)) s
  | fuel + 1, l, code, first, index, s =>
    (takeBits 1 s).bind fun b s1 =>
      let code := code + b
      let c := t.count.getD l 0
      if code < first + c then .ok (.found (t.symbol.getD (index + (code - first)) 0)) s1
      else searchSym t fuel (l + 1) (2 * code) (2 * (first + c)) (index + c) s1

/-- `decodeSym(T)` (R186): a code of up to 15 bits, or InvalidCode (R187). -/
def decodeSym (t : HuffTable) (s : State) : CoreResult Nat :=
  (searchSym t 15 1 0 0 0 s).bind fun r s1 =>
    match r with
    | .found sym => .ok sym s1
    | .missed _ => .raise .invalidCode s1

end Sys2Proof.Machine
end

