-- ==== Sys2Proof/Machine/Sequence.lean ====
section
/-! DEFINITION. The sequencing the elements share (R331): entering the inflate, reconstruct and expand phases, block
end, the final size checks, and the moves to the next row and the next pixel. -/

namespace Sys2Proof.Machine

/-- Entering the EXPAND phase (R292): the first pixel of the first nonempty pass. -/
def enterExpand (s : State) : State :=
  match nextPass s.geom.format.interlace s.geom.width.toNat s.geom.height.toNat 0 with
  | some p => { s with norm := { s.norm with pass := p, row := 0, col := 0, rawpos := 0 }, phase := .expand }
  | none => finishCommand s

/-- The end of the reconstruct phase (R331, R336): RAWVALID <- 1, then EXPAND or the end. -/
def endRecon (s : State) : State :=
  let s1 := { s with status := s.status.setRawValid true }
  if s1.isExpand then enterExpand s1 else finishCommand s1

/-- The registers of the first row of pass p, whose tag is RAW[pos] (R252). -/
def firstRowOf (g : GeomRegs) (p pos : Nat) : ReconRegs where
  pass := p
  row := 0
  bpp := g.format.filterUnit
  rowbytes := (passGeom g.format.interlace p).rowBytes g.width.toNat g.format.bitsPerPixel
  cur := pos + 1
  prev := none

/-- Entering the RECON phase (R252). -/
def enterRecon (s : State) : State :=
  match nextPass s.geom.format.interlace s.geom.width.toNat s.geom.height.toNat 0 with
  | some p => { s with recon := firstRowOf s.geom p 0, phase := .recon }
  | none => endRecon s

/-- After a row of RECON (R252): the next row of the pass, the next nonempty pass, or the end of the phase. -/
def nextRow (s : State) : State :=
  let r := s.recon
  let pos := r.cur + r.rowbytes
  if r.row + 1 < (passGeom s.geom.format.interlace r.pass).ph s.geom.height.toNat then
    { s with recon := { r with row := r.row + 1, prev := some r.cur, cur := pos + 1 } }
  else
    match nextPass s.geom.format.interlace s.geom.width.toNat s.geom.height.toNat r.pass with
    | some p => { s with recon := firstRowOf s.geom p pos }
    | none => endRecon s

/-- After a pixel of EXPAND (R292): the next column, the next row, the next nonempty pass, or the end of the command. -/
def nextPixel (il : Byte) (bits : Nat) (s : State) : State :=
  let n := s.norm
  let g := passGeom il n.pass
  let after := n.rawpos + 1 + g.rowBytes s.geom.width.toNat bits
  if n.col + 1 < g.pw s.geom.width.toNat then { s with norm := { n with col := n.col + 1 } }
  else if n.row + 1 < g.ph s.geom.height.toNat then
    { s with norm := { n with row := n.row + 1, col := 0, rawpos := after } }
  else
    match nextPass il s.geom.width.toNat s.geom.height.toNat n.pass with
    | some p => { s with norm := { n with pass := p, row := 0, col := 0, rawpos := after } }
    | none => finishCommand { s with norm := { n with rawpos := after } }

/-- Entering the inflate phase (R200): cursorInit, out_pos <- 0, and the first block header comes next. -/
def enterInflate (s : State) : State :=
  let s1 := cursorInit s
  { s1 with inflate := { s1.inflate with outPos := 0 }, phase := .infHdr }

/-- Block end (R203): the latched bfinal decides between the next header and the size checks. -/
def blockEnd (s : State) : State := { s with phase := if s.inflate.bfinal then .infEnd else .infHdr }

/-- `endChecks()` (R229 to R231), then the RECON phase. -/
def endChecks (s : State) : CoreResult Unit :=
  if s.inflate.outPos.toNat ≠ s.geom.rasterSize then .raise .sizeMismatch s
  else if s.ctrl.inchk = true ∧ s.cursor.consumed ≠ s.segs.expIn then .raise .sizeMismatch s
  else .ok () (enterRecon s)

/-- `emit(b)` (R222): the output byte, below the capacity S. -/
def emit (b : Byte) (s : State) : CoreResult Unit :=
  if s.geom.rasterSize ≤ s.inflate.outPos.toNat then .raise .outputOverflow s
  else if s.params.rawCapMax ≤ s.inflate.outPos.toNat then .fault .rawOutOfRange
  else
    .ok ()
      { s with
        raw := s.raw.write s.inflate.outPos.toNat b
        inflate := { s.inflate with outPos := s.inflate.outPos + 1 } }

/-- `copy(l, d)` (R224), byte by byte: a later byte may read what an earlier one wrote. -/
def copyMatch (d : Nat) : (l : Nat) → State → CoreResult Unit
  | 0, s => .ok () s
  | l + 1, s => (emit (s.raw.read (s.inflate.outPos.toNat - d)) s).bind fun _ s1 => copyMatch d l s1

end Sys2Proof.Machine
end

