-- ==== Sys2Proof/Machine/Blocks.lean ====
section
/-! DEFINITION. The block headers (42_inflate.md R201 to R209). The step has read the three header bits; the element
latches bfinal and btype and runs its body up to the first element of the next format. -/

namespace Sys2Proof.Machine

/-- `bfinal` and `btype` as the header gave them (R201). -/
def latchHeader (bfinal : Bool) (btype : BitVec 2) (s : State) : State :=
  { s with inflate := { s.inflate with bfinal := bfinal, btype := btype } }

/-- The data bytes of a stored block (R204): each is read, then written, before the next is read. -/
def copyStored : (n : Nat) → State → CoreResult Unit
  | 0, s => .ok () s
  | n + 1, s =>
    (takeBits 8 s).bind fun b s1 => (emit (BitVec.ofNat 8 b) s1).bind fun _ s2 => copyStored n s2

/-- The INF_STORED phase: the data, then block end (R204, R203). -/
def storedBody (s : State) : CoreResult Unit :=
  (copyStored s.inflate.storedLen.toNat s).bind fun _ s1 => .ok () (blockEnd s1)

/-- `storedBlock()` (R204). -/
def storedBlock (s : State) : CoreResult Unit :=
  (takeBits 16 (align s)).bind fun n s1 =>
    let s2 := { s1 with inflate := { s1.inflate with storedLen := BitVec.ofNat 16 n } }
    (takeBits 16 s2).bind fun c s3 =>
      if BitVec.ofNat 16 c ≠ ~~~ s3.inflate.storedLen then .raise .lengthCheckFailed s3
      else storedBody { s3 with phase := .infStored }

/-- The symbol loop begins (R216): a literal/length symbol comes next. -/
def enterSymbols (s : State) : State :=
  { s with inflate := { s.inflate with needDist := false }, phase := .infSym }

/-- `cl_len[CLORDER[k]] <- takeBits(3)` for the given positions (R209). -/
def readClLens : (order : List Nat) → State → CoreResult Unit
  | [], s => .ok () s
  | j :: js, s =>
    (takeBits 3 s).bind fun v s1 =>
      readClLens js { s1 with inflate := { s1.inflate with clLen := s1.inflate.clLen.set j v } }

/-- `readCodeLengthCode()` (R209); the code-length loop then starts at i = 0 (R210). -/
def readCodeLengthCode (s : State) : CoreResult Unit :=
  let s1 := { s with inflate := { s.inflate with clLen := List.replicate 19 0 } }
  (readClLens (clOrder.take s1.inflate.hclen) s1).bind fun _ s2 =>
    match build s2.inflate.clLen true with
    | .error e => .raise e s2
    | .ok t =>
      .ok ()
        { s2 with
          tables := { s2.tables with clt := t }
          inflate := { s2.inflate with lenIdx := 0 }
          phase := .infDynHdr }

/-- `dynamicBlock()` as far as its first F_CL element (R207 to R209). -/
def dynamicBlock (s : State) : CoreResult Unit :=
  (takeBits 5 s).bind fun a s1 =>
    let s1 := { s1 with inflate := { s1.inflate with hlit := a + 257 } }
    (takeBits 5 s1).bind fun b s2 =>
      let s2 := { s2 with inflate := { s2.inflate with hdist := b + 1 } }
      (takeBits 4 s2).bind fun c s3 =>
        let s3 := { s3 with inflate := { s3.inflate with hclen := c + 4 } }
        if 30 < s3.inflate.hdist then .raise .badCodeCount s3 else readCodeLengthCode s3

/-- BLK_STORED (R204). -/
def execBlkStored (bfinal : Bool) (s : State) : Host.Outcome State Fault Refusal :=
  (storedBlock (latchHeader bfinal 0 s)).outcome

/-- BLK_FIXED (R205): the symbol loop against FIXED_LIT and FIXED_DIST. -/
def execBlkFixed (bfinal : Bool) (s : State) : Host.Outcome State Fault Refusal :=
  .next (enterSymbols (latchHeader bfinal 1 s))

/-- BLK_DYNAMIC (R207). -/
def execBlkDynamic (bfinal : Bool) (s : State) : Host.Outcome State Fault Refusal :=
  (dynamicBlock (latchHeader bfinal 2 s)).outcome

/-- BLK_INVALID (R202). -/
def execBlkInvalid (bfinal : Bool) (s : State) : Host.Outcome State Fault Refusal :=
  .next (raiseError .invalidBlockType (latchHeader bfinal 3 s))

end Sys2Proof.Machine
end

