-- ==== Sys2Proof/Machine/CodeLengths.lean ====
section
/-! DEFINITION. The code-length symbols of a dynamic block (42_inflate.md R210 to R215). The step has read the symbol
against CLT; the element reads its own extra bits. -/

namespace Sys2Proof.Machine

/-- total = hlit + hdist (R210). -/
def InflateRegs.total (r : InflateRegs) : Nat := r.hlit + r.hdist

/-- `buildLitDist()` (R215): LT first, then DT; then the symbol loop. -/
def buildLitDist (s : State) : CoreResult Unit :=
  match build (s.inflate.len.take s.inflate.hlit) true with
  | .error e => .raise e s
  | .ok lt =>
    let s1 := { s with tables := { s.tables with lt := lt } }
    match build ((s1.inflate.len.drop s1.inflate.hlit).take s1.inflate.hdist) true with
    | .error e => .raise e s1
    | .ok dt => .ok () (enterSymbols { s1 with tables := { s1.tables with dt := dt } })

/-- The test of the code-length loop (R210): it ends exactly when i = total (R214). -/
def lengthLoop (s : State) : CoreResult Unit :=
  if s.inflate.lenIdx < s.inflate.total then .ok () s else buildLitDist s

/-- `len[i] <- p ; i <- i + 1`, r times (R210 to R213). -/
def writeLens (p : Nat) : (r i : Nat) → List Nat → List Nat
  | 0, _, l => l
  | r + 1, i, l => writeLens p r (i + 1) (l.set i p)

/-- r entries p, then the loop test; a repeat past total writes nothing (R214). -/
def putLengths (p r : Nat) (s : State) : CoreResult Unit :=
  if s.inflate.total < s.inflate.lenIdx + r then .raise .badCodeLengthRepeat s
  else
    lengthLoop
      { s with
        inflate :=
          { s.inflate with
            len := writeLens p r s.inflate.lenIdx s.inflate.len
            lenIdx := s.inflate.lenIdx + r } }

/-- CL_LEN (R210). -/
def execClLen (v : Nat) (s : State) : Host.Outcome State Fault Refusal :=
  (lengthLoop
    { s with
      inflate :=
        { s.inflate with len := s.inflate.len.set s.inflate.lenIdx v, lenIdx := s.inflate.lenIdx + 1 } }).outcome

/-- CL_REP_PREV (R211): with no previous length it raises before it reads its extra bits. -/
def execClRepPrev (s : State) : Host.Outcome State Fault Refusal :=
  (if s.inflate.lenIdx = 0 then .raise .badCodeLengthRepeat s
   else
    (takeBits 2 s).bind fun x s1 =>
      putLengths (s1.inflate.len.getD (s1.inflate.lenIdx - 1) 0) (3 + x) s1 : CoreResult Unit).outcome

/-- CL_REP_ZERO3 (R212). -/
def execClRepZero3 (s : State) : Host.Outcome State Fault Refusal :=
  ((takeBits 3 s).bind fun x s1 => putLengths 0 (3 + x) s1).outcome

/-- CL_REP_ZERO11 (R213). -/
def execClRepZero11 (s : State) : Host.Outcome State Fault Refusal :=
  ((takeBits 7 s).bind fun x s1 => putLengths 0 (11 + x) s1).outcome

end Sys2Proof.Machine
end

