-- ==== Sys2Proof/Machine/Commands.lean ====
section
/-! DEFINITION. The host commands (46_commands.md): START with its four CMD codes, and CLEAR. A START performs R330, the
RAWVALID clear of R331 and the start checks R341 to R349 in one step (log 3). -/

namespace Sys2Proof.Machine

/-- Σ SEG_LEN[i] over i < SEG_COUNT (R343, R347), exact. -/
def SegRegs.total (g : SegRegs) : Nat := ((List.range g.count.toNat).map fun i => (g.lenAt i).toNat).sum

/-- SEG_BASE[i] + SEG_LEN[i] ≤ 2^32 for every i < SEG_COUNT (R343). -/
def SegRegs.fit (g : SegRegs) : Bool :=
  (List.range g.count.toNat).all fun i => decide ((g.baseAt i).toNat + (g.lenAt i).toNat ≤ 2 ^ 32)

/-- TRNS_LEN is legal for the colour model (R346). -/
def trnsLenLegal (model : Byte) (palCount trnsLen : BitVec 9) : Bool :=
  trnsLen == 0
  || (model == 0 && trnsLen == 2)
  || (model == 2 && trnsLen == 6)
  || (model == 3 && decide (trnsLen.toNat ≤ palCount.toNat))

/-- The start checks R341 to R347, in that order: the error of the first that fails. -/
def earlyChecks (s : State) : Option Err :=
  if s.ctrl.cmd = 0 ∨ (s.ctrl.cmd = 2 ∧ s.status.rawvalid = false) then some .illegalCommand
  else if s.isDecode = true ∧ s.params.maxSegs < s.segs.count.toNat then some .illegalCommand
  else if 256 < s.color.palCount.toNat ∨ 256 < s.color.trnsLen.toNat then some .illegalCommand
  else if s.isDecode = true ∧ s.segs.fit = false then some .illegalCommand
  else if s.isDecode = true ∧ 2 ^ 32 - 1 < s.segs.total then some .illegalCommand
  else if s.isExpand = true ∧ 2 ^ 32 < s.out.base.toNat + s.out.cap.toNat then some .illegalCommand
  else if s.geom.width = 0 ∨ s.geom.height = 0 ∨ 1 < s.geom.format.interlace.toNat then some .malformedHeader
  else if s.geom.format.supported = false then some .unsupportedPixelFormat
  else if trnsLenLegal s.geom.format.colorModel s.color.palCount s.color.trnsLen = false then
    some .unsupportedTransparency
  else if s.isDecode = true ∧ s.segs.total = 0 then some .missingImageData
  else none

/-- OUT_CAP is too small (R349). -/
def State.outTooSmall (s : State) : Bool := decide (s.out.cap.toNat < s.rasterBytes)

/-- RAW_SIZE <- min(S, 2^32 - 1) (R348, R48). -/
def latchRawSize (s : State) : State := { s with rawSize := BitVec.ofNat 32 (min s.geom.rasterSize (2 ^ 32 - 1)) }

/-- The start checks (R341 to R349), then the first phase of the command (R331). -/
def startPhase (s : State) : CoreResult Unit :=
  match earlyChecks s with
  | some e => .raise e s
  | none =>
    if s.isDecode then
      let s1 := latchRawSize s
      if s1.params.rawCapMax < s1.geom.rasterSize then .raise .outputOverflow s1
      else if s1.isExpand = true ∧ s1.outTooSmall = true then .raise .outputOverflow s1
      else .ok () (enterInflate s1)
    else if s.outTooSmall then .raise .outputOverflow s
    else .ok () (enterExpand s)

/-- What a START writes before its checks: CTRL and STATUS (R330), and RAWVALID <- 0 for a DECODE-type command (R331). -/
def beginCommand (cmd : BitVec 2) (inchk ie : Bool) (s : State) : State :=
  let s1 :=
    { s with ctrl := ⟨cmd, inchk, ie⟩, status := s.status.started, phase := .startCheck, race := [] }
  if s1.isDecode then { s1 with status := s1.status.setRawValid false } else s1

/-- A START (R330): ignored while BUSY (R51). -/
def startCommand (cmd : BitVec 2) (inchk ie : Bool) (s : State) : Host.Outcome State Fault Refusal :=
  if s.isBusy then .next s else (startPhase (beginCommand cmd inchk ie s)).outcome

/-- CMD_RESERVED (R335): R330, then R341 raises IllegalCommand. CLEAR is ignored (R112). -/
def execCmdReserved (inchk ie _clear : Bool) (s : State) : Host.Outcome State Fault Refusal :=
  startCommand 0 inchk ie s

/-- CMD_DECODE (R332). -/
def execCmdDecode (inchk ie _clear : Bool) (s : State) : Host.Outcome State Fault Refusal :=
  startCommand 1 inchk ie s

/-- CMD_EXPAND (R333). -/
def execCmdExpand (inchk ie _clear : Bool) (s : State) : Host.Outcome State Fault Refusal :=
  startCommand 2 inchk ie s

/-- CMD_DECODE_EXPAND (R334). -/
def execCmdDecodeExpand (inchk ie _clear : Bool) (s : State) : Host.Outcome State Fault Refusal :=
  startCommand 3 inchk ie s

/-- CTRL_CLEAR (R339): ignored while BUSY (R51). -/
def execCtrlClear (cmd : BitVec 2) (inchk ie : Bool) (s : State) : Host.Outcome State Fault Refusal :=
  if s.isBusy then .next s else .next (clearCommand cmd inchk ie s)

end Sys2Proof.Machine
end

