-- ==== Sys2Proof/Machine/Filters.lean ====
section
/-! DEFINITION. The scanline filters (43_scanline_filters.md R250 to R258): one element per row. -/

namespace Sys2Proof.Machine

/-- `a`, the left byte (R252): the reconstructed byte i - bpp of the current row, or 0. -/
def leftByte (r : ReconRegs) (raw : RawBuf) (i : Nat) : Byte :=
  if r.bpp ≤ i then raw.read (r.cur + i - r.bpp) else 0

/-- `b`, the up byte (R252): byte i of the previous row of the pass, or 0. -/
def upByte (r : ReconRegs) (raw : RawBuf) (i : Nat) : Byte :=
  match r.prev with
  | some p => raw.read (p + i)
  | none => 0

/-- `c`, the upper-left byte (R252). -/
def upLeftByte (r : ReconRegs) (raw : RawBuf) (i : Nat) : Byte :=
  match r.prev with
  | some p => if r.bpp ≤ i then raw.read (p + i - r.bpp) else 0
  | none => 0

/-- The loop of R252 over the n data bytes from i on: RAW[cur+i] <- (x + pred(a, b, c)) mod 256. -/
def reconLoop (pred : Byte → Byte → Byte → Byte) (r : ReconRegs) : (n i : Nat) → RawBuf → RawBuf
  | 0, _, raw => raw
  | n + 1, i, raw =>
    reconLoop pred r n (i + 1)
      (raw.write (r.cur + i)
        (raw.read (r.cur + i) + pred (leftByte r raw i) (upByte r raw i) (upLeftByte r raw i)))

/-- One row of reconPhase (R252), then the next row. -/
def filterRow (pred : Byte → Byte → Byte → Byte) (s : State) : Host.Outcome State Fault Refusal :=
  if s.params.rawCapMax < s.recon.cur + s.recon.rowbytes then .fault .rawOutOfRange
  else .next (nextRow { s with raw := reconLoop pred s.recon s.recon.rowbytes 0 s.raw })

/-- floor((a + b) / 2), the sum not wrapping (R256). -/
def predAvg (a b : Byte) : Byte := BitVec.ofNat 8 ((a.toNat + b.toNat) / 2)

/-- The Paeth predictor (R257), in signed integers; ties go to a, then b. -/
def predPaeth (a b c : Byte) : Byte :=
  let p : Int := (a.toNat : Int) + b.toNat - c.toNat
  let pa := (p - a.toNat).natAbs
  let pb := (p - b.toNat).natAbs
  let pc := (p - c.toNat).natAbs
  if pa ≤ pb ∧ pa ≤ pc then a else if pb ≤ pc then b else c

/-- FILT_NONE (R253): pred = 0. -/
def execFiltNone (s : State) : Host.Outcome State Fault Refusal := filterRow (fun _ _ _ => 0) s

/-- FILT_SUB (R254): pred = a. -/
def execFiltSub (s : State) : Host.Outcome State Fault Refusal := filterRow (fun a _ _ => a) s

/-- FILT_UP (R255): pred = b. -/
def execFiltUp (s : State) : Host.Outcome State Fault Refusal := filterRow (fun _ b _ => b) s

/-- FILT_AVG (R256). -/
def execFiltAvg (s : State) : Host.Outcome State Fault Refusal := filterRow (fun a b _ => predAvg a b) s

/-- FILT_PAETH (R257). -/
def execFiltPaeth (s : State) : Host.Outcome State Fault Refusal := filterRow predPaeth s

/-- FILT_INVALID (R258). -/
def execFiltInvalid (_tag : Byte) (s : State) : Host.Outcome State Fault Refusal :=
  .next (raiseError .invalidFilterType s)

end Sys2Proof.Machine
end

