-- ==== Sys2Proof/Machine/Pixels.lean ====
section
/-! DEFINITION. The pixel formats (45_pixel_normalizer.md): one element per pixel. `il` is the INTERLACE field of the
FORMAT word the element was read from; it selects the passes (R270; log 17). -/

namespace Sys2Proof.Machine

/-- An RGBA8 pixel, bytes in the order of R308. -/
structure Rgba where
  r : Byte
  g : Byte
  b : Byte
  a : Byte
deriving DecidableEq, Repr

/-- The 16-to-8 conversion (R299). -/
def to8 (v : Half) : Byte := BitVec.ofNat 8 ((v.toNat + 128) / 257)

/-- The low byte of a sample of depth 8 or less. -/
def lowByte (v : Half) : Byte := v.setWidth 8

/-- The grayscale alpha (R301, R307): 0 on a key match, else 255. -/
def grayAlpha (c : ColorRegs) (v : Half) : Byte := if c.trnsLen = 2 ∧ v = c.key 0 then 0 else 255

/-- The true-color alpha (R302, R307). -/
def rgbAlpha (c : ColorRegs) (x : Samples) : Byte :=
  if c.trnsLen = 6 ∧ x.s0 = c.key 0 ∧ x.s1 = c.key 2 ∧ x.s2 = c.key 4 then 0 else 255

/-- Grayscale of depth 1, 2, 4 or 8, scaled by `k` (R298, R311 to R314). -/
def grayPixel (k : Nat) (c : ColorRegs) (x : Samples) : Except Err Rgba :=
  let g : Byte := BitVec.ofNat 8 (x.s0.toNat * k)
  .ok ⟨g, g, g, grayAlpha c x.s0⟩

/-- Grayscale of depth 16 (R315). -/
def grayPixel16 (c : ColorRegs) (x : Samples) : Except Err Rgba :=
  .ok ⟨to8 x.s0, to8 x.s0, to8 x.s0, grayAlpha c x.s0⟩

/-- True-color, a channel converted by `f` (R316, R317). -/
def rgbPixel (f : Half → Byte) (c : ColorRegs) (x : Samples) : Except Err Rgba :=
  .ok ⟨f x.s0, f x.s1, f x.s2, rgbAlpha c x⟩

/-- `PIX_P` (R303 to R306). -/
def palettePixel (c : ColorRegs) (x : Samples) : Except Err Rgba :=
  let idx := x.s0.toNat
  if c.palCount.toNat ≤ idx then .error .paletteIndexOutOfRange
  else
    let e := c.palAt idx
    .ok ⟨e.extractLsb' 0 8, e.extractLsb' 8 8, e.extractLsb' 16 8,
      if idx < c.trnsLen.toNat then c.trnsAt idx else 255⟩

/-- Grayscale+alpha (R322, R323). -/
def grayAlphaPixel (f : Half → Byte) (_ : ColorRegs) (x : Samples) : Except Err Rgba :=
  .ok ⟨f x.s0, f x.s0, f x.s0, f x.s1⟩

/-- True-color+alpha (R324, R325). -/
def rgbaPixel (f : Half → Byte) (_ : ColorRegs) (x : Samples) : Except Err Rgba :=
  .ok ⟨f x.s0, f x.s1, f x.s2, f x.s3⟩

/-- The four byte writes of putPixel, from byte address o (R310). -/
def Memory.writePixel (m : Memory) (o : Nat) (p : Rgba) : Memory :=
  (((m.write o p.r).write (o + 1) p.g).write (o + 2) p.b).write (o + 3) p.a

/-- The HMEM address of the pixel the normalizer is at: OUT_BASE + 4·(Y·WIDTH + X) (R276, R310). -/
def pixelAddress (il : Byte) (s : State) : Nat :=
  let g := passGeom il s.norm.pass
  let x := g.xs + s.norm.col * g.dx
  let y := g.ys + s.norm.row * g.dy
  s.out.base.toNat + 4 * (y * s.geom.width.toNat + x)

/-- sample[0..ch-1] of the pixel; the registers above stay (R292). -/
def readSamples (d ch : Nat) (s : State) : Samples :=
  let get (k : Nat) (old : Half) : Half :=
    if k < ch then getSample s.raw d ch (s.norm.rawpos + 1) s.norm.col k else old
  ⟨get 0 s.norm.sample.s0, get 1 s.norm.sample.s1, get 2 s.norm.sample.s2, get 3 s.norm.sample.s3⟩

/-- One pixel of expandPhase (R292): samples, conversion, putPixel, then the next pixel. An error writes nothing. -/
def pixelStep (d ch : Nat) (conv : ColorRegs → Samples → Except Err Rgba) (il : Byte) (s : State) :
    Host.Outcome State Fault Refusal :=
  if s.params.rawCapMax ≤ lastSampleByte d ch (s.norm.rawpos + 1) s.norm.col then .fault .rawOutOfRange
  else
    let s1 := { s with norm := { s.norm with sample := readSamples d ch s } }
    match conv s1.color s1.norm.sample with
    | .error e => .next (raiseError e s1)
    | .ok p =>
      let o := pixelAddress il s1
      if 2 ^ 32 ≤ o + 3 then .fault .hmemOutOfRange
      else .next (nextPixel il (d * ch) { s1 with hmem := s1.hmem.writePixel o p })

/-- PIX_G1 (R311). -/
def execPixG1 (il : Byte) (s : State) : Host.Outcome State Fault Refusal := pixelStep 1 1 (grayPixel 255) il s

/-- PIX_G2 (R312). -/
def execPixG2 (il : Byte) (s : State) : Host.Outcome State Fault Refusal := pixelStep 2 1 (grayPixel 85) il s

/-- PIX_G4 (R313). -/
def execPixG4 (il : Byte) (s : State) : Host.Outcome State Fault Refusal := pixelStep 4 1 (grayPixel 17) il s

/-- PIX_G8 (R314). -/
def execPixG8 (il : Byte) (s : State) : Host.Outcome State Fault Refusal := pixelStep 8 1 (grayPixel 1) il s

/-- PIX_G16 (R315). -/
def execPixG16 (il : Byte) (s : State) : Host.Outcome State Fault Refusal := pixelStep 16 1 grayPixel16 il s

/-- PIX_RGB8 (R316). -/
def execPixRgb8 (il : Byte) (s : State) : Host.Outcome State Fault Refusal := pixelStep 8 3 (rgbPixel lowByte) il s

/-- PIX_RGB16 (R317). -/
def execPixRgb16 (il : Byte) (s : State) : Host.Outcome State Fault Refusal := pixelStep 16 3 (rgbPixel to8) il s

/-- PIX_P1 (R318). -/
def execPixP1 (il : Byte) (s : State) : Host.Outcome State Fault Refusal := pixelStep 1 1 palettePixel il s

/-- PIX_P2 (R319). -/
def execPixP2 (il : Byte) (s : State) : Host.Outcome State Fault Refusal := pixelStep 2 1 palettePixel il s

/-- PIX_P4 (R320). -/
def execPixP4 (il : Byte) (s : State) : Host.Outcome State Fault Refusal := pixelStep 4 1 palettePixel il s

/-- PIX_P8 (R321). -/
def execPixP8 (il : Byte) (s : State) : Host.Outcome State Fault Refusal := pixelStep 8 1 palettePixel il s

/-- PIX_GA8 (R322). -/
def execPixGa8 (il : Byte) (s : State) : Host.Outcome State Fault Refusal := pixelStep 8 2 (grayAlphaPixel lowByte) il s

/-- PIX_GA16 (R323). -/
def execPixGa16 (il : Byte) (s : State) : Host.Outcome State Fault Refusal := pixelStep 16 2 (grayAlphaPixel to8) il s

/-- PIX_RGBA8 (R324). -/
def execPixRgba8 (il : Byte) (s : State) : Host.Outcome State Fault Refusal := pixelStep 8 4 (rgbaPixel lowByte) il s

/-- PIX_RGBA16 (R325). -/
def execPixRgba16 (il : Byte) (s : State) : Host.Outcome State Fault Refusal := pixelStep 16 4 (rgbaPixel to8) il s

end Sys2Proof.Machine
end

