-- ==== Sys2Proof/Machine/Symbols.lean ====
section
/-! DEFINITION. The literal/length and distance symbols (42_inflate.md R216 to R227). The step has read the symbol; the
element reads its own extra bits. -/

namespace Sys2Proof.Machine

/-- LIT (R217). -/
def execLit (b : Byte) (s : State) : Host.Outcome State Fault Refusal := (emit b s).outcome

/-- EOB (R218): block end. -/
def execEob (s : State) : Host.Outcome State Fault Refusal := .next (blockEnd s)

/-- LEN (R219, R220), up to its distance element: match_len <- LBASE[s] + takeBits(LEXT[s]). -/
def execLen (sym : Nat) (s : State) : Host.Outcome State Fault Refusal :=
  ((takeBits (lext (sym - 257)) s).bind fun x s1 =>
    .ok ()
      { s1 with inflate := { s1.inflate with matchLen := lbase (sym - 257) + x, needDist := true } }).outcome

/-- LEN_INVALID (R225). -/
def execLenInvalid (_sym : Nat) (s : State) : Host.Outcome State Fault Refusal :=
  .next (raiseError .invalidCode s)

/-- DIST (R223, R219): match_dist <- DBASE[d] + takeBits(DEXT[d]), the distance check, then the copy (R224); a
literal/length symbol comes next. -/
def execDist (sym : Nat) (s : State) : Host.Outcome State Fault Refusal :=
  ((takeBits (dext sym) s).bind fun x s1 =>
    let s2 := { s1 with inflate := { s1.inflate with matchDist := dbase sym + x, needDist := false } }
    if s2.inflate.outPos.toNat < s2.inflate.matchDist then .raise .distanceTooFar s2
    else copyMatch s2.inflate.matchDist s2.inflate.matchLen s2).outcome

/-- Read n bits one at a time, as decodeSym does when no length matches (R186). -/
def readOn : (n : Nat) → State → CoreResult Unit
  | 0, s => .ok () s
  | n + 1, s => (takeBits 1 s).bind fun _ s1 => readOn n s1

/-- DIST_INVALID (R226): the five bits 11110 or 11111 have matched no symbol; decodeSym reads on to 15 bits and raises
InvalidCode, or TruncatedInput if the stream ends first (log 14). -/
def execDistInvalid (_sym : Nat) (s : State) : Host.Outcome State Fault Refusal :=
  ((readOn 10 s).bind fun _ s1 => (.raise .invalidCode s1 : CoreResult Unit)).outcome

end Sys2Proof.Machine
end

