-- ==== Sys2Proof/Machine/Dispatch.lean ====
section
/-! DEFINITION. One arm per element: the meaning it has in its family's file. -/

namespace Sys2Proof.Machine

def exec (i : Instr) (s : State) : Host.Outcome State Fault Refusal :=
  match i with
  | .cmdReserved inchk ie clear => Sys2Proof.Machine.execCmdReserved inchk ie clear s
  | .cmdDecode inchk ie clear => Sys2Proof.Machine.execCmdDecode inchk ie clear s
  | .cmdExpand inchk ie clear => Sys2Proof.Machine.execCmdExpand inchk ie clear s
  | .cmdDecodeExpand inchk ie clear => Sys2Proof.Machine.execCmdDecodeExpand inchk ie clear s
  | .ctrlClear cmd inchk ie => Sys2Proof.Machine.execCtrlClear cmd inchk ie s
  | .blkStored bfinal => Sys2Proof.Machine.execBlkStored bfinal s
  | .blkFixed bfinal => Sys2Proof.Machine.execBlkFixed bfinal s
  | .blkDynamic bfinal => Sys2Proof.Machine.execBlkDynamic bfinal s
  | .blkInvalid bfinal => Sys2Proof.Machine.execBlkInvalid bfinal s
  | .clLen v => Sys2Proof.Machine.execClLen v s
  | .clRepPrev => Sys2Proof.Machine.execClRepPrev s
  | .clRepZero3 => Sys2Proof.Machine.execClRepZero3 s
  | .clRepZero11 => Sys2Proof.Machine.execClRepZero11 s
  | .lit b => Sys2Proof.Machine.execLit b s
  | .eob => Sys2Proof.Machine.execEob s
  | .len sym => Sys2Proof.Machine.execLen sym s
  | .lenInvalid sym => Sys2Proof.Machine.execLenInvalid sym s
  | .dist sym => Sys2Proof.Machine.execDist sym s
  | .distInvalid sym => Sys2Proof.Machine.execDistInvalid sym s
  | .filtNone => Sys2Proof.Machine.execFiltNone s
  | .filtSub => Sys2Proof.Machine.execFiltSub s
  | .filtUp => Sys2Proof.Machine.execFiltUp s
  | .filtAvg => Sys2Proof.Machine.execFiltAvg s
  | .filtPaeth => Sys2Proof.Machine.execFiltPaeth s
  | .filtInvalid tag => Sys2Proof.Machine.execFiltInvalid tag s
  | .pixG1 il => Sys2Proof.Machine.execPixG1 il s
  | .pixG2 il => Sys2Proof.Machine.execPixG2 il s
  | .pixG4 il => Sys2Proof.Machine.execPixG4 il s
  | .pixG8 il => Sys2Proof.Machine.execPixG8 il s
  | .pixG16 il => Sys2Proof.Machine.execPixG16 il s
  | .pixRgb8 il => Sys2Proof.Machine.execPixRgb8 il s
  | .pixRgb16 il => Sys2Proof.Machine.execPixRgb16 il s
  | .pixP1 il => Sys2Proof.Machine.execPixP1 il s
  | .pixP2 il => Sys2Proof.Machine.execPixP2 il s
  | .pixP4 il => Sys2Proof.Machine.execPixP4 il s
  | .pixP8 il => Sys2Proof.Machine.execPixP8 il s
  | .pixGa8 il => Sys2Proof.Machine.execPixGa8 il s
  | .pixGa16 il => Sys2Proof.Machine.execPixGa16 il s
  | .pixRgba8 il => Sys2Proof.Machine.execPixRgba8 il s
  | .pixRgba16 il => Sys2Proof.Machine.execPixRgba16 il s

end Sys2Proof.Machine
end

