-- ==== Sys2Proof/Machine/Fetch.lean ====
section
/-! DEFINITION. Reading the next element of the phase (R61, R62): the header bits, a Huffman symbol, a row's tag, the
FORMAT register. Also how a word of the opcode table is put where the machine reads its next element. -/

namespace Sys2Proof.Machine

/-- `bfinal` as the first header bit gave it (R113, R201). -/
def latchFinal (bfinal : Bool) (s : State) : State := { s with inflate := { s.inflate with bfinal := bfinal } }

/-- INF_HDR: the three header bits (R113, R201). `bfinal` is written before `btype` is read, so it stays written when
the stream ends inside BTYPE (R417). -/
def fetchHeader (s : State) : CoreResult (Except DecodeError Instr) :=
  (takeBits 1 s).bind fun f s1 =>
    (takeBits 2 (latchFinal (f.testBit 0) s1)).bind fun t s2 => .ok (decode .bhdr (f + 2 * t)) s2

/-- INF_DYN_HDR: a code-length symbol against CLT (R210). -/
def fetchCodeLength (s : State) : CoreResult (Except DecodeError Instr) :=
  (decodeSym s.tables.clt s).bind fun v s1 => .ok (decode .cl v) s1

/-- The literal/length table of the block: FIXED_LIT for a fixed block, else LT (R205, R207, R56). -/
def State.litTable (s : State) : HuffTable := if s.inflate.btype = 1 then fixedLit else s.tables.lt

/-- INF_SYM: a literal/length symbol (R216). -/
def fetchLitLen (s : State) : CoreResult (Except DecodeError Instr) :=
  (decodeSym s.litTable s).bind fun v s1 => .ok (decode .litlen v) s1

/-- INF_SYM, after a length symbol, in a fixed block: five bits are a distance symbol or one of the two unassigned
codes, which are DIST_INVALID's own words (R124, R120, R226; log 14). -/
def fetchFixedDist (s : State) : CoreResult (Except DecodeError Instr) :=
  (searchSym fixedDist 5 1 0 0 0 s).bind fun r s1 =>
    match r with
    | .found sym => .ok (decode .dist sym) s1
    | .missed code => .ok (decode .dist code) s1

/-- INF_SYM, after a length symbol: the distance symbol (R219, R223). -/
def fetchDist (s : State) : CoreResult (Except DecodeError Instr) :=
  if s.inflate.btype = 1 then fetchFixedDist s
  else (decodeSym s.tables.dt s).bind fun v s1 => .ok (decode .dist v) s1

/-- INF_SYM: the distance element of a pending match, or a literal/length symbol (R117). -/
def fetchSymbol (s : State) : CoreResult (Except DecodeError Instr) :=
  if s.inflate.needDist then fetchDist s else fetchLitLen s

/-- RECON: the tag of the next row (R252). -/
def fetchTag (s : State) : CoreResult (Except DecodeError Instr) :=
  if s.params.rawCapMax ≤ s.recon.cur - 1 then .fault .rawOutOfRange
  else .ok (decode .filter (s.raw.read (s.recon.cur - 1)).toNat) s

/-- EXPAND: the pixel format (R290). -/
def fetchFormat (s : State) : CoreResult (Except DecodeError Instr) :=
  .ok (decode .pixfmt (formatWord s.geom.format).toNat) s

/-! ## Placing a word where the next element is read (log 16) -/

/-- The core moves next, BUSY, in the given phase. -/
def State.coreNext (s : State) (p : Phase) : State :=
  { s with
    status := { s.status with state := .busy }
    phase := p
    bus := { s.bus with queue := .yieldCore :: s.bus.queue } }

/-- The `n` low bytes of w, from address a on. -/
def Memory.placeBytes : (n a w : Nat) → Memory → Memory
  | 0, _, _, m => m
  | n + 1, a, w, m => Memory.placeBytes n (a + 1) (w / 256) (m.write a (BitVec.ofNat 8 w))

/-- One segment of 64 bytes at HMEM 0: the bits of w, bit 0 first, then zeros; the cursor at its start. -/
def State.placeStream (s : State) (w : Nat) : State :=
  cursorInit
    { s with
      segs := { s.segs with count := 1, inSkip := 0, base := setEntry 0 0 s.segs.base, len := setEntry 0 64 s.segs.len }
      hmem := Memory.placeBytes 64 0 w s.hmem
      race := [] }

/-- A table whose one code, the bit 0, stands for `sym` (the one-symbol case of R182). -/
def oneSymbolTable (sym : Nat) : HuffTable where
  count := [0, 1, 0, 0, 0, 0, 0, 0, 0, 0, 0, 0, 0, 0, 0, 0]
  symbol := [sym]

/-- A 1×1 image with the given format, its RAW bytes `tag` and zeros. -/
def State.placeImage (s : State) (f : FormatReg) (tag : Byte) : State :=
  { s with
    geom := { width := 1, height := 1, format := f }
    raw := { s.raw with cells := [(0, tag), (1, 0), (2, 0), (3, 0), (4, 0), (5, 0), (6, 0), (7, 0), (8, 0)] } }

/-- Put the word w of a carrier where the machine reads its next element. -/
def placeWord (f : Format) (w : Nat) (s : State) : State :=
  match f with
  | .cmd =>
    { s with bus := { s.bus with queue := .regWrite s.params.regBase 32 (BitVec.ofNat 32 w) :: s.bus.queue } }
  | .bhdr => (s.placeStream w).coreNext .infHdr
  | .cl =>
    { (s.placeStream 0).coreNext .infDynHdr with
      tables := { s.tables with clt := oneSymbolTable w }
      inflate := { s.inflate with hlit := 257, hdist := 1, lenIdx := 0 } }
  | .litlen =>
    { (s.placeStream (packBits (fixedLitLenCode w))).coreNext .infSym with
      inflate := { s.inflate with btype := 1, needDist := false } }
  | .dist =>
    { (s.placeStream (packBits (fixedDistCode w))).coreNext .infSym with
      inflate := { s.inflate with btype := 1, needDist := true, matchLen := 3 } }
  | .filter =>
    { (s.placeImage ⟨8, 0, 0⟩ (BitVec.ofNat 8 w)).coreNext .recon with
      recon := { pass := 1, row := 0, bpp := 1, rowbytes := 1, cur := 1, prev := none } }
  | .pixfmt =>
    { (s.placeImage ⟨BitVec.ofNat 8 w, BitVec.ofNat 8 (w / 256), BitVec.ofNat 8 (w / 65536)⟩ 0).coreNext .expand with
      norm := { s.norm with pass := 1, row := 0, col := 0, rawpos := 0 } }

end Sys2Proof.Machine
end

