-- ==== Sys2Proof/Machine/Regs.lean ====
section
/-! DEFINITION. The register window (10_state.md R32 to R52): which access is legal, what a read returns, what a plain
write stores. -/

namespace Sys2Proof.Machine

/-- The window offset of a legal register access: 32 bits wide, a multiple of 4, inside the 4096-byte window (R32).
DESIGN CHOICE (log 27): REG_BASE has 32 bits, and where REG_BASE + 0xFFF passes 2^32 the window is cut off at the top of
the address space and does not wrap. -/
def regOffset (p : Params) (addr : Word) (bits : Nat) : Option Nat :=
  let off := addr.toNat - p.regBase.toNat
  if bits = 32 ∧ p.regBase.toNat ≤ addr.toNat ∧ off < 4096 ∧ off % 4 = 0 then some off else none

/-- The register at a mapped offset (R33, R44 to R46); an unmapped offset reads 0 (R32). -/
def readReg (s : State) (off : Nat) : Word :=
  if off = 0x000 then ctrlWord s.ctrl
  else if off = 0x004 then statusWord s.status
  else if off = 0x008 then s.geom.width
  else if off = 0x00C then s.geom.height
  else if off = 0x010 then formatWord s.geom.format
  else if off = 0x014 then s.segs.count.setWidth 32
  else if off = 0x018 then s.segs.inSkip
  else if off = 0x01C then s.segs.expIn
  else if off = 0x020 then s.color.palCount.setWidth 32
  else if off = 0x024 then s.color.trnsLen.setWidth 32
  else if off = 0x028 then s.out.base
  else if off = 0x02C then s.out.cap
  else if off = 0x030 then s.rawSize
  else if off = 0x034 then s.inflate.outPos
  else if off = 0x038 then s.cursor.consumed
  else if off < 0x100 then 0
  else if off < 0x800 then
    if s.params.maxSegs ≤ (off - 0x100) / 8 then 0
    else if off % 8 = 0 then s.segs.baseAt ((off - 0x100) / 8)
    else s.segs.lenAt ((off - 0x100) / 8)
  else if off < 0xC00 then (s.color.palAt ((off - 0x800) / 4)).setWidth 32
  else (s.color.trnsAt ((off - 0xC00) / 4)).setWidth 32

/-- RAW_SIZE, OUT_PRODUCED and IN_CONSUMED: unspecified while BUSY (R51). -/
def isCounter (off : Nat) : Bool := off == 0x030 || off == 0x034 || off == 0x038

/-- RAWVALID <- 0 by a write to WIDTH, HEIGHT or FORMAT (R52). -/
def State.dropRawValid (s : State) : State := { s with status := s.status.setRawValid false }

/-- A plain register write while not BUSY (R340): the fields are stored, reserved bits dropped, read-only and unmapped
offsets ignored (R32). Here offset 0 is a CTRL write with START = 0 and CLEAR = 0 (R112). -/
def writeReg (off : Nat) (w : Word) (s : State) : State :=
  if off = 0x000 then { s with ctrl := ⟨w.extractLsb' 1 2, w.getLsbD 3, w.getLsbD 4⟩ }
  else if off = 0x008 then { s with geom := { s.geom with width := w } }.dropRawValid
  else if off = 0x00C then { s with geom := { s.geom with height := w } }.dropRawValid
  else if off = 0x010 then
    { s with
      geom :=
        { s.geom with
          format :=
            { bitDepth := w.extractLsb' 0 8, colorModel := w.extractLsb' 8 8,
              interlace := w.extractLsb' 16 8 } } }.dropRawValid
  else if off = 0x014 then { s with segs := { s.segs with count := w.setWidth 16 } }
  else if off = 0x018 then { s with segs := { s.segs with inSkip := w } }
  else if off = 0x01C then { s with segs := { s.segs with expIn := w } }
  else if off = 0x020 then { s with color := { s.color with palCount := w.setWidth 9 } }
  else if off = 0x024 then { s with color := { s.color with trnsLen := w.setWidth 9 } }
  else if off = 0x028 then { s with out := { s.out with base := w } }
  else if off = 0x02C then { s with out := { s.out with cap := w } }
  else if off < 0x100 then s
  else if off < 0x800 then
    if s.params.maxSegs ≤ (off - 0x100) / 8 then s
    else if off % 8 = 0 then
      { s with segs := { s.segs with base := setEntry ((off - 0x100) / 8) w s.segs.base } }
    else { s with segs := { s.segs with len := setEntry ((off - 0x100) / 8) w s.segs.len } }
  else if off < 0xC00 then
    { s with color := { s.color with pal := insertCell ((off - 0x800) / 4) (w.setWidth 24) s.color.pal } }
  else if off < 0x1000 then
    { s with color := { s.color with trns := insertCell ((off - 0xC00) / 4) (w.setWidth 8) s.color.trns } }
  else s

end Sys2Proof.Machine
end

