-- ==== Sys2Proof/Machine/HostMoves.lean ====
section
/-! DEFINITION. What the host's moves do, but for a CTRL write that is a command word: register reads and plain writes
(R32, R51, R340), HMEM accesses (R87, R91, R92) and the reset input (R450, R451). -/

namespace Sys2Proof.Machine

/-- The host's pending moves are `q`. -/
def State.withQueue (s : State) (q : List HostMove) : State := { s with bus := { s.bus with queue := q } }

/-- The last host read returned `v`. -/
def State.returned (s : State) (v : Word) : State := { s with bus := { s.bus with readData := v } }

/-- One more free value has been drawn. -/
def State.drawn (s : State) : State := { s with draws := s.draws + 1 }

/-- A host read of a register: a counter read while BUSY is a draw, any other read gives the value (R51). -/
def hostRegRead (off : Nat) (s : State) : State :=
  if s.isBusy && isCounter off then (s.returned (Config.freeCounter s.draws)).drawn else s.returned (readReg s off)

/-- A host write of a register that is no command word: ignored while BUSY (R51). -/
def hostPlainWrite (off : Nat) (w : Word) (s : State) : State := if s.isBusy then s else writeReg off w s

/-- A host write of an HMEM byte; while BUSY the byte is marked (R92; log 11). -/
def hostMemWrite (a : Nat) (b : Byte) (s : State) : State :=
  let s1 := { s with hmem := s.hmem.write a b }
  if s.isBusy then { s1 with race := (a, s.draws) :: s.race }.drawn else s1

/-- A host read of an HMEM byte; an OUT byte read while BUSY is a draw (R91; log 12). -/
def hostMemRead (a : Nat) (s : State) : State :=
  if s.isBusy && s.inOut a then (s.returned ((Config.freeOutRead s.draws a).setWidth 32)).drawn
  else s.returned ((s.hmem.read a).setWidth 32)

/-- HMEM after the reset input. It ends a running command as an error does: the OUT bytes of an EXPAND-type command are
unspecified (R451), and so is an OUT byte the host wrote while BUSY, whatever the command (R92, R457; log 11). Every
other byte is unchanged (R454). -/
def State.resetMem (s : State) : Memory := if s.isBusy then s.errorMem else s.hmem

/-- The reset input (R450): the values of R67, with fresh draws for PAL, TRNS and RAW. The parameters, HMEM and the
host's side are not ZIS-CORE state. -/
def resetEvent (s : State) : State :=
  { State.reset with
    params := s.params
    color := { State.reset.color with epoch := s.draws }
    raw := { State.reset.raw with epoch := s.draws }
    hmem := s.resetMem
    draws := s.draws + 1
    bus := s.bus }

end Sys2Proof.Machine
end

