-- ==== Sys2Proof/Machine/Step.lean ====
section
/-! DEFINITION. One step: the host's next pending move, or one element of the core (R30, R62; log 1, log 2). -/

namespace Sys2Proof.Machine

/-- Run the element a fetch gave; an error of the fetch is taken. -/
def runElement (r : CoreResult (Except DecodeError Instr)) : Host.Outcome State Fault Refusal :=
  match r with
  | .ok (.ok i) s => exec i s
  | .ok (.error e) _ => .refused (.undecodable e)
  | .raise e s => .next (raiseError e s)
  | .fault f => .fault f

/-- The core's move in its phase (R62). In IDLE and END it does nothing (R423). -/
def coreStep (s : State) : Host.Outcome State Fault Refusal :=
  match s.phase with
  | .idle => .next s
  | .startCheck => (startPhase s).outcome
  | .infHdr => runElement (fetchHeader s)
  | .infStored => (storedBody s).outcome
  | .infDynHdr => runElement (fetchCodeLength s)
  | .infSym => runElement (fetchSymbol s)
  | .infEnd => (endChecks s).outcome
  | .recon => runElement (fetchTag s)
  | .expand => runElement (fetchFormat s)
  | .ended => .next s

/-- A host register write: a command word at CTRL is run as its element (R112), any other write is plain (R340). -/
def regWriteStep (addr : Word) (bits : Nat) (w : Word) (s : State) : Host.Outcome State Fault Refusal :=
  match regOffset s.params addr bits with
  | none => .refused .illegalRegisterAccess
  | some off =>
    if off = 0 then
      match decode .cmd w.toNat with
      | .ok i => exec i s
      | .error _ => .next (hostPlainWrite 0 w s)
    else .next (hostPlainWrite off w s)

/-- A host register read. -/
def regReadStep (addr : Word) (bits : Nat) (s : State) : Host.Outcome State Fault Refusal :=
  match regOffset s.params addr bits with
  | none => .refused .illegalRegisterAccess
  | some off => .next (hostRegRead off s)

/-- One step of the machine. -/
def step (s : State) : Host.Outcome State Fault Refusal :=
  match s.bus.queue with
  | [] => coreStep s
  | .yieldCore :: q => coreStep (s.withQueue q)
  | .pollNotBusy :: q => if s.isBusy then coreStep s else .next ((s.withQueue q).returned (statusWord s.status))
  | .regWrite addr bits w :: q => regWriteStep addr bits w (s.withQueue q)
  | .regRead addr bits :: q => regReadStep addr bits (s.withQueue q)
  | .memWrite addr b :: q => .next (hostMemWrite addr.toNat b (s.withQueue q))
  | .memRead addr :: q => .next (hostMemRead addr.toNat (s.withQueue q))
  | .reset :: q => .next (resetEvent (s.withQueue q))

/-- s with the element of an opcode-table word where the next step reads its element (log 16). -/
def State.withFetchWord (s : State) (nbits w : Nat) : State := placeWord (tableFormat nbits w) w s

end Sys2Proof.Machine
end

