-- ==== Sys2Proof/Safety.lean ====
section
/-! DEFINITION. The terms claims are stated in: the logical stream as a list of bits, the canonical code, the layout of
RAW, the invariant of a run, and what a run of the core is. Nothing here is part of the machine. -/

namespace Sys2Proof.Machine

/-! ## The logical stream (R160) -/

/-- The bytes of segment i from offset `off` on. -/
def State.segBytes (s : State) (i off : Nat) : List Byte :=
  ((List.range (s.segs.lenAt i).toNat).drop off).map fun k => s.coreRead ((s.segs.baseAt i).toNat + k)

/-- STREAM (R160). -/
def State.logicalStream (s : State) : List Byte :=
  (List.range s.segs.count.toNat).flatMap fun i => s.segBytes i 0

/-- The bytes of STREAM that the cursor has not fetched. -/
def State.unread (s : State) : List Byte :=
  if s.cursor.segIdx < s.segs.count.toNat then
    s.segBytes s.cursor.segIdx s.cursor.segOff ++
      ((List.range s.segs.count.toNat).drop (s.cursor.segIdx + 1)).flatMap fun i => s.segBytes i 0
  else []

/-- The bits of a byte in the order they are delivered: least significant first (R84). -/
def byteBits (b : Byte) : List Bool := (List.range 8).map b.getLsbD

/-- The bits the cursor has yet to deliver: those left in `bitbuf`, then those of the unread bytes. -/
def State.bitsLeft (s : State) : List Bool :=
  (List.range s.cursor.bitcnt).map s.cursor.bitbuf.getLsbD ++ s.unread.flatMap byteBits

/-- The n bits from the k-th undelivered one on, the first being bit 0 (R84). -/
def State.peek (s : State) (k n : Nat) : Nat := packBits ((s.bitsLeft.drop k).take n)

/-- R164: 0 ≤ bitcnt ≤ 7 and bitbuf < 2^bitcnt. -/
abbrev Cursor.Tidy (c : Cursor) : Prop := c.bitcnt ≤ 7 ∧ c.bitbuf.toNat < 2 ^ c.bitcnt

/-- `t` is `s` with another cursor, n bits further in the stream, with only the bytes fetched that those bits need
(R61, R163). -/
abbrev State.Advanced (s t : State) (n : Nat) : Prop :=
  t = { s with cursor := t.cursor } ∧ t.cursor.Tidy ∧ t.bitsLeft = s.bitsLeft.drop n ∧
    t.cursor.consumed = s.cursor.consumed + BitVec.ofNat 32 (ceilDiv (n - s.cursor.bitcnt) 8)

/-! ## Canonical codes (R189) -/

/-- base[l] of R189. -/
def codeBase (lens : List Nat) : Nat → Nat
  | 0 => 0
  | 1 => 0
  | l + 2 => 2 * (codeBase lens (l + 1) + lens.count (l + 1))

/-- code(s) of R189: base[L] + rank(s). -/
def canonicalCode (lens : List Nat) (sym : Nat) : Nat :=
  codeBase lens (lens.getD sym 0) + (lens.take sym).count (lens.getD sym 0)

/-! ## RAW's layout (R250, R275) and the raster -/

/-- How many bytes of RAW the passes before pass p take. -/
def GeomRegs.passStart (g : GeomRegs) (p : Nat) : Nat :=
  (((passesOf g.format.interlace).take (p - 1)).map fun q =>
    q.passBytes g.width.toNat g.height.toNat g.format.bitsPerPixel).sum

/-- rowbytes of pass p (R250). -/
def GeomRegs.rowBytesOf (g : GeomRegs) (p : Nat) : Nat :=
  (passGeom g.format.interlace p).rowBytes g.width.toNat g.format.bitsPerPixel

/-- The RAW index of the tag of row `row` of pass p. -/
def GeomRegs.tagIndex (g : GeomRegs) (p row : Nat) : Nat := g.passStart p + row * (1 + g.rowBytesOf p)

/-- Pass p exists and row `row` is one of its rows. -/
abbrev GeomRegs.HasRow (g : GeomRegs) (p row : Nat) : Prop :=
  1 ≤ p ∧ p ≤ (passesOf g.format.interlace).length ∧ 0 < (passGeom g.format.interlace p).pw g.width.toNat ∧
    row < (passGeom g.format.interlace p).ph g.height.toNat

/-- WIDTH, HEIGHT and FORMAT pass R344 and R345. -/
abbrev GeomRegs.Legal (g : GeomRegs) : Prop :=
  g.width ≠ 0 ∧ g.height ≠ 0 ∧ g.format.interlace.toNat ≤ 1 ∧ g.format.supported = true

/-! ## The invariant -/

/-- A phase of the inflate engine (R62). -/
def Phase.inflating : Phase → Bool
  | .infHdr | .infStored | .infDynHdr | .infSym | .infEnd => true
  | .idle | .startCheck | .recon | .expand | .ended => false

/-- Every list of cells is in its canonical form, and holds only indices that exist. -/
abbrev State.Canonical (s : State) : Prop :=
  s.hmem.wf = true
    ∧ (risingFrom 0 s.raw.cells = true ∧ ∀ c ∈ s.raw.cells, c.1 < s.params.rawCapMax)
    ∧ (risingFrom 0 s.color.pal = true ∧ ∀ c ∈ s.color.pal, c.1 < 256)
    ∧ (risingFrom 0 s.color.trns = true ∧ ∀ c ∈ s.color.trns, c.1 < 256)
    ∧ (risingFrom 0 s.segs.base = true ∧ ∀ c ∈ s.segs.base, c.1 < s.params.maxSegs ∧ c.2 ≠ 0)
    ∧ (risingFrom 0 s.segs.len = true ∧ ∀ c ∈ s.segs.len, c.1 < s.params.maxSegs ∧ c.2 ≠ 0)
    ∧ (s.inflate.clLen.length = 19 ∧ ∀ v ∈ s.inflate.clLen, v ≤ 7)
    ∧ (s.inflate.len.length = 320 ∧ ∀ v ∈ s.inflate.len, v ≤ 15)

/-- STATUS, the phase and RAWVALID agree: BUSY in every phase but IDLE and END (R62), an error code exactly in ERROR
(R35), a valid RAW only of a legal geometry that fits it (R52), and a mark of R92 only while BUSY. -/
abbrev State.StatusAgrees (s : State) : Prop :=
  (s.isBusy = true ↔ s.phase ≠ .idle ∧ s.phase ≠ .ended)
    ∧ (s.status.errCode ≠ 0 ↔ s.status.state = .error)
    ∧ (s.status.rawvalid = true →
        s.status.state ≠ .error ∧ s.geom.Legal ∧ s.geom.rasterSize ≤ s.params.rawCapMax)
    ∧ (s.isBusy = false → s.race = [])

/-- What the start checks have established, from the end of START_CHECK on (R341 to R349). -/
abbrev State.Started (s : State) : Prop :=
  s.geom.Legal ∧ s.geom.rasterSize ≤ s.params.rawCapMax
    ∧ (s.isDecode = true ∨ s.isExpand = true)
    ∧ (s.isDecode = true →
        s.segs.count.toNat ≤ s.params.maxSegs ∧ s.segs.fit = true ∧ s.segs.total ≤ 2 ^ 32 - 1)
    ∧ (s.isExpand = true → s.out.base.toNat + s.out.cap.toNat ≤ 2 ^ 32 ∧ s.rasterBytes ≤ s.out.cap.toNat)

/-- The inflate engine's registers in its phases: the bit cursor is tidy (R164) and cannot overrun its counter (R82),
out_pos stays within S (R222), and the tables hold symbols of their alphabets (R56, R208). -/
abbrev State.InflateSound (s : State) : Prop :=
  s.isDecode = true
    ∧ s.cursor.Tidy
    ∧ s.cursor.consumed.toNat + s.unread.length ≤ s.segs.total
    ∧ s.inflate.outPos.toNat ≤ s.geom.rasterSize
    ∧ (s.phase = .infDynHdr →
        257 ≤ s.inflate.hlit ∧ s.inflate.hlit ≤ 288 ∧ 1 ≤ s.inflate.hdist ∧ s.inflate.hdist ≤ 30
          ∧ s.inflate.lenIdx < s.inflate.hlit + s.inflate.hdist ∧ ∀ v ∈ s.tables.clt.symbol, v < 19)
    ∧ (s.phase = .infSym →
        s.inflate.btype = 1 ∨ ((∀ v ∈ s.tables.lt.symbol, v < 288) ∧ ∀ v ∈ s.tables.dt.symbol, v < 30))

/-- The reconstructor stands at a row of the raster (R252, R275). -/
abbrev State.ReconSound (s : State) : Prop :=
  s.isDecode = true
    ∧ s.geom.HasRow s.recon.pass s.recon.row
    ∧ s.recon.bpp = s.geom.format.filterUnit
    ∧ s.recon.rowbytes = s.geom.rowBytesOf s.recon.pass
    ∧ s.recon.cur = s.geom.tagIndex s.recon.pass s.recon.row + 1
    ∧ s.recon.prev =
        if s.recon.row = 0 then none else some (s.geom.tagIndex s.recon.pass (s.recon.row - 1) + 1)

/-- The normalizer stands at a pixel of the raster, with a valid RAW (R292). -/
abbrev State.ExpandSound (s : State) : Prop :=
  s.isExpand = true
    ∧ s.status.rawvalid = true
    ∧ s.geom.HasRow s.norm.pass s.norm.row
    ∧ s.norm.col < (passGeom s.geom.format.interlace s.norm.pass).pw s.geom.width.toNat
    ∧ s.norm.rawpos = s.geom.tagIndex s.norm.pass s.norm.row

/-- The invariant: what every state of a run from reset satisfies. -/
abbrev State.Inv (s : State) : Prop :=
  s.params.Legal ∧ s.Canonical ∧ s.StatusAgrees
    ∧ (s.isBusy = true → s.phase ≠ .startCheck → s.Started)
    ∧ (s.phase.inflating = true → s.InflateSound)
    ∧ (s.phase = .recon → s.ReconSound)
    ∧ (s.phase = .expand → s.ExpandSound)

/-! ## Runs of the core -/

/-- n moves of the core, none of the host between them; `none` where a move faults or is refused. -/
def coreRun : Nat → State → Option State
  | 0, s => some s
  | n + 1, s =>
    match coreStep s with
    | .next t => coreRun n t
    | .fault _ => none
    | .refused _ => none

/-! ## Terms of the statements -/

/-- What `raise e` leaves when the failing step has left `s` (R410 to R412): the STATUS of the error, the phase END,
and nothing else changed but what R412 leaves unspecified; no HMEM byte outside OUT, and none at all for a command that
does not expand. -/
abbrev State.Failed (s t : State) (e : Err) : Prop :=
  t.status = ⟨.error, false, e.code⟩ ∧ t.phase = .ended
    ∧ t = { s with status := t.status, phase := t.phase, raw := t.raw, tables := t.tables, hmem := t.hmem,
                   race := t.race, draws := t.draws }
    ∧ (∀ a, s.inOut a = false → t.hmem.read a = s.hmem.read a)
    ∧ (s.isExpand = false → s.race = [] → t.hmem = s.hmem)

/-- `r` is the state of `s` with n bytes `byte 0`, `byte 1`, … written from out_pos on. -/
abbrev RawBuf.Grown (s r : RawBuf) (pos n : Nat) (byte : Nat → Byte) : Prop :=
  ∀ i, r.read i = if pos ≤ i ∧ i < pos + n then byte (i - pos) else s.read i

/-- n more bytes fit in RAW after out_pos: within S (R222), within RAW_CAP_MAX, and the count fits its register. -/
abbrev State.HasRoom (s : State) (n : Nat) : Prop :=
  s.inflate.outPos.toNat + n ≤ s.geom.rasterSize ∧ s.inflate.outPos.toNat + n ≤ s.params.rawCapMax
    ∧ s.params.rawCapMax < 2 ^ 32

/-- The segments lie in HMEM (R343), and the bit cursor is tidy (R164). -/
abbrev State.CanRead (s : State) : Prop := s.segs.fit = true ∧ s.cursor.Tidy

/-- The element of a START write with the given CMD (R111). -/
def startElement (cmd : BitVec 2) (inchk ie clear : Bool) : Instr :=
  if cmd = 0 then .cmdReserved inchk ie clear
  else if cmd = 1 then .cmdDecode inchk ie clear
  else if cmd = 2 then .cmdExpand inchk ie clear
  else .cmdDecodeExpand inchk ie clear

/-- The (COLOR_MODEL, BIT_DEPTH) pairs of R142. -/
def formatPairs : List (Nat × Nat) :=
  [(0, 1), (0, 2), (0, 4), (0, 8), (0, 16), (2, 8), (2, 16), (3, 1), (3, 2), (3, 4), (3, 8)] ++
  [(4, 8), (4, 16), (6, 8), (6, 16)]

/-- The (SEG_BASE, SEG_LEN) pairs of the segments in use. -/
def SegRegs.pairs (g : SegRegs) : List (Nat × Nat) :=
  (List.range g.count.toNat).map fun i => ((g.baseAt i).toNat, (g.lenAt i).toNat)

/-- Σ SEG_LEN[i] over the segments in use. -/
def SegRegs.sumLen (g : SegRegs) : Nat := (g.pairs.map Prod.snd).sum

/-- A TRNS_LEN that R346 allows. -/
abbrev trnsAllowed (model palCount trnsLen : Nat) : Prop :=
  trnsLen = 0 ∨ (model = 0 ∧ trnsLen = 2) ∨ (model = 2 ∧ trnsLen = 6) ∨ (model = 3 ∧ trnsLen ≤ palCount)

/-- The conditions under which the checks R341, R342, …, R347 fail, in order, with the errors they raise, for a START
with the given CMD. -/
def checksToR347 (cmd : Nat) (s : State) : List (Bool × Err) :=
  let dec : Prop := cmd = 1 ∨ cmd = 3
  let exp : Prop := cmd = 2 ∨ cmd = 3
  [(decide (cmd = 0 ∨ (cmd = 2 ∧ s.status.rawvalid = false)), .illegalCommand),
   (decide (dec ∧ s.params.maxSegs < s.segs.count.toNat), .illegalCommand),
   (decide (256 < s.color.palCount.toNat ∨ 256 < s.color.trnsLen.toNat), .illegalCommand),
   (decide (dec ∧ ∃ p ∈ s.segs.pairs, 2 ^ 32 < p.1 + p.2), .illegalCommand),
   (decide (dec ∧ 2 ^ 32 - 1 < s.segs.sumLen), .illegalCommand),
   (decide (exp ∧ 2 ^ 32 < s.out.base.toNat + s.out.cap.toNat), .illegalCommand),
   (decide (s.geom.width = 0 ∨ s.geom.height = 0 ∨ 1 < s.geom.format.interlace.toNat), .malformedHeader),
   (decide ((s.geom.format.colorModel.toNat, s.geom.format.bitDepth.toNat) ∉ formatPairs), .unsupportedPixelFormat),
   (decide (¬ trnsAllowed s.geom.format.colorModel.toNat s.color.palCount.toNat s.color.trnsLen.toNat),
    .unsupportedTransparency),
   (decide (dec ∧ s.segs.sumLen = 0), .missingImageData)]

/-- The same for R348 and R349. -/
def checksFromR348 (cmd : Nat) (s : State) : List (Bool × Err) :=
  [(decide ((cmd = 1 ∨ cmd = 3) ∧ s.params.rawCapMax < s.geom.rasterSize), .outputOverflow),
   (decide ((cmd = 2 ∨ cmd = 3) ∧ s.out.cap.toNat < s.geom.width.toNat * s.geom.height.toNat * 4), .outputOverflow)]

/-- The error of the first check that fails (R341). -/
def firstFailure : List (Bool × Err) → Option Err
  | [] => none
  | (failed, e) :: r => if failed then some e else firstFailure r

/-- The error a START raises, if any (R341 to R349). -/
def startError (cmd : Nat) (s : State) : Option Err := firstFailure (checksToR347 cmd s ++ checksFromR348 cmd s)

/-- Σ count[l]·2^(L - l) over 1 ≤ l ≤ L: the code space the lengths up to L take, of 2^L (R182). -/
def codeSpaceUsed (lens : List Nat) (L : Nat) : Nat :=
  ((List.range L).map fun l => lens.count (l + 1) * 2 ^ (L - (l + 1))).sum

/-- What a code-length symbol writes (R210 to R213): its extra bits, its least count, and the length it repeats. A
repeat of the previous length needs one. -/
def codeLengthShape (r : InflateRegs) : Instr → Option (Nat × Nat × Nat)
  | .clLen v => some (0, 1, v)
  | .clRepPrev => if r.lenIdx = 0 then none else some (2, 3, r.len.getD (r.lenIdx - 1) 0)
  | .clRepZero3 => some (3, 3, 0)
  | .clRepZero11 => some (7, 11, 0)
  | _ => none

/-- The predictor of a filter tag on the bytes left, up and upper-left (R253 to R257). -/
def predictor (tag a b c : Nat) : Nat :=
  let p : Int := (a : Int) + b - c
  if tag = 0 then 0
  else if tag = 1 then a
  else if tag = 2 then b
  else if tag = 3 then (a + b) / 2
  else if |p - a| ≤ |p - b| ∧ |p - a| ≤ |p - c| then a
  else if |p - b| ≤ |p - c| then b
  else c

/-- The filter element of a tag 0 to 4 (R125). -/
def filterElement (tag : Nat) : Instr :=
  if tag = 0 then .filtNone else if tag = 1 then .filtSub else if tag = 2 then .filtUp
  else if tag = 3 then .filtAvg else .filtPaeth

/-- The row the reconstructor stands at lies in RAW, after the previous row of its pass. -/
abbrev State.RowInRaw (s : State) : Prop :=
  1 ≤ s.recon.bpp ∧ s.recon.cur + s.recon.rowbytes ≤ s.params.rawCapMax
    ∧ ∀ p, s.recon.prev = some p → p + s.recon.rowbytes ≤ s.recon.cur

/-- The byte of the row above at i, 0 on the first row of a pass (R252). -/
def State.above (s : State) (i : Nat) : Nat :=
  match s.recon.prev with
  | none => 0
  | some p => (s.raw.read (p + i)).toNat

/-- Bit k of a row's data, counting from the most significant bit of its first byte (R293). -/
def rowBit (raw : RawBuf) (start k : Nat) : Nat := (raw.read (start + k / 8)).toNat / 2 ^ (7 - k % 8) % 2

/-- The n-bit number at bit k of a row's data, most significant bit first (R84, R293, R294, R297). -/
def rowNumber (raw : RawBuf) (start k : Nat) : Nat → Nat
  | 0 => 0
  | n + 1 => 2 * rowNumber raw start k n + rowBit raw start (k + n)

/-- Sample k of the pixel the normalizer stands at, for `ch` channels of depth d. -/
def State.sampleAt (s : State) (d ch k : Nat) : Nat :=
  rowNumber s.raw (s.norm.rawpos + 1) ((s.norm.col * ch + k) * d) d

/-- The pixel the normalizer stands at lies in RAW, its four bytes in HMEM; HMEM is in canonical form, and the host has
written no byte while BUSY (the premise of R92). -/
abbrev State.PixelReady (s : State) (d ch : Nat) (il : Byte) : Prop :=
  s.norm.rawpos + 1 + ceilDiv ((s.norm.col + 1) * ch * d) 8 ≤ s.params.rawCapMax
    ∧ pixelAddress il s + 3 < 2 ^ 32 ∧ s.hmem.wf = true ∧ s.race = []

/-- 8-bit value of a channel of depth 8 or 16 (R298, R299). -/
def channel8 (d v : Nat) : Nat := if d = 16 then (v + 128) / 257 else v

/-- A 16-bit key of the transparency record (R300). -/
def ColorRegs.keyValue (c : ColorRegs) (i : Nat) : Nat := (c.trnsAt i).toNat * 256 + (c.trnsAt (i + 1)).toNat

/-- From `s` to `t`, the pixel element wrote R, G, B, A at the address of its pixel and no other HMEM byte; of the rest
only the traversal, and at the end of the command the phase and STATUS.STATE, have changed. -/
abbrev State.WrotePixel (s t : State) (il : Byte) (r g b a : Nat) : Prop :=
  let o := pixelAddress il s
  (t.hmem.read o).toNat = r ∧ (t.hmem.read (o + 1)).toNat = g ∧ (t.hmem.read (o + 2)).toNat = b
    ∧ (t.hmem.read (o + 3)).toNat = a
    ∧ (∀ x, x < o ∨ o + 4 ≤ x → t.hmem.read x = s.hmem.read x)
    ∧ t = { s with hmem := t.hmem, norm := t.norm, phase := t.phase,
                   status := { s.status with state := t.status.state } }

/-- Which bits of the register at an offset a host write stores; `none` for a read-only or unmapped offset (R33 to
R47). -/
def writeMask (p : Params) (off : Nat) : Option Word :=
  if off = 0x000 then some 0x1E
  else if off = 0x008 ∨ off = 0x00C then some 0xFFFFFFFF
  else if off = 0x010 then some 0x00FFFFFF
  else if off = 0x014 then some 0xFFFF
  else if off = 0x018 ∨ off = 0x01C then some 0xFFFFFFFF
  else if off = 0x020 ∨ off = 0x024 then some 0x1FF
  else if off = 0x028 ∨ off = 0x02C then some 0xFFFFFFFF
  else if off < 0x100 then none
  else if off < 0x100 + 8 * p.maxSegs then some 0xFFFFFFFF
  else if off < 0x800 then none
  else if off < 0xC00 then some 0x00FFFFFF
  else some 0xFF

/-- An offset of the register window (R32). -/
abbrev WindowOffset (off : Nat) : Prop := off < 4096 ∧ off % 4 = 0

/-- The next move is the core's. -/
abbrev State.CoreMoves (s : State) : Prop := s.bus.queue = [] ∨ ∃ q, s.bus.queue = .yieldCore :: q

end Sys2Proof.Machine
end

