-- ==== Sys2Proof/Certificates/Slice0/Obligations.lean ====
section
/-! DEFINITION. The statements about ZIS-CORE, from the spec's numbered rules. OBLIGATIONS.json lists them. -/

open Sys2Proof Sys2Proof.Machine

/-! ## Encodings -/

/-- Every element is read back from its word. -/
def Obligations.DecodeOfEncodeIsIdentity : Prop :=
  ∀ i : Instr, i.wellFormed = true → decode i.format (encode i) = .ok i

/-- Every word that decodes is the word of its element, but for the reserved bits of CTRL and FORMAT. -/
def Obligations.EncodeOfDecodeIsIdentity : Prop :=
  ∀ (f : Format) (w : Nat) (i : Instr), decode f w = .ok i →
    i.wellFormed = true ∧ i.format = f ∧
      encode i = if f = .cmd then w % 64 else if f = .pixfmt then w % 2 ^ 24 else w

/-- Words written out from the tables of 30_encoding.md. -/
def Obligations.TableWordsDecode : Prop :=
  decode .cmd 0x0F = .ok (.cmdDecodeExpand true false false) ∧ decode .cmd 0x34 = .ok (.ctrlClear 2 false true)
    ∧ decode .cmd 0x10 = .error .plainCtrlWrite
    ∧ decode .bhdr 0b101 = .ok (.blkDynamic true) ∧ decode .cl 17 = .ok .clRepZero3
    ∧ decode .litlen 256 = .ok .eob ∧ decode .litlen 285 = .ok (.len 285) ∧ decode .dist 29 = .ok (.dist 29)
    ∧ decode .filter 4 = .ok .filtPaeth ∧ decode .pixfmt 0x00010310 = .error .unsupportedPixelFormat
    ∧ decode .pixfmt 0x00010602 = .error .unsupportedPixelFormat
    ∧ decode .pixfmt 0x00010610 = .ok (.pixRgba16 1)

/-- R123, R124, R189: the fixed codes are the canonical codes of the fixed lengths; in a fixed block the bits of a
symbol's code are read as that symbol, and no bit more is. The two distance codes no symbol has are read as 30 and 31
(log 14). -/
def Obligations.FixedCodesAreReadAsTheirSymbols : Prop :=
  (∀ sym < 288, fixedLitLenCode sym = codeBits (fixedLitLens.getD sym 0) (canonicalCode fixedLitLens sym))
    ∧ (∀ sym < 30, fixedDistCode sym = codeBits (fixedDistLens.getD sym 0) (canonicalCode fixedDistLens sym))
    ∧ ∀ (s : State) (sym : Nat), s.CanRead → s.inflate.btype = 1 →
        (s.inflate.needDist = false → sym < 288 → fixedLitLenCode sym <+: s.bitsLeft →
          ∃ t, fetchSymbol s = .ok (decode .litlen sym) t ∧ s.Advanced t (fixedLitLenCode sym).length)
        ∧ (s.inflate.needDist = true → sym < 32 → fixedDistCode sym <+: s.bitsLeft →
          ∃ t, fetchSymbol s = .ok (decode .dist sym) t ∧ s.Advanced t 5)

/-! ## A step runs the decoded element -/

/-- A CTRL word the host writes is run as its element; any other legal write is a plain write. -/
def Obligations.CtrlWriteRunsItsElement : Prop :=
  ∀ (s : State) (q : List HostMove) (addr w : Word) (off : Nat),
    s.bus.queue = .regWrite addr 32 w :: q → regOffset s.params addr 32 = some off →
      (∀ i, off = 0 → decode .cmd w.toNat = .ok i → step s = exec i (s.withQueue q))
      ∧ ((off ≠ 0 ∨ ∃ e, decode .cmd w.toNat = .error e) →
          step s = .next (hostPlainWrite off w (s.withQueue q)))

/-- What the core's step adds around exec: it has moved the cursor past the element's own bits. Each carrier is read in
its phase (R62, R110): the three header bits, the first of them written to bfinal on the way, a code-length symbol against CLT, a symbol of the block, the tag of the
row, the FORMAT register. -/
def Obligations.CoreStepRunsTheDecodedElement : Prop :=
  ∀ (s t : State) (q : List HostMove) (i : Instr), s.bus.queue = .yieldCore :: q →
    (s.phase = .infHdr → (∃ f b s1, takeBits 1 (s.withQueue q) = .ok f s1 ∧
        takeBits 2 { s1 with inflate := { s1.inflate with bfinal := f.testBit 0 } } = .ok b t ∧
        decode .bhdr (f + 2 * b) = .ok i) → step s = exec i t)
    ∧ (s.phase = .infDynHdr → (∃ v, decodeSym s.tables.clt (s.withQueue q) = .ok v t ∧ decode .cl v = .ok i) →
        step s = exec i t)
    ∧ (s.phase = .infSym → s.inflate.needDist = false →
        (∃ v, decodeSym (if s.inflate.btype = 1 then fixedLit else s.tables.lt) (s.withQueue q) = .ok v t ∧
          decode .litlen v = .ok i) → step s = exec i t)
    ∧ (s.phase = .infSym → s.inflate.needDist = true → s.inflate.btype ≠ 1 →
        (∃ v, decodeSym s.tables.dt (s.withQueue q) = .ok v t ∧ decode .dist v = .ok i) → step s = exec i t)
    ∧ (s.phase = .infSym → s.inflate.needDist = true → s.inflate.btype = 1 →
        (∃ v, fetchFixedDist (s.withQueue q) = .ok (decode .dist v) t ∧ decode .dist v = .ok i) → step s = exec i t)
    ∧ (s.phase = .recon → s.recon.cur - 1 < s.params.rawCapMax →
        decode .filter (s.raw.read (s.recon.cur - 1)).toNat = .ok i → step s = exec i (s.withQueue q))
    ∧ (s.phase = .expand → decode .pixfmt (formatWord s.geom.format).toNat = .ok i →
        step s = exec i (s.withQueue q))

/-! ## Registers and host moves -/

/-- R32, R33, R34, R37 to R47, R340: a register reads back what was last written, within its fields; read-only and
unmapped offsets ignore writes; no other register changes, but for RAWVALID after a write of the geometry (R52). While
not BUSY a host read returns the register and a POLL the STATUS word, and neither changes anything else. -/
def Obligations.RegisterReadsBackWhatWasWritten : Prop :=
  (∀ (s : State) (q : List HostMove) (addr w : Word) (off : Nat), s.Canonical → s.params.Legal → s.isBusy = false →
    s.bus.queue = .regWrite addr 32 w :: q → regOffset s.params addr 32 = some off →
    (off = 0 → w.getLsbD 0 = false ∧ w.getLsbD 5 = false) →
    ∃ t, step s = .next t ∧
      readReg t off = (match writeMask s.params off with | some m => w &&& m | none => readReg s off) ∧
      ∀ off2, WindowOffset off2 → off2 ≠ off →
        readReg t off2 =
          if (off = 0x008 ∨ off = 0x00C ∨ off = 0x010) ∧ off2 = 0x004 then
            statusWord { s.status with rawvalid := false }
          else readReg s off2)
  ∧ ∀ (s : State) (q : List HostMove) (addr : Word) (off : Nat), s.isBusy = false →
    regOffset s.params addr 32 = some off →
    (s.bus.queue = .regRead addr 32 :: q → step s = .next { s with bus := { queue := q, readData := readReg s off } })
    ∧ (s.bus.queue = .pollNotBusy :: q →
        step s = .next { s with bus := { queue := q, readData := readReg s 0x004 } })

/-- R32: an access of another width, misaligned or outside the window is refused (log 19); every other access takes
place. That REG_BASE has 32 bits and that an access below it is outside the window even where REG_BASE + 0xFFF passes
2^32 (the window does not wrap) is the model's choice, not the spec's (log 27). -/
def Obligations.OnlyIllegalAccessesAreRefused : Prop :=
  ∀ (s : State) (q : List HostMove) (addr w : Word) (bits : Nat),
    (s.bus.queue = .regWrite addr bits w :: q ∨ s.bus.queue = .regRead addr bits :: q) →
    let off : Int := (addr.toNat : Int) - s.params.regBase.toNat
    if bits = 32 ∧ 0 ≤ off ∧ off < 4096 ∧ off % 4 = 0 then ∃ t, step s = .next t
    else step s = .refused .illegalRegisterAccess

/-- R51: while BUSY every register write is ignored, CTRL words among them; a read of a counter returns a draw, any
other read the register's value. -/
def Obligations.BusyCoreIgnoresHostWrites : Prop :=
  ∀ (s : State) (q : List HostMove) (addr w : Word) (off : Nat), s.isBusy = true →
    regOffset s.params addr 32 = some off →
    (s.bus.queue = .regWrite addr 32 w :: q → step s = .next (s.withQueue q))
    ∧ (s.bus.queue = .regRead addr 32 :: q →
        ∃ t, step s = .next t ∧
          t.bus.readData = if off = 0x030 ∨ off = 0x034 ∨ off = 0x038 then Config.freeCounter s.draws
            else readReg s off)

/-- R52: RAWVALID falls in the four cases of the rule and in no other, and rises in its one. -/
def Obligations.RawValidChangesOnlyAsStated : Prop :=
  ∀ (s t : State) (q : List HostMove) (addr w : Word) (off : Nat), s.Inv → step s = .next t →
    (s.bus.queue = .reset :: q → t.status.rawvalid = false)
    ∧ (s.bus.queue = .regWrite addr 32 w :: q → regOffset s.params addr 32 = some off → s.isBusy = false →
        (off = 0 ∧ w.getLsbD 0 = true ∧ w.getLsbD 1 = true) ∨ off = 0x008 ∨ off = 0x00C ∨ off = 0x010 →
        t.status.rawvalid = false)
    ∧ (t.status.state = .error → t.status.rawvalid = false)
    ∧ (s.status.rawvalid = false → t.status.rawvalid = true →
        s.phase = .recon ∧ t.phase ≠ .recon ∧ t.status.state ≠ .error ∧ s.isDecode = true)
    ∧ (s.status.rawvalid = true → t.status.rawvalid = false →
        (∃ q', s.bus.queue = .reset :: q') ∨ (s.status.state ≠ .error ∧ t.status.state = .error)
          ∨ ∃ addr' w' q' off', s.bus.queue = .regWrite addr' 32 w' :: q' ∧
              regOffset s.params addr' 32 = some off' ∧ s.isBusy = false ∧
              ((off' = 0 ∧ w'.getLsbD 0 = true ∧ w'.getLsbD 1 = true) ∨ off' = 0x008 ∨ off' = 0x00C ∨ off' = 0x010))

/-- R66. A START that fails a check ends in ERROR within its one step (log 3), so irq has fallen and, with IE = 1, risen
again in it; the clause on a START leaves that case out. -/
def Obligations.IrqFollowsCompletionAndEnable : Prop :=
  (∀ s : State, s.irq = true ↔ s.ctrl.ie = true ∧ (s.status.state = .done ∨ s.status.state = .error))
    ∧ (∀ (s t : State) (cmd : BitVec 2) (inchk ie : Bool), s.isBusy = false →
        exec (.ctrlClear cmd inchk ie) s = .next t → t.irq = false)
    ∧ (∀ (s t : State) (cmd : BitVec 2) (inchk ie clear : Bool), s.isBusy = false →
        startError cmd.toNat s = none ∨ ie = false →
        exec (startElement cmd inchk ie clear) s = .next t → t.irq = false)
    ∧ (∀ (s : State) (w : Word), w.getLsbD 4 = false → (writeReg 0 w s).irq = false)
    ∧ State.reset.irq = false

/-- R450, R451, R454, R67: the reset input at any time. An OUT byte the host wrote while BUSY is unspecified after it,
whatever the command (R92; log 11). -/
def Obligations.ResetInputRestoresResetValues : Prop :=
  ∀ (s : State) (q : List HostMove), s.bus.queue = .reset :: q →
    ∃ t, step s = .next t
      ∧ t.ctrl = ⟨0, false, false⟩ ∧ t.status = ⟨.idle, false, 0⟩ ∧ statusWord t.status = 0
      ∧ t.geom = ⟨0, 0, ⟨0, 0, 0⟩⟩
      ∧ t.segs.count = 0 ∧ t.segs.inSkip = 0 ∧ t.segs.expIn = 0
      ∧ (∀ i, t.segs.baseAt i = 0 ∧ t.segs.lenAt i = 0)
      ∧ t.color.palCount = 0 ∧ t.color.trnsLen = 0 ∧ t.out = ⟨0, 0⟩
      ∧ t.rawSize = 0 ∧ t.inflate.outPos = 0 ∧ t.cursor.consumed = 0
      ∧ (∀ i, t.color.palAt i = Config.freePal s.draws i ∧ t.color.trnsAt i = Config.freeTrns s.draws i
            ∧ t.raw.read i = Config.freeRaw s.draws i)
      ∧ t.phase = .idle ∧ t.irq = false ∧ t.params = s.params
      ∧ (∀ a, s.isBusy = false ∨ s.inOut a = false ∨ (s.isExpand = false ∧ lookupCell a s.race = none) →
            t.hmem.read a = s.hmem.read a)

/-- R36 and R63: STATE changes only by START, CLEAR, the end or the error of a running command, and reset; ERR_CODE only
by START, CLEAR, an error and reset; `bfinal` only by a block header and reset. A header writes bfinal before it reads
BTYPE (R201), so bfinal stays written when the stream ends inside the header (R417). -/
def Obligations.FlagsChangeOnlyAsStated : Prop :=
  (∀ s t : State, step s = .next t →
    let accepted (k : Nat) : Prop := ∃ addr w q, s.bus.queue = .regWrite addr 32 w :: q ∧
      regOffset s.params addr 32 = some 0 ∧ s.isBusy = false ∧ w.getLsbD k = true
    let cleared : Prop := t.status.state = .idle ∧ t.status.errCode = 0 ∧ t.status.rawvalid = s.status.rawvalid
    let ranToItsEnd : Prop := s.phase ≠ .idle ∧ s.phase ≠ .ended ∧ t.phase = .ended
    let resets : Prop := ∃ q, s.bus.queue = .reset :: q
    (t.status.state ≠ s.status.state →
      accepted 0 ∨ (accepted 5 ∧ cleared) ∨ (resets ∧ t.status.state = .idle)
        ∨ (ranToItsEnd ∧ (t.status.state = .done ∨ t.status.state = .error)))
    ∧ (t.status.errCode ≠ s.status.errCode →
      accepted 0 ∨ (accepted 5 ∧ cleared) ∨ (resets ∧ t.status.errCode = 0)
        ∨ (ranToItsEnd ∧ t.status.state = .error))
    ∧ (t.inflate.bfinal ≠ s.inflate.bfinal → s.phase = .infHdr ∨ resets))
  ∧ ∀ (s : State) (q : List HostMove), s.CanRead → s.bus.queue = .yieldCore :: q → s.phase = .infHdr →
    s.bitsLeft.length < 3 →
    ∃ t, step s = .next t ∧ t.status = ⟨.error, false, 1⟩ ∧ t.phase = .ended
      ∧ t.inflate = { s.inflate with bfinal := s.bitsLeft.headD s.inflate.bfinal }

/-! ## Commands -/

/-- R341 to R349: the checks run in order and the first that fails raises its error, before the counters, the cursor or
any byte outside OUT changes, or any byte at all for a command that does not expand; RAW_SIZE is written when the checks up to R347 have passed. -/
def Obligations.StartChecksRunInOrder : Prop :=
  ∀ (s : State) (cmd : BitVec 2) (inchk ie clear : Bool), s.isBusy = false →
    ∃ t, exec (startElement cmd inchk ie clear) s = .next t
      ∧ t.ctrl = ⟨cmd, inchk, ie⟩
      ∧ t.geom = s.geom ∧ t.segs = s.segs ∧ t.color = s.color ∧ t.out = s.out ∧ t.recon = s.recon
      ∧ t.params = s.params ∧ t.bus = s.bus
      ∧ t.rawSize = (if (cmd = 1 ∨ cmd = 3) ∧ firstFailure (checksToR347 cmd.toNat s) = none then
          BitVec.ofNat 32 (min s.geom.rasterSize (2 ^ 32 - 1)) else s.rawSize)
      ∧ (∀ e, startError cmd.toNat s = some e →
          t.status = ⟨.error, false, e.code⟩ ∧ t.phase = .ended ∧ t.cursor = s.cursor ∧ t.inflate = s.inflate
            ∧ t.norm = s.norm ∧ (∀ a, s.inOut a = false → t.hmem.read a = s.hmem.read a)
            ∧ (cmd ≠ 2 → cmd ≠ 3 → t.hmem = s.hmem))
      ∧ (startError cmd.toNat s = none →
          t.status.state = .busy ∧ t.status.errCode = 0 ∧ t.hmem = s.hmem ∧ t.raw = s.raw)

/-- R330 to R332, R334, R348, R200: a DECODE or DECODE_EXPAND whose checks pass waits for its first block header. -/
def Obligations.DecodeStartEntersInflate : Prop :=
  ∀ (s : State) (cmd : BitVec 2) (inchk ie clear : Bool), s.isBusy = false → cmd = 1 ∨ cmd = 3 →
    startError cmd.toNat s = none →
    exec (startElement cmd inchk ie clear) s =
      .next (cursorInit
        { s with
          ctrl := ⟨cmd, inchk, ie⟩
          status := ⟨.busy, false, 0⟩
          rawSize := BitVec.ofNat 32 (min s.geom.rasterSize (2 ^ 32 - 1))
          inflate := { s.inflate with outPos := 0 }
          phase := .infHdr
          race := [] })

/-- R330, R331, R333, R292: an EXPAND whose checks pass stands at the first pixel of pass 1. -/
def Obligations.ExpandStartEntersExpand : Prop :=
  ∀ (s : State) (inchk ie clear : Bool), s.isBusy = false → startError 2 s = none →
    exec (.cmdExpand inchk ie clear) s =
      .next
        { s with
          ctrl := ⟨2, inchk, ie⟩
          status := ⟨.busy, true, 0⟩
          norm := { s.norm with pass := 1, row := 0, col := 0, rawpos := 0 }
          phase := .expand
          race := [] }

/-- R335, R341, R410: CMD = 0 raises IllegalCommand. That RAW and the tables become unspecified is log 26. -/
def Obligations.ReservedCommandRaisesIllegalCommand : Prop :=
  ∀ (s : State) (inchk ie clear : Bool), s.isBusy = false →
    ∃ t, exec (.cmdReserved inchk ie clear) s = .next t
      ∧ t = { s with ctrl := ⟨0, inchk, ie⟩, status := ⟨.error, false, 22⟩, phase := .ended, raw := t.raw,
                     tables := t.tables, race := [], draws := t.draws }
      ∧ t.irq = ie

/-- R339. -/
def Obligations.ClearReturnsToIdle : Prop :=
  ∀ (s : State) (cmd : BitVec 2) (inchk ie : Bool), s.isBusy = false →
    exec (.ctrlClear cmd inchk ie) s =
      .next
        { s with
          ctrl := ⟨cmd, inchk, ie⟩
          status :=
            if s.status.state = .done ∨ s.status.state = .error then ⟨.idle, s.status.rawvalid, 0⟩ else s.status }

/-! ## Bit cursor -/

/-- R163, over the logical stream of R160 and R161: takeBits gives the next n bits, the first being bit 0, and fetches
no byte it does not need; past the end it raises TruncatedInput with every byte counted. -/
def Obligations.TakeBitsReadsTheLogicalStream : Prop :=
  ∀ (s : State) (n : Nat), n ≤ 24 → s.CanRead →
    (n ≤ s.bitsLeft.length → ∃ t, takeBits n s = .ok (s.peek 0 n) t ∧ s.Advanced t n)
    ∧ (s.bitsLeft.length < n → ∃ t, takeBits n s = .raise .truncatedInput t ∧ t = { s with cursor := t.cursor }
        ∧ t.cursor.consumed = s.cursor.consumed + BitVec.ofNat 32 s.unread.length)

/-- R166: the cursor starts at logical byte IN_SKIP, in the segment that holds it; with IN_SKIP at or past the end it
starts past the last segment. -/
def Obligations.CursorStartsAtInSkip : Prop :=
  ∀ s : State,
    cursorInit s = { s with cursor := (cursorInit s).cursor }
      ∧ (cursorInit s).unread = s.logicalStream.drop s.segs.inSkip.toNat
      ∧ (cursorInit s).cursor.consumed = 0 ∧ (cursorInit s).cursor.bitcnt = 0 ∧ (cursorInit s).cursor.bitbuf = 0
      ∧ (s.logicalStream.length ≤ s.segs.inSkip.toNat → (cursorInit s).cursor.segIdx = s.segs.count.toNat)
      ∧ ((cursorInit s).cursor.segIdx < s.segs.count.toNat →
          (cursorInit s).cursor.segOff < (s.segs.lenAt (cursorInit s).cursor.segIdx).toNat)

/-- R61: from one inflate element to the next the cursor only moves forward, by at least one bit where a header or a
symbol is read. -/
def Obligations.CursorMovesOnlyForward : Prop :=
  ∀ s t : State, s.Inv → s.CoreMoves → step s = .next t → s.phase.inflating = true → t.phase.inflating = true →
    ∃ n, t.bitsLeft = s.bitsLeft.drop n ∧ (s.phase ≠ .infStored → 1 ≤ n ∧ n ≤ s.bitsLeft.length)
      ∧ s.cursor.consumed.toNat ≤ t.cursor.consumed.toNat

/-! ## Huffman tables -/

/-- R182, in terms of the code space used: over-subscribed if some length runs past its space, reported first;
incomplete if space is left, but for the one symbol of length 1. -/
def Obligations.CompletenessCheckIsKraft : Prop :=
  ∀ lens : List Nat, (∀ v ∈ lens, v ≤ 15) →
    let tooMany : Prop := ∃ L, 1 ≤ L ∧ L ≤ 15 ∧ 2 ^ L < codeSpaceUsed lens L
    let lone : Prop := lens.count 1 = 1 ∧ lens.length - lens.count 0 = 1
    (build lens true = .error .oversubscribedCode ↔ tooMany)
    ∧ (build lens true = .error .incompleteCode ↔ ¬ tooMany ∧ codeSpaceUsed lens 15 < 2 ^ 15 ∧ ¬ lone)
    ∧ (build lens true = .ok (sortedTable lens) ↔ ¬ tooMany ∧ (codeSpaceUsed lens 15 = 2 ^ 15 ∨ lone))

/-- R181 and R183: the counts, and the symbols of nonzero length sorted by length, then by value. -/
def Obligations.TableIsSortedByLengthThenSymbol : Prop :=
  ∀ lens : List Nat, (∀ v ∈ lens, v ≤ 15) →
    (∀ L, L ≤ 15 → (sortedTable lens).count.getD L 0 = lens.count L)
    ∧ (sortedTable lens).symbol.length = lens.length - lens.count 0
    ∧ (∀ sym, sym ∈ (sortedTable lens).symbol ↔ lens.getD sym 0 ≠ 0)
    ∧ (sortedTable lens).symbol.Pairwise fun a b =>
        lens.getD a 0 < lens.getD b 0 ∨ (lens.getD a 0 = lens.getD b 0 ∧ a < b)

/-- R188 and R189: a symbol's canonical code, most significant bit first, decodes to the symbol, and no bit more is
read. -/
def Obligations.CanonicalCodeDecodesToItsSymbol : Prop :=
  ∀ (s : State) (lens : List Nat) (sym : Nat), (∀ v ∈ lens, v ≤ 15) → checkLengths lens = none →
    0 < lens.getD sym 0 → s.CanRead →
    codeBits (lens.getD sym 0) (canonicalCode lens sym) <+: s.bitsLeft →
    ∃ t, decodeSym (sortedTable lens) s = .ok sym t ∧ s.Advanced t (lens.getD sym 0)

/-- R182, R187: against the degenerate table a bit 1 is followed by 14 more bits, then InvalidCode; the stream ending
first gives TruncatedInput (R413). -/
def Obligations.UnmatchedCodeRaisesInvalidCode : Prop :=
  ∀ (s : State) (lens : List Nat), (∀ v ∈ lens, v ≤ 15) → lens.count 1 = 1 → lens.length - lens.count 0 = 1 →
    s.CanRead → s.bitsLeft.head? = some true →
    (15 ≤ s.bitsLeft.length → ∃ t, decodeSym (sortedTable lens) s = .raise .invalidCode t ∧ s.Advanced t 15)
    ∧ (s.bitsLeft.length < 15 → ∃ t, decodeSym (sortedTable lens) s = .raise .truncatedInput t)

/-! ## Blocks -/

/-- R204, R203: a stored block copies its bytes to RAW; block end follows. -/
def Obligations.StoredBlockCopiesItsBytes : Prop :=
  ∀ (s : State) (bfinal : Bool) (lo hi nlo nhi : Byte) (data rest : List Byte), s.segs.fit = true →
    s.unread = [lo, hi, nlo, nhi] ++ data ++ rest →
    (hi ++ lo : BitVec 16).toNat = data.length → (nhi ++ nlo : BitVec 16) = ~~~(hi ++ lo : BitVec 16) →
    s.HasRoom data.length →
    ∃ t, exec (.blkStored bfinal) s = .next t
      ∧ t.unread = rest ∧ t.cursor.bitcnt = 0 ∧ t.cursor.bitbuf = 0
      ∧ t.cursor.consumed = s.cursor.consumed + BitVec.ofNat 32 (4 + data.length)
      ∧ s.raw.Grown t.raw s.inflate.outPos.toNat data.length (fun k => data.getD k 0)
      ∧ t = { s with
              cursor := t.cursor
              raw := t.raw
              inflate := { s.inflate with
                bfinal := bfinal, btype := 0, storedLen := hi ++ lo
                outPos := s.inflate.outPos + BitVec.ofNat 32 data.length }
              phase := if bfinal then .infEnd else .infHdr }

/-- R204, R413: the errors of a stored block in the order they win. `rest` is what follows the header; with n bytes to
copy, the input ends at byte |rest| and the capacity at byte S - out_pos. -/
def Obligations.StoredBlockErrorsInOrder : Prop :=
  ∀ (s : State) (bfinal : Bool), s.segs.fit = true → s.params.rawCapMax < 2 ^ 32 →
    s.geom.rasterSize ≤ s.params.rawCapMax → s.inflate.outPos.toNat ≤ s.geom.rasterSize →
    (s.unread.length < 4 →
      ∃ t, exec (.blkStored bfinal) s = .next t ∧ t.status = ⟨.error, false, 1⟩ ∧ t.phase = .ended
        ∧ t.inflate.outPos = s.inflate.outPos)
    ∧ ∀ (lo hi nlo nhi : Byte) (rest : List Byte), s.unread = [lo, hi, nlo, nhi] ++ rest →
      let n := (hi ++ lo : BitVec 16).toNat
      let room := s.geom.rasterSize - s.inflate.outPos.toNat
      ((nhi ++ nlo : BitVec 16) ≠ ~~~(hi ++ lo : BitVec 16) →
        ∃ t, exec (.blkStored bfinal) s = .next t ∧ t.status = ⟨.error, false, 11⟩ ∧ t.phase = .ended
          ∧ t.inflate.outPos = s.inflate.outPos ∧ t.cursor.consumed = s.cursor.consumed + 4)
      ∧ ((nhi ++ nlo : BitVec 16) = ~~~(hi ++ lo : BitVec 16) → rest.length < n → rest.length ≤ room →
        ∃ t, exec (.blkStored bfinal) s = .next t ∧ t.status = ⟨.error, false, 1⟩ ∧ t.phase = .ended
          ∧ t.inflate.outPos = s.inflate.outPos + BitVec.ofNat 32 rest.length)
      ∧ ((nhi ++ nlo : BitVec 16) = ~~~(hi ++ lo : BitVec 16) → room < n → room < rest.length →
        ∃ t, exec (.blkStored bfinal) s = .next t ∧ t.status = ⟨.error, false, 13⟩ ∧ t.phase = .ended
          ∧ t.inflate.outPos.toNat = s.geom.rasterSize
          ∧ t.cursor.consumed = s.cursor.consumed + BitVec.ofNat 32 (4 + room + 1))

/-- R205, R218, R203: a fixed block enters the symbol loop and writes neither LT nor DT; end of block goes to the size
checks after the final block, else to the next header. -/
def Obligations.FixedBlockBeginsAndBlockEnds : Prop :=
  ∀ s : State,
    (∀ bfinal, exec (.blkFixed bfinal) s =
      .next { s with
        inflate := { s.inflate with bfinal := bfinal, btype := 1, needDist := false }
        phase := .infSym })
    ∧ exec .eob s = .next { s with phase := if s.inflate.bfinal = true then .infEnd else .infHdr }

/-- R207, R209, R206, R116: a dynamic block reads its counts and code-length code, and builds CLT. -/
def Obligations.DynamicBlockBuildsTheCodeLengthTable : Prop :=
  ∀ (s : State) (bfinal : Bool), s.CanRead →
    let hlit := s.peek 0 5 + 257
    let hdist := s.peek 5 5 + 1
    let hclen := s.peek 10 4 + 4
    let cl := (List.range 19).map fun j =>
      if clOrder.idxOf j < hclen then s.peek (14 + 3 * clOrder.idxOf j) 3 else 0
    14 + 3 * hclen ≤ s.bitsLeft.length → hdist ≤ 30 → checkLengths cl = none →
    ∃ c, s.Advanced { s with cursor := c } (14 + 3 * hclen)
      ∧ exec (.blkDynamic bfinal) s =
        .next { s with
          cursor := c
          inflate := { s.inflate with
            bfinal := bfinal, btype := 2, hlit := hlit, hdist := hdist, hclen := hclen, clLen := cl, lenIdx := 0 }
          tables := { s.tables with clt := sortedTable cl }
          phase := .infDynHdr }

/-- R208, R209, R413: a distance count above 30 raises BadCodeCount before any code-length-code length is read; then the
code-length code is checked. -/
def Obligations.DynamicBlockErrorsInOrder : Prop :=
  ∀ (s : State) (bfinal : Bool), s.CanRead →
    let hlit := s.peek 0 5 + 257
    let hdist := s.peek 5 5 + 1
    let hclen := s.peek 10 4 + 4
    let cl := (List.range 19).map fun j =>
      if clOrder.idxOf j < hclen then s.peek (14 + 3 * clOrder.idxOf j) 3 else 0
    (14 ≤ s.bitsLeft.length → 30 < hdist →
      ∃ c t, exec (.blkDynamic bfinal) s = .next t ∧ s.Advanced { s with cursor := c } 14
        ∧ State.Failed { s with
            cursor := c
            inflate := { s.inflate with
              bfinal := bfinal, btype := 2, hlit := hlit, hdist := hdist, hclen := hclen } } t .badCodeCount)
    ∧ (∀ e, 14 + 3 * hclen ≤ s.bitsLeft.length → hdist ≤ 30 → checkLengths cl = some e →
      ∃ t, exec (.blkDynamic bfinal) s = .next t ∧ t.status = ⟨.error, false, e.code⟩ ∧ t.phase = .ended
        ∧ t.inflate.outPos = s.inflate.outPos)

/-- R202, R225, R258: the elements that only raise an error. -/
def Obligations.InvalidElementsRaiseTheirErrors : Prop :=
  ∀ s : State,
    (∀ bfinal, ∃ t, exec (.blkInvalid bfinal) s = .next t
      ∧ State.Failed { s with inflate := { s.inflate with bfinal := bfinal, btype := 3 } } t .invalidBlockType)
    ∧ (∀ sym, sym = 286 ∨ sym = 287 → ∃ t, exec (.lenInvalid sym) s = .next t ∧ s.Failed t .invalidCode)
    ∧ (∀ tag : Byte, 5 ≤ tag.toNat → ∃ t, exec (.filtInvalid tag) s = .next t ∧ s.Failed t .invalidFilterType)

/-! ## Code lengths -/

/-- R210 to R213, R121: a code-length symbol writes its length r times from i on, while code lengths are still to
come. -/
def Obligations.CodeLengthSymbolWritesLengths : Prop :=
  ∀ (s : State) (i : Instr) (k least p : Nat), s.CanRead → i.wellFormed = true →
    codeLengthShape s.inflate i = some (k, least, p) → k ≤ s.bitsLeft.length →
    let r := least + s.peek 0 k
    s.inflate.lenIdx + r < s.inflate.hlit + s.inflate.hdist →
    s.inflate.hlit + s.inflate.hdist ≤ s.inflate.len.length →
    ∃ c l, s.Advanced { s with cursor := c } k
      ∧ exec i s = .next { s with
          cursor := c, inflate := { s.inflate with len := l, lenIdx := s.inflate.lenIdx + r } }
      ∧ l.length = s.inflate.len.length
      ∧ ∀ j, l.getD j 0 = if s.inflate.lenIdx ≤ j ∧ j < s.inflate.lenIdx + r then p else s.inflate.len.getD j 0

/-- R214, R211: a repeat past hlit + hdist, and a repeat of the previous length with none, raise BadCodeLengthRepeat
before any length is written. -/
def Obligations.CodeLengthOverrunRaises : Prop :=
  ∀ s : State, s.CanRead →
    (s.inflate.lenIdx = 0 → ∃ t, exec .clRepPrev s = .next t ∧ s.Failed t .badCodeLengthRepeat)
    ∧ ∀ (i : Instr) (k least p : Nat), i = .clRepPrev ∨ i = .clRepZero3 ∨ i = .clRepZero11 →
      codeLengthShape s.inflate i = some (k, least, p) → k ≤ s.bitsLeft.length →
      s.inflate.hlit + s.inflate.hdist < s.inflate.lenIdx + (least + s.peek 0 k) →
      ∃ c t, exec i s = .next t ∧ s.Advanced { s with cursor := c } k
        ∧ State.Failed { s with cursor := c } t .badCodeLengthRepeat

/-- R215, R184, R214: the symbol that completes the sequence builds LT from the first hlit lengths, then DT from the
rest; the first that fails its check raises its error. -/
def Obligations.CompleteCodeLengthsBuildTheTables : Prop :=
  ∀ (s : State) (i : Instr) (k least p : Nat), s.CanRead → i.wellFormed = true →
    codeLengthShape s.inflate i = some (k, least, p) → k ≤ s.bitsLeft.length →
    let r := least + s.peek 0 k
    s.inflate.lenIdx + r = s.inflate.hlit + s.inflate.hdist →
    s.inflate.hlit + s.inflate.hdist ≤ s.inflate.len.length →
    ∃ c l t, s.Advanced { s with cursor := c } k
      ∧ exec i s = .next t
      ∧ l.length = s.inflate.len.length
      ∧ (∀ j, l.getD j 0 = if s.inflate.lenIdx ≤ j ∧ j < s.inflate.lenIdx + r then p else s.inflate.len.getD j 0)
      ∧ t.inflate.len = l ∧ t.cursor = c
      ∧ match checkLengths (l.take s.inflate.hlit), checkLengths ((l.drop s.inflate.hlit).take s.inflate.hdist) with
        | some e, _ => t.status = ⟨.error, false, e.code⟩ ∧ t.phase = .ended
        | none, some e => t.status = ⟨.error, false, e.code⟩ ∧ t.phase = .ended
        | none, none =>
          t = { s with
            cursor := c
            inflate := { s.inflate with len := l, lenIdx := s.inflate.lenIdx + r, needDist := false }
            tables := { s.tables with
              lt := sortedTable (l.take s.inflate.hlit)
              dt := sortedTable ((l.drop s.inflate.hlit).take s.inflate.hdist) }
            phase := .infSym }

/-! ## Symbols -/

/-- R217, R222: a literal is written at RAW[out_pos]; at capacity S it raises OutputOverflow instead. -/
def Obligations.LiteralIsEmitted : Prop :=
  ∀ (s : State) (b : Byte),
    (s.HasRoom 1 →
      ∃ r, exec (.lit b) s = .next { s with raw := r, inflate := { s.inflate with outPos := s.inflate.outPos + 1 } }
        ∧ s.raw.Grown r s.inflate.outPos.toNat 1 (fun _ => b))
    ∧ (s.geom.rasterSize ≤ s.inflate.outPos.toNat →
      ∃ t, exec (.lit b) s = .next t ∧ s.Failed t .outputOverflow)

/-- R219, R220: a length symbol sets match_len from its base and its extra bits; the distance element comes next. -/
def Obligations.LengthSymbolSetsMatchLen : Prop :=
  ∀ (s : State) (sym : Nat), s.CanRead → 257 ≤ sym → sym ≤ 285 → lext (sym - 257) ≤ s.bitsLeft.length →
    ∃ c, s.Advanced { s with cursor := c } (lext (sym - 257))
      ∧ exec (.len sym) s =
        .next { s with
          cursor := c
          inflate := { s.inflate with
            matchLen := lbase (sym - 257) + s.peek 0 (lext (sym - 257)), needDist := true } }

/-- R220, R221: consecutive symbols cover every length 3 to 258 and every distance 1 to 32768; symbol 285 is 258. -/
def Obligations.LengthAndDistanceTablesCoverTheirRanges : Prop :=
  (lbase 0 = 3 ∧ (∀ k < 27, lbase (k + 1) = lbase k + 2 ^ lext k) ∧ lbase 27 + 2 ^ lext 27 - 1 = 258
      ∧ lbase 28 = 258 ∧ lext 28 = 0)
    ∧ dbase 0 = 1 ∧ (∀ k < 29, dbase (k + 1) = dbase k + 2 ^ dext k) ∧ dbase 29 + 2 ^ dext 29 - 1 = 32768
    ∧ (List.range 29).map lext = [0, 0, 0, 0, 0, 0, 0, 0, 1, 1, 1, 1, 2, 2, 2, 2, 3, 3, 3, 3, 4, 4, 4, 4, 5, 5, 5, 5, 0]
    ∧ ∀ k < 30, dext k = (k - 2) / 2

/-- R223, R224, R222: the distance, its check, and the copy byte by byte. A copy of distance d repeats the last d
bytes, so byte k of it is byte k mod d of them. -/
def Obligations.DistanceSymbolCopiesTheMatch : Prop :=
  ∀ (s : State) (sym : Nat), s.CanRead → sym ≤ 29 →
    let d := dbase sym + s.peek 0 (dext sym)
    let n := s.inflate.matchLen
    let past (c : Cursor) : State :=
      { s with cursor := c, inflate := { s.inflate with matchDist := d, needDist := false } }
    (s.bitsLeft.length < dext sym →
      ∃ t, exec (.dist sym) s = .next t ∧ t.status = ⟨.error, false, 1⟩ ∧ t.inflate = s.inflate)
    ∧ (dext sym ≤ s.bitsLeft.length → ∃ c, s.Advanced { s with cursor := c } (dext sym)
      ∧ (s.inflate.outPos.toNat < d → ∃ t, exec (.dist sym) s = .next t ∧ (past c).Failed t .distanceTooFar)
      ∧ (d ≤ s.inflate.outPos.toNat → s.HasRoom n →
          ∃ r, exec (.dist sym) s =
              .next { past c with
                raw := r
                inflate := { (past c).inflate with outPos := s.inflate.outPos + BitVec.ofNat 32 n } }
            ∧ s.raw.Grown r s.inflate.outPos.toNat n (fun k => s.raw.read (s.inflate.outPos.toNat - d + k % d)))
      ∧ (d ≤ s.inflate.outPos.toNat → s.geom.rasterSize < s.inflate.outPos.toNat + n →
          s.inflate.outPos.toNat ≤ s.geom.rasterSize → s.geom.rasterSize ≤ s.params.rawCapMax →
          s.params.rawCapMax < 2 ^ 32 →
          ∃ t, exec (.dist sym) s = .next t ∧ t.status = ⟨.error, false, 13⟩ ∧ t.phase = .ended
            ∧ t.cursor = c
            ∧ t.inflate = { (past c).inflate with outPos := t.inflate.outPos }
            ∧ t.inflate.outPos.toNat = s.geom.rasterSize))

/-- R226: in a fixed block the distance codes 11110 and 11111 match no symbol: InvalidCode after 15 bits, TruncatedInput
if the stream ends first. The element itself reads the last ten of them (log 14). -/
def Obligations.UnassignedDistanceCodeRaises : Prop :=
  (∀ (s : State) (q : List HostMove), s.CanRead → s.bus.queue = .yieldCore :: q → s.phase = .infSym →
    s.inflate.btype = 1 → s.inflate.needDist = true → [true, true, true, true] <+: s.bitsLeft →
    ∃ t, step s = .next t ∧ t.phase = .ended ∧ t.inflate = s.inflate
      ∧ t.status = ⟨.error, false, if 15 ≤ s.bitsLeft.length then 17 else 1⟩)
  ∧ ∀ (s : State) (sym : Nat), s.CanRead → sym = 30 ∨ sym = 31 → 10 ≤ s.bitsLeft.length →
    ∃ c t, exec (.distInvalid sym) s = .next t ∧ s.Advanced { s with cursor := c } 10
      ∧ State.Failed { s with cursor := c } t .invalidCode

/-- R229 to R231: the size checks at the final block, in order, then the first row of the reconstruction. -/
def Obligations.FinalBlockChecksTheSizes : Prop :=
  ∀ (s : State) (q : List HostMove), s.bus.queue = .yieldCore :: q → s.phase = .infEnd → s.geom.Legal →
    (s.inflate.outPos.toNat ≠ s.geom.rasterSize →
      ∃ t, step s = .next t ∧ (s.withQueue q).Failed t .sizeMismatch)
    ∧ (s.inflate.outPos.toNat = s.geom.rasterSize → s.ctrl.inchk = true → s.cursor.consumed ≠ s.segs.expIn →
      ∃ t, step s = .next t ∧ (s.withQueue q).Failed t .sizeMismatch)
    ∧ (s.inflate.outPos.toNat = s.geom.rasterSize → s.ctrl.inchk = false ∨ s.cursor.consumed = s.segs.expIn →
      step s = .next { s.withQueue q with
        recon := { pass := 1, row := 0, bpp := s.geom.format.filterUnit, rowbytes := s.geom.rowBytesOf 1,
                   cur := 1, prev := none }
        phase := .recon })

/-! ## Filters -/

/-- R252 to R257: a row's data bytes are replaced one after another by byte + predictor mod 256, the left byte being
already reconstructed; the tag byte and every other RAW byte keep their values (R259). -/
def Obligations.FilterReconstructsItsRow : Prop :=
  ∀ (s : State) (tag : Nat), tag ≤ 4 → s.RowInRaw → s.race = [] →
    ∃ t, exec (filterElement tag) s = .next t
      ∧ t = { s with raw := t.raw, recon := t.recon, norm := t.norm, phase := t.phase, status := t.status }
      ∧ t.status.errCode = s.status.errCode ∧ t.norm.sample = s.norm.sample
      ∧ (∀ i, i < s.recon.cur ∨ s.recon.cur + s.recon.rowbytes ≤ i → t.raw.read i = s.raw.read i)
      ∧ ∀ i, i < s.recon.rowbytes →
          let left := if s.recon.bpp ≤ i then (t.raw.read (s.recon.cur + i - s.recon.bpp)).toNat else 0
          let upleft := if s.recon.bpp ≤ i then s.above (i - s.recon.bpp) else 0
          (t.raw.read (s.recon.cur + i)).toNat =
            ((s.raw.read (s.recon.cur + i)).toNat + predictor tag left (s.above i) upleft) % 256

/-- R261: the forward filter of any row, reconstructed, is that row. -/
def Obligations.FilterRoundTrip : Prop :=
  ∀ (s : State) (tag : Nat) (o : Nat → Byte), tag ≤ 4 → s.RowInRaw →
    (∀ i, i < s.recon.rowbytes →
      let left := if s.recon.bpp ≤ i then (o (i - s.recon.bpp)).toNat else 0
      let upleft := if s.recon.bpp ≤ i then s.above (i - s.recon.bpp) else 0
      ((s.raw.read (s.recon.cur + i)).toNat : Int) =
        (((o i).toNat : Int) - predictor tag left (s.above i) upleft) % 256) →
    ∃ t, exec (filterElement tag) s = .next t ∧
      ∀ i, i < s.recon.rowbytes → t.raw.read (s.recon.cur + i) = o i

/-- R252, R260, R275, R336: after a row comes the next row of its pass, then the first row of the next nonempty pass,
then the end of the phase, which sets RAWVALID. -/
def Obligations.RowsComeInOrder : Prop :=
  ∀ (s t : State) (tag : Nat), s.Inv → s.phase = .recon → tag ≤ 4 → exec (filterElement tag) s = .next t →
    let ph := (passGeom s.geom.format.interlace s.recon.pass).ph s.geom.height.toNat
    (s.recon.row + 1 < ph →
      t.phase = .recon ∧ t.recon.pass = s.recon.pass ∧ t.recon.row = s.recon.row + 1
        ∧ t.recon.prev = some s.recon.cur)
    ∧ (s.recon.row + 1 = ph → ∀ p, s.recon.pass < p → s.geom.HasRow p 0 →
        (∀ p', s.recon.pass < p' → p' < p → ¬ s.geom.HasRow p' 0) →
        t.phase = .recon ∧ t.recon.pass = p ∧ t.recon.row = 0 ∧ t.recon.prev = none)
    ∧ (s.recon.row + 1 = ph → (∀ p, s.recon.pass < p → ¬ s.geom.HasRow p 0) →
        t.status.rawvalid = true ∧
          if s.isExpand = true then t.phase = .expand ∧ t.status.state = .busy ∧ t.norm.pass = 1 ∧ t.norm.row = 0
            ∧ t.norm.col = 0 ∧ t.norm.rawpos = 0
          else t.phase = .ended ∧ t.status.state = .done ∧ t.status.errCode = 0)

/-! ## Interlace -/

/-- R272: pw counts the columns X with xs ≤ X < WIDTH and X ≡ xs (mod dx); ph the rows. -/
def Obligations.PassDimensionsCountColumnsAndRows : Prop :=
  ∀ (il : Byte) (g : PassGeom) (n : Nat), g ∈ passesOf il →
    g.pw n = (List.range n).countP (fun x => decide (g.xs ≤ x ∧ x % g.dx = g.xs % g.dx))
      ∧ g.ph n = (List.range n).countP (fun y => decide (g.ys ≤ y ∧ y % g.dy = g.ys % g.dy))

/-- R278, R276: the pixels of the passes map one-to-one onto the raster. -/
def Obligations.PassesCoverTheRasterOnce : Prop :=
  ∀ (il : Byte) (w h x y : Nat), il.toNat ≤ 1 → x < w → y < h →
    ∃! q : Nat × Nat × Nat,
      1 ≤ q.1 ∧ q.1 ≤ (passesOf il).length ∧ q.2.1 < (passGeom il q.1).pw w ∧ q.2.2 < (passGeom il q.1).ph h
        ∧ x = (passGeom il q.1).xs + q.2.1 * (passGeom il q.1).dx
        ∧ y = (passGeom il q.1).ys + q.2.2 * (passGeom il q.1).dy

/-- R274, with the sizes its table gives. -/
def Obligations.RasterSizeIsTheSumOverPasses : Prop :=
  (∀ g : GeomRegs, g.rasterSize =
    ((passesOf g.format.interlace).map fun p =>
      if p.pw g.width.toNat = 0 ∨ p.ph g.height.toNat = 0 then 0
      else p.ph g.height.toNat *
        (1 + (p.pw g.width.toNat * (channels g.format.colorModel * g.format.bitDepth.toNat) + 7) / 8)).sum)
  ∧ GeomRegs.rasterSize ⟨8, 8, ⟨8, 0, 0⟩⟩ = 72 ∧ GeomRegs.rasterSize ⟨1, 1, ⟨1, 0, 0⟩⟩ = 2
  ∧ GeomRegs.rasterSize ⟨3, 3, ⟨1, 0, 1⟩⟩ = 12 ∧ GeomRegs.rasterSize ⟨5, 5, ⟨8, 2, 1⟩⟩ = 86
  ∧ GeomRegs.rasterSize ⟨1, 1, ⟨8, 6, 1⟩⟩ = 5 ∧ GeomRegs.rasterSize ⟨8, 8, ⟨16, 6, 1⟩⟩ = 527
  ∧ GeomRegs.rasterSize ⟨17, 1, ⟨1, 3, 0⟩⟩ = 4

/-! ## Pixels -/

/-- R311 to R315, R293, R294, R297, R298, R301, R307, R310. -/
def Obligations.GrayPixelIsWritten : Prop :=
  ∀ (s : State) (il : Byte) (d : Nat) (i : Instr),
    (d, i) ∈ [(1, Instr.pixG1 il), (2, .pixG2 il), (4, .pixG4 il), (8, .pixG8 il), (16, .pixG16 il)] →
    s.PixelReady d 1 il →
    let v := s.sampleAt d 1 0
    let g := if d = 16 then (v + 128) / 257 else v * (255 / (2 ^ d - 1))
    let a := if s.color.trnsLen = 2 ∧ v = s.color.keyValue 0 then 0 else 255
    ∃ t, exec i s = .next t ∧ s.WrotePixel t il g g g a
      ∧ t.norm.sample = { s.norm.sample with s0 := BitVec.ofNat 16 v }

/-- R316, R317, R294, R297, R299, R302, R307, R310. -/
def Obligations.TrueColorPixelIsWritten : Prop :=
  ∀ (s : State) (il : Byte) (d : Nat) (i : Instr), (d, i) ∈ [(8, Instr.pixRgb8 il), (16, .pixRgb16 il)] →
    s.PixelReady d 3 il →
    let v := s.sampleAt d 3
    let a := if s.color.trnsLen = 6 ∧ v 0 = s.color.keyValue 0 ∧ v 1 = s.color.keyValue 2 ∧ v 2 = s.color.keyValue 4
      then 0 else 255
    ∃ t, exec i s = .next t ∧ s.WrotePixel t il (channel8 d (v 0)) (channel8 d (v 1)) (channel8 d (v 2)) a
      ∧ t.norm.sample =
        { s.norm.sample with
          s0 := BitVec.ofNat 16 (v 0), s1 := BitVec.ofNat 16 (v 1), s2 := BitVec.ofNat 16 (v 2) }

/-- R318 to R321, R303 to R306, R310, R417: an index below PAL_COUNT gives its palette entry; any other raises
PaletteIndexOutOfRange and writes nothing. -/
def Obligations.PalettePixelIsLookedUp : Prop :=
  ∀ (s : State) (il : Byte) (d : Nat) (i : Instr),
    (d, i) ∈ [(1, Instr.pixP1 il), (2, .pixP2 il), (4, .pixP4 il), (8, .pixP8 il)] →
    s.PixelReady d 1 il →
    let idx := s.sampleAt d 1 0
    let e := (s.color.palAt idx).toNat
    let sample := { s.norm.sample with s0 := BitVec.ofNat 16 idx }
    (idx < s.color.palCount.toNat →
      ∃ t, exec i s = .next t
        ∧ s.WrotePixel t il (e % 256) (e / 256 % 256) (e / 65536)
            (if idx < s.color.trnsLen.toNat then (s.color.trnsAt idx).toNat else 255)
        ∧ t.norm.sample = sample)
    ∧ (s.color.palCount.toNat ≤ idx →
      ∃ t, exec i s = .next t
        ∧ State.Failed { s with norm := { s.norm with sample := sample } } t .paletteIndexOutOfRange)

/-- R322 to R325, R294, R297, R299, R310: the models with an alpha channel. -/
def Obligations.AlphaPixelIsWritten : Prop :=
  ∀ (s : State) (il : Byte) (d : Nat) (i : Instr),
    ((d, i) ∈ [(8, Instr.pixGa8 il), (16, .pixGa16 il)] → s.PixelReady d 2 il →
      let v := s.sampleAt d 2
      ∃ t, exec i s = .next t
        ∧ s.WrotePixel t il (channel8 d (v 0)) (channel8 d (v 0)) (channel8 d (v 0)) (channel8 d (v 1))
        ∧ t.norm.sample = { s.norm.sample with s0 := BitVec.ofNat 16 (v 0), s1 := BitVec.ofNat 16 (v 1) })
    ∧ ((d, i) ∈ [(8, Instr.pixRgba8 il), (16, .pixRgba16 il)] → s.PixelReady d 4 il →
      let v := s.sampleAt d 4
      ∃ t, exec i s = .next t
        ∧ s.WrotePixel t il (channel8 d (v 0)) (channel8 d (v 1)) (channel8 d (v 2)) (channel8 d (v 3))
        ∧ t.norm.sample =
          ⟨BitVec.ofNat 16 (v 0), BitVec.ofNat 16 (v 1), BitVec.ofNat 16 (v 2), BitVec.ofNat 16 (v 3)⟩)

/-- R299: (v + 128) div 257 is round(v × 255 / 65535), a tie never occurring. -/
def Obligations.SixteenToEightRounds : Prop :=
  ∀ v : Half, let q := (to8 v).toNat
    q = (v.toNat + 128) / 257
      ∧ 2 * 65535 * q < 2 * 255 * v.toNat + 65535 ∧ 2 * 255 * v.toNat < 2 * 65535 * q + 65535

/-- R292, R275, R273, R338: after a pixel comes the next column, then the next row, then the first pixel of the next
nonempty pass, then the end of the command. -/
def Obligations.PixelsComeInOrder : Prop :=
  ∀ (s t : State) (i : Instr), s.Inv → s.phase = .expand → t.status.state ≠ .error →
    decode .pixfmt (formatWord s.geom.format).toNat = .ok i → exec i s = .next t →
    let g := passGeom s.geom.format.interlace s.norm.pass
    let pw := g.pw s.geom.width.toNat
    let ph := g.ph s.geom.height.toNat
    (s.norm.col + 1 < pw →
      t.phase = .expand ∧ t.norm.pass = s.norm.pass ∧ t.norm.row = s.norm.row ∧ t.norm.col = s.norm.col + 1)
    ∧ (s.norm.col + 1 = pw → s.norm.row + 1 < ph →
      t.phase = .expand ∧ t.norm.pass = s.norm.pass ∧ t.norm.row = s.norm.row + 1 ∧ t.norm.col = 0)
    ∧ (s.norm.col + 1 = pw → s.norm.row + 1 = ph → ∀ p, s.norm.pass < p → s.geom.HasRow p 0 →
        (∀ p', s.norm.pass < p' → p' < p → ¬ s.geom.HasRow p' 0) →
        t.phase = .expand ∧ t.norm.pass = p ∧ t.norm.row = 0 ∧ t.norm.col = 0)
    ∧ (s.norm.col + 1 = pw → s.norm.row + 1 = ph → (∀ p, s.norm.pass < p → ¬ s.geom.HasRow p 0) →
        t.phase = .ended ∧ t.status = ⟨.done, s.status.rawvalid, 0⟩)

/-! ## Errors and memory -/

/-- R410, R411: what `raise e` writes, for every error; the counters and every other register keep their values. -/
def Obligations.RaiseWritesStatusAndEnds : Prop :=
  ∀ (s : State) (e : Err), s.Failed (raiseError e s) e

/-- R401, R402, R410, R414: a step that ends in ERROR has cleared RAWVALID, entered END and recorded a code of the
table, never a parser's code; irq is then IE. -/
def Obligations.EveryErrorIsEnteredTheSameWay : Prop :=
  ∀ s t : State, step s = .next t → s.status.state ≠ .error → t.status.state = .error →
    t.status.rawvalid = false ∧ t.phase = .ended ∧ t.irq = t.ctrl.ie
      ∧ (t.status.errCode.toNat = 1 ∨ (6 ≤ t.status.errCode.toNat ∧ t.status.errCode.toNat ≤ 22))

/-- R81, R309, R332: the core changes no HMEM byte outside OUT, and none at all for a command that does not expand. -/
def Obligations.CoreWritesOnlyTheOutRange : Prop :=
  ∀ s t : State, s.Inv → s.CoreMoves → step s = .next t →
    (∀ a, s.inOut a = false → t.hmem.read a = s.hmem.read a)
      ∧ (s.isExpand = false → s.race = [] → t.hmem = s.hmem)

/-! ## Invariants and runs -/

/-- The invariant holds right after reset, whatever legal parameters the machine has. -/
def Obligations.ResetSatisfiesTheInvariant : Prop :=
  ∀ p : Params, p.Legal → State.Inv { State.reset with params := p }

/-- The invariant holds after every step from a state that has it. -/
def Obligations.InvariantIsKeptByEveryStep : Prop :=
  ∀ s t : State, s.Inv → step s = .next t → t.Inv

/-- R82, R83, R290: from a state with the invariant no step faults, and none is refused but an access that R32 gives no
meaning. -/
def Obligations.NoStepFaults : Prop :=
  ∀ s : State, s.Inv → (∃ t, step s = .next t) ∨ step s = .refused .illegalRegisterAccess

/-- R350, R228: every command ends, in DONE or ERROR, after finitely many moves of the core. -/
def Obligations.EveryCommandEnds : Prop :=
  ∀ s : State, s.Inv → s.isBusy = true →
    ∃ n t, coreRun n s = some t ∧ (t.status.state = .done ∨ t.status.state = .error) ∧ t.phase = .ended

/-! ## Host memory -/

/-- R91, R92: a host write of an HMEM byte reads back and changes no other byte; what the core reads of a byte the host
wrote while BUSY is a draw, and so is such an OUT byte once the command has ended, by itself or by a reset; a host read
returns the byte, but for an OUT byte while BUSY, which is a draw (log 11, log 12). -/
def Obligations.HostMemoryAccesses : Prop :=
  (∀ (s : State) (q : List HostMove) (addr : Word) (b : Byte), s.hmem.wf = true →
    s.bus.queue = .memWrite addr b :: q →
    ∃ t, step s = .next t
      ∧ t = { s with hmem := t.hmem, race := t.race, draws := t.draws, bus := { s.bus with queue := q } }
      ∧ t.hmem.read addr.toNat = b ∧ (∀ x, x ≠ addr.toNat → t.hmem.read x = s.hmem.read x)
      ∧ (s.isBusy = false → t.race = s.race ∧ t.draws = s.draws)
      ∧ (s.isBusy = true → t.coreRead addr.toNat = Config.freeRace s.draws addr.toNat
          ∧ (∀ x, x ≠ addr.toNat → t.coreRead x = s.coreRead x) ∧ t.draws = s.draws + 1))
  ∧ (∀ (s : State) (q : List HostMove) (addr : Word), s.bus.queue = .memRead addr :: q →
    ∃ t, step s = .next t ∧ t = { s with draws := t.draws, bus := { queue := q, readData := t.bus.readData } }
      ∧ t.bus.readData.toNat =
        if s.isBusy = true ∧ s.inOut addr.toNat = true then (Config.freeOutRead s.draws addr.toNat).toNat
        else (s.hmem.read addr.toNat).toNat)
  ∧ ∀ (s t : State) (a : Nat), s.Inv → s.CoreMoves ∨ (∃ q, s.bus.queue = .reset :: q) → step s = .next t →
    s.isBusy = true → t.isBusy = false → s.inOut a = true → lookupCell a s.race ≠ none →
    ∃ k, t.hmem.read a = Config.freeHmem k a
end

