-- ==== Sys2Proof/Laws/State.lean ====
section
/-! SUPPORT. One lemma per field for every named update of State, so that no proof unfolds a record update. -/

namespace Sys2Proof.Machine

/-! ### align -/

@[simp] theorem align_params (s : State) : (align s).params = s.params := rfl
@[simp] theorem align_ctrl (s : State) : (align s).ctrl = s.ctrl := rfl
@[simp] theorem align_status (s : State) : (align s).status = s.status := rfl
@[simp] theorem align_geom (s : State) : (align s).geom = s.geom := rfl
@[simp] theorem align_segs (s : State) : (align s).segs = s.segs := rfl
@[simp] theorem align_color (s : State) : (align s).color = s.color := rfl
@[simp] theorem align_out (s : State) : (align s).out = s.out := rfl
@[simp] theorem align_rawSize (s : State) : (align s).rawSize = s.rawSize := rfl
@[simp] theorem align_cursor (s : State) : (align s).cursor = { s.cursor with bitbuf := 0, bitcnt := 0 } := rfl
@[simp] theorem align_inflate (s : State) : (align s).inflate = s.inflate := rfl
@[simp] theorem align_tables (s : State) : (align s).tables = s.tables := rfl
@[simp] theorem align_recon (s : State) : (align s).recon = s.recon := rfl
@[simp] theorem align_norm (s : State) : (align s).norm = s.norm := rfl
@[simp] theorem align_raw (s : State) : (align s).raw = s.raw := rfl
@[simp] theorem align_phase (s : State) : (align s).phase = s.phase := rfl
@[simp] theorem align_hmem (s : State) : (align s).hmem = s.hmem := rfl
@[simp] theorem align_race (s : State) : (align s).race = s.race := rfl
@[simp] theorem align_draws (s : State) : (align s).draws = s.draws := rfl
@[simp] theorem align_bus (s : State) : (align s).bus = s.bus := rfl

/-! ### cursorInit -/

@[simp] theorem cursorInit_params (s : State) : (cursorInit s).params = s.params := rfl
@[simp] theorem cursorInit_ctrl (s : State) : (cursorInit s).ctrl = s.ctrl := rfl
@[simp] theorem cursorInit_status (s : State) : (cursorInit s).status = s.status := rfl
@[simp] theorem cursorInit_geom (s : State) : (cursorInit s).geom = s.geom := rfl
@[simp] theorem cursorInit_segs (s : State) : (cursorInit s).segs = s.segs := rfl
@[simp] theorem cursorInit_color (s : State) : (cursorInit s).color = s.color := rfl
@[simp] theorem cursorInit_out (s : State) : (cursorInit s).out = s.out := rfl
@[simp] theorem cursorInit_rawSize (s : State) : (cursorInit s).rawSize = s.rawSize := rfl
@[simp] theorem cursorInit_inflate (s : State) : (cursorInit s).inflate = s.inflate := rfl
@[simp] theorem cursorInit_tables (s : State) : (cursorInit s).tables = s.tables := rfl
@[simp] theorem cursorInit_recon (s : State) : (cursorInit s).recon = s.recon := rfl
@[simp] theorem cursorInit_norm (s : State) : (cursorInit s).norm = s.norm := rfl
@[simp] theorem cursorInit_raw (s : State) : (cursorInit s).raw = s.raw := rfl
@[simp] theorem cursorInit_phase (s : State) : (cursorInit s).phase = s.phase := rfl
@[simp] theorem cursorInit_hmem (s : State) : (cursorInit s).hmem = s.hmem := rfl
@[simp] theorem cursorInit_race (s : State) : (cursorInit s).race = s.race := rfl
@[simp] theorem cursorInit_draws (s : State) : (cursorInit s).draws = s.draws := rfl
@[simp] theorem cursorInit_bus (s : State) : (cursorInit s).bus = s.bus := rfl

/-! ### latchHeader -/

@[simp] theorem latchHeader_params (f : Bool) (b : BitVec 2) (s : State) :
    (latchHeader f b s).params = s.params := rfl
@[simp] theorem latchHeader_ctrl (f : Bool) (b : BitVec 2) (s : State) : (latchHeader f b s).ctrl = s.ctrl := rfl
@[simp] theorem latchHeader_status (f : Bool) (b : BitVec 2) (s : State) :
    (latchHeader f b s).status = s.status := rfl
@[simp] theorem latchHeader_geom (f : Bool) (b : BitVec 2) (s : State) : (latchHeader f b s).geom = s.geom := rfl
@[simp] theorem latchHeader_segs (f : Bool) (b : BitVec 2) (s : State) : (latchHeader f b s).segs = s.segs := rfl
@[simp] theorem latchHeader_color (f : Bool) (b : BitVec 2) (s : State) : (latchHeader f b s).color = s.color := rfl
@[simp] theorem latchHeader_out (f : Bool) (b : BitVec 2) (s : State) : (latchHeader f b s).out = s.out := rfl
@[simp] theorem latchHeader_rawSize (f : Bool) (b : BitVec 2) (s : State) :
    (latchHeader f b s).rawSize = s.rawSize := rfl
@[simp] theorem latchHeader_cursor (f : Bool) (b : BitVec 2) (s : State) :
    (latchHeader f b s).cursor = s.cursor := rfl
@[simp] theorem latchHeader_inflate (f : Bool) (b : BitVec 2) (s : State) :
    (latchHeader f b s).inflate = { s.inflate with bfinal := f, btype := b } := rfl
@[simp] theorem latchHeader_tables (f : Bool) (b : BitVec 2) (s : State) :
    (latchHeader f b s).tables = s.tables := rfl
@[simp] theorem latchHeader_recon (f : Bool) (b : BitVec 2) (s : State) : (latchHeader f b s).recon = s.recon := rfl
@[simp] theorem latchHeader_norm (f : Bool) (b : BitVec 2) (s : State) : (latchHeader f b s).norm = s.norm := rfl
@[simp] theorem latchHeader_raw (f : Bool) (b : BitVec 2) (s : State) : (latchHeader f b s).raw = s.raw := rfl
@[simp] theorem latchHeader_phase (f : Bool) (b : BitVec 2) (s : State) : (latchHeader f b s).phase = s.phase := rfl
@[simp] theorem latchHeader_hmem (f : Bool) (b : BitVec 2) (s : State) : (latchHeader f b s).hmem = s.hmem := rfl
@[simp] theorem latchHeader_race (f : Bool) (b : BitVec 2) (s : State) : (latchHeader f b s).race = s.race := rfl
@[simp] theorem latchHeader_draws (f : Bool) (b : BitVec 2) (s : State) : (latchHeader f b s).draws = s.draws := rfl
@[simp] theorem latchHeader_bus (f : Bool) (b : BitVec 2) (s : State) : (latchHeader f b s).bus = s.bus := rfl

/-! ### latchFinal -/

@[simp] theorem latchFinal_params (f : Bool) (s : State) :
    (latchFinal f s).params = s.params := rfl
@[simp] theorem latchFinal_ctrl (f : Bool) (s : State) : (latchFinal f s).ctrl = s.ctrl := rfl
@[simp] theorem latchFinal_status (f : Bool) (s : State) :
    (latchFinal f s).status = s.status := rfl
@[simp] theorem latchFinal_geom (f : Bool) (s : State) : (latchFinal f s).geom = s.geom := rfl
@[simp] theorem latchFinal_segs (f : Bool) (s : State) : (latchFinal f s).segs = s.segs := rfl
@[simp] theorem latchFinal_color (f : Bool) (s : State) : (latchFinal f s).color = s.color := rfl
@[simp] theorem latchFinal_out (f : Bool) (s : State) : (latchFinal f s).out = s.out := rfl
@[simp] theorem latchFinal_rawSize (f : Bool) (s : State) :
    (latchFinal f s).rawSize = s.rawSize := rfl
@[simp] theorem latchFinal_cursor (f : Bool) (s : State) :
    (latchFinal f s).cursor = s.cursor := rfl
@[simp] theorem latchFinal_inflate (f : Bool) (s : State) :
    (latchFinal f s).inflate = { s.inflate with bfinal := f } := rfl
@[simp] theorem latchFinal_tables (f : Bool) (s : State) :
    (latchFinal f s).tables = s.tables := rfl
@[simp] theorem latchFinal_recon (f : Bool) (s : State) : (latchFinal f s).recon = s.recon := rfl
@[simp] theorem latchFinal_norm (f : Bool) (s : State) : (latchFinal f s).norm = s.norm := rfl
@[simp] theorem latchFinal_raw (f : Bool) (s : State) : (latchFinal f s).raw = s.raw := rfl
@[simp] theorem latchFinal_phase (f : Bool) (s : State) : (latchFinal f s).phase = s.phase := rfl
@[simp] theorem latchFinal_hmem (f : Bool) (s : State) : (latchFinal f s).hmem = s.hmem := rfl
@[simp] theorem latchFinal_race (f : Bool) (s : State) : (latchFinal f s).race = s.race := rfl
@[simp] theorem latchFinal_draws (f : Bool) (s : State) : (latchFinal f s).draws = s.draws := rfl
@[simp] theorem latchFinal_bus (f : Bool) (s : State) : (latchFinal f s).bus = s.bus := rfl

/-! ### enterSymbols -/

@[simp] theorem enterSymbols_params (s : State) : (enterSymbols s).params = s.params := rfl
@[simp] theorem enterSymbols_ctrl (s : State) : (enterSymbols s).ctrl = s.ctrl := rfl
@[simp] theorem enterSymbols_status (s : State) : (enterSymbols s).status = s.status := rfl
@[simp] theorem enterSymbols_geom (s : State) : (enterSymbols s).geom = s.geom := rfl
@[simp] theorem enterSymbols_segs (s : State) : (enterSymbols s).segs = s.segs := rfl
@[simp] theorem enterSymbols_color (s : State) : (enterSymbols s).color = s.color := rfl
@[simp] theorem enterSymbols_out (s : State) : (enterSymbols s).out = s.out := rfl
@[simp] theorem enterSymbols_rawSize (s : State) : (enterSymbols s).rawSize = s.rawSize := rfl
@[simp] theorem enterSymbols_cursor (s : State) : (enterSymbols s).cursor = s.cursor := rfl
@[simp] theorem enterSymbols_inflate (s : State) :
    (enterSymbols s).inflate = { s.inflate with needDist := false } := rfl
@[simp] theorem enterSymbols_tables (s : State) : (enterSymbols s).tables = s.tables := rfl
@[simp] theorem enterSymbols_recon (s : State) : (enterSymbols s).recon = s.recon := rfl
@[simp] theorem enterSymbols_norm (s : State) : (enterSymbols s).norm = s.norm := rfl
@[simp] theorem enterSymbols_raw (s : State) : (enterSymbols s).raw = s.raw := rfl
@[simp] theorem enterSymbols_phase (s : State) : (enterSymbols s).phase = .infSym := rfl
@[simp] theorem enterSymbols_hmem (s : State) : (enterSymbols s).hmem = s.hmem := rfl
@[simp] theorem enterSymbols_race (s : State) : (enterSymbols s).race = s.race := rfl
@[simp] theorem enterSymbols_draws (s : State) : (enterSymbols s).draws = s.draws := rfl
@[simp] theorem enterSymbols_bus (s : State) : (enterSymbols s).bus = s.bus := rfl

/-! ### blockEnd -/

@[simp] theorem blockEnd_params (s : State) : (blockEnd s).params = s.params := rfl
@[simp] theorem blockEnd_ctrl (s : State) : (blockEnd s).ctrl = s.ctrl := rfl
@[simp] theorem blockEnd_status (s : State) : (blockEnd s).status = s.status := rfl
@[simp] theorem blockEnd_geom (s : State) : (blockEnd s).geom = s.geom := rfl
@[simp] theorem blockEnd_segs (s : State) : (blockEnd s).segs = s.segs := rfl
@[simp] theorem blockEnd_color (s : State) : (blockEnd s).color = s.color := rfl
@[simp] theorem blockEnd_out (s : State) : (blockEnd s).out = s.out := rfl
@[simp] theorem blockEnd_rawSize (s : State) : (blockEnd s).rawSize = s.rawSize := rfl
@[simp] theorem blockEnd_cursor (s : State) : (blockEnd s).cursor = s.cursor := rfl
@[simp] theorem blockEnd_inflate (s : State) : (blockEnd s).inflate = s.inflate := rfl
@[simp] theorem blockEnd_tables (s : State) : (blockEnd s).tables = s.tables := rfl
@[simp] theorem blockEnd_recon (s : State) : (blockEnd s).recon = s.recon := rfl
@[simp] theorem blockEnd_norm (s : State) : (blockEnd s).norm = s.norm := rfl
@[simp] theorem blockEnd_raw (s : State) : (blockEnd s).raw = s.raw := rfl
@[simp] theorem blockEnd_phase (s : State) : (blockEnd s).phase = if s.inflate.bfinal then .infEnd else .infHdr := rfl
@[simp] theorem blockEnd_hmem (s : State) : (blockEnd s).hmem = s.hmem := rfl
@[simp] theorem blockEnd_race (s : State) : (blockEnd s).race = s.race := rfl
@[simp] theorem blockEnd_draws (s : State) : (blockEnd s).draws = s.draws := rfl
@[simp] theorem blockEnd_bus (s : State) : (blockEnd s).bus = s.bus := rfl

/-! ### latchRawSize -/

@[simp] theorem latchRawSize_params (s : State) : (latchRawSize s).params = s.params := rfl
@[simp] theorem latchRawSize_ctrl (s : State) : (latchRawSize s).ctrl = s.ctrl := rfl
@[simp] theorem latchRawSize_status (s : State) : (latchRawSize s).status = s.status := rfl
@[simp] theorem latchRawSize_geom (s : State) : (latchRawSize s).geom = s.geom := rfl
@[simp] theorem latchRawSize_segs (s : State) : (latchRawSize s).segs = s.segs := rfl
@[simp] theorem latchRawSize_color (s : State) : (latchRawSize s).color = s.color := rfl
@[simp] theorem latchRawSize_out (s : State) : (latchRawSize s).out = s.out := rfl
@[simp] theorem latchRawSize_rawSize (s : State) :
    (latchRawSize s).rawSize = BitVec.ofNat 32 (min s.geom.rasterSize (2 ^ 32 - 1)) := rfl
@[simp] theorem latchRawSize_cursor (s : State) : (latchRawSize s).cursor = s.cursor := rfl
@[simp] theorem latchRawSize_inflate (s : State) : (latchRawSize s).inflate = s.inflate := rfl
@[simp] theorem latchRawSize_tables (s : State) : (latchRawSize s).tables = s.tables := rfl
@[simp] theorem latchRawSize_recon (s : State) : (latchRawSize s).recon = s.recon := rfl
@[simp] theorem latchRawSize_norm (s : State) : (latchRawSize s).norm = s.norm := rfl
@[simp] theorem latchRawSize_raw (s : State) : (latchRawSize s).raw = s.raw := rfl
@[simp] theorem latchRawSize_phase (s : State) : (latchRawSize s).phase = s.phase := rfl
@[simp] theorem latchRawSize_hmem (s : State) : (latchRawSize s).hmem = s.hmem := rfl
@[simp] theorem latchRawSize_race (s : State) : (latchRawSize s).race = s.race := rfl
@[simp] theorem latchRawSize_draws (s : State) : (latchRawSize s).draws = s.draws := rfl
@[simp] theorem latchRawSize_bus (s : State) : (latchRawSize s).bus = s.bus := rfl

/-! ### enterInflate -/

@[simp] theorem enterInflate_params (s : State) : (enterInflate s).params = s.params := rfl
@[simp] theorem enterInflate_ctrl (s : State) : (enterInflate s).ctrl = s.ctrl := rfl
@[simp] theorem enterInflate_status (s : State) : (enterInflate s).status = s.status := rfl
@[simp] theorem enterInflate_geom (s : State) : (enterInflate s).geom = s.geom := rfl
@[simp] theorem enterInflate_segs (s : State) : (enterInflate s).segs = s.segs := rfl
@[simp] theorem enterInflate_color (s : State) : (enterInflate s).color = s.color := rfl
@[simp] theorem enterInflate_out (s : State) : (enterInflate s).out = s.out := rfl
@[simp] theorem enterInflate_rawSize (s : State) : (enterInflate s).rawSize = s.rawSize := rfl
@[simp] theorem enterInflate_cursor (s : State) : (enterInflate s).cursor = (cursorInit s).cursor := rfl
@[simp] theorem enterInflate_inflate (s : State) : (enterInflate s).inflate = { s.inflate with outPos := 0 } := rfl
@[simp] theorem enterInflate_tables (s : State) : (enterInflate s).tables = s.tables := rfl
@[simp] theorem enterInflate_recon (s : State) : (enterInflate s).recon = s.recon := rfl
@[simp] theorem enterInflate_norm (s : State) : (enterInflate s).norm = s.norm := rfl
@[simp] theorem enterInflate_raw (s : State) : (enterInflate s).raw = s.raw := rfl
@[simp] theorem enterInflate_phase (s : State) : (enterInflate s).phase = .infHdr := rfl
@[simp] theorem enterInflate_hmem (s : State) : (enterInflate s).hmem = s.hmem := rfl
@[simp] theorem enterInflate_race (s : State) : (enterInflate s).race = s.race := rfl
@[simp] theorem enterInflate_draws (s : State) : (enterInflate s).draws = s.draws := rfl
@[simp] theorem enterInflate_bus (s : State) : (enterInflate s).bus = s.bus := rfl

/-! ### raiseError -/

@[simp] theorem raiseError_params (e : Err) (s : State) : (raiseError e s).params = s.params := rfl
@[simp] theorem raiseError_ctrl (e : Err) (s : State) : (raiseError e s).ctrl = s.ctrl := rfl
@[simp] theorem raiseError_status (e : Err) (s : State) : (raiseError e s).status = s.status.raised e := rfl
@[simp] theorem raiseError_geom (e : Err) (s : State) : (raiseError e s).geom = s.geom := rfl
@[simp] theorem raiseError_segs (e : Err) (s : State) : (raiseError e s).segs = s.segs := rfl
@[simp] theorem raiseError_color (e : Err) (s : State) : (raiseError e s).color = s.color := rfl
@[simp] theorem raiseError_out (e : Err) (s : State) : (raiseError e s).out = s.out := rfl
@[simp] theorem raiseError_rawSize (e : Err) (s : State) : (raiseError e s).rawSize = s.rawSize := rfl
@[simp] theorem raiseError_cursor (e : Err) (s : State) : (raiseError e s).cursor = s.cursor := rfl
@[simp] theorem raiseError_inflate (e : Err) (s : State) : (raiseError e s).inflate = s.inflate := rfl
@[simp] theorem raiseError_tables (e : Err) (s : State) :
    (raiseError e s).tables = ⟨Config.freeTable s.draws 0, Config.freeTable s.draws 1, Config.freeTable s.draws 2⟩ := rfl
@[simp] theorem raiseError_recon (e : Err) (s : State) : (raiseError e s).recon = s.recon := rfl
@[simp] theorem raiseError_norm (e : Err) (s : State) : (raiseError e s).norm = s.norm := rfl
@[simp] theorem raiseError_raw (e : Err) (s : State) : (raiseError e s).raw = ⟨[], s.draws⟩ := rfl
@[simp] theorem raiseError_phase (e : Err) (s : State) : (raiseError e s).phase = .ended := rfl
@[simp] theorem raiseError_hmem (e : Err) (s : State) : (raiseError e s).hmem = s.errorMem := rfl
@[simp] theorem raiseError_race (e : Err) (s : State) : (raiseError e s).race = [] := rfl
@[simp] theorem raiseError_draws (e : Err) (s : State) : (raiseError e s).draws = s.draws + 1 := rfl
@[simp] theorem raiseError_bus (e : Err) (s : State) : (raiseError e s).bus = s.bus := rfl

/-! ### finishCommand -/

@[simp] theorem finishCommand_params (s : State) : (finishCommand s).params = s.params := rfl
@[simp] theorem finishCommand_ctrl (s : State) : (finishCommand s).ctrl = s.ctrl := rfl
@[simp] theorem finishCommand_status (s : State) : (finishCommand s).status = s.status.finished := rfl
@[simp] theorem finishCommand_geom (s : State) : (finishCommand s).geom = s.geom := rfl
@[simp] theorem finishCommand_segs (s : State) : (finishCommand s).segs = s.segs := rfl
@[simp] theorem finishCommand_color (s : State) : (finishCommand s).color = s.color := rfl
@[simp] theorem finishCommand_out (s : State) : (finishCommand s).out = s.out := rfl
@[simp] theorem finishCommand_rawSize (s : State) : (finishCommand s).rawSize = s.rawSize := rfl
@[simp] theorem finishCommand_cursor (s : State) : (finishCommand s).cursor = s.cursor := rfl
@[simp] theorem finishCommand_inflate (s : State) : (finishCommand s).inflate = s.inflate := rfl
@[simp] theorem finishCommand_tables (s : State) : (finishCommand s).tables = s.tables := rfl
@[simp] theorem finishCommand_recon (s : State) : (finishCommand s).recon = s.recon := rfl
@[simp] theorem finishCommand_norm (s : State) : (finishCommand s).norm = s.norm := rfl
@[simp] theorem finishCommand_raw (s : State) : (finishCommand s).raw = s.raw := rfl
@[simp] theorem finishCommand_phase (s : State) : (finishCommand s).phase = .ended := rfl
@[simp] theorem finishCommand_hmem (s : State) : (finishCommand s).hmem = s.settledMem := rfl
@[simp] theorem finishCommand_race (s : State) : (finishCommand s).race = [] := rfl
@[simp] theorem finishCommand_draws (s : State) : (finishCommand s).draws = s.draws := rfl
@[simp] theorem finishCommand_bus (s : State) : (finishCommand s).bus = s.bus := rfl

/-! ### clearCommand -/

@[simp] theorem clearCommand_params (c : BitVec 2) (i e : Bool) (s : State) :
    (clearCommand c i e s).params = s.params := rfl
@[simp] theorem clearCommand_ctrl (c : BitVec 2) (i e : Bool) (s : State) :
    (clearCommand c i e s).ctrl = ⟨c, i, e⟩ := rfl
@[simp] theorem clearCommand_status (c : BitVec 2) (i e : Bool) (s : State) :
    (clearCommand c i e s).status = s.status.cleared := rfl
@[simp] theorem clearCommand_geom (c : BitVec 2) (i e : Bool) (s : State) :
    (clearCommand c i e s).geom = s.geom := rfl
@[simp] theorem clearCommand_segs (c : BitVec 2) (i e : Bool) (s : State) :
    (clearCommand c i e s).segs = s.segs := rfl
@[simp] theorem clearCommand_color (c : BitVec 2) (i e : Bool) (s : State) :
    (clearCommand c i e s).color = s.color := rfl
@[simp] theorem clearCommand_out (c : BitVec 2) (i e : Bool) (s : State) : (clearCommand c i e s).out = s.out := rfl
@[simp] theorem clearCommand_rawSize (c : BitVec 2) (i e : Bool) (s : State) :
    (clearCommand c i e s).rawSize = s.rawSize := rfl
@[simp] theorem clearCommand_cursor (c : BitVec 2) (i e : Bool) (s : State) :
    (clearCommand c i e s).cursor = s.cursor := rfl
@[simp] theorem clearCommand_inflate (c : BitVec 2) (i e : Bool) (s : State) :
    (clearCommand c i e s).inflate = s.inflate := rfl
@[simp] theorem clearCommand_tables (c : BitVec 2) (i e : Bool) (s : State) :
    (clearCommand c i e s).tables = s.tables := rfl
@[simp] theorem clearCommand_recon (c : BitVec 2) (i e : Bool) (s : State) :
    (clearCommand c i e s).recon = s.recon := rfl
@[simp] theorem clearCommand_norm (c : BitVec 2) (i e : Bool) (s : State) :
    (clearCommand c i e s).norm = s.norm := rfl
@[simp] theorem clearCommand_raw (c : BitVec 2) (i e : Bool) (s : State) : (clearCommand c i e s).raw = s.raw := rfl
@[simp] theorem clearCommand_phase (c : BitVec 2) (i e : Bool) (s : State) :
    (clearCommand c i e s).phase = s.phase := rfl
@[simp] theorem clearCommand_hmem (c : BitVec 2) (i e : Bool) (s : State) :
    (clearCommand c i e s).hmem = s.hmem := rfl
@[simp] theorem clearCommand_race (c : BitVec 2) (i e : Bool) (s : State) :
    (clearCommand c i e s).race = s.race := rfl
@[simp] theorem clearCommand_draws (c : BitVec 2) (i e : Bool) (s : State) :
    (clearCommand c i e s).draws = s.draws := rfl
@[simp] theorem clearCommand_bus (c : BitVec 2) (i e : Bool) (s : State) : (clearCommand c i e s).bus = s.bus := rfl

/-! ### withQueue -/

@[simp] theorem withQueue_params (s : State) (q : List HostMove) : (s.withQueue q).params = s.params := rfl
@[simp] theorem withQueue_ctrl (s : State) (q : List HostMove) : (s.withQueue q).ctrl = s.ctrl := rfl
@[simp] theorem withQueue_status (s : State) (q : List HostMove) : (s.withQueue q).status = s.status := rfl
@[simp] theorem withQueue_geom (s : State) (q : List HostMove) : (s.withQueue q).geom = s.geom := rfl
@[simp] theorem withQueue_segs (s : State) (q : List HostMove) : (s.withQueue q).segs = s.segs := rfl
@[simp] theorem withQueue_color (s : State) (q : List HostMove) : (s.withQueue q).color = s.color := rfl
@[simp] theorem withQueue_out (s : State) (q : List HostMove) : (s.withQueue q).out = s.out := rfl
@[simp] theorem withQueue_rawSize (s : State) (q : List HostMove) : (s.withQueue q).rawSize = s.rawSize := rfl
@[simp] theorem withQueue_cursor (s : State) (q : List HostMove) : (s.withQueue q).cursor = s.cursor := rfl
@[simp] theorem withQueue_inflate (s : State) (q : List HostMove) : (s.withQueue q).inflate = s.inflate := rfl
@[simp] theorem withQueue_tables (s : State) (q : List HostMove) : (s.withQueue q).tables = s.tables := rfl
@[simp] theorem withQueue_recon (s : State) (q : List HostMove) : (s.withQueue q).recon = s.recon := rfl
@[simp] theorem withQueue_norm (s : State) (q : List HostMove) : (s.withQueue q).norm = s.norm := rfl
@[simp] theorem withQueue_raw (s : State) (q : List HostMove) : (s.withQueue q).raw = s.raw := rfl
@[simp] theorem withQueue_phase (s : State) (q : List HostMove) : (s.withQueue q).phase = s.phase := rfl
@[simp] theorem withQueue_hmem (s : State) (q : List HostMove) : (s.withQueue q).hmem = s.hmem := rfl
@[simp] theorem withQueue_race (s : State) (q : List HostMove) : (s.withQueue q).race = s.race := rfl
@[simp] theorem withQueue_draws (s : State) (q : List HostMove) : (s.withQueue q).draws = s.draws := rfl
@[simp] theorem withQueue_bus (s : State) (q : List HostMove) : (s.withQueue q).bus = { s.bus with queue := q } := rfl

/-! ### returned -/

@[simp] theorem returned_params (s : State) (v : Word) : (s.returned v).params = s.params := rfl
@[simp] theorem returned_ctrl (s : State) (v : Word) : (s.returned v).ctrl = s.ctrl := rfl
@[simp] theorem returned_status (s : State) (v : Word) : (s.returned v).status = s.status := rfl
@[simp] theorem returned_geom (s : State) (v : Word) : (s.returned v).geom = s.geom := rfl
@[simp] theorem returned_segs (s : State) (v : Word) : (s.returned v).segs = s.segs := rfl
@[simp] theorem returned_color (s : State) (v : Word) : (s.returned v).color = s.color := rfl
@[simp] theorem returned_out (s : State) (v : Word) : (s.returned v).out = s.out := rfl
@[simp] theorem returned_rawSize (s : State) (v : Word) : (s.returned v).rawSize = s.rawSize := rfl
@[simp] theorem returned_cursor (s : State) (v : Word) : (s.returned v).cursor = s.cursor := rfl
@[simp] theorem returned_inflate (s : State) (v : Word) : (s.returned v).inflate = s.inflate := rfl
@[simp] theorem returned_tables (s : State) (v : Word) : (s.returned v).tables = s.tables := rfl
@[simp] theorem returned_recon (s : State) (v : Word) : (s.returned v).recon = s.recon := rfl
@[simp] theorem returned_norm (s : State) (v : Word) : (s.returned v).norm = s.norm := rfl
@[simp] theorem returned_raw (s : State) (v : Word) : (s.returned v).raw = s.raw := rfl
@[simp] theorem returned_phase (s : State) (v : Word) : (s.returned v).phase = s.phase := rfl
@[simp] theorem returned_hmem (s : State) (v : Word) : (s.returned v).hmem = s.hmem := rfl
@[simp] theorem returned_race (s : State) (v : Word) : (s.returned v).race = s.race := rfl
@[simp] theorem returned_draws (s : State) (v : Word) : (s.returned v).draws = s.draws := rfl
@[simp] theorem returned_bus (s : State) (v : Word) : (s.returned v).bus = { s.bus with readData := v } := rfl

/-! ### drawn -/

@[simp] theorem drawn_params (s : State) : (s.drawn).params = s.params := rfl
@[simp] theorem drawn_ctrl (s : State) : (s.drawn).ctrl = s.ctrl := rfl
@[simp] theorem drawn_status (s : State) : (s.drawn).status = s.status := rfl
@[simp] theorem drawn_geom (s : State) : (s.drawn).geom = s.geom := rfl
@[simp] theorem drawn_segs (s : State) : (s.drawn).segs = s.segs := rfl
@[simp] theorem drawn_color (s : State) : (s.drawn).color = s.color := rfl
@[simp] theorem drawn_out (s : State) : (s.drawn).out = s.out := rfl
@[simp] theorem drawn_rawSize (s : State) : (s.drawn).rawSize = s.rawSize := rfl
@[simp] theorem drawn_cursor (s : State) : (s.drawn).cursor = s.cursor := rfl
@[simp] theorem drawn_inflate (s : State) : (s.drawn).inflate = s.inflate := rfl
@[simp] theorem drawn_tables (s : State) : (s.drawn).tables = s.tables := rfl
@[simp] theorem drawn_recon (s : State) : (s.drawn).recon = s.recon := rfl
@[simp] theorem drawn_norm (s : State) : (s.drawn).norm = s.norm := rfl
@[simp] theorem drawn_raw (s : State) : (s.drawn).raw = s.raw := rfl
@[simp] theorem drawn_phase (s : State) : (s.drawn).phase = s.phase := rfl
@[simp] theorem drawn_hmem (s : State) : (s.drawn).hmem = s.hmem := rfl
@[simp] theorem drawn_race (s : State) : (s.drawn).race = s.race := rfl
@[simp] theorem drawn_draws (s : State) : (s.drawn).draws = s.draws + 1 := rfl
@[simp] theorem drawn_bus (s : State) : (s.drawn).bus = s.bus := rfl

/-! ### dropRawValid -/

@[simp] theorem dropRawValid_params (s : State) : (s.dropRawValid).params = s.params := rfl
@[simp] theorem dropRawValid_ctrl (s : State) : (s.dropRawValid).ctrl = s.ctrl := rfl
@[simp] theorem dropRawValid_status (s : State) : (s.dropRawValid).status = s.status.setRawValid false := rfl
@[simp] theorem dropRawValid_geom (s : State) : (s.dropRawValid).geom = s.geom := rfl
@[simp] theorem dropRawValid_segs (s : State) : (s.dropRawValid).segs = s.segs := rfl
@[simp] theorem dropRawValid_color (s : State) : (s.dropRawValid).color = s.color := rfl
@[simp] theorem dropRawValid_out (s : State) : (s.dropRawValid).out = s.out := rfl
@[simp] theorem dropRawValid_rawSize (s : State) : (s.dropRawValid).rawSize = s.rawSize := rfl
@[simp] theorem dropRawValid_cursor (s : State) : (s.dropRawValid).cursor = s.cursor := rfl
@[simp] theorem dropRawValid_inflate (s : State) : (s.dropRawValid).inflate = s.inflate := rfl
@[simp] theorem dropRawValid_tables (s : State) : (s.dropRawValid).tables = s.tables := rfl
@[simp] theorem dropRawValid_recon (s : State) : (s.dropRawValid).recon = s.recon := rfl
@[simp] theorem dropRawValid_norm (s : State) : (s.dropRawValid).norm = s.norm := rfl
@[simp] theorem dropRawValid_raw (s : State) : (s.dropRawValid).raw = s.raw := rfl
@[simp] theorem dropRawValid_phase (s : State) : (s.dropRawValid).phase = s.phase := rfl
@[simp] theorem dropRawValid_hmem (s : State) : (s.dropRawValid).hmem = s.hmem := rfl
@[simp] theorem dropRawValid_race (s : State) : (s.dropRawValid).race = s.race := rfl
@[simp] theorem dropRawValid_draws (s : State) : (s.dropRawValid).draws = s.draws := rfl
@[simp] theorem dropRawValid_bus (s : State) : (s.dropRawValid).bus = s.bus := rfl

/-! ### coreNext -/

@[simp] theorem coreNext_params (s : State) (p : Phase) : (s.coreNext p).params = s.params := rfl
@[simp] theorem coreNext_ctrl (s : State) (p : Phase) : (s.coreNext p).ctrl = s.ctrl := rfl
@[simp] theorem coreNext_status (s : State) (p : Phase) :
    (s.coreNext p).status = { s.status with state := .busy } := rfl
@[simp] theorem coreNext_geom (s : State) (p : Phase) : (s.coreNext p).geom = s.geom := rfl
@[simp] theorem coreNext_segs (s : State) (p : Phase) : (s.coreNext p).segs = s.segs := rfl
@[simp] theorem coreNext_color (s : State) (p : Phase) : (s.coreNext p).color = s.color := rfl
@[simp] theorem coreNext_out (s : State) (p : Phase) : (s.coreNext p).out = s.out := rfl
@[simp] theorem coreNext_rawSize (s : State) (p : Phase) : (s.coreNext p).rawSize = s.rawSize := rfl
@[simp] theorem coreNext_cursor (s : State) (p : Phase) : (s.coreNext p).cursor = s.cursor := rfl
@[simp] theorem coreNext_inflate (s : State) (p : Phase) : (s.coreNext p).inflate = s.inflate := rfl
@[simp] theorem coreNext_tables (s : State) (p : Phase) : (s.coreNext p).tables = s.tables := rfl
@[simp] theorem coreNext_recon (s : State) (p : Phase) : (s.coreNext p).recon = s.recon := rfl
@[simp] theorem coreNext_norm (s : State) (p : Phase) : (s.coreNext p).norm = s.norm := rfl
@[simp] theorem coreNext_raw (s : State) (p : Phase) : (s.coreNext p).raw = s.raw := rfl
@[simp] theorem coreNext_phase (s : State) (p : Phase) : (s.coreNext p).phase = p := rfl
@[simp] theorem coreNext_hmem (s : State) (p : Phase) : (s.coreNext p).hmem = s.hmem := rfl
@[simp] theorem coreNext_race (s : State) (p : Phase) : (s.coreNext p).race = s.race := rfl
@[simp] theorem coreNext_draws (s : State) (p : Phase) : (s.coreNext p).draws = s.draws := rfl
@[simp] theorem coreNext_bus (s : State) (p : Phase) :
    (s.coreNext p).bus = { s.bus with queue := .yieldCore :: s.bus.queue } := rfl

/-! ### STATUS -/

@[simp] theorem setRawValid_state (r : StatusReg) (v : Bool) : (r.setRawValid v).state = r.state := rfl
@[simp] theorem setRawValid_rawvalid (r : StatusReg) (v : Bool) : (r.setRawValid v).rawvalid = v := rfl
@[simp] theorem setRawValid_errCode (r : StatusReg) (v : Bool) : (r.setRawValid v).errCode = r.errCode := rfl
@[simp] theorem started_state (r : StatusReg) : r.started.state = .busy := rfl
@[simp] theorem started_rawvalid (r : StatusReg) : r.started.rawvalid = r.rawvalid := rfl
@[simp] theorem started_errCode (r : StatusReg) : r.started.errCode = 0 := rfl
@[simp] theorem finished_state (r : StatusReg) : r.finished.state = .done := rfl
@[simp] theorem finished_rawvalid (r : StatusReg) : r.finished.rawvalid = r.rawvalid := rfl
@[simp] theorem finished_errCode (r : StatusReg) : r.finished.errCode = r.errCode := rfl
@[simp] theorem raised_state (r : StatusReg) (e : Err) : (r.raised e).state = .error := rfl
@[simp] theorem raised_rawvalid (r : StatusReg) (e : Err) : (r.raised e).rawvalid = false := rfl
@[simp] theorem raised_errCode (r : StatusReg) (e : Err) : (r.raised e).errCode = e.code := rfl
@[simp] theorem cleared_rawvalid (r : StatusReg) : r.cleared.rawvalid = r.rawvalid := by
  unfold StatusReg.cleared; split <;> rfl

/-- CLEAR never leaves BUSY where it was not, nor DONE or ERROR. -/
theorem cleared_state (r : StatusReg) : r.cleared.state = if r.state = .busy then .busy else .idle := by
  unfold StatusReg.cleared
  cases h : r.state <;> simp [h]

/-! ### The sequencing moves with cases -/

/-- Everything beginCommand can do (R330, R331). -/
theorem beginCommand_eq (cmd : BitVec 2) (inchk ie : Bool) (s : State) :
    beginCommand cmd inchk ie s =
      { s with
        ctrl := ⟨cmd, inchk, ie⟩, phase := .startCheck, race := []
        status := ⟨.busy, if cmd = 1 ∨ cmd = 3 then false else s.status.rawvalid, 0⟩ } := by
  obtain rfl | rfl | rfl | rfl : cmd = 0 ∨ cmd = 1 ∨ cmd = 2 ∨ cmd = 3 := by revert cmd; decide
  all_goals rfl

/-- Entering EXPAND touches the normalizer, or ends the command of an image without pixels. -/
theorem enterExpand_cases (s : State) :
    (∃ p, nextPass s.geom.format.interlace s.geom.width.toNat s.geom.height.toNat 0 = some p ∧
        enterExpand s = { s with norm := { s.norm with pass := p, row := 0, col := 0, rawpos := 0 }, phase := .expand })
      ∨ (nextPass s.geom.format.interlace s.geom.width.toNat s.geom.height.toNat 0 = none ∧
        enterExpand s = finishCommand s) := by
  unfold enterExpand
  cases h : nextPass s.geom.format.interlace s.geom.width.toNat s.geom.height.toNat 0 with
  | some p => exact .inl ⟨p, rfl, rfl⟩
  | none => exact .inr ⟨rfl, rfl⟩

/-- Entering RECON touches the reconstructor, or ends the phase of an image without rows. -/
theorem enterRecon_cases (s : State) :
    (∃ p, nextPass s.geom.format.interlace s.geom.width.toNat s.geom.height.toNat 0 = some p ∧
        enterRecon s = { s with recon := firstRowOf s.geom p 0, phase := .recon })
      ∨ (nextPass s.geom.format.interlace s.geom.width.toNat s.geom.height.toNat 0 = none ∧
        enterRecon s = endRecon s) := by
  unfold enterRecon
  cases h : nextPass s.geom.format.interlace s.geom.width.toNat s.geom.height.toNat 0 with
  | some p => exact .inl ⟨p, rfl, rfl⟩
  | none => exact .inr ⟨rfl, rfl⟩

end Sys2Proof.Machine
end

