-- ==== Sys2Proof/Laws/Cursor.lean ====
section
/-! SUPPORT. The bit cursor: what a fetch takes from the logical stream, and that no read changes anything but the
cursor. -/

namespace Sys2Proof.Machine

/-! ## The bytes not yet fetched -/

/-- `unread` as a function of the cursor's place. -/
def State.unreadFrom (s : State) (idx off : Nat) : List Byte :=
  if idx < s.segs.count.toNat then
    s.segBytes idx off ++ ((List.range s.segs.count.toNat).drop (idx + 1)).flatMap fun i => s.segBytes i 0
  else []

@[simp] theorem latchFinal_unread (f : Bool) (s : State) : (latchFinal f s).unread = s.unread := rfl
@[simp] theorem latchFinal_bitsLeft (f : Bool) (s : State) : (latchFinal f s).bitsLeft = s.bitsLeft := rfl

theorem unread_eq (s : State) : s.unread = s.unreadFrom s.cursor.segIdx s.cursor.segOff := rfl

@[simp] theorem segBytes_cursor (s : State) (c : Cursor) (i off : Nat) :
    State.segBytes { s with cursor := c } i off = s.segBytes i off := rfl

@[simp] theorem unreadFrom_cursor (s : State) (c : Cursor) (i off : Nat) :
    State.unreadFrom { s with cursor := c } i off = s.unreadFrom i off := rfl

theorem unread_cursor (s : State) (c : Cursor) :
    State.unread { s with cursor := c } = s.unreadFrom c.segIdx c.segOff := rfl

theorem segBytes_nil (s : State) (i off : Nat) (h : (s.segs.lenAt i).toNat ≤ off) : s.segBytes i off = [] := by
  unfold State.segBytes
  rw [List.drop_eq_nil_of_le (by simpa using h)]
  rfl

theorem segBytes_cons (s : State) (i off : Nat) (h : off < (s.segs.lenAt i).toNat) :
    s.segBytes i off = s.coreRead ((s.segs.baseAt i).toNat + off) :: s.segBytes i (off + 1) := by
  unfold State.segBytes
  rw [List.drop_eq_getElem_cons (by simpa using h), List.map_cons, List.getElem_range]

theorem unreadFrom_next (s : State) (idx off : Nat) (hi : idx < s.segs.count.toNat)
    (ho : (s.segs.lenAt idx).toNat ≤ off) : s.unreadFrom idx off = s.unreadFrom (idx + 1) 0 := by
  unfold State.unreadFrom
  rw [if_pos hi, segBytes_nil s idx off ho, List.nil_append]
  split
  · rename_i h
    rw [List.drop_eq_getElem_cons (by simpa using h), List.flatMap_cons, List.getElem_range]
  · rename_i h
    rw [List.drop_eq_nil_of_le (by simp; omega)]
    rfl

/-- Stepping over exhausted segments changes no byte to come, and ends at a byte or past the last segment. -/
theorem seekSegment_spec (s : State) (fuel idx off : Nat) (hf : s.segs.count.toNat ≤ idx + fuel) :
    s.unreadFrom (seekSegment s.segs fuel idx off).1 (seekSegment s.segs fuel idx off).2 = s.unreadFrom idx off ∧
      ((seekSegment s.segs fuel idx off).1 < s.segs.count.toNat →
        (seekSegment s.segs fuel idx off).2 <
          (s.segs.lenAt (seekSegment s.segs fuel idx off).1).toNat) := by
  induction fuel generalizing idx off with
  | zero => exact ⟨rfl, fun h => by simp only [seekSegment] at h; omega⟩
  | succ n ih =>
    simp only [seekSegment]
    split
    · rename_i h
      rw [unreadFrom_next s idx off h.1 h.2]
      exact ih (idx + 1) 0 (by omega)
    · rename_i h
      refine ⟨rfl, fun hi => ?_⟩
      simp only at hi ⊢
      by_contra hc
      exact h ⟨hi, by omega⟩

/-- A fetch takes the first byte not yet fetched, or raises TruncatedInput when there is none (R162). -/
theorem fetchByte_spec (s : State) (hfit : s.segs.fit = true) :
    (∀ b rest, s.unread = b :: rest →
      ∃ c, fetchByte s = .ok b { s with cursor := c } ∧ c.bitbuf = s.cursor.bitbuf ∧ c.bitcnt = s.cursor.bitcnt ∧
        c.consumed = s.cursor.consumed + 1 ∧ State.unread { s with cursor := c } = rest) ∧
      (s.unread = [] →
        ∃ c, fetchByte s = .raise .truncatedInput { s with cursor := c } ∧ c.bitbuf = s.cursor.bitbuf ∧
          c.bitcnt = s.cursor.bitcnt ∧ c.consumed = s.cursor.consumed ∧
          State.unread { s with cursor := c } = []) := by
  obtain ⟨hu, hlt⟩ := seekSegment_spec s s.segs.count.toNat s.cursor.segIdx s.cursor.segOff (by omega)
  rw [← unread_eq] at hu
  unfold fetchByte
  generalize hp : seekSegment s.segs s.segs.count.toNat s.cursor.segIdx s.cursor.segOff = p at hu hlt
  simp only
  split
  · rename_i hge
    have hnil : s.unread = [] := by rw [← hu]; unfold State.unreadFrom; rw [if_neg (by omega)]
    refine ⟨fun b rest h => absurd (hnil.symm.trans h) (by simp), fun _ => ⟨_, rfl, rfl, rfl, rfl, ?_⟩⟩
    rw [unread_cursor]; simp only [hu, hnil]
  · rename_i hidx
    have hidx : p.1 < s.segs.count.toNat := by omega
    have hoff := hlt hidx
    have haddr : (s.segs.baseAt p.1).toNat + p.2 < 2 ^ 32 := by
      have := hfit
      simp only [SegRegs.fit, List.all_eq_true, List.mem_range, decide_eq_true_eq] at this
      have := this p.1 hidx
      omega
    rw [if_neg (by omega)]
    have hcons : s.unread = s.coreRead ((s.segs.baseAt p.1).toNat + p.2) :: s.unreadFrom p.1 (p.2 + 1) := by
      rw [← hu]; unfold State.unreadFrom; rw [if_pos hidx, if_pos hidx, segBytes_cons s _ _ hoff, List.cons_append]
    refine ⟨fun b rest h => ?_, fun h => absurd (hcons.symm.trans h) (by simp)⟩
    rw [hcons] at h
    injection h with h1 h2
    subst h1 h2
    exact ⟨_, rfl, rfl, rfl, rfl, rfl⟩

/-! ## The bits to come -/

theorem bitsLeft_cursor (s : State) (c : Cursor) :
    State.bitsLeft { s with cursor := c } =
      (List.range c.bitcnt).map c.bitbuf.getLsbD ++ (s.unreadFrom c.segIdx c.segOff).flatMap byteBits := rfl

theorem byteBits_length (b : Byte) : (byteBits b).length = 8 := by simp [byteBits]

theorem flatMap_byteBits_length (l : List Byte) : (l.flatMap byteBits).length = 8 * l.length := by
  induction l with
  | nil => rfl
  | cons b r ih => simp only [List.flatMap_cons, List.length_append, byteBits_length, ih, List.length_cons]; omega

theorem bitsLeft_length (s : State) : s.bitsLeft.length = s.cursor.bitcnt + 8 * s.unread.length := by
  simp only [State.bitsLeft, List.length_append, List.length_map, List.length_range, flatMap_byteBits_length]

/-- Appending a byte to the accumulator (R163) puts its bits after those already there. -/
theorem accumulate_bits (buf : Word) (n : Nat) (b : Byte) (hb : buf.toNat < 2 ^ n) (hn : n + 8 ≤ 32) :
    (List.range (n + 8)).map (buf ||| (b.setWidth 32 <<< n)).getLsbD =
      (List.range n).map buf.getLsbD ++ byteBits b := by
  rw [List.range_add, List.map_append, List.map_map, byteBits]
  congr 1
  · apply List.map_congr_left
    intro i hi
    rw [List.mem_range] at hi
    simp [BitVec.getLsbD_or, BitVec.getLsbD_shiftLeft, hi]
  · apply List.map_congr_left
    intro i hi
    rw [List.mem_range] at hi
    have h0 : buf.getLsbD (n + i) = false := by
      rw [BitVec.getLsbD, Nat.testBit_lt_two_pow]
      exact lt_of_lt_of_le hb (Nat.pow_le_pow_right (by omega) (by omega))
    simp only [Function.comp, BitVec.getLsbD_or, h0, Bool.false_or, BitVec.getLsbD_shiftLeft,
      BitVec.getLsbD_setWidth]
    simp only [show n + i < 32 by omega, show ¬ n + i < n by omega, show n + i - n = i by omega,
      show i < 32 by omega, decide_true, decide_false, Bool.true_and, Bool.not_false]

theorem accumulate_lt (buf : Word) (n : Nat) (b : Byte) (hb : buf.toNat < 2 ^ n) (hn : n + 8 ≤ 32) :
    (buf ||| (b.setWidth 32 <<< n)).toNat < 2 ^ (n + 8) := by
  rw [BitVec.toNat_or]
  apply Nat.or_lt_two_pow
  · exact lt_of_lt_of_le hb (Nat.pow_le_pow_right (by omega) (by omega))
  · rw [BitVec.toNat_shiftLeft, BitVec.toNat_setWidth, Nat.shiftLeft_eq]
    have h1 : b.toNat < 2 ^ 8 := b.isLt
    calc _ ≤ b.toNat % 2 ^ 32 * 2 ^ n := Nat.mod_le _ _
      _ ≤ b.toNat * 2 ^ n := Nat.mul_le_mul_right _ (Nat.mod_le _ _)
      _ < 2 ^ 8 * 2 ^ n := Nat.mul_lt_mul_of_pos_right h1 (by positivity)
      _ = 2 ^ (n + 8) := by rw [← pow_add, Nat.add_comm]

/-- A refill delivers nothing: it fetches whole bytes, as few as make n bits valid, or all there are before it raises
TruncatedInput (R163). -/
theorem refill_spec (n fuel : Nat) (s : State) (hfit : s.segs.fit = true) (hn : n ≤ 24)
    (hbuf : s.cursor.bitbuf.toNat < 2 ^ s.cursor.bitcnt) (hf : n ≤ s.cursor.bitcnt + 8 * fuel) :
    (n ≤ s.bitsLeft.length →
      ∃ c k, refill n fuel s = .ok () { s with cursor := c } ∧ State.bitsLeft { s with cursor := c } = s.bitsLeft ∧
        n ≤ c.bitcnt ∧ c.bitcnt = s.cursor.bitcnt + 8 * k ∧ (k ≠ 0 → c.bitcnt < n + 8) ∧
        c.bitbuf.toNat < 2 ^ c.bitcnt ∧ c.consumed = s.cursor.consumed + BitVec.ofNat 32 k) ∧
      (s.bitsLeft.length < n →
        ∃ c, refill n fuel s = .raise .truncatedInput { s with cursor := c } ∧
          c.consumed = s.cursor.consumed + BitVec.ofNat 32 s.unread.length) := by
  induction fuel generalizing s with
  | zero =>
    refine ⟨fun _ => ⟨s.cursor, 0, rfl, rfl, by omega, by omega, by simp, hbuf, by simp⟩, fun h => ?_⟩
    rw [bitsLeft_length] at h; omega
  | succ m ih =>
    simp only [refill]
    split
    · rename_i hlt
      obtain ⟨hok, hraise⟩ := fetchByte_spec s hfit
      rcases hu : s.unread with _ | ⟨b, rest⟩
      · obtain ⟨c, hc, -, -, hcons, -⟩ := hraise hu
        rw [hc]
        refine ⟨fun h => ?_, fun _ => ⟨c, rfl, by rw [hcons]; simp⟩⟩
        rw [bitsLeft_length, hu, List.length_nil] at h; omega
      · obtain ⟨c, hc, hbb, hbc, hcons, hrest⟩ := hok b rest hu
        rw [hc]
        simp only [CoreResult.bind]
        set s1 : State := { s with
          cursor := { c with bitbuf := c.bitbuf ||| (b.setWidth 32 <<< c.bitcnt), bitcnt := c.bitcnt + 8 } } with hs1
        have h32 : s.cursor.bitcnt + 8 ≤ 32 := by omega
        have hbits : s1.bitsLeft = s.bitsLeft := by
          rw [hs1, bitsLeft_cursor]
          simp only
          rw [hbb, hbc, accumulate_bits _ _ _ hbuf h32]
          have : s.unreadFrom c.segIdx c.segOff = rest := by rw [← hrest, unread_cursor]
          rw [this, State.bitsLeft, hu, List.flatMap_cons, List.append_assoc]
        have hlen : s1.unread = rest := by rw [← hrest]; rfl
        have hbuf1 : s1.cursor.bitbuf.toNat < 2 ^ s1.cursor.bitcnt := by
          simp only [hs1, hbb, hbc]
          exact accumulate_lt _ _ _ hbuf h32
        have hbc1 : s1.cursor.bitcnt = s.cursor.bitcnt + 8 := by simp only [hs1, hbc]
        have hcons1 : s1.cursor.consumed = s.cursor.consumed + 1 := by simp only [hs1, hcons]
        have hfit1 : s1.segs.fit = true := hfit
        obtain ⟨h1, h2⟩ := ih s1 hfit1 hbuf1 (by rw [hbc1]; omega)
        rw [hbits] at h1 h2
        refine ⟨fun h => ?_, fun h => ?_⟩
        · obtain ⟨d, k, e1, e2, e3, e4, e5, e6, e7⟩ := h1 h
          refine ⟨d, k + 1, by rw [e1], by rw [← e2], e3, by rw [e4, hbc1]; omega, fun _ => ?_, e6, ?_⟩
          · by_cases hk : k = 0
            · subst hk; rw [e4, hbc1]; omega
            · exact e5 hk
          · rw [e7, hcons1, BitVec.ofNat_add, BitVec.add_assoc, BitVec.add_comm 1]; rfl
        · obtain ⟨d, e1, e2⟩ := h2 h
          refine ⟨d, by rw [e1], ?_⟩
          rw [e2, hcons1, hlen, List.length_cons, BitVec.ofNat_add, BitVec.add_assoc, BitVec.add_comm 1]; rfl
    · rename_i hge
      refine ⟨fun _ => ⟨s.cursor, 0, rfl, rfl, by omega, by omega, by simp, hbuf, by simp⟩, fun h => ?_⟩
      rw [bitsLeft_length] at h; omega

/-! ## Reads change only the cursor -/

/-- The result, if it has a state, has `s` with another cursor. -/
def CoreResult.OnlyCursor {α : Type} (s : State) : CoreResult α → Prop
  | .ok _ t => t = { s with cursor := t.cursor }
  | .raise e t => e ∈ [Err.truncatedInput, Err.invalidCode] ∧ t = { s with cursor := t.cursor }
  | .fault f => f = .hmemOutOfRange

theorem OnlyCursor.bind {α β : Type} {s : State} {r : CoreResult α} {f : α → State → CoreResult β}
    (hr : r.OnlyCursor s) (hf : ∀ v c, (f v { s with cursor := c }).OnlyCursor { s with cursor := c }) :
    (r.bind f).OnlyCursor s := by
  cases r with
  | ok v t =>
    simp only [CoreResult.OnlyCursor] at hr
    have := hf v t.cursor
    rw [← hr] at this
    simp only [CoreResult.bind]
    revert this
    cases f v t with
    | ok w u => intro h; simp only [CoreResult.OnlyCursor] at h ⊢; rw [h, hr]
    | raise e u => intro h; simp only [CoreResult.OnlyCursor] at h ⊢; exact ⟨h.1, by rw [h.2, hr]⟩
    | fault g => exact id
  | raise e t => exact hr
  | fault g => exact hr

theorem fetchByte_onlyCursor (s : State) : (fetchByte s).OnlyCursor s := by
  unfold fetchByte
  simp only
  split
  · exact ⟨by simp, rfl⟩
  · split
    · rfl
    · rfl

theorem refill_onlyCursor (n fuel : Nat) (s : State) : (refill n fuel s).OnlyCursor s := by
  induction fuel generalizing s with
  | zero => rfl
  | succ m ih =>
    unfold refill
    split
    · refine OnlyCursor.bind (fetchByte_onlyCursor s) fun b c => ?_
      have := ih { s with
        cursor := { c with bitbuf := c.bitbuf ||| (b.setWidth 32 <<< c.bitcnt), bitcnt := c.bitcnt + 8 } }
      revert this
      cases refill n m { s with
        cursor := { c with bitbuf := c.bitbuf ||| (b.setWidth 32 <<< c.bitcnt), bitcnt := c.bitcnt + 8 } } <;>
        exact id
    · rfl

/-- Everything takeBits can do to the state: it moves the cursor. -/
theorem takeBits_onlyCursor (n : Nat) (s : State) : (takeBits n s).OnlyCursor s := by
  unfold takeBits
  refine OnlyCursor.bind (refill_onlyCursor n n s) fun _ c => ?_
  rfl

theorem searchSym_onlyCursor (t : HuffTable) (fuel l code first index : Nat) (s : State) :
    (searchSym t fuel l code first index s).OnlyCursor s := by
  induction fuel generalizing l code first index s with
  | zero => rfl
  | succ m ih =>
    unfold searchSym
    refine OnlyCursor.bind (takeBits_onlyCursor 1 s) fun b c => ?_
    simp only
    split
    · rfl
    · exact ih ..

/-- Everything decodeSym can do to the state: it moves the cursor. -/
theorem decodeSym_onlyCursor (t : HuffTable) (s : State) : (decodeSym t s).OnlyCursor s := by
  unfold decodeSym
  refine OnlyCursor.bind (searchSym_onlyCursor ..) fun r c => ?_
  cases r
  · rfl
  · exact ⟨by simp, rfl⟩

theorem readOn_onlyCursor (n : Nat) (s : State) : (readOn n s).OnlyCursor s := by
  induction n generalizing s with
  | zero => rfl
  | succ m ih =>
    unfold readOn
    exact OnlyCursor.bind (takeBits_onlyCursor 1 s) fun _ c => ih _

end Sys2Proof.Machine
end

