-- ==== Sys2Proof/Laws/Memory.lean ====
section
/-! SUPPORT. The laws of the sparse lists, of HMEM and of RAW: what a read gives after each operation, and that every
operation keeps the canonical form. -/

namespace Sys2Proof.Machine

/-! ## Sparse lists -/

theorem lookupCell_insertCell {α : Type} (k j : Nat) (v : α) (l : List (Nat × α)) :
    lookupCell k (insertCell j v l) = if j = k then some v else lookupCell k l := by
  induction l with
  | nil => simp [insertCell, lookupCell]
  | cons c r ih =>
    obtain ⟨i, u⟩ := c
    simp only [insertCell]
    split
    · simp [lookupCell]
    · split
      · subst_vars; simp only [lookupCell]; split <;> simp_all
      · simp only [lookupCell, ih]
        split_ifs <;> simp_all

theorem lookupCell_of_rising {α : Type} (k lo : Nat) (l : List (Nat × α)) (h : risingFrom lo l = true) (hk : k < lo) :
    lookupCell k l = none := by
  induction l generalizing lo with
  | nil => rfl
  | cons c r ih =>
    obtain ⟨i, u⟩ := c
    simp only [risingFrom, Bool.and_eq_true, decide_eq_true_eq] at h
    simp only [lookupCell]
    rw [if_neg (by omega)]
    exact ih (i + 1) h.2 (by omega)

theorem lookupCell_eraseCell {α : Type} (k j lo : Nat) (l : List (Nat × α)) (h : risingFrom lo l = true) :
    lookupCell k (eraseCell j l) = if j = k then none else lookupCell k l := by
  induction l generalizing lo with
  | nil => simp [eraseCell, lookupCell]
  | cons c r ih =>
    obtain ⟨i, u⟩ := c
    simp only [risingFrom, Bool.and_eq_true, decide_eq_true_eq] at h
    simp only [eraseCell]
    split
    · rename_i hij
      subst hij
      simp only [lookupCell]
      split
      · rename_i hik; subst hik; exact lookupCell_of_rising _ _ _ h.2 (by omega)
      · rfl
    · simp only [lookupCell, ih _ h.2]
      split_ifs <;> simp_all

theorem risingFrom_mono {α : Type} {lo lo' : Nat} {l : List (Nat × α)} (h : risingFrom lo l = true) (hl : lo' ≤ lo) :
    risingFrom lo' l = true := by
  cases l with
  | nil => rfl
  | cons c r =>
    obtain ⟨i, u⟩ := c
    simp only [risingFrom, Bool.and_eq_true, decide_eq_true_eq] at h ⊢
    exact ⟨by omega, h.2⟩

theorem risingFrom_insertCell {α : Type} (lo k : Nat) (v : α) (l : List (Nat × α)) (h : risingFrom lo l = true)
    (hk : lo ≤ k) : risingFrom lo (insertCell k v l) = true := by
  induction l generalizing lo with
  | nil => simp [insertCell, risingFrom, hk]
  | cons c r ih =>
    obtain ⟨i, u⟩ := c
    simp only [risingFrom, Bool.and_eq_true, decide_eq_true_eq] at h
    simp only [insertCell]
    split
    · simp only [risingFrom, Bool.and_eq_true, decide_eq_true_eq]; exact ⟨hk, by omega, h.2⟩
    · split
      · subst_vars; simp only [risingFrom, Bool.and_eq_true, decide_eq_true_eq]; exact ⟨hk, h.2⟩
      · simp only [risingFrom, Bool.and_eq_true, decide_eq_true_eq]; exact ⟨h.1, ih _ h.2 (by omega)⟩

theorem risingFrom_eraseCell {α : Type} (lo k : Nat) (l : List (Nat × α)) (h : risingFrom lo l = true) :
    risingFrom lo (eraseCell k l) = true := by
  induction l generalizing lo with
  | nil => rfl
  | cons c r ih =>
    obtain ⟨i, u⟩ := c
    simp only [risingFrom, Bool.and_eq_true, decide_eq_true_eq] at h
    simp only [eraseCell]
    split
    · exact risingFrom_mono h.2 (by omega)
    · simp only [risingFrom, Bool.and_eq_true, decide_eq_true_eq]; exact ⟨h.1, ih _ h.2⟩

theorem mem_insertCell {α : Type} {k : Nat} {v : α} {l : List (Nat × α)} {c : Nat × α} (h : c ∈ insertCell k v l) :
    c = (k, v) ∨ c ∈ l := by
  induction l with
  | nil => simpa [insertCell] using h
  | cons d r ih =>
    obtain ⟨i, u⟩ := d
    simp only [insertCell] at h
    split at h
    · simp only [List.mem_cons] at h ⊢; tauto
    · split at h
      · simp only [List.mem_cons] at h ⊢; tauto
      · simp only [List.mem_cons] at h ⊢
        rcases h with h | h
        · exact .inr (.inl h)
        · rcases ih h with h | h <;> tauto

theorem mem_eraseCell {α : Type} {k : Nat} {l : List (Nat × α)} {c : Nat × α} (h : c ∈ eraseCell k l) : c ∈ l := by
  induction l with
  | nil => cases h
  | cons d r ih =>
    obtain ⟨i, u⟩ := d
    simp only [eraseCell] at h
    split at h
    · exact List.mem_cons_of_mem _ h
    · simp only [List.mem_cons] at h ⊢
      rcases h with h | h
      · exact .inl h
      · exact .inr (ih h)

theorem ne_of_mem_eraseCell {α : Type} {k lo : Nat} {l : List (Nat × α)} {c : Nat × α} (hr : risingFrom lo l = true)
    (h : c ∈ eraseCell k l) : c.1 ≠ k := by
  have hlo : ∀ (lo : Nat) (l : List (Nat × α)), risingFrom lo l = true → ∀ c ∈ l, lo ≤ c.1 := by
    intro lo l
    induction l generalizing lo with
    | nil => intro _ c hc; cases hc
    | cons d r ih =>
      obtain ⟨i, u⟩ := d
      intro hr c hc
      simp only [risingFrom, Bool.and_eq_true, decide_eq_true_eq] at hr
      rcases List.mem_cons.1 hc with rfl | hc
      · exact hr.1
      · have := ih _ hr.2 c hc; omega
  induction l generalizing lo with
  | nil => cases h
  | cons d r ih =>
    obtain ⟨i, u⟩ := d
    simp only [risingFrom, Bool.and_eq_true, decide_eq_true_eq] at hr
    simp only [eraseCell] at h
    split at h
    · rename_i hik
      have := hlo _ _ hr.2 c h; omega
    · rename_i hik
      rcases List.mem_cons.1 h with rfl | h
      · exact hik
      · exact ih hr.2 h

theorem lookupCell_setEntry (k j lo : Nat) (v : Word) (l : List (Nat × Word)) (h : risingFrom lo l = true) :
    (lookupCell k (setEntry j v l)).getD 0 = if j = k then v else (lookupCell k l).getD 0 := by
  unfold setEntry
  split
  · rename_i hv
    rw [lookupCell_eraseCell _ _ lo _ h]; split <;> simp_all
  · rw [lookupCell_insertCell]; split <;> simp_all

/-! ## Ranges -/

theorem freeRangeAt_append (a : Nat) (l l' : List FreeRange) :
    freeRangeAt a (l ++ l') = (freeRangeAt a l).or (freeRangeAt a l') := by
  induction l with
  | nil => simp [freeRangeAt]
  | cons r rs ih => simp only [List.cons_append, freeRangeAt]; split <;> simp_all

/-- What lies in a carved list: the ids of the old one, outside [lo, hi). -/
theorem freeRangeAt_carve (a lo hi : Nat) (l : List FreeRange) :
    (freeRangeAt a (carve lo hi l)).map FreeRange.id =
      if lo ≤ a ∧ a < hi then none else (freeRangeAt a l).map FreeRange.id := by
  induction l with
  | nil => simp [carve, freeRangeAt]
  | cons r rs ih =>
    simp only [carve]
    split
    · rw [freeRangeAt_append, Option.map_or, ih]
      have hm : (freeRangeAt a (r.minus lo hi)).map FreeRange.id =
          if (r.lo ≤ a ∧ a < r.hi) ∧ ¬ (lo ≤ a ∧ a < hi) then some r.id else none := by
        unfold FreeRange.minus
        by_cases h1 : r.lo < min r.hi lo <;> by_cases h2 : max r.lo hi < r.hi <;>
          simp only [h1, h2, if_true, if_false, List.cons_append, List.nil_append, freeRangeAt] <;>
          split_ifs <;> first | rfl | (exfalso; omega)
      rw [hm]
      simp only [freeRangeAt]
      split_ifs <;> simp_all
    · rename_i hlt
      simp only [freeRangeAt]
      split
      · rename_i hr; rw [if_neg (by omega)]
      · exact ih

theorem freeRangeAt_insertRange (a : Nat) (n : FreeRange) (l : List FreeRange)
    (h : n.lo ≤ a ∧ a < n.hi → freeRangeAt a l = none) :
    freeRangeAt a (insertRange n l) = if n.lo ≤ a ∧ a < n.hi then some n else freeRangeAt a l := by
  induction l with
  | nil => simp [insertRange, freeRangeAt]
  | cons r rs ih =>
    simp only [insertRange]
    split
    · simp [freeRangeAt]
    · simp only [freeRangeAt]
      split
      · rename_i hr
        split
        · rename_i hn; have := h hn; simp [freeRangeAt, hr] at this
        · rfl
      · rename_i hr
        exact ih fun hn => by have := h hn; simpa [freeRangeAt, hr] using this

/-! ## HMEM -/

theorem Memory.read_eq (m : Memory) (a : Nat) :
    m.read a = match (freeRangeAt a m.free).map FreeRange.id with
      | some id => Config.freeHmem id a
      | none => (lookupCell a m.cells).getD unlistedByte := by
  unfold Memory.read
  cases freeRangeAt a m.free <;> rfl

theorem Memory.rising_of_wf {m : Memory} (h : m.wf = true) : risingFrom 0 m.cells = true := by
  simp only [Memory.wf, Bool.and_eq_true] at h; exact h.1.1

/-- A read after a write: the byte written there, every other byte as before. -/
theorem Memory.read_write (m : Memory) (a x : Nat) (b : Byte) (h : m.wf = true) :
    (m.write a b).read x = if x = a then b else m.read x := by
  have hr := Memory.rising_of_wf h
  rw [Memory.read_eq, Memory.read_eq]
  simp only [Memory.write, freeRangeAt_carve]
  by_cases hx : x = a
  · subst hx
    rw [if_pos (by omega), if_pos rfl]
    dsimp only
    split
    · rename_i hb; rw [lookupCell_eraseCell _ _ _ _ hr, if_pos rfl, hb]; rfl
    · rw [lookupCell_insertCell, if_pos rfl]; rfl
  · rw [if_neg (by omega), if_neg hx]
    cases (freeRangeAt x m.free).map FreeRange.id with
    | some id => rfl
    | none =>
      dsimp only
      split
      · rw [lookupCell_eraseCell _ _ _ _ hr, if_neg (Ne.symm hx)]
      · rw [lookupCell_insertCell, if_neg (Ne.symm hx)]

theorem lookupCell_filter {α : Type} (k : Nat) (p : Nat × α → Bool) (l : List (Nat × α)) (h : ∀ v, p (k, v) = true) :
    lookupCell k (l.filter p) = lookupCell k l := by
  induction l with
  | nil => rfl
  | cons c r ih =>
    obtain ⟨i, u⟩ := c
    simp only [List.filter]
    by_cases hik : i = k
    · subst hik; simp [h u, lookupCell]
    · cases p (i, u) <;> simp [lookupCell, hik, ih]

/-- A read after a range has become unspecified. -/
theorem Memory.read_makeFree (m : Memory) (lo hi id x : Nat) :
    (m.makeFree lo hi id).read x = if lo ≤ x ∧ x < hi then Config.freeHmem id x else m.read x := by
  unfold Memory.makeFree
  split
  · rename_i hlt
    have hc := freeRangeAt_carve x lo hi m.free
    rw [Memory.read_eq, Memory.read_eq]
    simp only
    rw [freeRangeAt_insertRange _ _ _ (fun hn => by rw [if_pos hn] at hc; simpa using hc)]
    by_cases hx : lo ≤ x ∧ x < hi
    · simp [hx]
    · rw [if_neg hx] at hc
      rw [if_neg (by simpa using hx), if_neg hx, hc]
      cases (freeRangeAt x m.free).map FreeRange.id with
      | some id => rfl
      | none =>
        simp only
        rw [lookupCell_filter]
        intro v
        simp only [Bool.or_eq_true, decide_eq_true_eq]
        omega
  · rw [if_neg (by omega)]

theorem rangesFrom_mono {lo lo' : Nat} {l : List FreeRange} (h : rangesFrom lo l = true) (hl : lo' ≤ lo) :
    rangesFrom lo' l = true := by
  cases l with
  | nil => rfl
  | cons r rs =>
    simp only [rangesFrom, Bool.and_eq_true, decide_eq_true_eq] at h ⊢
    exact ⟨⟨⟨by omega, h.1.1.2⟩, h.1.2⟩, h.2⟩

theorem rangesFrom_carve (lo hi s : Nat) (l : List FreeRange) (h : rangesFrom s l = true) :
    rangesFrom s (carve lo hi l) = true := by
  induction l generalizing s with
  | nil => rfl
  | cons r rs ih =>
    simp only [rangesFrom, Bool.and_eq_true, decide_eq_true_eq] at h
    simp only [carve]
    split
    · have h2 := ih _ h.2
      unfold FreeRange.minus
      split_ifs <;>
        simp only [List.cons_append, List.nil_append, rangesFrom, Bool.and_eq_true, decide_eq_true_eq] <;>
        first
        | exact ⟨⟨⟨by omega, by omega⟩, by omega⟩, ⟨⟨by omega, by omega⟩, by omega⟩, rangesFrom_mono h2 (by omega)⟩
        | exact ⟨⟨⟨by omega, by omega⟩, by omega⟩, rangesFrom_mono h2 (by omega)⟩
        | exact rangesFrom_mono h2 (by omega)
    · simp only [rangesFrom, Bool.and_eq_true, decide_eq_true_eq]
      exact ⟨h.1, ih _ h.2⟩

theorem rangesFrom_insertRange (n : FreeRange) (s : Nat) (l : List FreeRange) (h : rangesFrom s l = true)
    (hs : s ≤ n.lo) (hn : n.lo < n.hi) (hb : n.hi ≤ 2 ^ 32)
    (hd : ∀ r ∈ l, r.hi ≤ n.lo ∨ n.hi ≤ r.lo) : rangesFrom s (insertRange n l) = true := by
  induction l generalizing s with
  | nil => simp only [insertRange, rangesFrom, Bool.and_eq_true, decide_eq_true_eq]; exact ⟨⟨⟨hs, hn⟩, hb⟩, trivial⟩
  | cons r rs ih =>
    simp only [rangesFrom, Bool.and_eq_true, decide_eq_true_eq] at h
    have hr := hd r (List.mem_cons_self ..)
    simp only [insertRange]
    split
    · simp only [rangesFrom, Bool.and_eq_true, decide_eq_true_eq]
      exact ⟨⟨⟨hs, hn⟩, hb⟩, ⟨⟨by omega, h.1.1.2⟩, h.1.2⟩, h.2⟩
    · simp only [rangesFrom, Bool.and_eq_true, decide_eq_true_eq]
      exact ⟨h.1, ih _ h.2 (by omega) fun r' hr' => hd r' (List.mem_cons_of_mem _ hr')⟩

theorem mem_carve {lo hi : Nat} {l : List FreeRange} {r : FreeRange} (hlt : lo < hi) (h : r ∈ carve lo hi l) :
    r.hi ≤ lo ∨ hi ≤ r.lo := by
  induction l with
  | nil => cases h
  | cons q qs ih =>
    simp only [carve, if_pos hlt, List.mem_append] at h
    rcases h with h | h
    · unfold FreeRange.minus at h
      split_ifs at h <;> simp only [List.nil_append, List.append_nil, List.mem_append, List.mem_cons,
        List.not_mem_nil, or_false] at h
      · rcases h with rfl | rfl
        · left; simp only; omega
        · right; simp only; omega
      · subst h; left; simp only; omega
      · subst h; right; simp only; omega
    · exact ih h

/-- A write keeps the canonical form. -/
theorem Memory.wf_write (m : Memory) (a : Nat) (b : Byte) (h : m.wf = true) (ha : a < 2 ^ 32) :
    (m.write a b).wf = true := by
  have hr := Memory.rising_of_wf h
  simp only [Memory.wf, Bool.and_eq_true, List.all_eq_true, decide_eq_true_eq, Option.isNone_iff_eq_none] at h
  obtain ⟨⟨-, hall⟩, hranges⟩ := h
  have hnone : ∀ x, freeRangeAt x m.free = none → freeRangeAt x (carve a (a + 1) m.free) = none := by
    intro x hx
    have := freeRangeAt_carve x a (a + 1) m.free
    rw [hx] at this
    simpa using this
  have hself : freeRangeAt a (carve a (a + 1) m.free) = none := by
    have := freeRangeAt_carve a a (a + 1) m.free
    rw [if_pos (by omega)] at this
    simpa using this
  simp only [Memory.wf, Memory.write, Bool.and_eq_true, List.all_eq_true, decide_eq_true_eq,
    Option.isNone_iff_eq_none]
  refine ⟨⟨?_, ?_⟩, rangesFrom_carve _ _ _ _ hranges⟩
  · split
    · exact risingFrom_eraseCell _ _ _ hr
    · exact risingFrom_insertCell _ _ _ _ hr (by omega)
  · intro c hc
    split at hc
    · have := hall c (mem_eraseCell hc)
      exact ⟨this.1, hnone _ this.2⟩
    · rename_i hb
      rcases mem_insertCell hc with rfl | hc
      · exact ⟨⟨ha, hb⟩, hself⟩
      · have := hall c hc
        exact ⟨this.1, hnone _ this.2⟩

/-- Making a range unspecified keeps the canonical form. -/
theorem Memory.wf_makeFree (m : Memory) (lo hi id : Nat) (h : m.wf = true) (hb : hi ≤ 2 ^ 32) :
    (m.makeFree lo hi id).wf = true := by
  unfold Memory.makeFree
  split
  · rename_i hlt
    have hr := Memory.rising_of_wf h
    simp only [Memory.wf, Bool.and_eq_true, List.all_eq_true, decide_eq_true_eq, Option.isNone_iff_eq_none] at h
    obtain ⟨⟨-, hall⟩, hranges⟩ := h
    have hfilter : ∀ (lo' : Nat) (l : List Host.Cell) (p : Host.Cell → Bool),
        risingFrom lo' l = true → risingFrom lo' (l.filter p) = true := by
      intro lo' l p hl
      induction l generalizing lo' with
      | nil => rfl
      | cons c r ih =>
        obtain ⟨i, u⟩ := c
        simp only [risingFrom, Bool.and_eq_true, decide_eq_true_eq] at hl
        simp only [List.filter]
        cases p (i, u)
        · exact risingFrom_mono (ih _ hl.2) (by omega)
        · simp only [risingFrom, Bool.and_eq_true, decide_eq_true_eq]; exact ⟨hl.1, ih _ hl.2⟩
    simp only [Memory.wf, Bool.and_eq_true, List.all_eq_true, decide_eq_true_eq, Option.isNone_iff_eq_none]
    refine ⟨⟨hfilter _ _ _ hr, ?_⟩, ?_⟩
    · intro c hc
      rw [List.mem_filter] at hc
      have h1 := hall c hc.1
      have h2 : ¬ (lo ≤ c.1 ∧ c.1 < hi) := by
        have := hc.2
        simp only [Bool.or_eq_true, decide_eq_true_eq] at this
        omega
      refine ⟨h1.1, ?_⟩
      have hcv := freeRangeAt_carve c.1 lo hi m.free
      rw [if_neg h2, h1.2] at hcv
      rw [freeRangeAt_insertRange _ _ _ (fun hn => absurd hn h2), if_neg h2]
      simpa using hcv
    · exact rangesFrom_insertRange _ _ _ (rangesFrom_carve _ _ _ _ hranges) (by simp) hlt hb
        fun r hr => mem_carve hlt hr
  · exact h

/-- Settling the raced bytes of [lo, hi) changes no byte outside it, and no byte the host has not written. -/
theorem settle_read (lo hi x : Nat) (race : List (Nat × Nat)) (m : Memory)
    (h : ¬ (lo ≤ x ∧ x < hi) ∨ lookupCell x race = none) : (settle lo hi race m).read x = m.read x := by
  induction race with
  | nil => rfl
  | cons c r ih =>
    obtain ⟨i, n⟩ := c
    have hr : ¬ (lo ≤ x ∧ x < hi) ∨ lookupCell x r = none := by
      rcases h with h | h
      · exact .inl h
      · simp only [lookupCell] at h; split at h
        · cases h
        · exact .inr h
    simp only [settle]
    split
    · rename_i hi'
      rw [Memory.read_makeFree, if_neg, ih hr]
      rcases h with h | h
      · omega
      · simp only [lookupCell] at h
        split at h
        · cases h
        · omega
    · exact ih hr

/-- Settling leaves a raced byte of [lo, hi) unspecified, with the draw number of its newest write. -/
theorem settle_read_raced (lo hi x n : Nat) (race : List (Nat × Nat)) (m : Memory) (hx : lo ≤ x ∧ x < hi)
    (h : lookupCell x race = some n) : (settle lo hi race m).read x = Config.freeHmem n x := by
  induction race with
  | nil => cases h
  | cons c r ih =>
    obtain ⟨i, k⟩ := c
    simp only [lookupCell] at h
    simp only [settle]
    split at h
    · subst i
      cases h
      rw [if_pos hx, Memory.read_makeFree, if_pos (by omega)]
    · split
      · rw [Memory.read_makeFree, if_neg (by omega)]; exact ih h
      · exact ih h

/-- Settling keeps the canonical form. -/
theorem settle_wf (lo hi : Nat) (race : List (Nat × Nat)) (m : Memory) (h : m.wf = true) (hb : hi ≤ 2 ^ 32) :
    (settle lo hi race m).wf = true := by
  induction race with
  | nil => exact h
  | cons c r ih =>
    obtain ⟨i, n⟩ := c
    simp only [settle]
    split
    · exact Memory.wf_makeFree _ _ _ _ ih (by omega)
    · exact ih

theorem outEnd_le (s : State) : s.outEnd ≤ 2 ^ 32 := by unfold State.outEnd; omega

theorem settledMem_wf (s : State) (h : s.hmem.wf = true) : s.settledMem.wf = true :=
  settle_wf _ _ _ _ h (outEnd_le s)

theorem errorMem_wf (s : State) (h : s.hmem.wf = true) : s.errorMem.wf = true := by
  unfold State.errorMem
  split
  · exact Memory.wf_makeFree _ _ _ _ (settledMem_wf s h) (outEnd_le s)
  · exact settledMem_wf s h

/-- What an error or an interrupting reset leaves of HMEM: a byte outside OUT, and for a command that does not expand a
byte the host did not write while BUSY, is kept. -/
theorem errorMem_read (s : State) (a : Nat)
    (h : s.inOut a = false ∨ (s.isExpand = false ∧ lookupCell a s.race = none)) :
    s.errorMem.read a = s.hmem.read a := by
  have hout : s.inOut a = false → ¬ (s.out.base.toNat ≤ a ∧ a < s.outEnd) := by simp [State.inOut]
  have hset : s.settledMem.read a = s.hmem.read a :=
    settle_read _ _ _ _ _ (h.imp hout And.right)
  unfold State.errorMem
  split
  · rename_i he
    rcases h with h | h
    · rw [Memory.read_makeFree, if_neg (hout h), hset]
    · rw [he] at h; exact absurd h.1 (by decide)
  · exact hset

/-- The reset input keeps all of HMEM while the core is not BUSY, and otherwise what an error keeps. -/
theorem resetMem_read (s : State) (a : Nat)
    (h : s.isBusy = false ∨ s.inOut a = false ∨ (s.isExpand = false ∧ lookupCell a s.race = none)) :
    s.resetMem.read a = s.hmem.read a := by
  unfold State.resetMem
  split
  · rename_i hb
    exact errorMem_read s a (h.resolve_left (by simp [hb]))
  · rfl

theorem resetMem_wf (s : State) (h : s.hmem.wf = true) : s.resetMem.wf = true := by
  unfold State.resetMem
  split
  · exact errorMem_wf s h
  · exact h

/-- What a pixel write leaves at every address. -/
theorem Memory.read_writePixel (m : Memory) (o x : Nat) (p : Rgba) (h : m.wf = true) (ho : o + 3 < 2 ^ 32) :
    (m.writePixel o p).read x =
      if x = o + 3 then p.a else if x = o + 2 then p.b else if x = o + 1 then p.g else if x = o then p.r
      else m.read x := by
  have h1 := Memory.wf_write m o p.r h (by omega)
  have h2 := Memory.wf_write _ (o + 1) p.g h1 (by omega)
  have h3 := Memory.wf_write _ (o + 2) p.b h2 (by omega)
  rw [Memory.writePixel, Memory.read_write _ _ _ _ h3, Memory.read_write _ _ _ _ h2, Memory.read_write _ _ _ _ h1,
    Memory.read_write _ _ _ _ h]

theorem Memory.wf_writePixel (m : Memory) (o : Nat) (p : Rgba) (h : m.wf = true) (ho : o + 3 < 2 ^ 32) :
    (m.writePixel o p).wf = true := by
  have h1 := Memory.wf_write m o p.r h (by omega)
  have h2 := Memory.wf_write _ (o + 1) p.g h1 (by omega)
  have h3 := Memory.wf_write _ (o + 2) p.b h2 (by omega)
  exact Memory.wf_write _ (o + 3) p.a h3 (by omega)

/-- Reset memory is in canonical form. -/
theorem reset_memory_wf : State.reset.hmem.wf = true := rfl

/-! ## RAW, PAL, TRNS and the segment table -/

theorem RawBuf.read_write (r : RawBuf) (i x : Nat) (b : Byte) :
    (r.write i b).read x = if x = i then b else r.read x := by
  simp only [RawBuf.read, RawBuf.write, lookupCell_insertCell]
  by_cases h : i = x
  · subst h; simp
  · rw [if_neg h, if_neg (Ne.symm h)]

@[simp] theorem RawBuf.write_epoch (r : RawBuf) (i : Nat) (b : Byte) : (r.write i b).epoch = r.epoch := rfl

theorem RawBuf.rising_write (r : RawBuf) (i : Nat) (b : Byte) (h : risingFrom 0 r.cells = true) :
    risingFrom 0 (r.write i b).cells = true := risingFrom_insertCell _ _ _ _ h (by omega)

theorem RawBuf.bound_write (r : RawBuf) (i n : Nat) (b : Byte) (h : ∀ c ∈ r.cells, c.1 < n) (hi : i < n) :
    ∀ c ∈ (r.write i b).cells, c.1 < n := by
  intro c hc
  rcases mem_insertCell hc with rfl | hc
  · exact hi
  · exact h c hc

end Sys2Proof.Machine
end

