-- ==== Sys2Proof/Laws/Inflate.lean ====
section
/-! SUPPORT. The inflate engine's operations: what emit, copy, the stored copy, the table builder and the code-length
writes can do. -/

namespace Sys2Proof.Machine

/-! ## Output -/

/-- Everything emit can do (R222). -/
theorem emit_cases (b : Byte) (s : State) :
    (s.geom.rasterSize ≤ s.inflate.outPos.toNat ∧ emit b s = .raise .outputOverflow s) ∨
      (s.inflate.outPos.toNat < s.geom.rasterSize ∧ s.params.rawCapMax ≤ s.inflate.outPos.toNat ∧
        emit b s = .fault .rawOutOfRange) ∨
      (s.inflate.outPos.toNat < s.geom.rasterSize ∧ s.inflate.outPos.toNat < s.params.rawCapMax ∧
        emit b s = .ok () { s with
          raw := s.raw.write s.inflate.outPos.toNat b
          inflate := { s.inflate with outPos := s.inflate.outPos + 1 } }) := by
  unfold emit
  split
  · exact .inl ⟨by omega, rfl⟩
  · split
    · exact .inr (.inl ⟨by omega, by omega, rfl⟩)
    · exact .inr (.inr ⟨by omega, by omega, rfl⟩)

/-- The result, if it has a state, has `s` with another cursor, other RAW bytes and another out_pos. -/
def CoreResult.OnlyOutput {α : Type} (s : State) : CoreResult α → Prop
  | .ok _ t =>
    t = { s with cursor := t.cursor, raw := t.raw, inflate := { s.inflate with outPos := t.inflate.outPos } }
  | .raise e t =>
    e ∈ [Err.truncatedInput, Err.invalidCode, Err.outputOverflow] ∧
      t = { s with cursor := t.cursor, raw := t.raw, inflate := { s.inflate with outPos := t.inflate.outPos } }
  | .fault _ => True

theorem OnlyCursor.onlyOutput {α : Type} {s : State} {r : CoreResult α} (h : r.OnlyCursor s) : r.OnlyOutput s := by
  cases r with
  | ok v t =>
    simp only [CoreResult.OnlyCursor] at h
    simp only [CoreResult.OnlyOutput]
    rw [h]
  | raise e t =>
    obtain ⟨h1, h2⟩ := h
    refine ⟨by simp only [List.mem_cons, List.not_mem_nil, or_false] at h1 ⊢; tauto, ?_⟩
    rw [h2]
  | fault f => trivial

theorem OnlyOutput.bind {α β : Type} {s : State} {r : CoreResult α} {f : α → State → CoreResult β}
    (hr : r.OnlyOutput s)
    (hf : ∀ v t, t = { s with cursor := t.cursor, raw := t.raw,
                              inflate := { s.inflate with outPos := t.inflate.outPos } } → (f v t).OnlyOutput t) :
    (r.bind f).OnlyOutput s := by
  cases r with
  | ok v t =>
    simp only [CoreResult.OnlyOutput] at hr
    have := hf v t hr
    simp only [CoreResult.bind]
    revert this
    cases f v t with
    | ok w u => intro h; simp only [CoreResult.OnlyOutput] at h ⊢; rw [h, hr]
    | raise e u => intro h; simp only [CoreResult.OnlyOutput] at h ⊢; exact ⟨h.1, by rw [h.2, hr]⟩
    | fault g => exact id
  | raise e t => exact hr
  | fault g => exact hr

theorem emit_onlyOutput (b : Byte) (s : State) : (emit b s).OnlyOutput s := by
  rcases emit_cases b s with ⟨-, h⟩ | ⟨-, -, h⟩ | ⟨-, -, h⟩ <;> rw [h]
  · exact ⟨by simp, rfl⟩
  · trivial
  · rfl

/-- Everything a back-reference copy can do to the state (R224). -/
theorem copyMatch_onlyOutput (d l : Nat) (s : State) : (copyMatch d l s).OnlyOutput s := by
  induction l generalizing s with
  | zero => rfl
  | succ n ih =>
    unfold copyMatch
    exact OnlyOutput.bind (emit_onlyOutput _ s) fun _ t _ => ih t

/-- Everything the copy of a stored block can do to the state (R204). -/
theorem copyStored_onlyOutput (n : Nat) (s : State) : (copyStored n s).OnlyOutput s := by
  induction n generalizing s with
  | zero => rfl
  | succ n ih =>
    unfold copyStored
    exact OnlyOutput.bind (OnlyCursor.onlyOutput (takeBits_onlyCursor 8 s)) fun _ t _ =>
      OnlyOutput.bind (emit_onlyOutput _ t) fun _ u _ => ih u

/-! ## Tables -/

/-- Everything build can answer (R182, R183). -/
theorem build_cases (lens : List Nat) :
    (∃ e, checkLengths lens = some e ∧ (e = .oversubscribedCode ∨ e = .incompleteCode) ∧ build lens true = .error e) ∨
      (checkLengths lens = none ∧ build lens true = .ok (sortedTable lens)) := by
  unfold build
  simp only [if_true]
  cases h : checkLengths lens with
  | none => exact .inr ⟨rfl, rfl⟩
  | some e =>
    refine .inl ⟨e, rfl, ?_, rfl⟩
    unfold checkLengths at h
    simp only at h
    split at h
    · injection h with h; exact .inl h.symm
    · cases h
    · split at h
      · cases h
      · injection h with h; exact .inr h.symm

theorem mem_symbolsFrom (l s : Nat) (lens : List Nat) (v : Nat) :
    v ∈ symbolsFrom l s lens ↔ s ≤ v ∧ v < s + lens.length ∧ lens[v - s]? = some l := by
  induction lens generalizing s with
  | nil => simp [symbolsFrom]
  | cons x r ih =>
    have key : v ∈ symbolsFrom l (s + 1) r ↔ s + 1 ≤ v ∧ v < s + (r.length + 1) ∧ (x :: r)[v - s]? = some l := by
      rw [ih]
      constructor
      · rintro ⟨h1, h2, h3⟩
        refine ⟨h1, by omega, ?_⟩
        rw [show v - s = (v - (s + 1)) + 1 by omega, List.getElem?_cons_succ]; exact h3
      · rintro ⟨h1, h2, h3⟩
        refine ⟨h1, by omega, ?_⟩
        rw [show v - s = (v - (s + 1)) + 1 by omega, List.getElem?_cons_succ] at h3; exact h3
    simp only [symbolsFrom, List.length_cons]
    by_cases hx : x = l
    · rw [if_pos hx, List.mem_cons, key]
      constructor
      · rintro (rfl | ⟨h1, h2, h3⟩)
        · exact ⟨le_refl _, by omega, by simp [hx]⟩
        · exact ⟨by omega, h2, h3⟩
      · rintro ⟨h1, h2, h3⟩
        by_cases hv : v = s
        · exact .inl hv
        · exact .inr ⟨by omega, h2, h3⟩
    · rw [if_neg hx, key]
      constructor
      · rintro ⟨h1, h2, h3⟩; exact ⟨by omega, h2, h3⟩
      · rintro ⟨h1, h2, h3⟩
        refine ⟨?_, h2, h3⟩
        by_contra hc
        have : v = s := by omega
        subst this
        simp at h3
        exact hx h3

/-- A table holds only symbols of its alphabet. -/
theorem sortedTable_symbol_lt (lens : List Nat) (v : Nat) (h : v ∈ (sortedTable lens).symbol) : v < lens.length := by
  simp only [sortedTable, List.mem_flatMap] at h
  obtain ⟨l, -, hl⟩ := h
  rw [mem_symbolsFrom] at hl
  omega

theorem searchSym_found_mem (t : HuffTable) (fuel l code first index : Nat) (s u : State) (sym : Nat)
    (h : searchSym t fuel l code first index s = .ok (.found sym) u) : sym = 0 ∨ sym ∈ t.symbol := by
  induction fuel generalizing l code first index s with
  | zero => cases h
  | succ m ih =>
    simp only [searchSym, CoreResult.bind] at h
    cases ht : takeBits 1 s with
    | ok b s1 =>
      rw [ht] at h
      simp only at h
      split at h
      · injection h with h1 _
        injection h1 with h1
        by_cases hi : index + (code + b - first) < t.symbol.length
        · right; rw [← h1, List.getD_eq_getElem _ _ hi]; exact List.getElem_mem hi
        · left; rw [← h1]; exact List.getD_eq_default _ _ (by omega)
      · exact ih _ _ _ _ _ h
    | raise e s1 => rw [ht] at h; cases h
    | fault f => rw [ht] at h; cases h

/-- What decodeSym answers is a symbol of the table, or 0. -/
theorem decodeSym_mem (t : HuffTable) (s u : State) (sym : Nat) (h : decodeSym t s = .ok sym u) :
    sym = 0 ∨ sym ∈ t.symbol := by
  simp only [decodeSym, CoreResult.bind] at h
  cases hs : searchSym t 15 1 0 0 0 s with
  | ok r s1 =>
    rw [hs] at h
    cases r with
    | found v =>
      simp only at h
      injection h with h1 _
      subst h1
      exact searchSym_found_mem _ _ _ _ _ _ _ _ _ hs
    | missed c => cases h
  | raise e s1 => rw [hs] at h; cases h
  | fault f => rw [hs] at h; cases h

/-! ## Code lengths -/

theorem writeLens_length (p r i : Nat) (l : List Nat) : (writeLens p r i l).length = l.length := by
  induction r generalizing i l with
  | zero => rfl
  | succ n ih => simp only [writeLens, ih, List.length_set]

theorem writeLens_mem (p r i b : Nat) (l : List Nat) (hp : p ≤ b) (h : ∀ v ∈ l, v ≤ b) :
    ∀ v ∈ writeLens p r i l, v ≤ b := by
  induction r generalizing i l with
  | zero => exact h
  | succ n ih =>
    simp only [writeLens]
    refine ih _ _ fun v hv => ?_
    rcases List.mem_or_eq_of_mem_set hv with hv | rfl
    · exact h v hv
    · exact hp

/-- The entries r repeats write (R211 to R213). -/
theorem writeLens_getD (p r i j : Nat) (l : List Nat) (h : i + r ≤ l.length) :
    (writeLens p r i l).getD j 0 = if i ≤ j ∧ j < i + r then p else l.getD j 0 := by
  induction r generalizing i l with
  | zero => rw [if_neg (by omega)]; rfl
  | succ n ih =>
    simp only [writeLens]
    rw [ih (i + 1) (l.set i p) (by rw [List.length_set]; omega)]
    by_cases h1 : i + 1 ≤ j ∧ j < i + 1 + n
    · rw [if_pos h1, if_pos (by omega)]
    · rw [if_neg h1]
      by_cases h2 : j = i
      · subst h2
        rw [if_pos (by omega), List.getD_eq_getElem _ _ (by rw [List.length_set]; omega), List.getElem_set_self]
      · rw [if_neg (by omega)]
        simp only [List.getD_eq_getElem?_getD]
        rw [List.getElem?_set_ne (by omega)]

/-- Everything the test of the code-length loop can do (R210, R215). -/
theorem lengthLoop_cases (s : State) :
    (s.inflate.lenIdx < s.inflate.total ∧ lengthLoop s = .ok () s) ∨
      (s.inflate.total ≤ s.inflate.lenIdx ∧ lengthLoop s = buildLitDist s) := by
  unfold lengthLoop
  split
  · exact .inl ⟨by omega, rfl⟩
  · exact .inr ⟨by omega, rfl⟩

/-- Everything a repeat can do (R214). -/
theorem putLengths_cases (p r : Nat) (s : State) :
    (s.inflate.total < s.inflate.lenIdx + r ∧ putLengths p r s = .raise .badCodeLengthRepeat s) ∨
      (s.inflate.lenIdx + r ≤ s.inflate.total ∧
        putLengths p r s = lengthLoop { s with
          inflate := { s.inflate with
            len := writeLens p r s.inflate.lenIdx s.inflate.len, lenIdx := s.inflate.lenIdx + r } }) := by
  unfold putLengths
  split
  · exact .inl ⟨by omega, rfl⟩
  · exact .inr ⟨by omega, rfl⟩

end Sys2Proof.Machine
end

