-- ==== Sys2Proof/Laws/PerInstr.lean ====
section
/-! SUPPORT. The family EncodeFits, one lemma per constructor: the word of a well-formed element has no bit above its
carrier's length. -/

namespace Sys2Proof.Laws.EncodeFits

/-- The word of the element fits its carrier (R110). -/
def Statement (i : Instr) : Prop := i.wellFormed = true → encode i < 2 ^ i.format.bits

theorem cmdReserved (inchk ie clear : Bool) : Statement (.cmdReserved inchk ie clear) := by
  intro _; cases inchk <;> cases ie <;> cases clear <;> simp [encode, encodeStart, Instr.format, Format.bits]

theorem cmdDecode (inchk ie clear : Bool) : Statement (.cmdDecode inchk ie clear) := by
  intro _; cases inchk <;> cases ie <;> cases clear <;> simp [encode, encodeStart, Instr.format, Format.bits]

theorem cmdExpand (inchk ie clear : Bool) : Statement (.cmdExpand inchk ie clear) := by
  intro _; cases inchk <;> cases ie <;> cases clear <;> simp [encode, encodeStart, Instr.format, Format.bits]

theorem cmdDecodeExpand (inchk ie clear : Bool) : Statement (.cmdDecodeExpand inchk ie clear) := by
  intro _; cases inchk <;> cases ie <;> cases clear <;> simp [encode, encodeStart, Instr.format, Format.bits]

theorem ctrlClear (cmd : BitVec 2) (inchk ie : Bool) : Statement (.ctrlClear cmd inchk ie) := by
  intro _; have := cmd.isLt; cases inchk <;> cases ie <;> simp [encode, Instr.format, Format.bits] <;> omega

theorem blkStored (bfinal : Bool) : Statement (.blkStored bfinal) := by
  intro _; cases bfinal <;> simp [encode, Instr.format, Format.bits]

theorem blkFixed (bfinal : Bool) : Statement (.blkFixed bfinal) := by
  intro _; cases bfinal <;> simp [encode, Instr.format, Format.bits]

theorem blkDynamic (bfinal : Bool) : Statement (.blkDynamic bfinal) := by
  intro _; cases bfinal <;> simp [encode, Instr.format, Format.bits]

theorem blkInvalid (bfinal : Bool) : Statement (.blkInvalid bfinal) := by
  intro _; cases bfinal <;> simp [encode, Instr.format, Format.bits]

theorem clLen (v : Nat) : Statement (.clLen v) := by
  intro h; simp only [Instr.wellFormed, Bool.and_eq_true, decide_eq_true_eq] at h
  simp only [encode, Instr.format, Format.bits]; omega

theorem clRepPrev : Statement .clRepPrev := by
  intro _; simp [encode, Instr.format, Format.bits]

theorem clRepZero3 : Statement .clRepZero3 := by
  intro _; simp [encode, Instr.format, Format.bits]

theorem clRepZero11 : Statement .clRepZero11 := by
  intro _; simp [encode, Instr.format, Format.bits]

theorem lit (b : Byte) : Statement (.lit b) := by
  intro _; have := b.isLt; simp only [encode, Instr.format, Format.bits]; omega

theorem eob : Statement .eob := by
  intro _; simp [encode, Instr.format, Format.bits]

theorem len (sym : Nat) : Statement (.len sym) := by
  intro h; simp only [Instr.wellFormed, Bool.and_eq_true, decide_eq_true_eq] at h
  simp only [encode, Instr.format, Format.bits]; omega

theorem lenInvalid (sym : Nat) : Statement (.lenInvalid sym) := by
  intro h; simp only [Instr.wellFormed, Bool.and_eq_true, decide_eq_true_eq] at h
  simp only [encode, Instr.format, Format.bits]; omega

theorem dist (sym : Nat) : Statement (.dist sym) := by
  intro h; simp only [Instr.wellFormed, Bool.and_eq_true, decide_eq_true_eq] at h
  simp only [encode, Instr.format, Format.bits]; omega

theorem distInvalid (sym : Nat) : Statement (.distInvalid sym) := by
  intro h; simp only [Instr.wellFormed, Bool.and_eq_true, decide_eq_true_eq] at h
  simp only [encode, Instr.format, Format.bits]; omega

theorem filtNone : Statement .filtNone := by
  intro _; simp [encode, Instr.format, Format.bits]

theorem filtSub : Statement .filtSub := by
  intro _; simp [encode, Instr.format, Format.bits]

theorem filtUp : Statement .filtUp := by
  intro _; simp [encode, Instr.format, Format.bits]

theorem filtAvg : Statement .filtAvg := by
  intro _; simp [encode, Instr.format, Format.bits]

theorem filtPaeth : Statement .filtPaeth := by
  intro _; simp [encode, Instr.format, Format.bits]

theorem filtInvalid (tag : Byte) : Statement (.filtInvalid tag) := by
  intro _; have := tag.isLt; simp only [encode, Instr.format, Format.bits]; omega

theorem pixG1 (il : Byte) : Statement (.pixG1 il) := by
  intro h; simp only [Instr.wellFormed, decide_eq_true_eq] at h
  simp only [encode, encodeFormat, Instr.format, Format.bits]; omega

theorem pixG2 (il : Byte) : Statement (.pixG2 il) := by
  intro h; simp only [Instr.wellFormed, decide_eq_true_eq] at h
  simp only [encode, encodeFormat, Instr.format, Format.bits]; omega

theorem pixG4 (il : Byte) : Statement (.pixG4 il) := by
  intro h; simp only [Instr.wellFormed, decide_eq_true_eq] at h
  simp only [encode, encodeFormat, Instr.format, Format.bits]; omega

theorem pixG8 (il : Byte) : Statement (.pixG8 il) := by
  intro h; simp only [Instr.wellFormed, decide_eq_true_eq] at h
  simp only [encode, encodeFormat, Instr.format, Format.bits]; omega

theorem pixG16 (il : Byte) : Statement (.pixG16 il) := by
  intro h; simp only [Instr.wellFormed, decide_eq_true_eq] at h
  simp only [encode, encodeFormat, Instr.format, Format.bits]; omega

theorem pixRgb8 (il : Byte) : Statement (.pixRgb8 il) := by
  intro h; simp only [Instr.wellFormed, decide_eq_true_eq] at h
  simp only [encode, encodeFormat, Instr.format, Format.bits]; omega

theorem pixRgb16 (il : Byte) : Statement (.pixRgb16 il) := by
  intro h; simp only [Instr.wellFormed, decide_eq_true_eq] at h
  simp only [encode, encodeFormat, Instr.format, Format.bits]; omega

theorem pixP1 (il : Byte) : Statement (.pixP1 il) := by
  intro h; simp only [Instr.wellFormed, decide_eq_true_eq] at h
  simp only [encode, encodeFormat, Instr.format, Format.bits]; omega

theorem pixP2 (il : Byte) : Statement (.pixP2 il) := by
  intro h; simp only [Instr.wellFormed, decide_eq_true_eq] at h
  simp only [encode, encodeFormat, Instr.format, Format.bits]; omega

theorem pixP4 (il : Byte) : Statement (.pixP4 il) := by
  intro h; simp only [Instr.wellFormed, decide_eq_true_eq] at h
  simp only [encode, encodeFormat, Instr.format, Format.bits]; omega

theorem pixP8 (il : Byte) : Statement (.pixP8 il) := by
  intro h; simp only [Instr.wellFormed, decide_eq_true_eq] at h
  simp only [encode, encodeFormat, Instr.format, Format.bits]; omega

theorem pixGa8 (il : Byte) : Statement (.pixGa8 il) := by
  intro h; simp only [Instr.wellFormed, decide_eq_true_eq] at h
  simp only [encode, encodeFormat, Instr.format, Format.bits]; omega

theorem pixGa16 (il : Byte) : Statement (.pixGa16 il) := by
  intro h; simp only [Instr.wellFormed, decide_eq_true_eq] at h
  simp only [encode, encodeFormat, Instr.format, Format.bits]; omega

theorem pixRgba8 (il : Byte) : Statement (.pixRgba8 il) := by
  intro h; simp only [Instr.wellFormed, decide_eq_true_eq] at h
  simp only [encode, encodeFormat, Instr.format, Format.bits]; omega

theorem pixRgba16 (il : Byte) : Statement (.pixRgba16 il) := by
  intro h; simp only [Instr.wellFormed, decide_eq_true_eq] at h
  simp only [encode, encodeFormat, Instr.format, Format.bits]; omega

end Sys2Proof.Laws.EncodeFits
end

