-- ==== Sys2Proof/Laws/Raster.lean ====
section
/-! SUPPORT. The back end: the layout of RAW, what a filter's loop leaves, the moves to the next row and the next pixel,
and what a pixel element can do. -/

namespace Sys2Proof.Machine

/-! ## Layout -/

theorem passBytes_eq (g : PassGeom) (w h bits : Nat) :
    g.passBytes w h bits = if 0 < g.pw w ∧ 0 < g.ph h then g.ph h * (1 + g.rowBytes w bits) else 0 := by
  unfold PassGeom.passBytes PassGeom.nonEmpty
  simp only [Bool.and_eq_true, decide_eq_true_eq]

/-- The pass searched for is the first nonempty one of the list (R273). -/
theorem firstNonEmpty_spec (w h k : Nat) (l : List PassGeom) :
    match firstNonEmpty w h k l with
    | some q => k ≤ q ∧ q < k + l.length ∧ (∃ g, l[q - k]? = some g ∧ g.nonEmpty w h = true) ∧
        ∀ q', k ≤ q' → q' < q → ∀ g, l[q' - k]? = some g → g.nonEmpty w h = false
    | none => ∀ g ∈ l, g.nonEmpty w h = false := by
  induction l generalizing k with
  | nil => simp [firstNonEmpty]
  | cons g gs ih =>
    simp only [firstNonEmpty]
    by_cases hg : g.nonEmpty w h = true
    · rw [if_pos hg]
      refine ⟨le_refl _, by simp, ⟨g, by simp, hg⟩, fun q' h1 h2 => by omega⟩
    · rw [if_neg hg]
      have := ih (k + 1)
      revert this
      cases firstNonEmpty w h (k + 1) gs with
      | some q =>
        rintro ⟨h1, h2, ⟨g', h3, h4⟩, h5⟩
        refine ⟨by omega, by simp only [List.length_cons]; omega, ⟨g', ?_, h4⟩, ?_⟩
        · rw [show q - k = (q - (k + 1)) + 1 by omega, List.getElem?_cons_succ]; exact h3
        · intro q' h6 h7 g'' h8
          by_cases hq : q' = k
          · subst hq; simp only [Nat.sub_self, List.getElem?_cons_zero, Option.some.injEq] at h8
            subst h8; simpa using hg
          · rw [show q' - k = (q' - (k + 1)) + 1 by omega, List.getElem?_cons_succ] at h8
            exact h5 q' (by omega) h7 g'' h8
      | none =>
        intro h1 g' hg'
        rcases List.mem_cons.1 hg' with rfl | hg'
        · simpa using hg
        · exact h1 g' hg'

/-- A row that exists lies inside S (R250, R274). -/
theorem tagIndex_fits (g : GeomRegs) (p row : Nat) (h : g.HasRow p row) :
    g.tagIndex p row + 1 + g.rowBytesOf p ≤ g.rasterSize := by
  obtain ⟨h1, h2, h3, h4⟩ := h
  have hsplit : g.rasterSize =
      g.passStart p + ((passGeom g.format.interlace p).passBytes g.width.toNat g.height.toNat g.format.bitsPerPixel +
        (((passesOf g.format.interlace).drop p).map fun q =>
          q.passBytes g.width.toNat g.height.toNat g.format.bitsPerPixel).sum) := by
    unfold GeomRegs.rasterSize GeomRegs.passStart
    conv_lhs => rw [← List.take_append_drop (p - 1) (passesOf g.format.interlace)]
    rw [List.map_append, List.sum_append]
    congr 1
    rw [List.drop_eq_getElem_cons (by omega), List.map_cons, List.sum_cons, show p - 1 + 1 = p by omega]
    congr 1
    unfold passGeom
    rw [List.getD_eq_getElem _ _ (by omega)]
  rw [hsplit, passBytes_eq, if_pos ⟨h3, by omega⟩]
  have hrow : row + 1 ≤ (passGeom g.format.interlace p).ph g.height.toNat := h4
  have hmul := Nat.mul_le_mul_right (1 + g.rowBytesOf p) hrow
  rw [Nat.add_mul, Nat.one_mul] at hmul
  unfold GeomRegs.tagIndex
  unfold GeomRegs.rowBytesOf at hmul ⊢
  omega

/-! ## Filters -/

/-- The loop of R252 writes only the row's own bytes. -/
theorem reconLoop_read_outside (pred : Byte → Byte → Byte → Byte) (r : ReconRegs) (n i x : Nat) (raw : RawBuf)
    (h : x < r.cur + i ∨ r.cur + i + n ≤ x) : (reconLoop pred r n i raw).read x = raw.read x := by
  induction n generalizing i raw with
  | zero => rfl
  | succ m ih =>
    simp only [reconLoop]
    rw [ih (i + 1) _ (by omega), RawBuf.read_write, if_neg (by omega)]

theorem reconLoop_epoch (pred : Byte → Byte → Byte → Byte) (r : ReconRegs) (n i : Nat) (raw : RawBuf) :
    (reconLoop pred r n i raw).epoch = raw.epoch := by
  induction n generalizing i raw with
  | zero => rfl
  | succ m ih => simp only [reconLoop, ih, RawBuf.write_epoch]

theorem reconLoop_rising (pred : Byte → Byte → Byte → Byte) (r : ReconRegs) (n i : Nat) (raw : RawBuf)
    (h : risingFrom 0 raw.cells = true) : risingFrom 0 (reconLoop pred r n i raw).cells = true := by
  induction n generalizing i raw with
  | zero => exact h
  | succ m ih => simp only [reconLoop]; exact ih _ _ (RawBuf.rising_write _ _ _ h)

theorem reconLoop_bound (pred : Byte → Byte → Byte → Byte) (r : ReconRegs) (n i b : Nat) (raw : RawBuf)
    (h : ∀ c ∈ raw.cells, c.1 < b) (hb : r.cur + i + n ≤ b) : ∀ c ∈ (reconLoop pred r n i raw).cells, c.1 < b := by
  induction n generalizing i raw with
  | zero => exact h
  | succ m ih => simp only [reconLoop]; exact ih _ _ (RawBuf.bound_write _ _ _ _ h (by omega)) (by omega)

/-- What the loop leaves in byte k of the row: its old value plus the prediction from the bytes of the loop's result on
its left and of the row above. -/
theorem reconLoop_read (pred : Byte → Byte → Byte → Byte) (r : ReconRegs) (n i k : Nat) (raw : RawBuf)
    (hbpp : 1 ≤ r.bpp) (hprev : ∀ p, r.prev = some p → p + (i + n) ≤ r.cur) (hik : i ≤ k) (hk : k < i + n) :
    (reconLoop pred r n i raw).read (r.cur + k) =
      raw.read (r.cur + k) +
        pred (leftByte r (reconLoop pred r n i raw) k) (upByte r raw k) (upLeftByte r raw k) := by
  induction n generalizing i raw with
  | zero => omega
  | succ m ih =>
    simp only [reconLoop]
    set w := raw.write (r.cur + i)
      (raw.read (r.cur + i) + pred (leftByte r raw i) (upByte r raw i) (upLeftByte r raw i)) with hw
    have hwread : ∀ x, x ≠ r.cur + i → w.read x = raw.read x := fun x hx => by
      rw [hw, RawBuf.read_write, if_neg hx]
    have hup : ∀ k, k < i + (m + 1) → upByte r w k = upByte r raw k := by
      intro k hk
      unfold upByte
      cases hp : r.prev with
      | none => rfl
      | some p => have := hprev p hp; exact hwread _ (by omega)
    have hupl : ∀ k, k < i + (m + 1) → upLeftByte r w k = upLeftByte r raw k := by
      intro k hk
      unfold upLeftByte
      cases hp : r.prev with
      | none => rfl
      | some p =>
        have := hprev p hp
        simp only
        split
        · exact hwread _ (by omega)
        · rfl
    by_cases hki : k = i
    · subst hki
      rw [reconLoop_read_outside _ _ _ _ _ _ (by omega)]
      have hleft : leftByte r (reconLoop pred r m (k + 1) w) k = leftByte r raw k := by
        unfold leftByte
        split
        · rw [reconLoop_read_outside _ _ _ _ _ _ (by omega), hwread _ (by omega)]
        · rfl
      rw [hleft, hw, RawBuf.read_write, if_pos rfl]
    · rw [ih (i + 1) w (fun p hp => by have := hprev p hp; omega) (by omega) (by omega), hup k hk, hupl k hk,
        hwread _ (by omega)]

/-! ## Sequencing -/

/-- Everything the move to the next row can do (R252). -/
theorem nextRow_cases (s : State) :
    (s.recon.row + 1 < (passGeom s.geom.format.interlace s.recon.pass).ph s.geom.height.toNat ∧
        nextRow s = { s with
          recon := { s.recon with
            row := s.recon.row + 1, prev := some s.recon.cur, cur := s.recon.cur + s.recon.rowbytes + 1 } }) ∨
      (¬ s.recon.row + 1 < (passGeom s.geom.format.interlace s.recon.pass).ph s.geom.height.toNat ∧
        ((∃ p, nextPass s.geom.format.interlace s.geom.width.toNat s.geom.height.toNat s.recon.pass = some p ∧
            nextRow s = { s with recon := firstRowOf s.geom p (s.recon.cur + s.recon.rowbytes) }) ∨
          (nextPass s.geom.format.interlace s.geom.width.toNat s.geom.height.toNat s.recon.pass = none ∧
            nextRow s = endRecon s))) := by
  unfold nextRow
  simp only
  split
  · rename_i h; exact .inl ⟨h, rfl⟩
  · rename_i h
    refine .inr ⟨h, ?_⟩
    cases hp : nextPass s.geom.format.interlace s.geom.width.toNat s.geom.height.toNat s.recon.pass with
    | some p => exact .inl ⟨p, rfl, rfl⟩
    | none => exact .inr ⟨rfl, rfl⟩

/-- Everything the move to the next pixel can do to the state: the traversal moves on, or the command ends (R292). -/
theorem nextPixel_cases (il : Byte) (bits : Nat) (s : State) :
    (∃ pass row col rawpos,
        nextPixel il bits s = { s with norm := { s.norm with pass := pass, row := row, col := col, rawpos := rawpos } }) ∨
      ∃ rawpos, nextPixel il bits s = finishCommand { s with norm := { s.norm with rawpos := rawpos } } := by
  unfold nextPixel
  simp only
  split
  · exact .inl ⟨_, _, _, _, rfl⟩
  · split
    · exact .inl ⟨_, _, _, _, rfl⟩
    · cases nextPass il s.geom.width.toNat s.geom.height.toNat s.norm.pass with
      | some p => exact .inl ⟨_, _, _, _, rfl⟩
      | none => exact .inr ⟨_, rfl⟩

/-- The end of the reconstruct phase: RAWVALID is set, then EXPAND or the end (R331, R336). -/
theorem endRecon_cases (s : State) :
    (s.isExpand = true ∧ endRecon s = enterExpand { s with status := s.status.setRawValid true }) ∨
      (s.isExpand = false ∧ endRecon s = finishCommand { s with status := s.status.setRawValid true }) := by
  unfold endRecon
  simp only
  have : State.isExpand { s with status := s.status.setRawValid true } = s.isExpand := rfl
  rw [this]
  cases s.isExpand
  · exact .inr ⟨rfl, rfl⟩
  · exact .inl ⟨rfl, rfl⟩

/-- Everything a filter element can do (R252). -/
theorem filterRow_cases (pred : Byte → Byte → Byte → Byte) (s : State) :
    (s.params.rawCapMax < s.recon.cur + s.recon.rowbytes ∧ filterRow pred s = .fault .rawOutOfRange) ∨
      (s.recon.cur + s.recon.rowbytes ≤ s.params.rawCapMax ∧
        filterRow pred s = .next (nextRow { s with raw := reconLoop pred s.recon s.recon.rowbytes 0 s.raw })) := by
  unfold filterRow
  split
  · exact .inl ⟨by omega, rfl⟩
  · exact .inr ⟨by omega, rfl⟩

/-- Everything a pixel element can do (R292, R305, R310). -/
theorem pixelStep_cases (d ch : Nat) (conv : ColorRegs → Samples → Except Err Rgba) (il : Byte) (s : State) :
    let s1 := { s with norm := { s.norm with sample := readSamples d ch s } }
    (s.params.rawCapMax ≤ lastSampleByte d ch (s.norm.rawpos + 1) s.norm.col ∧
        pixelStep d ch conv il s = .fault .rawOutOfRange) ∨
      (∃ e, conv s.color (readSamples d ch s) = .error e ∧ pixelStep d ch conv il s = .next (raiseError e s1)) ∨
      (2 ^ 32 ≤ pixelAddress il s + 3 ∧ pixelStep d ch conv il s = .fault .hmemOutOfRange) ∨
      (∃ p, conv s.color (readSamples d ch s) = .ok p ∧ pixelAddress il s + 3 < 2 ^ 32 ∧
        pixelStep d ch conv il s =
          .next (nextPixel il (d * ch) { s1 with hmem := s.hmem.writePixel (pixelAddress il s) p })) := by
  intro s1
  unfold pixelStep
  split
  · rename_i h; exact .inl ⟨h, rfl⟩
  · refine .inr ?_
    simp only
    cases hc : conv s.color (readSamples d ch s) with
    | error e => exact .inl ⟨e, rfl, rfl⟩
    | ok p =>
      refine .inr ?_
      have ha : pixelAddress il { s with norm := { s.norm with sample := readSamples d ch s } } = pixelAddress il s := rfl
      simp only [ha]
      split
      · rename_i h; exact .inl ⟨h, rfl⟩
      · rename_i h; exact .inr ⟨p, rfl, by omega, rfl⟩

/-! ## Registers -/

/-- `t` is `s` but for control registers. -/
def State.RegsOnly (s t : State) : Prop :=
  ∃ c st g se co o, t = { s with ctrl := c, status := st, geom := g, segs := se, color := co, out := o }

theorem regsOnly_ite {p : Prop} [Decidable p] {s a b : State} (ha : s.RegsOnly a) (hb : s.RegsOnly b) :
    s.RegsOnly (if p then a else b) := by
  by_cases h : p
  · rw [if_pos h]; exact ha
  · rw [if_neg h]; exact hb

/-- What a plain register write can change (R340). -/
theorem writeReg_regsOnly (off : Nat) (w : Word) (s : State) : s.RegsOnly (writeReg off w s) := by
  unfold writeReg
  repeat' apply regsOnly_ite
  all_goals first
    | exact ⟨s.ctrl, s.status, s.geom, s.segs, s.color, s.out, rfl⟩
    | exact ⟨_, _, _, _, _, _, rfl⟩

end Sys2Proof.Machine
end

