-- ==== Sys2Proof/Tests/Slice0.lean ====
section
/-! SUPPORT. The model's own tests. Part 1: the WellFormed smoke; part 2: words written out from 30_encoding.md; part 3:
one step per element, on the examples of its rule; part 4: for every statement with hypotheses, a state and operands that
meet them, clause by clause. -/

namespace Sys2Proof.Tests

open Sys2Proof Sys2Proof.Machine

-- One theorem after another: the many kernel evaluations here would otherwise each hold a thread of their own.
set_option Elab.async false

/-! ## Helpers -/

/-- The outcome is a next state with the property. -/
def gives (o : Host.Outcome State Fault Refusal) (f : State → Bool) : Bool :=
  match o with
  | .next t => f t
  | .fault _ => false
  | .refused _ => false

/-- The outcome is the refusal. -/
def refuses (o : Host.Outcome State Fault Refusal) (r : Refusal) : Bool :=
  match o with
  | .next _ => false
  | .fault _ => false
  | .refused q => decide (q = r)

/-- Bytes from address a on. -/
def bytesAt (a : Nat) : List Nat → Memory → Memory
  | [], m => m
  | b :: r, m => bytesAt (a + 1) r (m.write a (BitVec.ofNat 8 b))

/-- RAW bytes from index i on. -/
def rawAt (i : Nat) : List Nat → RawBuf → RawBuf
  | [], r => r
  | b :: bs, r => rawAt (i + 1) bs (r.write i (BitVec.ofNat 8 b))

/-- A running DECODE of a gray8 image of `size` RAW bytes, in phase p, its stream the bytes at 0x100, the core moving
next. -/
def engine (bytes : List Nat) (size : Nat) (p : Phase) : State :=
  { State.reset with
    ctrl := ⟨1, false, false⟩
    status := ⟨.busy, false, 0⟩
    geom := ⟨BitVec.ofNat 32 (size - 1), 1, ⟨8, 0, 0⟩⟩
    segs := { count := 1, inSkip := 0, expIn := 0, base := [(0, 0x100)], len := [(0, BitVec.ofNat 32 bytes.length)] }
    rawSize := BitVec.ofNat 32 size
    phase := p
    hmem := bytesAt 0x100 bytes State.reset.hmem
    bus := { queue := [.yieldCore], readData := 0 } }

/-- The bits as `n` bytes of a stream. -/
def streamOf (n : Nat) (bits : List Bool) : List Nat := (List.range n).map fun i => packBits bits / 256 ^ i % 256

/-- The symbol loop of a fixed block, the stream starting with the bits. -/
def fixedBlock (bits : List Bool) (size : Nat) (needDist : Bool) : State :=
  let s := engine (streamOf 8 bits) size .infSym
  { s with inflate := { s.inflate with btype := 1, bfinal := true, needDist := needDist, matchLen := 3 } }

/-- The same with RAW bytes already produced. -/
def produced (bytes : List Nat) (s : State) : State :=
  { s with
    raw := rawAt 0 bytes s.raw
    inflate := { s.inflate with outPos := BitVec.ofNat 32 bytes.length } }

/-- The code-length loop of a dynamic block, i entries written. -/
def lengths (bits : List Bool) (i hlit hdist : Nat) (entries : List Nat) : State :=
  let s := engine (streamOf 4 bits) 100 .infDynHdr
  { s with
    inflate := { s.inflate with
      btype := 2, hlit := hlit, hdist := hdist, lenIdx := i
      len := entries ++ List.replicate (320 - entries.length) 0 }
    tables := { s.tables with clt := sortedTable [1, 1] } }

/-- A row of a gray8 image at RAW[first + 1], the row above (if any) before it. -/
def rowState (tag : Nat) (above data : List Nat) : State :=
  let s := engine [0] (1 + data.length) .recon
  let up := if above.isEmpty then [] else 0 :: above
  { s with
    geom := ⟨BitVec.ofNat 32 data.length, if above.isEmpty then 1 else 2, ⟨8, 0, 0⟩⟩
    raw := rawAt 0 (up ++ tag :: data) s.raw
    recon := { pass := 1, row := if above.isEmpty then 0 else 1, bpp := 1, rowbytes := data.length,
               cur := up.length + 1, prev := if above.isEmpty then none else some 1 } }

/-- The reconstructed row of `rowState`. -/
def rowOf (s t : State) : List Nat := (List.range s.recon.rowbytes).map fun i => (t.raw.read (s.recon.cur + i)).toNat

/-- An EXPAND of a w × 1 image at column `col`, its row's data bytes after the tag at RAW[0], OUT at 0x2000, with the
palette of R319 and the given transparency record. -/
def pixelState (model depth w col : Nat) (trns data : List Nat) : State :=
  { State.reset with
    ctrl := ⟨2, false, false⟩
    status := ⟨.busy, true, 0⟩
    geom := ⟨BitVec.ofNat 32 w, 1, ⟨BitVec.ofNat 8 depth, BitVec.ofNat 8 model, 0⟩⟩
    color := {
      palCount := 3, trnsLen := BitVec.ofNat 9 trns.length
      pal := [(0, 0x1E140A), (1, 0x3C3228), (2, 0x5A5046)]
      trns := (List.range trns.length).map fun i => (i, BitVec.ofNat 8 (trns.getD i 0)), epoch := 0 }
    out := ⟨0x2000, 0x1000⟩
    norm := { pass := 1, row := 0, col := col, rawpos := 0, sample := ⟨0, 0, 0, 0⟩ }
    raw := rawAt 0 (0 :: data) State.reset.raw
    phase := .expand
    bus := { queue := [.yieldCore], readData := 0 } }

/-- The four OUT bytes of column `col`. -/
def outPixel (col : Nat) (t : State) : List Nat :=
  (List.range 4).map fun i => (t.hmem.read (0x2000 + 4 * col + i)).toNat

/-- A not BUSY core set up to decode and expand a gray8 image of 8 × 8 from 80 bytes at 0x100. -/
def ready : State :=
  { State.reset with
    status := ⟨.done, true, 0⟩
    geom := ⟨8, 8, ⟨8, 0, 0⟩⟩
    segs := { count := 1, inSkip := 0, expIn := 0, base := [(0, 0x100)], len := [(0, 80)] }
    out := ⟨0x2000, 256⟩ }

/-- The state with one pending host move. -/
def withMove (m : HostMove) (s : State) : State := s.withQueue [m]

/-- The invariant, decided conjunct by conjunct. -/
def invHolds (s : State) : Bool :=
  decide s.params.Legal && decide s.Canonical && decide s.StatusAgrees
    && decide (s.isBusy = true → s.phase ≠ .startCheck → s.Started)
    && decide (s.phase.inflating = true → s.InflateSound)
    && decide (s.phase = .recon → s.ReconSound)
    && decide (s.phase = .expand → s.ExpandSound)

theorem inv_of_invHolds {s : State} (h : invHolds s = true) : s.Inv := by
  simp only [invHolds, Bool.and_eq_true, decide_eq_true_eq] at h
  exact ⟨h.1.1.1.1.1.1, h.1.1.1.1.1.2, h.1.1.1.1.2, h.1.1.1.2, h.1.1.2, h.1.2, h.2⟩

/-! ## Part 1: WellFormed refuses an ill-formed term at each check -/

theorem test_wf_refuses_code_length_16 : (Instr.clLen 16).wellFormed = false := by decide
theorem test_wf_refuses_len_256 : (Instr.len 256).wellFormed = false := by decide
theorem test_wf_refuses_len_286 : (Instr.len 286).wellFormed = false := by decide
theorem test_wf_refuses_lenInvalid_285 : (Instr.lenInvalid 285).wellFormed = false := by decide
theorem test_wf_refuses_lenInvalid_288 : (Instr.lenInvalid 288).wellFormed = false := by decide
theorem test_wf_refuses_dist_30 : (Instr.dist 30).wellFormed = false := by decide
theorem test_wf_refuses_distInvalid_29 : (Instr.distInvalid 29).wellFormed = false := by decide
theorem test_wf_refuses_distInvalid_32 : (Instr.distInvalid 32).wellFormed = false := by decide
theorem test_wf_refuses_filtInvalid_4 : (Instr.filtInvalid 4).wellFormed = false := by decide
theorem test_wf_refuses_interlace_2 :
    [Instr.pixG1 2, .pixG2 2, .pixG4 2, .pixG8 2, .pixG16 2, .pixRgb8 2, .pixRgb16 2, .pixP1 2, .pixP2 2, .pixP4 2,
      .pixP8 2, .pixGa8 2, .pixGa16 2, .pixRgba8 2, .pixRgba16 2].all (fun i => !i.wellFormed) = true := by decide

/-! ## Part 2: words written out from the tables of 30_encoding.md -/

/-- R110, R111, R112: START[0], CMD[2:1], INCHK[3], IE[4], CLEAR[5]. -/
theorem test_decode_command_words :
    decode .cmd 0b000001 = .ok (.cmdReserved false false false)
      ∧ decode .cmd 0b001011 = .ok (.cmdDecode true false false)
      ∧ decode .cmd 0b010101 = .ok (.cmdExpand false true false)
      ∧ decode .cmd 0b100111 = .ok (.cmdDecodeExpand false false true)
      ∧ decode .cmd 0b110100 = .ok (.ctrlClear 2 false true) ∧ decode .cmd 0b011110 = .error .plainCtrlWrite
      ∧ decode .cmd 0xFFFFFFC3 = .ok (.cmdDecode false false false) := by decide

/-- R113, R114: BFINAL is the first bit, BTYPE the next two. -/
theorem test_decode_block_headers :
    decode .bhdr 0b001 = .ok (.blkStored true) ∧ decode .bhdr 0b010 = .ok (.blkFixed false)
      ∧ decode .bhdr 0b101 = .ok (.blkDynamic true) ∧ decode .bhdr 0b110 = .ok (.blkInvalid false) := by decide

/-- R118. -/
theorem test_decode_code_length_symbols :
    decode .cl 0 = .ok (.clLen 0) ∧ decode .cl 15 = .ok (.clLen 15) ∧ decode .cl 16 = .ok .clRepPrev
      ∧ decode .cl 17 = .ok .clRepZero3 ∧ decode .cl 18 = .ok .clRepZero11
      ∧ decode .cl 19 = .error .noSuchCodeLengthSymbol := by decide

/-- R119. -/
theorem test_decode_literal_length_symbols :
    decode .litlen 65 = .ok (.lit 0x41) ∧ decode .litlen 255 = .ok (.lit 0xFF) ∧ decode .litlen 256 = .ok .eob
      ∧ decode .litlen 257 = .ok (.len 257) ∧ decode .litlen 285 = .ok (.len 285)
      ∧ decode .litlen 286 = .ok (.lenInvalid 286) ∧ decode .litlen 287 = .ok (.lenInvalid 287)
      ∧ decode .litlen 288 = .error .noSuchLitLenSymbol := by decide

/-- R120. -/
theorem test_decode_distance_symbols :
    decode .dist 0 = .ok (.dist 0) ∧ decode .dist 29 = .ok (.dist 29) ∧ decode .dist 30 = .ok (.distInvalid 30)
      ∧ decode .dist 31 = .ok (.distInvalid 31) ∧ decode .dist 32 = .error .noSuchDistSymbol := by decide

/-- R125. -/
theorem test_decode_filter_tags :
    decode .filter 0 = .ok .filtNone ∧ decode .filter 1 = .ok .filtSub ∧ decode .filter 2 = .ok .filtUp
      ∧ decode .filter 3 = .ok .filtAvg ∧ decode .filter 4 = .ok .filtPaeth ∧ decode .filter 5 = .ok (.filtInvalid 5)
      ∧ decode .filter 255 = .ok (.filtInvalid 255) := by decide

/-- R142: BIT_DEPTH[7:0], COLOR_MODEL[15:8], INTERLACE[23:16]. -/
theorem test_decode_pixel_formats :
    decode .pixfmt 0x000001 = .ok (.pixG1 0) ∧ decode .pixfmt 0x010002 = .ok (.pixG2 1)
      ∧ decode .pixfmt 0x000004 = .ok (.pixG4 0) ∧ decode .pixfmt 0x000008 = .ok (.pixG8 0)
      ∧ decode .pixfmt 0x000010 = .ok (.pixG16 0) ∧ decode .pixfmt 0x000208 = .ok (.pixRgb8 0)
      ∧ decode .pixfmt 0x000210 = .ok (.pixRgb16 0) ∧ decode .pixfmt 0x000301 = .ok (.pixP1 0)
      ∧ decode .pixfmt 0x000302 = .ok (.pixP2 0) ∧ decode .pixfmt 0x000304 = .ok (.pixP4 0)
      ∧ decode .pixfmt 0x000308 = .ok (.pixP8 0) ∧ decode .pixfmt 0x000408 = .ok (.pixGa8 0)
      ∧ decode .pixfmt 0x010410 = .ok (.pixGa16 1) ∧ decode .pixfmt 0x000608 = .ok (.pixRgba8 0)
      ∧ decode .pixfmt 0x010610 = .ok (.pixRgba16 1) := by decide

/-- The illegal pairs and codes of R145, and a depth 2 true-color image. -/
theorem test_decode_refuses_pixel_formats :
    decode .pixfmt 0x000310 = .error .unsupportedPixelFormat ∧ decode .pixfmt 0x000204 = .error .unsupportedPixelFormat
      ∧ decode .pixfmt 0x000108 = .error .unsupportedPixelFormat
      ∧ decode .pixfmt 0x020008 = .error .unsupportedInterlace := by decide

/-- The codes R123 and R124 write out, first bit first. -/
theorem test_fixed_codes_of_r123 :
    fixedLitLenCode 0 = [false, false, true, true, false, false, false, false]
      ∧ fixedLitLenCode 65 = [false, true, true, true, false, false, false, true]
      ∧ fixedLitLenCode 143 = [true, false, true, true, true, true, true, true]
      ∧ fixedLitLenCode 144 = [true, true, false, false, true, false, false, false, false]
      ∧ fixedLitLenCode 255 = List.replicate 9 true ∧ fixedLitLenCode 256 = List.replicate 7 false
      ∧ fixedLitLenCode 279 = [false, false, true, false, true, true, true]
      ∧ fixedLitLenCode 286 = [true, true, false, false, false, true, true, false]
      ∧ fixedDistCode 29 = [true, true, true, false, true] := by decide

/-! ## Part 3: one step per element -/

/-- R335: `WR CTRL 0x01` gives ERROR and ERR_CODE 22. -/
theorem test_cmd_reserved :
    gives (step (withMove (.regWrite 0 32 0x01) State.reset))
      (fun t => statusWord t.status == 0x1603 && t.phase == .ended) = true := by decide +kernel

/-- R332, R348, R274: a gray8 8 × 8 DECODE has S = 72. -/
theorem test_cmd_decode :
    gives (step (withMove (.regWrite 0 32 0x03) ready))
      (fun t => t.rawSize == 72 && t.phase == .infHdr && statusWord t.status == 1) = true := by decide +kernel

/-- R341: an EXPAND after reset raises IllegalCommand. -/
theorem test_cmd_expand_after_reset :
    gives (step (withMove (.regWrite 0 32 0x05) State.reset)) (fun t => t.status.errCode == 22) = true := by
  decide +kernel

/-- R349: OUT_CAP one byte short raises OutputOverflow; RAW_SIZE has been written (R348). -/
theorem test_cmd_decode_expand_short_out :
    gives (step (withMove (.regWrite 0 32 0x17) { ready with out := ⟨0x2000, 255⟩ }))
      (fun t => t.status.errCode == 13 && t.rawSize == 72 && t.irq) = true := by decide +kernel

/-- R339: after an error, `WR CTRL 0x20` gives IDLE and ERR_CODE 0. -/
theorem test_ctrl_clear :
    gives (step (withMove (.regWrite 0 32 0x20) { State.reset with status := ⟨.error, false, 12⟩, phase := .ended }))
      (fun t => statusWord t.status == 0 && t.ctrl == ⟨0, false, false⟩) = true := by decide +kernel

/-- R204: `01 02 00 FD FF 48 69` decodes to `48 69` with IN_CONSUMED = 7. -/
theorem test_blk_stored :
    gives (step (engine [0x01, 0x02, 0x00, 0xFD, 0xFF, 0x48, 0x69] 2 .infHdr))
      (fun t => t.raw.read 0 == 0x48 && t.raw.read 1 == 0x69 && t.cursor.consumed == 7 && t.phase == .infEnd) = true := by
  decide +kernel

/-- R204: a wrong one's complement raises LengthCheckFailed. -/
theorem test_blk_stored_length_check :
    gives (step (engine [0x01, 0x02, 0x00, 0xFC, 0xFF, 0x48, 0x69] 2 .infHdr)) (fun t => t.status.errCode == 11) = true := by
  decide +kernel

/-- R205, R201: 0x73 begins with 1, 1, 0: a final fixed block. -/
theorem test_blk_fixed :
    gives (step (engine [0x73, 0x74] 10 .infHdr))
      (fun t => t.phase == .infSym && t.inflate.bfinal && t.inflate.btype == 1 && t.cursor.bitcnt == 5) = true := by
  decide +kernel

/-- R207, R209 on V-SRC-2's header `05 C0 81 00 00 00 00 80 20 B6`: hlit 257, hdist 1, hclen 18. -/
theorem test_blk_dynamic :
    gives (step (engine [0x05, 0xC0, 0x81, 0x00, 0x00, 0x00, 0x00, 0x80, 0x20, 0xB6, 0xDF] 100 .infHdr))
      (fun t => t.phase == .infDynHdr && t.inflate.hlit == 257 && t.inflate.hdist == 1 && t.inflate.hclen == 18) = true := by
  decide +kernel

/-- R208: `05 1E 00 00 00` raises BadCodeCount. -/
theorem test_blk_dynamic_bad_count :
    gives (step (engine [0x05, 0x1E, 0x00, 0x00, 0x00] 100 .infHdr)) (fun t => t.status.errCode == 19) = true := by
  decide +kernel

/-- R202: `07` gives InvalidBlockType with IN_CONSUMED = 1 and OUT_PRODUCED = 0. -/
theorem test_blk_invalid :
    gives (step (engine [0x07] 100 .infHdr))
      (fun t => t.status.errCode == 8 && t.cursor.consumed == 1 && t.inflate.outPos == 0) = true := by decide +kernel

/-- A block header of which only `n` bits are left, all 1. -/
def cutHeader (n : Nat) : State :=
  let s := engine [] 10 .infHdr
  { s with
    segs := { s.segs with count := 0, base := [], len := [] }
    cursor := { s.cursor with bitbuf := BitVec.ofNat 32 (2 ^ n - 1), bitcnt := n } }

/-- R201, R417: a stream that ends inside BTYPE gives TruncatedInput with bfinal written; one that ends before the header
leaves it. -/
theorem test_blk_header_cut_off :
    gives (step (cutHeader 2)) (fun t => t.status.errCode == 1 && t.inflate.bfinal) = true
      ∧ gives (step (cutHeader 0)) (fun t => t.status.errCode == 1 && !t.inflate.bfinal) = true := by decide +kernel

/-- R210: symbol 2 sets len[i] = 2. -/
theorem test_cl_len :
    gives (exec (.clLen 2) (lengths [] 7 257 1 []))
      (fun t => t.inflate.len.getD 7 9 == 2 && t.inflate.lenIdx == 8) = true := by decide +kernel

/-- R211: with no previous length it raises BadCodeLengthRepeat. -/
theorem test_cl_rep_prev_first :
    gives (exec .clRepPrev (lengths [] 0 257 1 [])) (fun t => t.status.errCode == 18) = true := by decide +kernel

/-- R211: extra bits 1, 0 repeat the previous length 4 times. -/
theorem test_cl_rep_prev :
    gives (exec .clRepPrev (lengths [true, false] 2 257 1 [5, 6]))
      (fun t => t.inflate.len.take 7 == [5, 6, 6, 6, 6, 6, 0] && t.inflate.lenIdx == 6) = true := by decide +kernel

/-- R212: extra bits 0b111 give 10 zero lengths. -/
theorem test_cl_rep_zero3 :
    gives (exec .clRepZero3 (lengths [true, true, true] 1 257 1 (List.replicate 12 3)))
      (fun t => t.inflate.len.take 12 == [3, 0, 0, 0, 0, 0, 0, 0, 0, 0, 0, 3] && t.inflate.lenIdx == 11) = true := by
  decide +kernel

/-- R213: extra 54 gives 65 zero lengths. -/
theorem test_cl_rep_zero11 :
    gives (exec .clRepZero11 (lengths [false, true, true, false, true, true, false] 0 257 1 (List.replicate 70 3)))
      (fun t => t.inflate.lenIdx == 65 && t.inflate.len.getD 64 9 == 0 && t.inflate.len.getD 65 9 == 3) = true := by
  decide +kernel

/-- R217: the fixed code 01110001 emits 0x41. -/
theorem test_lit :
    gives (step (fixedBlock [false, true, true, true, false, false, false, true] 10 false))
      (fun t => t.raw.read 0 == 0x41 && t.inflate.outPos == 1) = true := by decide +kernel

/-- R222: at capacity a literal raises OutputOverflow. -/
theorem test_lit_overflow :
    gives (exec (.lit 7) (produced [1, 2] (fixedBlock [] 2 false)))
      (fun t => t.status.errCode == 13 && t.inflate.outPos == 2) = true := by decide +kernel

/-- R218: the fixed code 0000000 ends the block; this one is final. -/
theorem test_eob : gives (step (fixedBlock (List.replicate 7 false) 10 false)) (fun t => t.phase == .infEnd) = true := by
  decide +kernel

/-- R227: symbol 284 (11000100) with extra 31 gives length 258. -/
theorem test_len :
    gives (step (fixedBlock ([true, true, false, false, false, true, false, false] ++ List.replicate 5 true) 10 false))
      (fun t => t.inflate.matchLen == 258 && t.inflate.needDist) = true := by decide +kernel

/-- R225: symbol 286 (11000110) raises InvalidCode. -/
theorem test_len_invalid :
    gives (step (fixedBlock [true, true, false, false, false, true, true, false] 10 false))
      (fun t => t.status.errCode == 17) = true := by decide +kernel

/-- R224: output `41 42 43`, then MATCH 6, 3, gives `41 42 43 41 42 43 41 42 43`. -/
theorem test_dist :
    gives (exec (.dist 2) (let s := produced [0x41, 0x42, 0x43] (fixedBlock [] 9 true)
                           { s with inflate := { s.inflate with matchLen := 6 } }))
      (fun t => (List.range 9).map t.raw.read == [0x41, 0x42, 0x43, 0x41, 0x42, 0x43, 0x41, 0x42, 0x43]) = true := by
  decide +kernel

/-- R223: after one literal a distance of 2 raises DistanceTooFar. -/
theorem test_dist_too_far :
    gives (exec (.dist 1) (produced [0x61] (fixedBlock [] 9 true)))
      (fun t => t.status.errCode == 12 && t.inflate.outPos == 1) = true := by decide +kernel

/-- R226: 11110 and ten more bits raise InvalidCode. -/
theorem test_dist_invalid :
    gives (step (fixedBlock [true, true, true, true, false] 10 true)) (fun t => t.status.errCode == 17) = true := by
  decide +kernel

/-- R226: with the stream ending first, TruncatedInput. -/
theorem test_dist_invalid_truncated :
    gives (step { fixedBlock [true, true, true, true, false] 10 true with
      segs := { count := 1, inSkip := 0, expIn := 0, base := [(0, 0x100)], len := [(0, 1)] } })
      (fun t => t.status.errCode == 1) = true := by decide +kernel

/-- R253: `00 0A 14` reconstructs to `0A 14`. -/
theorem test_filt_none :
    gives (step (rowState 0 [] [0x0A, 0x14])) (fun t => rowOf (rowState 0 [] [0x0A, 0x14]) t == [0x0A, 0x14]) = true := by
  decide +kernel

/-- R254: `0A 14 1E FA` gives `0A 1E 3C 36`. -/
theorem test_filt_sub :
    gives (step (rowState 1 [] [0x0A, 0x14, 0x1E, 0xFA]))
      (fun t => rowOf (rowState 1 [] [0x0A, 0x14, 0x1E, 0xFA]) t == [0x0A, 0x1E, 0x3C, 0x36]) = true := by decide +kernel

/-- R255: above `01 02 03 04`, `01 01 01 01` gives `02 03 04 05`. -/
theorem test_filt_up :
    gives (step (rowState 2 [1, 2, 3, 4] [1, 1, 1, 1]))
      (fun t => rowOf (rowState 2 [1, 2, 3, 4] [1, 1, 1, 1]) t == [2, 3, 4, 5]) = true := by decide +kernel

/-- R256: above `01 02 03 04`, `01 02 03 04` gives `01 03 06 09`. -/
theorem test_filt_avg :
    gives (step (rowState 3 [1, 2, 3, 4] [1, 2, 3, 4]))
      (fun t => rowOf (rowState 3 [1, 2, 3, 4] [1, 2, 3, 4]) t == [1, 3, 6, 9]) = true := by decide +kernel

/-- R257: paeth(10, 20, 15) = 15, paeth(5, 10, 0) = 10, paeth(100, 50, 200) = 50; a three-way tie returns a. -/
theorem test_paeth_examples :
    predPaeth 10 20 15 = 15 ∧ predPaeth 5 10 0 = 10 ∧ predPaeth 100 50 200 = 50 ∧ predPaeth 7 7 7 = 7
      ∧ predPaeth 0 9 0 = 9 := by decide

/-- R257: above `0A 14`, `05 01`: byte 0 is Up, 5 + 10 = 15; byte 1 is 1 + paeth(15, 20, 10) = 1 + 20. -/
theorem test_filt_paeth :
    gives (step (rowState 4 [0x0A, 0x14] [5, 1])) (fun t => rowOf (rowState 4 [0x0A, 0x14] [5, 1]) t == [15, 21]) = true := by
  decide +kernel

/-- R258: RAW `05 00` raises InvalidFilterType. -/
theorem test_filt_invalid : gives (step (rowState 5 [] [0])) (fun t => t.status.errCode == 20) = true := by decide +kernel

/-- R311: W = 3, byte 0xA0: the second pixel is 00 00 00 FF. -/
theorem test_pix_g1 :
    gives (step (pixelState 0 1 3 1 [] [0xA0])) (fun t => outPixel 1 t == [0, 0, 0, 0xFF]) = true := by decide +kernel

/-- R312: byte 0x1B: the third pixel is AA AA AA FF. -/
theorem test_pix_g2 :
    gives (step (pixelState 0 2 4 2 [] [0x1B])) (fun t => outPixel 2 t == [0xAA, 0xAA, 0xAA, 0xFF]) = true := by
  decide +kernel

/-- R313: byte 0x5A with key 0x000A: the second pixel is AA AA AA 00. -/
theorem test_pix_g4 :
    gives (step (pixelState 0 4 2 1 [0x00, 0x0A] [0x5A])) (fun t => outPixel 1 t == [0xAA, 0xAA, 0xAA, 0]) = true := by
  decide +kernel

/-- R314: sample 0x0A gives 0A 0A 0A FF, and the one-pixel command ends in DONE. -/
theorem test_pix_g8 :
    gives (step (pixelState 0 8 1 0 [] [0x0A]))
      (fun t => outPixel 0 t == [0x0A, 0x0A, 0x0A, 0xFF] && statusWord t.status == 6) = true := by decide +kernel

/-- R315: sample 0xFF00 with key 0xFF00 gives FE FE FE 00. -/
theorem test_pix_g16 :
    gives (step (pixelState 0 16 2 1 [0xFF, 0x00] [0x12, 0x34, 0xFF, 0x00]))
      (fun t => outPixel 1 t == [0xFE, 0xFE, 0xFE, 0]) = true := by decide +kernel

/-- R316: key (1, 2, 3), pixel 01 02 03. -/
theorem test_pix_rgb8 :
    gives (step (pixelState 2 8 2 0 [0, 1, 0, 2, 0, 3] [1, 2, 3, 4, 5, 6])) (fun t => outPixel 0 t == [1, 2, 3, 0]) = true := by
  decide +kernel

/-- R317: samples 0x0080, 0x0181 and 0xFF7F give 00 01 FF FF. -/
theorem test_pix_rgb16 :
    gives (step (pixelState 2 16 1 0 [] [0x00, 0x80, 0x01, 0x81, 0xFF, 0x7F]))
      (fun t => outPixel 0 t == [0, 1, 0xFF, 0xFF]) = true := by decide +kernel

/-- R318: TRNS = [0, 0], byte 0x80: the first pixel is index 1. -/
theorem test_pix_p1 :
    gives (step (pixelState 3 1 2 0 [0, 0] [0x80])) (fun t => outPixel 0 t == [0x28, 0x32, 0x3C, 0]) = true := by
  decide +kernel

/-- R319: TRNS = [0x11], byte 0x24: indices 0, 2, 1. -/
theorem test_pix_p2 :
    gives (step (pixelState 3 2 3 1 [0x11] [0x24])) (fun t => outPixel 1 t == [0x46, 0x50, 0x5A, 0xFF]) = true := by
  decide +kernel

/-- R320: byte 0x12: the first pixel is index 1. -/
theorem test_pix_p4 :
    gives (step (pixelState 3 4 2 0 [] [0x12])) (fun t => outPixel 0 t == [0x28, 0x32, 0x3C, 0xFF]) = true := by
  decide +kernel

/-- R321: bytes 02 00: the second pixel is index 0. -/
theorem test_pix_p8 :
    gives (step (pixelState 3 8 2 1 [] [2, 0])) (fun t => outPixel 1 t == [0x0A, 0x14, 0x1E, 0xFF]) = true := by
  decide +kernel

/-- R305: PAL_COUNT = 3 and a 2-bit index 3 raise PaletteIndexOutOfRange. -/
theorem test_pix_palette_index :
    gives (step (pixelState 3 2 1 0 [] [0xC0])) (fun t => t.status.errCode == 21) = true := by decide +kernel

/-- R322: bytes 07 09. -/
theorem test_pix_ga8 :
    gives (step (pixelState 4 8 1 0 [] [7, 9])) (fun t => outPixel 0 t == [7, 7, 7, 9]) = true := by decide +kernel

/-- R323: samples 0x1234 and 0xABCD give 12 12 12 AB. -/
theorem test_pix_ga16 :
    gives (step (pixelState 4 16 1 0 [] [0x12, 0x34, 0xAB, 0xCD])) (fun t => outPixel 0 t == [0x12, 0x12, 0x12, 0xAB]) = true := by
  decide +kernel

/-- R324: bytes 01 02 03 04. -/
theorem test_pix_rgba8 :
    gives (step (pixelState 6 8 1 0 [] [1, 2, 3, 4])) (fun t => outPixel 0 t == [1, 2, 3, 4]) = true := by decide +kernel

/-- R325: samples 0x0000, 0x0100, 0xFEFF and 0xFFFF give 00 01 FE FF. -/
theorem test_pix_rgba16 :
    gives (step (pixelState 6 16 1 0 [] [0, 0, 1, 0, 0xFE, 0xFF, 0xFF, 0xFF]))
      (fun t => outPixel 0 t == [0, 1, 0xFE, 0xFF]) = true := by decide +kernel

/-- R163: bytes 05 C0: takeBits(1), (2), (5) are 1, 2, 0; then consumed = 1 and bitcnt = 0. -/
theorem test_take_bits :
    (match takeBits 1 (engine [0x05, 0xC0] 9 .infHdr) with
      | .ok a s =>
        (match takeBits 2 s with
          | .ok b s =>
            (match takeBits 5 s with
              | .ok c s => decide ((a, b, c) = (1, 2, 0)) && s.cursor.consumed == 1 && s.cursor.bitcnt == 0
              | _ => false)
          | _ => false)
      | _ => false) = true := by decide +kernel

/-- R183's example, and R189's codes for lens [3, 3, 3, 3, 3, 2, 4, 4]. -/
theorem test_huffman_examples :
    sortedTable [2, 1, 3, 3] = ⟨[0, 1, 1, 2, 0, 0, 0, 0, 0, 0, 0, 0, 0, 0, 0, 0], [1, 0, 2, 3]⟩
      ∧ (List.range 8).map (canonicalCode [3, 3, 3, 3, 3, 2, 4, 4]) = [0b010, 0b011, 0b100, 0b101, 0b110, 0, 0b1110, 0b1111]
      ∧ checkLengths [1, 1, 1] = some .oversubscribedCode ∧ checkLengths [0, 0] = some .incompleteCode
      ∧ checkLengths [0, 1] = none ∧ checkLengths [0, 2] = some .incompleteCode := by decide +kernel

/-- R272: the passes of a 3 × 3 image. -/
theorem test_pass_dimensions :
    adam7.map (fun g => (g.pw 3, g.ph 3)) = [(1, 1), (0, 1), (1, 0), (1, 1), (2, 1), (1, 2), (3, 1)] := by decide

/-- R299's table. -/
theorem test_to8 :
    [to8 0x0000, to8 0x0080, to8 0x0081, to8 0x7F80, to8 0x80FF, to8 0xFF00, to8 0xFF7F, to8 0xFFFF]
      = [0, 0, 1, 127, 128, 254, 255, 255] := by decide +kernel

/-- R32: a byte access, a misaligned one and one past the window are refused. -/
theorem test_odd_accesses_are_refused :
    refuses (step (withMove (.regRead 0 8) State.reset)) .illegalRegisterAccess = true
      ∧ refuses (step (withMove (.regRead 2 32) State.reset)) .illegalRegisterAccess = true
      ∧ refuses (step (withMove (.regWrite 0x1000 32 0) State.reset)) .illegalRegisterAccess = true := by decide +kernel

/-- R52: writing WIDTH clears RAWVALID, even with the value it has. -/
theorem test_width_write_drops_rawvalid :
    gives (step (withMove (.regWrite 8 32 8) ready)) (fun t => t.geom == ready.geom && !t.status.rawvalid) = true := by
  decide +kernel

/-- R92, R457: an OUT byte the host wrote in a DECODE that a reset ends is unspecified; the byte before OUT is kept. -/
theorem test_reset_frees_raced_out_byte :
    gives (step (withMove .reset { engine [5] 10 .infHdr with out := ⟨0x2000, 0⟩, race := [(0x2001, 7), (0x1FFF, 8)] }))
      (fun t => t.hmem.free == [⟨0x2001, 0x2002, 7⟩]) = true := by decide +kernel

/-- R36, R150: POLL waits while BUSY and reads STATUS after. -/
theorem test_poll_reads_status :
    gives (step (withMove .pollNotBusy ready)) (fun t => t.bus.readData == 6 && t.bus.queue.isEmpty) = true := by
  decide +kernel

/-! ## Part 4: states and operands that meet the hypotheses of the statements -/

/-- The step gave a value with the property. -/
def got {α : Type} (r : CoreResult α) (f : α → State → Bool) : Bool :=
  match r with
  | .ok v t => f v t
  | .raise _ _ => false
  | .fault _ => false

theorem ok_of_got {α : Type} {r : CoreResult α} {f : α → State → Bool} (h : got r f = true) :
    ∃ v t, r = .ok v t ∧ f v t = true := by
  cases r with
  | ok v t => exact ⟨v, t, rfl, h⟩
  | raise e t => cases h
  | fault e => cases h

theorem next_of_gives {o : Host.Outcome State Fault Refusal} {f : State → Bool} (h : gives o f = true) :
    ∃ t, o = .next t ∧ f t = true := by
  cases o with
  | next t => exact ⟨t, rfl, h⟩
  | fault e => cases h
  | refused e => cases h

theorem element_of_isElement {f : Format} {w : Nat} (h : isElement f w = true) : ∃ i, decode f w = .ok i := by
  unfold isElement at h
  split at h
  · exact ⟨_, by assumption⟩
  · cases h

/-! ### Encodings, steps -/

theorem witness_DecodeOfEncodeIsIdentity :
    ∀ i ∈ [Instr.ctrlClear 3 true true, .clLen 15, .len 285, .lenInvalid 287, .dist 29, .distInvalid 31,
      .filtInvalid 255, .pixRgba16 1], i.wellFormed = true := by decide

/-- With the reserved bits of CTRL and of FORMAT set. -/
theorem witness_EncodeOfDecodeIsIdentity :
    decode .cmd 0xFFFFFFC3 = .ok (.cmdDecode false false false) ∧ decode .pixfmt 0xFF010610 = .ok (.pixRgba16 1)
      ∧ decode .litlen 287 = .ok (.lenInvalid 287) := by decide

theorem witness_FixedCodesAreReadAsTheirSymbols :
    (∃ s : State, s.CanRead ∧ s.inflate.btype = 1 ∧ s.inflate.needDist = false ∧ fixedLitLenCode 287 <+: s.bitsLeft)
      ∧ (∃ s : State, s.CanRead ∧ s.inflate.btype = 1 ∧ s.inflate.needDist = true ∧ fixedDistCode 31 <+: s.bitsLeft) :=
  ⟨⟨fixedBlock (fixedLitLenCode 287) 10 false, by decide +kernel⟩,
    ⟨fixedBlock (fixedDistCode 31) 10 true, by decide +kernel⟩⟩

/-- A command word, a plain CTRL write, the last register of the window. -/
theorem witness_CtrlWriteRunsItsElement :
    (∃ (s : State) (addr w : Word), s.bus.queue = [.regWrite addr 32 w] ∧ regOffset s.params addr 32 = some 0 ∧
        decode .cmd w.toNat = .ok (.cmdDecodeExpand false true true))
      ∧ (∃ (s : State) (addr w : Word), s.bus.queue = [.regWrite addr 32 w] ∧ regOffset s.params addr 32 = some 0 ∧
        decode .cmd w.toNat = .error .plainCtrlWrite)
      ∧ (∃ (s : State) (addr w : Word), s.bus.queue = [.regWrite addr 32 w] ∧ regOffset s.params addr 32 = some 0xFFC) :=
  ⟨⟨withMove (.regWrite 0 32 0x37) ready, 0, 0x37, by decide +kernel⟩,
    ⟨withMove (.regWrite 0 32 0x10) ready, 0, 0x10, by decide +kernel⟩,
    ⟨withMove (.regWrite 0xFFC 32 0x37) ready, 0xFFC, 0x37, by decide +kernel⟩⟩

/-- Clause 1: a header. -/
theorem witness_CoreStepRunsTheDecodedElement_header :
    ∃ (s t : State) (i : Instr), s.bus.queue = [.yieldCore] ∧ s.phase = .infHdr ∧
      ∃ f b s1, takeBits 1 (s.withQueue []) = .ok f s1 ∧
        takeBits 2 { s1 with inflate := { s1.inflate with bfinal := f.testBit 0 } } = .ok b t ∧
        decode .bhdr (f + 2 * b) = .ok i := by
  obtain ⟨f, s1, h1, h⟩ := ok_of_got (r := takeBits 1 ((engine [0x05] 10 .infHdr).withQueue []))
    (f := fun f s1 => got (takeBits 2 (latchFinal (f.testBit 0) s1)) fun b _ => isElement .bhdr (f + 2 * b)) (by decide +kernel)
  obtain ⟨b, t, h2, h3⟩ := ok_of_got h
  obtain ⟨i, hi⟩ := element_of_isElement h3
  exact ⟨_, t, i, rfl, rfl, f, b, s1, h1, h2, hi⟩

/-- Clause 2: a code-length symbol. -/
theorem witness_CoreStepRunsTheDecodedElement_codeLength :
    ∃ (s t : State) (i : Instr), s.bus.queue = [.yieldCore] ∧ s.phase = .infDynHdr ∧
      ∃ v, decodeSym s.tables.clt (s.withQueue []) = .ok v t ∧ decode .cl v = .ok i := by
  obtain ⟨v, t, h1, h⟩ := ok_of_got
    (r := decodeSym (lengths [true] 0 257 1 []).tables.clt ((lengths [true] 0 257 1 []).withQueue []))
    (f := fun v _ => isElement .cl v) (by decide +kernel)
  obtain ⟨i, hi⟩ := element_of_isElement h
  exact ⟨_, t, i, rfl, rfl, v, h1, hi⟩

/-- Clause 3: a literal/length symbol. -/
theorem witness_CoreStepRunsTheDecodedElement_symbol :
    ∃ (s t : State) (i : Instr), s.bus.queue = [.yieldCore] ∧ s.phase = .infSym ∧ s.inflate.needDist = false ∧
      ∃ v, decodeSym (if s.inflate.btype = 1 then fixedLit else s.tables.lt) (s.withQueue []) = .ok v t ∧
        decode .litlen v = .ok i := by
  obtain ⟨v, t, h1, h⟩ := ok_of_got
    (r := decodeSym fixedLit ((fixedBlock (fixedLitLenCode 65) 10 false).withQueue []))
    (f := fun v _ => isElement .litlen v) (by decide +kernel)
  obtain ⟨i, hi⟩ := element_of_isElement h
  exact ⟨fixedBlock (fixedLitLenCode 65) 10 false, t, i, rfl, rfl, rfl, v, (if_pos (c := (1 : BitVec 2) = 1) rfl) ▸ h1, hi⟩

/-- Clause 4: a distance symbol of a dynamic block. -/
theorem witness_CoreStepRunsTheDecodedElement_distance :
    ∃ (s t : State) (i : Instr), s.bus.queue = [.yieldCore] ∧ s.phase = .infSym ∧ s.inflate.needDist = true ∧
      s.inflate.btype ≠ 1 ∧ ∃ v, decodeSym s.tables.dt (s.withQueue []) = .ok v t ∧ decode .dist v = .ok i := by
  let s0 := fixedBlock [true] 10 true
  let s : State :=
    { s0 with inflate := { s0.inflate with btype := 2 }, tables := { s0.tables with dt := sortedTable [1, 1] } }
  obtain ⟨v, t, h1, h⟩ := ok_of_got (r := decodeSym s.tables.dt (s.withQueue []))
    (f := fun v _ => isElement .dist v) (by decide +kernel)
  obtain ⟨i, hi⟩ := element_of_isElement h
  exact ⟨s, t, i, rfl, rfl, rfl, by decide, v, h1, hi⟩

/-- Clause 5: a distance symbol of a fixed block, here 31. -/
theorem witness_CoreStepRunsTheDecodedElement_fixedDistance :
    ∃ (s t : State) (i : Instr), s.bus.queue = [.yieldCore] ∧ s.phase = .infSym ∧ s.inflate.needDist = true ∧
      s.inflate.btype = 1 ∧ ∃ v, fetchFixedDist (s.withQueue []) = .ok (decode .dist v) t ∧ decode .dist v = .ok i := by
  obtain ⟨v, t, h1, h⟩ := ok_of_got (r := fetchFixedDist ((fixedBlock (fixedDistCode 31) 10 true).withQueue []))
    (f := fun v _ => decide (v.toOption = some (.distInvalid 31))) (by decide +kernel)
  have h2 : v = decode .dist 31 := by
    cases v with
    | ok i => simp [Except.toOption] at h; rw [h]; rfl
    | error e => simp [Except.toOption] at h
  exact ⟨_, t, .distInvalid 31, rfl, rfl, rfl, rfl, 31, by rw [h1, h2], rfl⟩

/-- Clauses 6 and 7: a row's tag, the FORMAT register. -/
theorem witness_CoreStepRunsTheDecodedElement_rowAndPixel :
    (∃ s : State, s.bus.queue = [.yieldCore] ∧ s.phase = .recon ∧ s.recon.cur - 1 < s.params.rawCapMax ∧
        decode .filter (s.raw.read (s.recon.cur - 1)).toNat = .ok (.filtInvalid 255))
      ∧ (∃ s : State, s.bus.queue = [.yieldCore] ∧ s.phase = .expand ∧
        decode .pixfmt (formatWord s.geom.format).toNat = .ok (.pixRgba16 0)) :=
  ⟨⟨rowState 255 [1] [2], by decide +kernel⟩, ⟨pixelState 6 16 1 0 [] [0, 0, 0, 0, 0, 0, 0, 0], by decide +kernel⟩⟩

/-! ### Registers and host moves -/

/-- At a plain CTRL write, a read-only register, FORMAT, the last segment slot, the first unmapped offset after it, and
the last register. -/
theorem witness_RegisterReadsBackWhatWasWritten :
    [((0x000 : Word), (0x10 : Word)), (0x004, 7), (0x010, 0xFFFFFFFF), (0x7FC, 5), (0x03C, 1), (0xFFC, 9)].all
      (fun p => regOffset ready.params p.1 32 == some p.1.toNat && (p.1 != 0 || (!p.2.getLsbD 0 && !p.2.getLsbD 5)))
        = true
      ∧ ready.params.Legal ∧ ready.isBusy = false
      ∧ ∀ addr w, (withMove (.regWrite addr 32 w) ready).Canonical
        ∧ (withMove (.regWrite addr 32 w) ready).bus.queue = [.regWrite addr 32 w] := by
  have h : ready.Canonical := by decide +kernel
  exact ⟨by decide +kernel, by decide +kernel, by decide +kernel, fun _ _ => ⟨h, rfl⟩⟩

/-- A read and a POLL while not BUSY. -/
theorem witness_RegisterReadsBackWhatWasWritten_reads :
    ready.isBusy = false ∧ regOffset ready.params 0xFFC 32 = some 0xFFC
      ∧ (withMove (.regRead 0xFFC 32) ready).bus.queue = [.regRead 0xFFC 32]
      ∧ (withMove .pollNotBusy ready).bus.queue = [.pollNotBusy] := by decide +kernel

/-- The first and the last register, and the accesses around them. -/
theorem witness_OnlyIllegalAccessesAreRefused :
    (withMove (.regRead 0xFFC 32) ready).bus.queue = [.regRead 0xFFC 32]
      ∧ gives (step (withMove (.regRead 0 32) ready)) (fun _ => true) = true
      ∧ gives (step (withMove (.regRead 0xFFC 32) ready)) (fun _ => true) = true
      ∧ refuses (step (withMove (.regRead 0xFFD 32) ready)) .illegalRegisterAccess = true
      ∧ refuses (step (withMove (.regWrite 0x1000 32 0) ready)) .illegalRegisterAccess = true
      ∧ refuses (step (withMove (.regWrite 0 16 0) ready)) .illegalRegisterAccess = true := by decide +kernel

/-- A CTRL write, a counter read and a read of OUT_CAP while BUSY. -/
theorem witness_BusyCoreIgnoresHostWrites :
    ∀ m ∈ [HostMove.regWrite 0 32 3, .regRead 0x038 32, .regRead 0x02C 32],
      let s := withMove m (engine [5] 10 .infHdr)
      s.isBusy = true ∧ s.bus.queue = [m] := by decide +kernel

/-- The reset input, a WIDTH write, a START of DECODE, a step into ERROR, and the last row of RAW. -/
theorem witness_RawValidChangesOnlyAsStated :
    (∃ s t : State, s.Inv ∧ step s = .next t ∧ s.bus.queue = [.reset] ∧ s.status.rawvalid = true)
      ∧ (∃ s t : State, s.Inv ∧ step s = .next t ∧ s.bus.queue = [.regWrite 8 32 8] ∧ s.status.rawvalid = true ∧
          s.isBusy = false ∧ regOffset s.params 8 32 = some 8)
      ∧ (∃ s t : State, s.Inv ∧ step s = .next t ∧ s.bus.queue = [.regWrite 0 32 3] ∧ s.status.rawvalid = true ∧
          s.isBusy = false ∧ regOffset s.params 0 32 = some 0)
      ∧ (∃ s t : State, s.Inv ∧ step s = .next t ∧ s.status.state ≠ .error ∧ t.status.state = .error)
      ∧ (∃ s t : State, s.Inv ∧ step s = .next t ∧ s.status.rawvalid = false ∧ t.status.rawvalid = true) := by
  refine ⟨?_, ?_, ?_, ?_, ?_⟩
  · obtain ⟨t, h, -⟩ := next_of_gives (o := step (withMove .reset ready)) (f := fun _ => true) (by decide +kernel)
    exact ⟨_, t, inv_of_invHolds (by decide +kernel), h, rfl, rfl⟩
  · obtain ⟨t, h, -⟩ := next_of_gives (o := step (withMove (.regWrite 8 32 8) ready)) (f := fun _ => true)
      (by decide +kernel)
    exact ⟨_, t, inv_of_invHolds (by decide +kernel), h, rfl, rfl, rfl, by decide⟩
  · obtain ⟨t, h, -⟩ := next_of_gives (o := step (withMove (.regWrite 0 32 3) ready)) (f := fun _ => true)
      (by decide +kernel)
    exact ⟨_, t, inv_of_invHolds (by decide +kernel), h, rfl, rfl, rfl, by decide⟩
  · obtain ⟨t, h, ht⟩ := next_of_gives (o := step (engine [7] 10 .infHdr))
      (f := fun t => decide (t.status.state = .error)) (by decide +kernel)
    exact ⟨_, t, inv_of_invHolds (by decide +kernel), h, by decide, of_decide_eq_true ht⟩
  · obtain ⟨t, h, ht⟩ := next_of_gives (o := step (rowState 2 [1, 2] [3, 4])) (f := fun t => t.status.rawvalid)
      (by decide +kernel)
    exact ⟨_, t, inv_of_invHolds (by decide +kernel), h, rfl, ht⟩

theorem witness_IrqFollowsCompletionAndEnable :
    ready.isBusy = false ∧ startError 3 ready = none
      ∧ gives (exec (.ctrlClear 3 true true) ready) (fun t => !t.irq) = true
      ∧ gives (exec (startElement 3 false true true) ready) (fun t => !t.irq) = true := by decide +kernel

/-- An EXPAND that the reset interrupts, at the byte before OUT; a DECODE, at an OUT byte the host has not written. -/
theorem witness_ResetInputRestoresResetValues :
    (∃ s : State, s.bus.queue = [.reset] ∧ (s.isBusy && s.isExpand) = true ∧ s.inOut 0x1FFF = false ∧
        s.inOut 0x2000 = true)
      ∧ ∃ s : State, s.bus.queue = [.reset] ∧ s.isBusy = true ∧ s.isExpand = false ∧ s.inOut 0 = true ∧
        lookupCell 0 s.race = none :=
  ⟨⟨withMove .reset (pixelState 0 8 1 0 [] [1]), by decide +kernel⟩,
    ⟨withMove .reset (engine [5] 10 .infHdr), by decide +kernel⟩⟩

/-- A START, a CLEAR, the reset input and the end of a command change STATE; a header and the reset input change
`bfinal`. -/
theorem witness_FlagsChangeOnlyAsStated :
    gives (step (withMove (.regWrite 0 32 3) ready)) (fun t => t.status.state != ready.status.state) = true
      ∧ gives (step (withMove (.regWrite 0 32 0x20) ready)) (fun t => t.status.state != ready.status.state) = true
      ∧ gives (step (withMove .reset ready)) (fun t => t.status.state != ready.status.state) = true
      ∧ gives (step (pixelState 0 8 1 0 [] [1])) (fun t => t.status.state == .done) = true
      ∧ gives (step (engine [3] 10 .infHdr)) (fun t => t.inflate.bfinal != (engine [3] 10 .infHdr).inflate.bfinal) = true
      ∧ gives (step (withMove .reset (fixedBlock [] 10 false))) (fun t => !t.inflate.bfinal) = true := by decide +kernel

/-- An error, a START after an error, a CLEAR and the reset input change ERR_CODE. -/
theorem witness_FlagsChangeOnlyAsStated_errCode :
    gives (step (engine [7] 10 .infHdr)) (fun t => t.status.errCode == 8) = true
      ∧ [HostMove.regWrite 0 32 3, .regWrite 0 32 0x20, .reset].all (fun m =>
        gives (step (withMove m { ready with status := ⟨.error, false, 8⟩ })) (fun t => t.status.errCode == 0)) = true := by
  decide +kernel

/-- No bit, one and two bits of a header. -/
theorem witness_FlagsChangeOnlyAsStated_cutHeader :
    [0, 1, 2].all (fun n => decide (cutHeader n).CanRead && (cutHeader n).bus.queue == [.yieldCore]
      && (cutHeader n).phase == .infHdr && (cutHeader n).bitsLeft.length == n) = true := by decide +kernel

/-! ### Commands -/

/-- Every check, failing alone, at a boundary of its range; and none. -/
theorem witness_StartChecksRunInOrder :
    ready.isBusy = false ∧ startError 3 ready = none ∧ startError 2 ready = none ∧ startError 0 ready = some .illegalCommand
      ∧ startError 2 { ready with status := ⟨.idle, false, 0⟩ } = some .illegalCommand
      ∧ startError 1 { ready with segs := { ready.segs with count := 225 } } = some .illegalCommand
      ∧ startError 2 { ready with color := { ready.color with palCount := 257 } } = some .illegalCommand
      ∧ startError 1 { ready with segs := { ready.segs with base := [(0, 0xFFFFFFFF)] } } = some .illegalCommand
      ∧ startError 1 { ready with segs := { ready.segs with count := 2, base := [], len := [(0, 0xFFFFFFFF), (1, 1)] } }
          = some .illegalCommand
      ∧ startError 2 { ready with out := ⟨0xFFFFFF01, 256⟩ } = some .illegalCommand
      ∧ startError 1 { ready with geom := ⟨8, 8, ⟨8, 0, 2⟩⟩ } = some .malformedHeader
      ∧ startError 1 { ready with geom := ⟨8, 8, ⟨4, 2, 0⟩⟩ } = some .unsupportedPixelFormat
      ∧ startError 1 { ready with color := { ready.color with trnsLen := 6 } } = some .unsupportedTransparency
      ∧ startError 1 { ready with segs := { ready.segs with len := [] } } = some .missingImageData
      ∧ startError 1 { ready with params := { ready.params with rawCapMax := 71 } } = some .outputOverflow
      ∧ startError 3 { ready with out := ⟨0x2000, 255⟩ } = some .outputOverflow := by decide +kernel

theorem witness_StartEntersInflateOrExpand :
    ready.isBusy = false ∧ startError (1 : BitVec 2).toNat ready = none ∧ startError (3 : BitVec 2).toNat ready = none
      ∧ startError 2 ready = none := by decide +kernel

theorem witness_ReservedCommandAndClear :
    ready.isBusy = false ∧ State.reset.isBusy = false ∧ ready.status.state = .done ∧ State.reset.status.state = .idle := by
  decide

/-! ### Bit cursor and Huffman tables -/

/-- The whole of a 3-byte stream, no bit, and one bit too many. -/
theorem witness_TakeBitsReadsTheLogicalStream :
    (engine [1, 2, 3] 10 .infHdr).CanRead ∧ (engine [1, 2, 3] 10 .infHdr).bitsLeft.length = 24
      ∧ (engine [] 10 .infHdr).CanRead ∧ (engine [] 10 .infHdr).bitsLeft.length = 0 := by decide +kernel

/-- IN_SKIP at the end of the stream. -/
theorem witness_CursorStartsAtInSkip :
    ∃ s : State, s.segs.inSkip ≠ 0 ∧ s.logicalStream.length ≤ s.segs.inSkip.toNat :=
  ⟨let s := engine [1, 2] 10 .infHdr; { s with segs := { s.segs with inSkip := 2 } }, by decide +kernel⟩

/-- A header; the data of a stored block, its header read. -/
theorem witness_CursorMovesOnlyForward :
    (∃ s t : State, s.Inv ∧ s.CoreMoves ∧ step s = .next t ∧ s.phase = .infHdr ∧ t.phase.inflating = true)
      ∧ (∃ s t : State, s.Inv ∧ s.CoreMoves ∧ step s = .next t ∧ s.phase = .infStored ∧ t.phase.inflating = true) := by
  constructor
  · obtain ⟨t, h, ht⟩ := next_of_gives (o := step (engine [3] 10 .infHdr)) (f := fun t => t.phase.inflating)
      (by decide +kernel)
    exact ⟨_, t, inv_of_invHolds (by decide +kernel), .inr ⟨[], rfl⟩, h, rfl, ht⟩
  · let s0 := engine [7, 8] 10 .infStored
    let s : State := { s0 with inflate := { s0.inflate with storedLen := 2 } }
    obtain ⟨t, h, ht⟩ := next_of_gives (o := step s) (f := fun t => t.phase.inflating) (by decide +kernel)
    exact ⟨s, t, inv_of_invHolds (by decide +kernel), .inr ⟨[], rfl⟩, h, rfl, ht⟩

/-- Over-subscribed, incomplete, complete, and the lone symbol of length 1. -/
theorem witness_CompletenessCheckIsKraft :
    (∀ lens ∈ [[1, 1, 1], [0, 2], [1, 2, 2], [0, 1], [15, 0]], ∀ v ∈ lens, v ≤ 15)
      ∧ 2 ^ 1 < codeSpaceUsed [1, 1, 1] 1 ∧ codeSpaceUsed [0, 2] 15 < 2 ^ 15 ∧ codeSpaceUsed [1, 2, 2] 15 = 2 ^ 15
      ∧ [0, 1].count 1 = 1 ∧ [0, 1].length - [0, 1].count 0 = 1 := by decide +kernel

/-- The longest code of R189's example. -/
theorem witness_CanonicalCodeDecodesToItsSymbol :
    ∃ (s : State) (lens : List Nat), lens = [3, 3, 3, 3, 3, 2, 4, 4] ∧ checkLengths lens = none ∧ s.CanRead ∧
      codeBits (lens.getD 7 0) (canonicalCode lens 7) <+: s.bitsLeft :=
  ⟨engine [0x0F] 10 .infHdr, [3, 3, 3, 3, 3, 2, 4, 4], by decide +kernel⟩

/-- Two bytes, and one. -/
theorem witness_UnmatchedCodeRaisesInvalidCode :
    [0, 1].count 1 = 1 ∧ [0, 1].length - [0, 1].count 0 = 1
      ∧ (engine [1, 0] 10 .infHdr).CanRead ∧ (engine [1, 0] 10 .infHdr).bitsLeft.head? = some true
      ∧ 15 ≤ (engine [1, 0] 10 .infHdr).bitsLeft.length
      ∧ (engine [1] 10 .infHdr).CanRead ∧ (engine [1] 10 .infHdr).bitsLeft.head? = some true
      ∧ (engine [1] 10 .infHdr).bitsLeft.length < 15 := by decide +kernel

/-! ### Blocks and code lengths -/

/-- With two data bytes filling RAW, and with none. -/
theorem witness_StoredBlockCopiesItsBytes :
    (engine [2, 0, 0xFD, 0xFF, 7, 8, 9] 2 .infHdr).segs.fit = true
      ∧ (engine [2, 0, 0xFD, 0xFF, 7, 8, 9] 2 .infHdr).unread = [2, 0, 0xFD, 0xFF] ++ [7, 8] ++ [9]
      ∧ (engine [2, 0, 0xFD, 0xFF, 7, 8, 9] 2 .infHdr).HasRoom 2
      ∧ ((0 : Byte) ++ (2 : Byte) : BitVec 16).toNat = 2
      ∧ ((0xFF : Byte) ++ (0xFD : Byte) : BitVec 16) = ~~~((0 : Byte) ++ (2 : Byte) : BitVec 16)
      ∧ (engine [0, 0, 0xFF, 0xFF] 2 .infHdr).unread = [0, 0, 0xFF, 0xFF] ++ [] ++ []
      ∧ (engine [0, 0, 0xFF, 0xFF] 2 .infHdr).HasRoom 0 := by decide +kernel

/-- No length field; a wrong complement; the input and the capacity ending together; the capacity ending first. -/
theorem witness_StoredBlockErrorsInOrder :
    (∀ bytes ∈ [[2, 0, 0xFD], [2, 0, 0xFD, 0xFE], [3, 0, 0xFC, 0xFF, 7, 8], [3, 0, 0xFC, 0xFF, 7, 8, 9]],
      (engine bytes 2 .infHdr).segs.fit = true ∧ (engine bytes 2 .infHdr).params.rawCapMax < 2 ^ 32
        ∧ (engine bytes 2 .infHdr).geom.rasterSize = 2 ∧ 2 ≤ (engine bytes 2 .infHdr).params.rawCapMax
        ∧ (engine bytes 2 .infHdr).inflate.outPos = 0)
      ∧ (engine [2, 0, 0xFD] 2 .infHdr).unread.length = 3
      ∧ (engine [2, 0, 0xFD, 0xFE] 2 .infHdr).unread = [2, 0, 0xFD, 0xFE] ++ []
      ∧ (engine [3, 0, 0xFC, 0xFF, 7, 8] 2 .infHdr).unread = [3, 0, 0xFC, 0xFF] ++ [7, 8]
      ∧ (engine [3, 0, 0xFC, 0xFF, 7, 8, 9] 2 .infHdr).unread = [3, 0, 0xFC, 0xFF] ++ [7, 8, 9]
      ∧ ((0xFF : Byte) ++ (0xFC : Byte) : BitVec 16) = ~~~((0 : Byte) ++ (3 : Byte) : BitVec 16)
      ∧ ((0xFE : Byte) ++ (0xFD : Byte) : BitVec 16) ≠ ~~~((0 : Byte) ++ (2 : Byte) : BitVec 16) := by decide +kernel

/-- The bits of a dynamic block's header from HLIT on: hlit = 257, hdist = 1 + the given, hclen = 4, then four lengths. -/
def dynamicHeader (hdist : Nat) (lens : List Nat) : State :=
  let low (n v : Nat) : List Bool := (List.range n).map v.testBit
  engine (streamOf 4 (low 5 0 ++ low 5 (hdist - 1) ++ low 4 0 ++ lens.flatMap (low 3))) 100 .infHdr

theorem witness_DynamicBlockBuildsTheCodeLengthTable :
    let s := dynamicHeader 30 [0, 0, 1, 1]
    s.CanRead ∧ s.peek 0 5 + 257 = 257 ∧ s.peek 5 5 + 1 = 30 ∧ s.peek 10 4 + 4 = 4 ∧ 14 + 3 * 4 ≤ s.bitsLeft.length
      ∧ checkLengths ((List.range 19).map fun j =>
          if clOrder.idxOf j < 4 then s.peek (14 + 3 * clOrder.idxOf j) 3 else 0) = none := by decide +kernel

/-- 31 distance codes; an over-subscribed and an incomplete code-length code. -/
theorem witness_DynamicBlockErrorsInOrder :
    ((dynamicHeader 31 []).CanRead ∧ (dynamicHeader 31 []).peek 5 5 + 1 = 31
        ∧ 14 ≤ (dynamicHeader 31 []).bitsLeft.length)
      ∧ [([0, 1, 1, 1], Err.oversubscribedCode), ([0, 0, 0, 0], .incompleteCode)].all (fun p =>
          let s := dynamicHeader 1 p.1
          s.peek 5 5 + 1 == 1 && s.peek 10 4 + 4 == 4 && decide (14 + 3 * 4 ≤ s.bitsLeft.length) && s.segs.fit
            && checkLengths ((List.range 19).map fun j =>
              if clOrder.idxOf j < 4 then s.peek (14 + 3 * clOrder.idxOf j) 3 else 0) == some p.2) = true := by
  decide +kernel

/-- Each code-length symbol, the last one short of the total by one. -/
theorem witness_CodeLengthSymbolWritesLengths :
    [(Instr.clLen 15, 0, 1, 15), (.clRepPrev, 2, 3, 6), (.clRepZero3, 3, 3, 0), (.clRepZero11, 7, 11, 0)].all (fun p =>
      let s := lengths [] 2 257 1 [5, 6]
      p.1.wellFormed && codeLengthShape s.inflate p.1 == some p.2 && decide s.CanRead
        && decide (p.2.1 ≤ s.bitsLeft.length)
        && decide (s.inflate.lenIdx + (p.2.2.1 + s.peek 0 p.2.1) < s.inflate.hlit + s.inflate.hdist)
        && decide (s.inflate.hlit + s.inflate.hdist ≤ s.inflate.len.length)) = true := by decide +kernel

/-- No previous length; each repeat, one length past the total. -/
theorem witness_CodeLengthOverrunRaises :
    (lengths [] 0 257 1 []).CanRead ∧ (lengths [] 0 257 1 []).inflate.lenIdx = 0
      ∧ [(Instr.clRepPrev, 2, 3, 6, 256), (.clRepZero3, 3, 3, 0, 256), (.clRepZero11, 7, 11, 0, 248)].all (fun p =>
        let s := lengths [] p.2.2.2.2 257 1 (List.replicate 256 6)
        codeLengthShape s.inflate p.1 == some (p.2.1, p.2.2.1, p.2.2.2.1) && decide s.CanRead
          && decide (p.2.1 ≤ s.bitsLeft.length)
          && s.inflate.hlit + s.inflate.hdist + 1 == s.inflate.lenIdx + (p.2.2.1 + s.peek 0 p.2.1)) = true := by
  decide +kernel

/-- One length to come: both tables build; LT fails its check; DT fails its check. -/
theorem witness_CompleteCodeLengthsBuildTheTables :
    [(List.replicate 256 8 ++ [1], 1), ((List.replicate 256 8) ++ [9], 1), ([1] ++ List.replicate 255 0 ++ [1], 2)].all
      (fun p =>
        let s := lengths [] 257 257 1 p.1
        (Instr.clLen p.2).wellFormed && decide s.CanRead && codeLengthShape s.inflate (.clLen p.2) == some (0, 1, p.2)
          && s.inflate.lenIdx + (1 + s.peek 0 0) == s.inflate.hlit + s.inflate.hdist
          && decide (s.inflate.hlit + s.inflate.hdist ≤ s.inflate.len.length)) = true
      ∧ checkLengths ([1] ++ List.replicate 255 0 ++ [1]) = none ∧ checkLengths [1] = none
      ∧ checkLengths (List.replicate 256 8 ++ [1]) = some .oversubscribedCode
      ∧ checkLengths [2] = some .incompleteCode := by decide +kernel

/-! ### Symbols -/

/-- One byte below capacity, and at capacity. -/
theorem witness_LiteralIsEmitted :
    (produced [1] (fixedBlock [] 2 false)).HasRoom 1
      ∧ (produced [1, 2] (fixedBlock [] 2 false)).geom.rasterSize
          ≤ (produced [1, 2] (fixedBlock [] 2 false)).inflate.outPos.toNat := by decide +kernel

theorem witness_LengthSymbolSetsMatchLen :
    (fixedBlock [] 10 false).CanRead ∧ lext (257 - 257) = 0 ∧ lext (284 - 257) = 5 ∧ lext (285 - 257) = 0
      ∧ 5 ≤ (fixedBlock [] 10 false).bitsLeft.length := by decide +kernel

/-- Symbol 29 with too few bits; a distance one past the output; a copy that fills RAW; one that overruns it. -/
theorem witness_DistanceSymbolCopiesTheMatch :
    (engine [0] 10 .infSym).CanRead ∧ (engine [0] 10 .infSym).bitsLeft.length < dext 29
      ∧ (let s := produced [1] (fixedBlock [] 4 true)
         s.CanRead ∧ dext 1 ≤ s.bitsLeft.length ∧ s.inflate.outPos.toNat < dbase 1 + s.peek 0 (dext 1)
          ∧ dbase 0 + s.peek 0 (dext 0) ≤ s.inflate.outPos.toNat ∧ s.HasRoom s.inflate.matchLen)
      ∧ (let s := produced [1, 2] (fixedBlock [] 4 true)
         s.CanRead ∧ dbase 0 + s.peek 0 (dext 0) ≤ s.inflate.outPos.toNat
          ∧ s.geom.rasterSize < s.inflate.outPos.toNat + s.inflate.matchLen ∧ s.inflate.outPos.toNat ≤ s.geom.rasterSize
          ∧ s.geom.rasterSize ≤ s.params.rawCapMax ∧ s.params.rawCapMax < 2 ^ 32) := by decide +kernel

/-- With more than 15 bits left, and with eight. -/
theorem witness_UnassignedDistanceCodeRaises :
    [fixedBlock (List.replicate 4 true) 10 true,
      { engine [0x0F] 10 .infSym with inflate := (fixedBlock [] 10 true).inflate }].all (fun s =>
        decide s.CanRead && s.bus.queue == [.yieldCore] && s.phase == .infSym && s.inflate.btype == 1
          && s.inflate.needDist && decide ([true, true, true, true] <+: s.bitsLeft)) = true
      ∧ 15 ≤ (fixedBlock (List.replicate 4 true) 10 true).bitsLeft.length
      ∧ (engine [0x0F] 10 .infSym).bitsLeft.length = 8 := by decide +kernel

/-- A byte short; the input count wrong; both right. -/
theorem witness_FinalBlockChecksTheSizes :
    [(9, true, 0, 9), (10, true, 1, 0), (10, true, 0, 0), (10, false, 1, 0)].all (fun p =>
      let s0 := engine [0] 10 .infEnd
      let s : State :=
        { s0 with
          ctrl := ⟨1, p.2.1, false⟩
          segs := { s0.segs with expIn := BitVec.ofNat 32 p.2.2.1 }
          inflate := { s0.inflate with outPos := BitVec.ofNat 32 p.1 } }
      decide s.geom.Legal && s.bus.queue == [.yieldCore] && s.geom.rasterSize == 10
        && decide (s.cursor.consumed ≠ s.segs.expIn ↔ p.2.2.1 = 1)) = true := by decide +kernel

/-! ### Filters and rows -/

/-- A first row and a second row. -/
theorem witness_FilterReconstructsItsRow :
    (rowState 0 [] [1, 2]).RowInRaw ∧ (rowState 0 [] [1, 2]).race = []
      ∧ (rowState 4 [3, 4] [1, 2]).RowInRaw ∧ (rowState 4 [3, 4] [1, 2]).race = [] := by
  refine ⟨⟨by decide, by decide, ?_⟩, rfl, ⟨by decide, by decide, ?_⟩, rfl⟩
  · intro p h; cases h
  · intro p h; cases h; decide

/-- The row `15 21` after `10 20`, Paeth-filtered by hand to `5 1` (R257). -/
theorem witness_FilterRoundTrip :
    ∃ (s : State) (o : Nat → Byte), s.RowInRaw ∧ s.recon.rowbytes = 2 ∧ ∀ i, i < s.recon.rowbytes →
      let left := if s.recon.bpp ≤ i then (o (i - s.recon.bpp)).toNat else 0
      let upleft := if s.recon.bpp ≤ i then s.above (i - s.recon.bpp) else 0
      ((s.raw.read (s.recon.cur + i)).toNat : Int) =
        (((o i).toNat : Int) - predictor 4 left (s.above i) upleft) % 256 := by
  refine ⟨rowState 4 [10, 20] [5, 1], fun i => if i = 0 then 15 else 21, ⟨by decide, by decide, ?_⟩, by decide, ?_⟩
  · intro p h; cases h; decide
  · intro i h
    have h2 : i < 2 := h
    interval_cases i <;> decide +kernel

/-- A row with another below it; the last row of a pass with a later one nonempty; the last row of the last pass, of a
DECODE and of a DECODE_EXPAND. -/
theorem witness_RowsComeInOrder :
    (∃ s t : State, s.Inv ∧ s.phase = .recon ∧ exec (filterElement 2) s = .next t ∧
        s.recon.row + 1 < (passGeom s.geom.format.interlace s.recon.pass).ph s.geom.height.toNat)
      ∧ (∃ s t : State, s.Inv ∧ s.phase = .recon ∧ exec (filterElement 2) s = .next t ∧
        s.recon.row + 1 = (passGeom s.geom.format.interlace s.recon.pass).ph s.geom.height.toNat ∧
        s.recon.pass < 6 ∧ s.geom.HasRow 6 0 ∧ ∀ p' < 6, s.recon.pass < p' → ¬ s.geom.HasRow p' 0)
      ∧ (∀ cmd ∈ [(1 : BitVec 2), 3], ∃ s t : State, s.ctrl.cmd = cmd ∧ s.Inv ∧ s.phase = .recon ∧
        exec (filterElement 2) s = .next t ∧
        s.recon.row + 1 = (passGeom s.geom.format.interlace s.recon.pass).ph s.geom.height.toNat ∧
        ∀ p, s.recon.pass < p → ¬ s.geom.HasRow p 0) := by
  have one (s : State) (h : gives (exec (filterElement 2) s) (fun _ => true) = true) :
      ∃ t, exec (filterElement 2) s = .next t := (next_of_gives h).imp fun _ h => h.1
  refine ⟨?_, ?_, ?_⟩
  · let s0 := rowState 2 [] [1, 2]
    let s : State := { s0 with geom := ⟨2, 2, ⟨8, 0, 0⟩⟩ }
    obtain ⟨t, h⟩ := one s (by decide +kernel)
    exact ⟨s, t, inv_of_invHolds (by decide +kernel), rfl, h, by decide⟩
  · let s0 := rowState 2 [] [1]
    let s : State := { s0 with geom := ⟨2, 1, ⟨8, 0, 1⟩⟩ }
    obtain ⟨t, h⟩ := one s (by decide +kernel)
    exact ⟨s, t, inv_of_invHolds (by decide +kernel), rfl, h, by decide, by decide, by decide +kernel, by decide +kernel⟩
  · intro cmd hc
    let s0 := rowState 2 [1, 2] [3, 4]
    let s : State := { s0 with ctrl := ⟨cmd, false, false⟩, out := ⟨0x2000, 64⟩ }
    have hp : ∀ p, 1 < p → ¬ s.geom.HasRow p 0 := fun p h1 h2 => absurd h2.2.1 (by
      have : (passesOf s.geom.format.interlace).length = 1 := rfl
      omega)
    simp only [List.mem_cons, List.not_mem_nil, or_false] at hc
    rcases hc with rfl | rfl
    · obtain ⟨t, h⟩ := one s (by decide +kernel)
      exact ⟨s, t, rfl, inv_of_invHolds (by decide +kernel), rfl, h, by decide, hp⟩
    · obtain ⟨t, h⟩ := one s (by decide +kernel)
      exact ⟨s, t, rfl, inv_of_invHolds (by decide +kernel), rfl, h, by decide, hp⟩

theorem witness_PassesCoverTheRasterOnce :
    (⟨0, 1, 1, 2⟩ : PassGeom) ∈ passesOf 1 ∧ (⟨0, 0, 1, 1⟩ : PassGeom) ∈ passesOf 0 ∧ (1 : Byte).toNat ≤ 1 := by decide

/-! ### Pixels -/

/-- Every depth of every colour model, at the last pixel of a row. -/
theorem witness_PixelReady :
    [(0, 1, 1), (0, 2, 1), (0, 4, 1), (0, 8, 1), (0, 16, 1), (2, 8, 3), (2, 16, 3), (3, 1, 1), (3, 2, 1), (3, 4, 1)].all
        (fun p => decide ((pixelState p.1 p.2.1 2 1 [] (List.replicate 16 0)).PixelReady p.2.1 p.2.2 0)) = true
      ∧ [(3, 8, 1), (4, 8, 2), (4, 16, 2), (6, 8, 4), (6, 16, 4)].all
        (fun p => decide ((pixelState p.1 p.2.1 2 1 [] (List.replicate 16 0)).PixelReady p.2.1 p.2.2 0)) = true := by
  decide +kernel

/-- The last palette index in use, and the one after it. -/
theorem witness_PalettePixelIsLookedUp :
    (let s := pixelState 3 2 1 0 [] [0x80]
     s.PixelReady 2 1 0 ∧ s.sampleAt 2 1 0 + 1 = s.color.palCount.toNat)
      ∧ (let s := pixelState 3 2 1 0 [] [0xC0]
         s.PixelReady 2 1 0 ∧ s.sampleAt 2 1 0 = s.color.palCount.toNat) := by decide +kernel

/-- A column with another to its right; the last of a row; the last of a pass; the last pixel. -/
theorem witness_PixelsComeInOrder :
    [(2, 1, 0, 1, 0), (1, 2, 0, 1, 0), (2, 1, 1, 1, 0), (1, 1, 0, 1, 0)].all (fun p =>
      let s0 := pixelState 0 8 p.1 0 [] [1, 0, 2]
      let s : State := { s0 with geom := ⟨BitVec.ofNat 32 p.1, BitVec.ofNat 32 p.2.1, ⟨8, 0, BitVec.ofNat 8 p.2.2.1⟩⟩ }
      invHolds s && s.phase == .expand
        && decide (decode .pixfmt (formatWord s.geom.format).toNat = .ok (.pixG8 (BitVec.ofNat 8 p.2.2.1)))
        && gives (exec (.pixG8 (BitVec.ofNat 8 p.2.2.1)) s) (fun t => t.status.state != .error)) = true := by
  decide +kernel

/-! ### Errors, invariants, runs -/

theorem witness_EveryErrorIsEnteredTheSameWay :
    (engine [7] 10 .infHdr).status.state ≠ .error
      ∧ gives (step (engine [7] 10 .infHdr)) (fun t => t.status.state == .error) = true := by decide +kernel

/-- A pixel, which writes OUT; a header, which writes no HMEM. -/
theorem witness_CoreWritesOnlyTheOutRange :
    ∀ s ∈ [pixelState 0 8 1 0 [] [1], engine [3] 10 .infHdr],
      s.Inv ∧ s.CoreMoves ∧ (∃ t, step s = .next t) ∧ s.race = [] := by
  have one (s : State) (h : gives (step s) (fun _ => true) = true) : ∃ t, step s = .next t :=
    (next_of_gives h).imp fun _ h => h.1
  intro s hs
  simp only [List.mem_cons, List.not_mem_nil, or_false] at hs
  rcases hs with rfl | rfl
  · exact ⟨inv_of_invHolds (by decide +kernel), .inr ⟨[], rfl⟩, one _ (by decide +kernel), rfl⟩
  · exact ⟨inv_of_invHolds (by decide +kernel), .inr ⟨[], rfl⟩, one _ (by decide +kernel), rfl⟩

/-- The smallest and the largest parameters. -/
theorem witness_ResetSatisfiesTheInvariant :
    Params.Legal ⟨1, 1, 0⟩ ∧ Params.Legal ⟨224, 2 ^ 32 - 1, 0xFFFFFFFF⟩ := by decide

/-- The invariant in every phase a core step can start from; each of them but the first is BUSY. -/
theorem witness_Inv_in_every_phase :
    [State.reset, ready, engine [3] 10 .infHdr, lengths [] 0 257 1 [], fixedBlock [] 10 false, engine [1] 10 .infEnd,
      rowState 2 [1, 2] [3, 4], pixelState 0 8 1 0 [] [1], engine [7] 10 .startCheck].all invHolds = true
      ∧ (pixelState 0 8 1 0 [] [1]).isBusy = true ∧ (engine [3] 10 .infHdr).isBusy = true := by decide +kernel

/-- A row above and a step: the hypotheses of the step invariant, on the last row of a DECODE. -/
theorem witness_InvariantIsKeptByEveryStep :
    ∃ s t : State, s.Inv ∧ step s = .next t ∧ s.phase = .recon ∧ t.phase = .ended := by
  obtain ⟨t, h, ht⟩ := next_of_gives (o := step (rowState 2 [1, 2] [3, 4])) (f := fun t => decide (t.phase = .ended))
    (by decide +kernel)
  exact ⟨_, t, inv_of_invHolds (by decide +kernel), h, rfl, of_decide_eq_true ht⟩

/-- A write and reads of an OUT byte and of another, BUSY and not; a raced OUT byte at the end of a DECODE, at an error of
an EXPAND, and at a reset. -/
theorem witness_HostMemoryAccesses :
    (∀ s ∈ [ready, pixelState 0 8 1 0 [] [1]], s.hmem.wf = true ∧ s.inOut 0x2000 = true ∧ s.inOut 0x1FFF = false)
      ∧ ready.isBusy = false ∧ (pixelState 0 8 1 0 [] [1]).isBusy = true
      ∧ (∃ s t : State, s.Inv ∧ s.CoreMoves ∧ step s = .next t ∧ s.isBusy = true ∧ t.isBusy = false ∧ s.inOut 3 = true ∧
          lookupCell 3 s.race ≠ none ∧ s.isExpand = false)
      ∧ (∃ s t : State, s.Inv ∧ s.CoreMoves ∧ step s = .next t ∧ s.isBusy = true ∧ t.isBusy = false ∧
          s.inOut 0x2000 = true ∧ lookupCell 0x2000 s.race ≠ none ∧ s.isExpand = true ∧ t.status.state = .error)
      ∧ (∃ s t : State, s.Inv ∧ s.bus.queue = [.reset] ∧ step s = .next t ∧ s.isBusy = true ∧ t.isBusy = false ∧
          s.inOut 3 = true ∧ lookupCell 3 s.race ≠ none) := by
  refine ⟨by decide +kernel, by decide, by decide, ?_, ?_, ?_⟩
  · let s : State := { rowState 2 [1, 2] [3, 4] with race := [(3, 1)] }
    obtain ⟨t, h, ht⟩ := next_of_gives (o := step s) (f := fun t => !t.isBusy) (by decide +kernel)
    exact ⟨s, t, inv_of_invHolds (by decide +kernel), .inr ⟨[], rfl⟩, h, by decide, by simpa using ht, by decide +kernel,
      by decide, by decide⟩
  · let s : State := { pixelState 3 2 1 0 [] [0xC0] with race := [(0x2000, 1)] }
    obtain ⟨t, h, ht⟩ := next_of_gives (o := step s) (f := fun t => decide (t.status.state = .error)) (by decide +kernel)
    have he : t.status.state = .error := of_decide_eq_true ht
    exact ⟨s, t, inv_of_invHolds (by decide +kernel), .inr ⟨[], rfl⟩, h, by decide, by simp [State.isBusy, he],
      by decide +kernel, by decide, by decide, he⟩
  · let s : State := withMove .reset { engine [5] 10 .infHdr with race := [(3, 1)] }
    obtain ⟨t, h, ht⟩ := next_of_gives (o := step s) (f := fun t => !t.isBusy) (by decide +kernel)
    exact ⟨s, t, inv_of_invHolds (by decide +kernel), rfl, h, by decide, by simpa using ht, by decide +kernel, by decide⟩

end Sys2Proof.Tests
end

section
/-! PROOFS of the family 00_scope.md: the invariant right after reset (R7, R67, R450). -/

namespace Sys2Proof.Machine

/-- Between commands the invariant asks for no more than legal parameters, canonical memories and an agreeing STATUS: a
core in IDLE or END is not BUSY, so that what a running phase has established (R62) is not asked for. -/
theorem inv_of_phase_idle_or_ended {s : State} (hp : s.params.Legal) (hc : s.Canonical) (ha : s.StatusAgrees)
    (h : s.phase = .idle ∨ s.phase = .ended) : s.Inv := by
  have hbusy : ¬ s.isBusy = true := fun hb => by
    obtain ⟨hidle, hended⟩ := ha.1.mp hb
    exact h.elim hidle hended
  refine ⟨hp, hc, ha, fun hb => absurd hb hbusy, ?_, ?_, ?_⟩ <;> rcases h with h | h <;> simp [h, Phase.inflating]

/-- R67: after reset no cell of a memory is listed and every code length is 0, so that the bounds the parameters set
hold of nothing. -/
theorem reset_canonical (p : Params) : State.Canonical { State.reset with params := p } := by
  have zeros (n bound : Nat) : ∀ v ∈ List.replicate n 0, v ≤ bound := fun v hv =>
    List.eq_of_mem_replicate hv ▸ Nat.zero_le bound
  exact ⟨reset_memory_wf, ⟨rfl, List.forall_mem_nil _⟩, ⟨rfl, List.forall_mem_nil _⟩, ⟨rfl, List.forall_mem_nil _⟩,
    ⟨rfl, List.forall_mem_nil _⟩, ⟨rfl, List.forall_mem_nil _⟩,
    ⟨List.length_replicate, zeros 19 7⟩, ⟨List.length_replicate, zeros 320 15⟩⟩

/-- R67, R450: after reset STATUS is IDLE without an error code, RAWVALID is 0, the phase is IDLE and no byte is marked. -/
theorem reset_statusAgrees (p : Params) : State.StatusAgrees { State.reset with params := p } := by
  refine ⟨?busy, ?errCode, ?rawvalid, fun _ => rfl⟩
  case busy => exact iff_of_false Bool.false_ne_true fun h => h.1 rfl
  case errCode => exact iff_of_false (fun h => h rfl) CoreState.noConfusion
  case rawvalid => exact fun h => absurd h Bool.false_ne_true

/-- Settles O56: the reset state is in IDLE, where the invariant asks only for what R67 gives. -/
theorem resetSatisfiesTheInvariant : Obligations.ResetSatisfiesTheInvariant := fun p hp =>
  inv_of_phase_idle_or_ended hp (reset_canonical p) (reset_statusAgrees p) (.inl rfl)

end Sys2Proof.Machine
end

section
/-! PROOFS of the family 10_state.md, part 1: what takeBits reads of the logical stream (R160, R163, R164). -/

namespace Sys2Proof.Machine

/-! ### The bits of a number -/

/-- Packing the n lowest bits of a number gives its remainder by 2^n (R84). -/
theorem packBits_testBit (n x : Nat) : packBits ((List.range n).map x.testBit) = x % 2 ^ n := by
  induction n generalizing x with
  | zero => simp [packBits, Nat.mod_one]
  | succ n ih =>
    have hshift : x.testBit ∘ Nat.succ = (x / 2).testBit := funext fun i => Nat.testBit_succ x i
    rw [List.range_succ_eq_map, List.map_cons, List.map_map, hshift, packBits, ih, Nat.testBit_zero,
      Nat.pow_succ', Nat.mod_mul]
    rcases Nat.mod_two_eq_zero_or_one x with h | h <;> simp [h]

/-- The bits of a shifted accumulator are those of the accumulator without the first n. -/
theorem shifted_bits (buf : Word) (n cnt : Nat) :
    (List.range (cnt - n)).map (buf >>> n).getLsbD = ((List.range cnt).map buf.getLsbD).drop n := by
  refine List.ext_getElem (by simp) fun i _ _ => ?_
  simp [BitVec.getLsbD_ushiftRight]

theorem shifted_lt (buf : Word) (n cnt : Nat) (h : buf.toNat < 2 ^ cnt) (hn : n ≤ cnt) :
    (buf >>> n).toNat < 2 ^ (cnt - n) := by
  rw [BitVec.toNat_ushiftRight, Nat.shiftRight_eq_div_pow, Nat.div_lt_iff_lt_mul (by positivity), ← pow_add]
  rwa [Nat.sub_add_cancel hn]

/-! ### takeBits -/

/-- Everything takeBits can do over the logical stream: it delivers the next n bits and fetches no byte more than they
need, or the stream ends before them (R160, R163, R164). -/
theorem takeBits_cases (n : Nat) (s : State) (hn : n ≤ 24) (hs : s.CanRead) :
    (n ≤ s.bitsLeft.length ∧ ∃ t, takeBits n s = .ok (s.peek 0 n) t ∧ s.Advanced t n) ∨
      (s.bitsLeft.length < n ∧ ∃ c, takeBits n s = .raise .truncatedInput { s with cursor := c } ∧
        c.consumed = s.cursor.consumed + BitVec.ofNat 32 s.unread.length) := by
  obtain ⟨hfit, hcnt, hbuf⟩ := hs
  obtain ⟨hok, hraise⟩ := refill_spec n n s hfit hn hbuf (by omega)
  unfold takeBits
  rcases Nat.lt_or_ge s.bitsLeft.length n with hlt | hge
  · obtain ⟨c, hc, hcons⟩ := hraise hlt
    exact .inr ⟨hlt, c, by rw [hc]; rfl, hcons⟩
  · obtain ⟨c, k, hc, hbits, hncnt, hk, hk8, hcbuf, hcons⟩ := hok hge
    have hlen : n ≤ ((List.range c.bitcnt).map c.bitbuf.getLsbD).length := by simpa using hncnt
    have hpeek : s.peek 0 n = c.bitbuf.toNat % 2 ^ n := by
      rw [State.peek, List.drop_zero, ← hbits, bitsLeft_cursor, List.take_append_of_le_length hlen, ← List.map_take,
        List.take_range, Nat.min_eq_left hncnt, ← packBits_testBit]
      rfl
    refine .inl ⟨hge, _, by rw [hc, hpeek]; rfl, rfl, ⟨?_, shifted_lt _ _ _ hcbuf hncnt⟩, ?_, ?_⟩
    · show c.bitcnt - n ≤ 7
      rcases Nat.eq_zero_or_pos k with rfl | hpos
      · omega
      · have := hk8 (by omega); omega
    · rw [← hbits, bitsLeft_cursor, bitsLeft_cursor, List.drop_append_of_le_length hlen, ← shifted_bits]
      rfl
    · have hceil : ceilDiv (n - s.cursor.bitcnt) 8 = k := by
        unfold ceilDiv
        rcases Nat.eq_zero_or_pos k with rfl | hpos
        · omega
        · have := hk8 (by omega); omega
      rw [hceil]
      exact hcons

theorem packBits_lt (l : List Bool) : packBits l < 2 ^ l.length := by
  induction l with
  | nil => simp [packBits]
  | cons b r ih =>
    have hb := b.toNat_lt
    rw [packBits, List.length_cons, Nat.pow_succ]
    omega

theorem peek_lt (s : State) (k n : Nat) : s.peek k n < 2 ^ n :=
  lt_of_lt_of_le (packBits_lt _) (Nat.pow_le_pow_right (by omega) (List.length_take_le ..))

end Sys2Proof.Machine
end

section
/-! PROOFS of the family 10_state.md, part 2: a calculus for the datapath. `CoreResult.Sound` says that a result has no
fault and raises only where an error keeps the invariant; `State.Engine` is what holds all through an inflate element. -/

namespace Sys2Proof.Machine

/-! ### Leaving a command -/

/-- What an error asks of the failing step, so that the state it is raised in may be entered in END (R410). -/
abbrev State.Raisable (s : State) : Prop := s.params.Legal ∧ s.Canonical

theorem Err.code_ne_zero (e : Err) : e.code ≠ 0 := by cases e <;> decide

/-- R410: an error ends in END with its code, RAWVALID 0 and no listed RAW byte. -/
theorem raiseError_inv {s : State} (e : Err) (h : s.Raisable) : (raiseError e s).Inv := by
  obtain ⟨hp, hmem, -, hrest⟩ := h
  refine inv_of_phase_idle_or_ended hp ⟨errorMem_wf s hmem, ⟨rfl, List.forall_mem_nil _⟩, hrest⟩ ?_ (.inr rfl)
  exact ⟨iff_of_false Bool.false_ne_true fun h => h.2 rfl, iff_of_true e.code_ne_zero rfl,
    fun h => absurd h Bool.false_ne_true, fun _ => rfl⟩

/-- R338: finish() ends in END and DONE; it keeps RAWVALID, so the raster must be a legal one that fits. -/
theorem finishCommand_inv {s : State} (h : s.Raisable) (herr : s.status.errCode = 0)
    (hraw : s.status.rawvalid = true → s.geom.Legal ∧ s.geom.rasterSize ≤ s.params.rawCapMax) :
    (finishCommand s).Inv := by
  obtain ⟨hp, hmem, hrest⟩ := h
  refine inv_of_phase_idle_or_ended hp ⟨settledMem_wf s hmem, hrest⟩ ?_ (.inr rfl)
  exact ⟨iff_of_false Bool.false_ne_true fun h => h.2 rfl, iff_of_false (fun h => h herr) CoreState.noConfusion,
    fun h => ⟨CoreState.noConfusion, hraw h⟩, fun _ => rfl⟩

/-! ### Sound results -/

/-- The result has no fault, an answer meets `Q`, and an error is raised where it keeps the invariant. -/
inductive CoreResult.Sound {α : Type} (Q : α → State → Prop) : CoreResult α → Prop
  | ok {v : α} {t : State} (h : Q v t) : Sound Q (.ok v t)
  | raise {e : Err} {t : State} (h : t.Raisable) : Sound Q (.raise e t)

theorem CoreResult.Sound.bind {α β : Type} {r : CoreResult α} {f : α → State → CoreResult β} {Q : α → State → Prop}
    {R : β → State → Prop} (hr : r.Sound Q) (hf : ∀ v t, Q v t → (f v t).Sound R) : (r.bind f).Sound R := by
  cases hr with
  | ok h => exact hf _ _ h
  | raise h => exact .raise h

theorem CoreResult.Sound.mono {α : Type} {r : CoreResult α} {Q R : α → State → Prop} (hr : r.Sound Q)
    (h : ∀ v t, Q v t → R v t) : r.Sound R := by
  cases hr with
  | ok hq => exact .ok (h _ _ hq)
  | raise hq => exact .raise hq

/-- A fact about every answer may be added to what an answer meets. -/
theorem CoreResult.Sound.and {α : Type} {r : CoreResult α} {Q P : α → State → Prop} (hr : r.Sound Q)
    (h : ∀ v t, r = .ok v t → P v t) : r.Sound fun v t => Q v t ∧ P v t := by
  cases hr with
  | ok hq => exact .ok ⟨hq, h _ _ rfl⟩
  | raise hq => exact .raise hq

/-- The outcome is a next state that has the invariant and meets `P`. -/
def Lands (o : Host.Outcome State Fault Refusal) (P : State → Prop) : Prop := ∃ u, o = .next u ∧ u.Inv ∧ P u

theorem Lands.mono {o : Host.Outcome State Fault Refusal} {P Q : State → Prop} (h : Lands o P)
    (hpq : ∀ u, P u → Q u) : Lands o Q := by
  obtain ⟨u, hu, hinv, hp⟩ := h
  exact ⟨u, hu, hinv, hpq u hp⟩

theorem lands_raiseError {P : State → Prop} {s : State} (e : Err) (h : s.Raisable)
    (hP : (raiseError e s).phase = .ended → P (raiseError e s)) : Lands (.next (raiseError e s)) P :=
  ⟨_, rfl, raiseError_inv e h, hP rfl⟩

/-- A sound result becomes a next state; an error of it is taken in END. -/
theorem CoreResult.Sound.lands {α : Type} {r : CoreResult α} {P : State → Prop} (h : r.Sound fun _ u => u.Inv ∧ P u)
    (hP : ∀ u : State, u.phase = .ended → P u) : Lands r.outcome P := by
  cases h with
  | ok h => exact ⟨_, rfl, h.1, h.2⟩
  | raise h => exact lands_raiseError _ h (hP _)

/-- An element runs after a sound fetch that reads one, if its own step lands. -/
theorem CoreResult.Sound.runElement_lands {r : CoreResult (Except DecodeError Instr)} {P : State → Prop}
    (h : r.Sound fun x t => ∃ i, x = .ok i ∧ Lands (exec i t) P) (hP : ∀ u : State, u.phase = .ended → P u) :
    Lands (runElement r) P := by
  cases h with
  | ok h =>
    obtain ⟨i, rfl, hi⟩ := h
    exact hi
  | raise h => exact lands_raiseError _ h (hP _)

/-! ### The cursor's way through the stream -/

/-- `t` stands at least n bits further in the stream than `s`, within what `s` had left, and IN_CONSUMED has not gone
back (R61, R164). -/
def State.Passed (s t : State) (n : Nat) : Prop :=
  ∃ k, n ≤ k ∧ k ≤ s.bitsLeft.length ∧ t.bitsLeft = s.bitsLeft.drop k ∧
    s.cursor.consumed.toNat ≤ t.cursor.consumed.toNat

theorem State.Passed.refl (s : State) : s.Passed s 0 := ⟨0, le_refl _, Nat.zero_le _, rfl, le_refl _⟩

theorem State.Passed.trans {s t u : State} {n m : Nat} (h : s.Passed t n) (h' : t.Passed u m) : s.Passed u (n + m) := by
  obtain ⟨k, hk, hkl, hbits, hcons⟩ := h
  obtain ⟨j, hj, hjl, hbits', hcons'⟩ := h'
  rw [hbits, List.length_drop] at hjl
  exact ⟨k + j, by omega, by omega, by rw [hbits', hbits, List.drop_drop], by omega⟩

theorem State.Passed.mono {s t : State} {n m : Nat} (h : s.Passed t n) (hm : m ≤ n) : s.Passed t m := by
  obtain ⟨k, hk, hrest⟩ := h
  exact ⟨k, hm.trans hk, hrest⟩

/-! ### The inflate engine between two reads -/

/-- What holds of every running command that has passed its checks, whatever its phase (R62, R341 to R349). -/
def State.Running (s : State) : Prop := s.Raisable ∧ s.isBusy = true ∧ s.status.errCode = 0 ∧ s.Started

/-- What holds all through an inflate element, whatever its phase: the running command is of DECODE type, the cursor is
tidy and cannot overrun its counter, out_pos stays within S (R82, R164, R222). -/
def State.Engine (s : State) : Prop :=
  s.Running ∧ s.isDecode = true ∧ s.cursor.Tidy
    ∧ s.cursor.consumed.toNat + s.unread.length ≤ s.segs.total ∧ s.inflate.outPos.toNat ≤ s.geom.rasterSize

/-- The code-length loop stands at an entry, with a CLT of its alphabet (R208 to R210). -/
abbrev State.LengthsSound (s : State) : Prop :=
  257 ≤ s.inflate.hlit ∧ s.inflate.hlit ≤ 288 ∧ 1 ≤ s.inflate.hdist ∧ s.inflate.hdist ≤ 30
    ∧ s.inflate.lenIdx < s.inflate.hlit + s.inflate.hdist ∧ ∀ v ∈ s.tables.clt.symbol, v < 19

/-- The tables of the block hold symbols of their alphabets (R56, R208). -/
abbrev State.SymbolsSound (s : State) : Prop :=
  s.inflate.btype = 1 ∨ ((∀ v ∈ s.tables.lt.symbol, v < 288) ∧ ∀ v ∈ s.tables.dt.symbol, v < 30)

theorem State.Engine.raisable {s : State} (h : s.Engine) : s.Raisable := h.1.1

theorem State.Engine.canRead {s : State} (h : s.Engine) : s.CanRead := by
  obtain ⟨⟨-, -, -, -, -, -, hdec, -⟩, hd, htidy, -⟩ := h
  exact ⟨(hdec hd).2.1, htidy⟩

/-- No error code stands while BUSY (R35). -/
theorem errCode_of_busy {s : State} (herr : s.status.errCode ≠ 0 ↔ s.status.state = .error) (hb : s.isBusy = true) :
    s.status.errCode = 0 := by
  by_contra hne
  rw [State.isBusy, herr.mp hne] at hb
  exact absurd hb (by decide)

theorem State.Inv.running {s : State} (h : s.Inv) (hidle : s.phase ≠ .idle) (hended : s.phase ≠ .ended)
    (hcheck : s.phase ≠ .startCheck) : s.Running := by
  obtain ⟨hparams, hcanon, ⟨hbusy, herr, -⟩, hstarted, -⟩ := h
  have hb := hbusy.mpr ⟨hidle, hended⟩
  exact ⟨⟨hparams, hcanon⟩, hb, errCode_of_busy herr hb, hstarted hb hcheck⟩

/-- A running command has the invariant, if the registers of its phase are sound. -/
theorem State.Running.inv {s : State} (h : s.Running) (hidle : s.phase ≠ .idle) (hended : s.phase ≠ .ended)
    (hinf : s.phase.inflating = true → s.InflateSound) (hrecon : s.phase = .recon → s.ReconSound)
    (hexpand : s.phase = .expand → s.ExpandSound) : s.Inv := by
  obtain ⟨⟨hparams, hcanon⟩, hb, herr, hstarted⟩ := h
  have hstate : s.status.state = .busy := by simpa [State.isBusy] using hb
  refine ⟨hparams, hcanon, ⟨iff_of_true hb ⟨hidle, hended⟩, ?_, ?_, ?_⟩, fun _ _ => hstarted, hinf, hrecon, hexpand⟩
  · exact iff_of_false (fun h => h herr) (by rw [hstate]; decide)
  · exact fun _ => ⟨by rw [hstate]; decide, hstarted.1, hstarted.2.1⟩
  · exact fun h => absurd (hb.symm.trans h) (by decide)

theorem inflating_running {p : Phase} (h : p.inflating = true) :
    p ≠ .idle ∧ p ≠ .ended ∧ p ≠ .startCheck ∧ p ≠ .recon ∧ p ≠ .expand := by
  cases p <;> simp [Phase.inflating] at h ⊢

theorem State.Inv.engine {s : State} (h : s.Inv) (hp : s.phase.inflating = true) : s.Engine := by
  obtain ⟨hidle, hended, hcheck, -⟩ := inflating_running hp
  have hrun := h.running hidle hended hcheck
  obtain ⟨-, -, -, -, hinf, -⟩ := h
  obtain ⟨hd, htidy, hcount, hout, -⟩ := hinf hp
  exact ⟨hrun, hd, htidy, hcount, hout⟩

/-- An engine in a phase of the inflate engine has the invariant, if the phase's own registers are sound. -/
theorem State.Engine.inv {s : State} (h : s.Engine) (hp : s.phase.inflating = true)
    (hlen : s.phase = .infDynHdr → s.LengthsSound) (hsym : s.phase = .infSym → s.SymbolsSound) : s.Inv := by
  obtain ⟨hrun, hd, htidy, hcount, hout⟩ := h
  obtain ⟨hidle, hended, -, hrecon, hexpand⟩ := inflating_running hp
  exact hrun.inv hidle hended (fun _ => ⟨hd, htidy, hcount, hout, hlen, hsym⟩) (fun h => absurd h hrecon)
    fun h => absurd h hexpand

/-- `t` is an engine at least n bits further in the stream than `s`. -/
abbrev State.RunTo (s t : State) (n : Nat) : Prop := t.Engine ∧ s.Passed t n

/-- The same, with nothing but the cursor changed. -/
abbrev State.ReadTo (s t : State) (n : Nat) : Prop := (∃ c, t = { s with cursor := c }) ∧ s.RunTo t n

theorem State.RunTo.trans {s t u : State} {n m : Nat} (h : s.RunTo t n) (h' : t.RunTo u m) : s.RunTo u (n + m) :=
  ⟨h'.1, State.Passed.trans h.2 h'.2⟩

theorem State.ReadTo.trans {s t u : State} {n m : Nat} (h : s.ReadTo t n) (h' : t.ReadTo u m) : s.ReadTo u (n + m) := by
  obtain ⟨⟨c, rfl⟩, hrun⟩ := h
  obtain ⟨⟨d, rfl⟩, hrun'⟩ := h'
  exact ⟨⟨d, rfl⟩, hrun.trans hrun'⟩

theorem State.RunTo.mono {s t : State} {n m : Nat} (h : s.RunTo t n) (hm : m ≤ n) : s.RunTo t m := ⟨h.1, h.2.mono hm⟩

theorem State.ReadTo.mono {s t : State} {n m : Nat} (h : s.ReadTo t n) (hm : m ≤ n) : s.ReadTo t m :=
  ⟨h.1, h.2.mono hm⟩

theorem State.ReadTo.inflate_eq {s t : State} {n : Nat} (h : s.ReadTo t n) : t.inflate = s.inflate := by
  obtain ⟨⟨c, rfl⟩, -⟩ := h
  rfl

/-- R82, R163: reading n bits from a tidy cursor leaves an engine, and IN_CONSUMED does not wrap. -/
theorem State.Engine.readTo {s t : State} {n : Nat} (h : s.Engine) (hn : n ≤ s.bitsLeft.length)
    (hadv : s.Advanced t n) :
    s.ReadTo t n := by
  obtain ⟨ht, htidy, hbits, hcons⟩ := hadv
  obtain ⟨hrun, hd, htidy0, hcount, hout⟩ := h
  obtain ⟨-, -, -, hstarted⟩ := id hrun
  have hmax : s.segs.total ≤ 2 ^ 32 - 1 := (hstarted.2.2.2.1 hd).2.2
  have hlen : t.cursor.bitcnt + 8 * t.unread.length = s.cursor.bitcnt + 8 * s.unread.length - n := by
    rw [← bitsLeft_length, ← bitsLeft_length, hbits, List.length_drop]
  rw [bitsLeft_length] at hn
  have hfetched : s.unread.length = t.unread.length + ceilDiv (n - s.cursor.bitcnt) 8 := by
    unfold ceilDiv
    have := htidy0.1
    have := htidy.1
    omega
  have hconsNat : t.cursor.consumed.toNat = s.cursor.consumed.toNat + ceilDiv (n - s.cursor.bitcnt) 8 := by
    rw [hcons, BitVec.toNat_add, BitVec.toNat_ofNat, Nat.add_mod_mod, Nat.mod_eq_of_lt (by omega)]
  have hpassed : s.Passed t n := ⟨n, le_refl _, by rw [bitsLeft_length]; exact hn, hbits, by omega⟩
  have hcount' : t.cursor.consumed.toNat + t.unread.length ≤ s.segs.total := by omega
  rw [ht] at hpassed hcount' ⊢
  exact ⟨⟨_, rfl⟩, ⟨hrun, hd, htidy, hcount', hout⟩, hpassed⟩

/-- Reading at most 24 bits (R163): a number of n bits, the cursor moved past them, or TruncatedInput. -/
theorem takeBits_sound {s : State} (n : Nat) (hn : n ≤ 24) (h : s.Engine) :
    (takeBits n s).Sound fun v t => v < 2 ^ n ∧ s.ReadTo t n := by
  rcases takeBits_cases n s hn h.canRead with ⟨hle, t, ht, hadv⟩ | ⟨-, c, hc, -⟩
  · rw [ht]; exact .ok ⟨peek_lt s 0 n, h.readTo hle hadv⟩
  · rw [hc]; exact .raise h.raisable

end Sys2Proof.Machine
end

section
/-! PROOFS of the family 10_state.md, part 3: every inflate element lands in a state with the invariant, further in the
stream than it began (R61, R164, R201 to R227). -/

namespace Sys2Proof.Machine

/-! ### Symbols -/

/-- The search takes a bit at least, and a code it has not matched has one bit for each length tried (R186). -/
theorem searchSym_sound (tab : HuffTable) (fuel l code first index : Nat) {s : State} (h : s.Engine)
    (hcode : code + 1 < 2 ^ l) :
    (searchSym tab fuel l code first index s).Sound fun r t =>
      s.ReadTo t (min fuel 1) ∧ ∀ c, r = .missed c → 2 * c < 2 ^ (l + fuel) := by
  induction fuel generalizing l code first index s with
  | zero =>
    refine .ok ⟨⟨⟨_, rfl⟩, h, .refl s⟩, fun c hc => ?_⟩
    obtain rfl : code / 2 = c := SymbolSearch.missed.inj hc
    rw [Nat.add_zero]
    omega
  | succ m ih =>
    unfold searchSym
    refine (takeBits_sound 1 (by omega) h).bind fun b t ⟨hb, hread⟩ => ?_
    dsimp only
    split
    · exact .ok ⟨hread.mono (by omega), fun c hc => by cases hc⟩
    · have hcode' : 2 * (code + b) + 1 < 2 ^ (l + 1) := by rw [Nat.pow_succ']; omega
      refine (ih (l + 1) _ _ _ hread.2.1 hcode').mono fun r u ⟨hread', hmiss⟩ => ?_
      refine ⟨(hread.trans hread').mono (by omega), fun c hc => ?_⟩
      rw [← Nat.add_assoc, Nat.add_right_comm]
      exact hmiss c hc

/-- decodeSym takes a bit at least, and answers a symbol of the table or 0 (R186). -/
theorem decodeSym_sound (tab : HuffTable) {s : State} (h : s.Engine) :
    (decodeSym tab s).Sound fun v t => s.ReadTo t 1 ∧ (v = 0 ∨ v ∈ tab.symbol) := by
  refine CoreResult.Sound.and ?_ fun v t => decodeSym_mem tab s t v
  unfold decodeSym
  refine (searchSym_sound tab 15 1 0 0 0 h (by decide)).bind fun r t ⟨hread, _⟩ => ?_
  cases r with
  | found v => exact .ok hread
  | missed c => exact .raise hread.2.1.raisable

theorem readOn_sound (n : Nat) {s : State} (h : s.Engine) : (readOn n s).Sound fun _ t => s.ReadTo t 0 := by
  induction n generalizing s with
  | zero => exact .ok ⟨⟨_, rfl⟩, h, .refl s⟩
  | succ n ih =>
    unfold readOn
    exact (takeBits_sound 1 (by omega) h).bind fun _ t ⟨_, hread⟩ =>
      (ih hread.2.1).mono fun _ u hread' => (hread.trans hread').mono (by omega)

/-! ### Output -/

/-- An output byte lies below S, and so below RAW_CAP_MAX (R222, R348). -/
theorem emit_sound (b : Byte) {s : State} (h : s.Engine) : (emit b s).Sound fun _ t => s.RunTo t 0 := by
  obtain ⟨⟨⟨hparams, hmem, ⟨hrise, hbound⟩, hcanon⟩, hb, herr, hstarted⟩, hd, htidy, hcount, -⟩ := id h
  have hfits : s.geom.rasterSize ≤ s.params.rawCapMax := hstarted.2.1
  have hcap : s.params.rawCapMax ≤ 2 ^ 32 - 1 := hparams.2.2.2
  rcases emit_cases b s with ⟨-, he⟩ | ⟨hlt, hge, -⟩ | ⟨hlt, hcapLt, he⟩
  · rw [he]; exact .raise h.raisable
  · omega
  · rw [he]
    have hout : (s.inflate.outPos + 1).toNat ≤ s.geom.rasterSize := by
      have hone : (1 : Word).toNat = 1 := rfl
      rw [BitVec.toNat_add, hone, Nat.mod_eq_of_lt (by omega)]
      omega
    have hraw := And.intro (RawBuf.rising_write s.raw s.inflate.outPos.toNat b hrise) 
      (RawBuf.bound_write s.raw _ _ b hbound hcapLt)
    exact .ok ⟨⟨⟨⟨hparams, hmem, hraw, hcanon⟩, hb, herr, hstarted⟩, hd, htidy, hcount, hout⟩, State.Passed.refl s⟩

theorem copyMatch_sound (d l : Nat) {s : State} (h : s.Engine) :
    (copyMatch d l s).Sound fun _ t => s.RunTo t 0 := by
  induction l generalizing s with
  | zero => exact .ok ⟨h, .refl s⟩
  | succ l ih =>
    unfold copyMatch
    exact (emit_sound _ h).bind fun _ t hrun => (ih hrun.1).mono fun _ u hrun' => hrun.trans hrun'

theorem copyStored_sound (n : Nat) {s : State} (h : s.Engine) :
    (copyStored n s).Sound fun _ t => s.RunTo t 0 := by
  induction n generalizing s with
  | zero => exact .ok ⟨h, .refl s⟩
  | succ n ih =>
    unfold copyStored
    exact (takeBits_sound 8 (by omega) h).bind fun _ t ⟨_, hread⟩ =>
      (emit_sound _ hread.2.1).bind fun _ u hrun =>
        (ih hrun.1).mono fun _ v hrun' => ((hread.2.trans hrun).trans hrun').mono (by omega)

/-! ### Block ends and the symbol loop -/

theorem blockEnd_inv {s : State} (h : s.Engine) : (blockEnd s).Inv := by
  have hengine : (blockEnd s).Engine := h
  have hphase : (blockEnd s).phase = .infEnd ∨ (blockEnd s).phase = .infHdr := by
    rw [blockEnd_phase]; split <;> simp
  rcases hphase with hphase | hphase
  all_goals
    exact hengine.inv (by rw [hphase]; rfl) (fun hp => by rw [hphase] at hp; cases hp) fun hp => by
      rw [hphase] at hp; cases hp

theorem enterSymbols_inv {s : State} (h : s.Engine) (hsym : s.SymbolsSound) : (enterSymbols s).Inv :=
  have hengine : (enterSymbols s).Engine := h
  hengine.inv rfl (fun hp => Phase.noConfusion hp) fun _ => hsym

/-- What a step of the inflate engine does for the cursor: if another inflate element comes next, at least n bits have
been taken (R61). -/
abbrev State.Onward (s : State) (n : Nat) (u : State) : Prop := u.phase.inflating = true → s.Passed u n

theorem onward_ended (s : State) (n : Nat) (u : State) (h : u.phase = .ended) : s.Onward n u := fun hp => by
  rw [h] at hp; exact absurd hp (by decide)

/-! ### Block headers -/

theorem storedBody_sound {s : State} (h : s.Engine) :
    (storedBody s).Sound fun _ u => u.Inv ∧ s.Onward 0 u := by
  unfold storedBody
  exact (copyStored_sound _ h).bind fun _ t hrun => .ok ⟨blockEnd_inv hrun.1, fun _ => hrun.2⟩

/-- align() drops the rest of a byte (R165). -/
theorem align_runTo {s : State} (h : s.Engine) : s.RunTo (align s) 0 := by
  obtain ⟨hrun, hd, htidy, hcount, hout⟩ := h
  refine ⟨⟨hrun, hd, ⟨Nat.zero_le _, Nat.one_pos⟩, hcount, hout⟩,
    s.cursor.bitcnt, Nat.zero_le _, by rw [bitsLeft_length]; omega, ?_, le_refl _⟩
  show (align s).unread.flatMap byteBits = _
  rw [State.bitsLeft, List.drop_left' (by simp)]
  rfl

theorem storedBlock_sound {s : State} (h : s.Engine) :
    (storedBlock s).Sound fun _ u => u.Inv ∧ s.Onward 0 u := by
  unfold storedBlock
  refine (takeBits_sound 16 (by omega) (align_runTo h).1).bind fun n t ⟨_, hread⟩ => ?_
  have hstored : State.Engine { t with inflate := { t.inflate with storedLen := BitVec.ofNat 16 n } } := hread.2.1
  refine (takeBits_sound 16 (by omega) hstored).bind fun c u ⟨_, hread'⟩ => ?_
  split
  · exact .raise hread'.2.1.raisable
  · have hbody : State.Engine { u with phase := .infStored } := hread'.2.1
    have hpassed : s.Passed u 0 := (((align_runTo h).2.trans hread.2.2).trans hread'.2.2).mono (by omega)
    exact (storedBody_sound hbody).mono fun _ v ⟨hinv, hon⟩ => ⟨hinv, fun hp => (hpassed.trans (hon hp))⟩

/-- Values of 3 bits keep the canonical form of `cl_len`. -/
theorem State.Engine.setClLens {s : State} {l : List Nat} (h : s.Engine) (hlength : l.length = 19)
    (hle : ∀ v ∈ l, v ≤ 7) : State.Engine { s with inflate := { s.inflate with clLen := l } } := by
  obtain ⟨⟨⟨hparams, hmem, hraw, hpal, htrns, hbase, hlens, -, hrest⟩, hrun⟩, hengine⟩ := h
  exact ⟨⟨⟨hparams, hmem, hraw, hpal, htrns, hbase, hlens, ⟨hlength, hle⟩, hrest⟩, hrun⟩, hengine⟩

theorem State.Engine.clLens {s : State} (h : s.Engine) :
    s.inflate.clLen.length = 19 ∧ ∀ v ∈ s.inflate.clLen, v ≤ 7 := by
  obtain ⟨⟨⟨-, -, -, -, -, -, -, hcl, -⟩, -⟩, -⟩ := h
  exact hcl

/-- Code lengths up to 15 keep the canonical form of `len`, whatever their index. -/
theorem State.Engine.setLens {s : State} {l : List Nat} (h : s.Engine) (hlength : l.length = 320)
    (hle : ∀ v ∈ l, v ≤ 15)
    (i : Nat) : State.Engine { s with inflate := { s.inflate with len := l, lenIdx := i } } := by
  obtain ⟨⟨⟨hparams, hmem, hraw, hpal, htrns, hbase, hlens, hcl, -⟩, hrun⟩, hengine⟩ := h
  exact ⟨⟨⟨hparams, hmem, hraw, hpal, htrns, hbase, hlens, hcl, hlength, hle⟩, hrun⟩, hengine⟩

theorem State.Engine.lens {s : State} (h : s.Engine) : s.inflate.len.length = 320 ∧ ∀ v ∈ s.inflate.len, v ≤ 15 := by
  obtain ⟨⟨⟨-, -, -, -, -, -, -, -, hlens⟩, -⟩, -⟩ := h
  exact hlens

/-- R209: 3-bit values stay within the bound of cl_len, and the positions of CLORDER within its length. -/
theorem readClLens_sound (order : List Nat) {s : State} (h : s.Engine) :
    (readClLens order s).Sound fun _ u => s.RunTo u 0 ∧
      ∃ c l, u = { s with cursor := c, inflate := { s.inflate with clLen := l } } := by
  induction order generalizing s with
  | nil => exact .ok ⟨⟨h, .refl s⟩, _, _, rfl⟩
  | cons j js ih =>
    unfold readClLens
    refine (takeBits_sound 3 (by omega) h).bind fun v t ⟨hv, hread⟩ => ?_
    obtain ⟨hlength, hle⟩ := hread.2.1.clLens
    have hset := hread.2.1.setClLens (l := t.inflate.clLen.set j v) (List.length_set.trans hlength) fun w hw =>
      (List.mem_or_eq_of_mem_set hw).elim (hle w) fun he => by omega
    refine (ih hset).mono fun _ u ⟨hrun, c, l, hu⟩ => ⟨(hread.2.trans hrun).mono (by omega), c, l, ?_⟩
    obtain ⟨d, rfl⟩ := hread.1
    exact hu

/-- R209, R210: the code-length loop begins, its CLT built from the 19 lengths of cl_len. -/
theorem readCodeLengthCode_sound {s : State} (h : s.Engine) (hlit : 257 ≤ s.inflate.hlit ∧ s.inflate.hlit ≤ 288)
    (hdist : 1 ≤ s.inflate.hdist ∧ s.inflate.hdist ≤ 30) :
    (readCodeLengthCode s).Sound fun _ u => u.Inv ∧ s.Onward 0 u := by
  unfold readCodeLengthCode
  have hzero := h.setClLens (l := List.replicate 19 0) List.length_replicate fun v hv =>
    List.eq_of_mem_replicate hv ▸ Nat.zero_le 7
  refine (readClLens_sound _ hzero).bind fun _ u ⟨hrun, c, l, hu⟩ => ?_
  rcases build_cases u.inflate.clLen with ⟨e, -, -, he⟩ | ⟨-, hok⟩
  · rw [he]; exact .raise hrun.1.raisable
  · rw [hok]
    obtain ⟨hlength, -⟩ := hrun.1.clLens
    have hclt : ∀ v ∈ (sortedTable u.inflate.clLen).symbol, v < 19 := fun v hv =>
      hlength ▸ sortedTable_symbol_lt _ v hv
    subst hu
    have hentry : State.Engine { { s with cursor := c, inflate := { s.inflate with clLen := l, lenIdx := 0 } } with
        tables := { s.tables with clt := sortedTable l }, phase := .infDynHdr } := hrun.1
    refine .ok ⟨hentry.inv rfl (fun _ => ?_) (fun hp => Phase.noConfusion hp), fun _ => hrun.2⟩
    exact ⟨hlit.1, hlit.2, hdist.1, hdist.2, by show 0 < s.inflate.hlit + s.inflate.hdist; omega, hclt⟩

/-- R207, R208: HLIT and HDIST of a dynamic block lie in their ranges when its code-length loop begins. -/
theorem dynamicBlock_sound {s : State} (h : s.Engine) :
    (dynamicBlock s).Sound fun _ u => u.Inv ∧ s.Onward 0 u := by
  unfold dynamicBlock
  refine (takeBits_sound 5 (by omega) h).bind fun a t ⟨ha, hread⟩ => ?_
  have ht : State.Engine { t with inflate := { t.inflate with hlit := a + 257 } } := hread.2.1
  refine (takeBits_sound 5 (by omega) ht).bind fun b u ⟨hb, hread'⟩ => ?_
  have hu : State.Engine { u with inflate := { u.inflate with hdist := b + 1 } } := hread'.2.1
  refine (takeBits_sound 4 (by omega) hu).bind fun c v ⟨_, hread''⟩ => ?_
  have hv : State.Engine { v with inflate := { v.inflate with hclen := c + 4 } } := hread''.2.1
  have hpassed : s.Passed v 0 := ((hread.2.2.trans hread'.2.2).trans hread''.2.2).mono (by omega)
  have hhlit : v.inflate.hlit = a + 257 := by rw [hread''.inflate_eq]; dsimp only; rw [hread'.inflate_eq]
  have hhdist : v.inflate.hdist = b + 1 := by rw [hread''.inflate_eq]
  dsimp only
  split
  · exact .raise hv.raisable
  · refine (readCodeLengthCode_sound hv ⟨?_, ?_⟩ ⟨?_, ?_⟩).mono fun _ w ⟨hinv, hon⟩ =>
      ⟨hinv, fun hp => hpassed.trans (hon hp)⟩
    all_goals dsimp only; omega

/-- Every block header lands, whatever its type (R202 to R209). -/
theorem decodeHeader_lands {s : State} {w : Nat} (h : s.Engine) (hw : w < 8) :
    ∃ i, decode .bhdr w = .ok i ∧ Lands (exec i s) (s.Onward 0) := by
  have hlatch (f : Bool) (b : BitVec 2) : (latchHeader f b s).Engine := h
  show ∃ i, decodeHeader w = .ok i ∧ _
  unfold decodeHeader
  rw [if_neg (by omega)]
  split
  · exact ⟨.blkStored _, rfl, (storedBlock_sound (hlatch _ 0)).lands (onward_ended _ 0)⟩
  · exact ⟨.blkFixed _, rfl, _, rfl, enterSymbols_inv (hlatch _ 1) (.inl rfl), fun _ => State.Passed.refl s⟩
  · exact ⟨.blkDynamic _, rfl, (dynamicBlock_sound (hlatch _ 2)).lands (onward_ended _ 0)⟩
  · exact ⟨.blkInvalid _, rfl, lands_raiseError _ (hlatch _ 3).raisable (onward_ended _ 0 _)⟩

/-- An element that comes n bits into the step takes the step n bits further. -/
theorem State.Passed.lands {s t : State} {n m : Nat} {o : Host.Outcome State Fault Refusal} (h : s.Passed t n)
    (ho : Lands o (t.Onward m)) : Lands o (s.Onward (n + m)) :=
  ho.mono fun _ hon hp => h.trans (hon hp)

/-- A block header lands: three bits, then its body (R113, R201). -/
theorem infHdr_lands {s : State} (h : s.Engine) : Lands (runElement (fetchHeader s)) (s.Onward 1) := by
  refine CoreResult.Sound.runElement_lands ?_ (onward_ended s 1)
  unfold fetchHeader
  refine (takeBits_sound 1 (by omega) h).bind fun f t ⟨hf, hread⟩ => ?_
  have hlatch : (latchFinal (f.testBit 0) t).Engine := hread.2.1
  refine (takeBits_sound 2 (by omega) hlatch).bind fun b u ⟨hb, hread'⟩ => ?_
  obtain ⟨i, hi, hland⟩ := decodeHeader_lands (w := f + 2 * b) hread'.2.1 (by omega)
  have hpassed : s.Passed u 1 := (hread.2.2.trans hread'.2.2).mono (by omega)
  exact .ok ⟨i, hi, hpassed.lands hland⟩

/-! ### Code lengths -/

/-- R215: LT and DT hold symbols below the numbers of lengths they are built from. -/
theorem buildLitDist_sound {s : State} (h : s.Engine) (hlit : s.inflate.hlit ≤ 288) (hdist : s.inflate.hdist ≤ 30) :
    (buildLitDist s).Sound fun _ u => u.Inv ∧ s.Onward 0 u := by
  unfold buildLitDist
  rcases build_cases (s.inflate.len.take s.inflate.hlit) with ⟨e, -, -, he⟩ | ⟨-, hlt⟩
  · rw [he]; exact .raise h.raisable
  · rw [hlt]
    dsimp only
    rcases build_cases ((s.inflate.len.drop s.inflate.hlit).take s.inflate.hdist) with ⟨e, -, -, he⟩ | ⟨-, hdt⟩
    · rw [he]; exact .raise h.raisable
    · rw [hdt]
      have hbuilt : State.Engine { s with tables := { s.tables with
          lt := sortedTable (s.inflate.len.take s.inflate.hlit)
          dt := sortedTable ((s.inflate.len.drop s.inflate.hlit).take s.inflate.hdist) } } := h
      refine .ok ⟨enterSymbols_inv hbuilt (.inr ⟨fun v hv => ?_, fun v hv => ?_⟩), fun _ => State.Passed.refl s⟩
      · have := sortedTable_symbol_lt _ v hv
        rw [List.length_take] at this
        omega
      · have := sortedTable_symbol_lt _ v hv
        rw [List.length_take] at this
        omega

/-- The loop test after lengths have been put: the next entry, or the tables (R210, R214). -/
theorem lengthLoop_sound {s : State} (h : s.Engine) (hp : s.phase = .infDynHdr)
    (hlit : 257 ≤ s.inflate.hlit ∧ s.inflate.hlit ≤ 288)
    (hdist : 1 ≤ s.inflate.hdist ∧ s.inflate.hdist ≤ 30) (hclt : ∀ v ∈ s.tables.clt.symbol, v < 19) :
    (lengthLoop s).Sound fun _ u => u.Inv ∧ s.Onward 0 u := by
  rcases lengthLoop_cases s with ⟨hlt, he⟩ | ⟨-, he⟩ <;> rw [he]
  · exact .ok ⟨h.inv (by rw [hp]; rfl) (fun _ => ⟨hlit.1, hlit.2, hdist.1, hdist.2, hlt, hclt⟩) (by simp [hp]),
      fun _ => State.Passed.refl s⟩
  · exact buildLitDist_sound h hlit.2 hdist.2

theorem getD_le {l : List Nat} {b : Nat} (h : ∀ v ∈ l, v ≤ b) (i : Nat) : l.getD i 0 ≤ b := by
  rw [List.getD_eq_getElem?_getD]
  cases hi : l[i]? with
  | none => exact Nat.zero_le b
  | some v => exact h v (List.mem_of_getElem? hi)

theorem putLengths_sound {s : State} (p r : Nat) (hp15 : p ≤ 15) (h : s.Engine) (hp : s.phase = .infDynHdr)
    (hs : s.LengthsSound) : (putLengths p r s).Sound fun _ u => u.Inv ∧ s.Onward 0 u := by
  obtain ⟨hlit, hlit', hdist, hdist', -, hclt⟩ := hs
  obtain ⟨hlength, hle⟩ := h.lens
  rcases putLengths_cases p r s with ⟨-, he⟩ | ⟨-, he⟩ <;> rw [he]
  · exact .raise h.raisable
  · exact lengthLoop_sound (h.setLens ((writeLens_length ..).trans hlength) (writeLens_mem _ _ _ _ _ hp15 hle) _)
      hp ⟨hlit, hlit'⟩ ⟨hdist, hdist'⟩ hclt

/-- A repeat reads its extra bits, then puts its lengths (R211 to R213). -/
theorem repeat_sound {s : State} (n : Nat) (hn : n ≤ 24) (p : State → Nat) (base : Nat) (h : s.Engine)
    (hp15 : ∀ c, p { s with cursor := c } ≤ 15) (hp : s.phase = .infDynHdr) (hs : s.LengthsSound) :
    ((takeBits n s).bind fun x t => putLengths (p t) (base + x) t).Sound fun _ u => u.Inv ∧ s.Onward 0 u := by
  refine (takeBits_sound n hn h).bind fun x t ⟨_, ⟨c, ht⟩, hrun⟩ => ?_
  subst ht
  exact (putLengths_sound _ _ (hp15 c) hrun.1 hp hs).mono fun _ u ⟨hinv, hon⟩ =>
    ⟨hinv, fun hi => (hrun.2.trans (hon hi)).mono (Nat.zero_le _)⟩

/-- CL_LEN puts one length (R210). -/
theorem clLen_sound {s : State} (v : Nat) (hv : v ≤ 15) (h : s.Engine) (hp : s.phase = .infDynHdr)
    (hs : s.LengthsSound) :
    (lengthLoop { s with inflate := { s.inflate with
      len := s.inflate.len.set s.inflate.lenIdx v, lenIdx := s.inflate.lenIdx + 1 } }).Sound
      fun _ u => u.Inv ∧ s.Onward 0 u := by
  obtain ⟨hlit, hlit', hdist, hdist', -, hclt⟩ := hs
  obtain ⟨hlength, hle⟩ := h.lens
  have hset : ∀ w ∈ s.inflate.len.set s.inflate.lenIdx v, w ≤ 15 := fun w hw =>
    (List.mem_or_eq_of_mem_set hw).elim (hle w) fun he => he ▸ hv
  have hput := h.setLens (List.length_set.trans hlength) hset (s.inflate.lenIdx + 1)
  exact lengthLoop_sound hput hp ⟨hlit, hlit'⟩ ⟨hdist, hdist'⟩ hclt

/-- Every code-length symbol of CLT lands (R210 to R214). -/
theorem decodeCodeLength_lands {s : State} {v : Nat} (h : s.Engine) (hp : s.phase = .infDynHdr)
    (hs : s.LengthsSound) (hv : v < 19) :
    ∃ i, decode .cl v = .ok i ∧ Lands (exec i s) (s.Onward 0) := by
  show ∃ i, decodeCodeLength v = .ok i ∧ _
  unfold decodeCodeLength
  obtain hv | rfl | rfl | rfl : v ≤ 15 ∨ v = 16 ∨ v = 17 ∨ v = 18 := by omega
  · rw [if_pos hv]
    exact ⟨.clLen v, rfl, (clLen_sound v hv h hp hs).lands (onward_ended _ 0)⟩
  · refine ⟨.clRepPrev, rfl, CoreResult.Sound.lands ?_ (onward_ended _ 0)⟩
    split
    · exact .raise h.raisable
    · refine repeat_sound 2 (by omega) (fun t => t.inflate.len.getD (t.inflate.lenIdx - 1) 0) 3 h (fun _ => ?_) hp hs
      exact getD_le h.lens.2 _ 
  · exact ⟨.clRepZero3, rfl, (repeat_sound 3 (by omega) (fun _ => 0) 3 h (fun _ => by omega) hp hs).lands
      (onward_ended _ 0)⟩
  · exact ⟨.clRepZero11, rfl, (repeat_sound 7 (by omega) (fun _ => 0) 11 h (fun _ => by omega) hp hs).lands
      (onward_ended _ 0)⟩

/-- A code-length symbol lands: its code against CLT, then the element (R210). -/
theorem infDynHdr_lands {s : State} (h : s.Engine) (hp : s.phase = .infDynHdr) (hs : s.LengthsSound) :
    Lands (runElement (fetchCodeLength s)) (s.Onward 1) := by
  refine CoreResult.Sound.runElement_lands ?_ (onward_ended s 1)
  unfold fetchCodeLength
  refine (decodeSym_sound _ h).bind fun v t ⟨⟨⟨c, ht⟩, hrun⟩, hv⟩ => ?_
  have hv19 : v < 19 := hv.elim (by omega) fun hm => by
    obtain ⟨-, -, -, -, -, hclt⟩ := hs
    exact hclt v hm
  subst ht
  obtain ⟨i, hi, hland⟩ := decodeCodeLength_lands hrun.1 hp hs hv19
  exact .ok ⟨i, hi, hrun.2.lands hland⟩

end Sys2Proof.Machine
end

section
/-! PROOFS of the family 10_state.md, part 4: the symbol loop (R216 to R227), and with it every phase of the inflate
engine. -/

namespace Sys2Proof.Machine

/-! ### Literal/length symbols -/

/-- An answer of an output operation has the phase, the tables and all but out_pos of the inflate registers of the state
it began in. -/
theorem CoreResult.OnlyOutput.of_ok {α : Type} {s t : State} {r : CoreResult α} {v : α}
    (h : r.OnlyOutput s) (hr : r = .ok v t) :
    t = { s with cursor := t.cursor, raw := t.raw, inflate := { s.inflate with outPos := t.inflate.outPos } } := by
  subst hr
  exact h

/-- An output operation of the symbol loop stays in the symbol loop. -/
theorem CoreResult.Sound.symbols {α : Type} {s : State} {r : CoreResult α} (h : r.Sound fun _ u => s.RunTo u 0)
    (hout : r.OnlyOutput s) (hp : s.phase = .infSym) (hs : s.SymbolsSound) :
    r.Sound fun _ u => u.Inv ∧ s.Onward 0 u := by
  refine (h.and fun _ u hu => CoreResult.OnlyOutput.of_ok hout hu).mono fun _ u ⟨hrun, hu⟩ => ⟨?_, fun _ => hrun.2⟩
  have hphase : u.phase = .infSym := by rw [hu]; exact hp
  exact hrun.1.inv (by rw [hphase]; rfl) (by simp [hphase]) fun _ => by rw [hu]; exact hs

theorem lext_le (s : Nat) : lext s ≤ 24 := getD_le (by decide) s

theorem dext_le (d : Nat) : dext d ≤ 24 := getD_le (by decide) d

/-- LEN keeps the symbol loop, its distance element next (R219, R220). -/
theorem execLen_lands {s : State} (sym : Nat) (h : s.Engine) (hp : s.phase = .infSym) (hs : s.SymbolsSound) :
    Lands (execLen sym s) (s.Onward 0) := by
  unfold execLen
  refine CoreResult.Sound.lands ?_ (onward_ended s 0)
  refine (takeBits_sound _ (lext_le _) h).bind fun x t ⟨_, ⟨c, ht⟩, hrun⟩ => ?_
  subst ht
  have hmatch : State.Engine { s with cursor := c, inflate := { s.inflate with
      matchLen := lbase (sym - 257) + x, needDist := true } } := hrun.1
  exact .ok ⟨hmatch.inv (by simp [hp, Phase.inflating]) (by simp [hp]) fun _ => hs,
    fun _ => hrun.2.mono (Nat.zero_le _)⟩

/-- Every literal/length symbol of the block's table lands (R216 to R220, R225). -/
theorem decodeLitLen_lands {s : State} {v : Nat} (h : s.Engine) (hp : s.phase = .infSym) (hs : s.SymbolsSound)
    (hv : v < 288) : ∃ i, decode .litlen v = .ok i ∧ Lands (exec i s) (s.Onward 0) := by
  show ∃ i, decodeLitLen v = .ok i ∧ _
  unfold decodeLitLen
  split
  · exact ⟨.lit _, rfl, ((emit_sound _ h).symbols (emit_onlyOutput _ s) hp hs).lands (onward_ended s 0)⟩
  · split
    · exact ⟨.eob, rfl, _, rfl, blockEnd_inv h, fun _ => State.Passed.refl s⟩
    · split
      · exact ⟨.len v, rfl, execLen_lands v h hp hs⟩
      · rw [if_pos (by omega)]
        exact ⟨.lenInvalid v, rfl, lands_raiseError _ h.raisable (onward_ended s 0 _)⟩

theorem fixedLitLens_length : fixedLitLens.length = 288 := by
  simp only [fixedLitLens, List.length_append, List.length_replicate]

/-- R185, R205, R208: the literal/length table of the block holds symbols of the alphabet. -/
theorem litTable_lt {s : State} (hs : s.SymbolsSound) {v : Nat} (hv : v ∈ s.litTable.symbol) : v < 288 := by
  unfold State.litTable at hv
  split at hv
  · exact fixedLitLens_length ▸ sortedTable_symbol_lt _ v hv
  · rename_i hfixed
    obtain ⟨hlt, -⟩ := hs.resolve_left hfixed
    exact hlt v hv

/-- A literal/length symbol lands: its code, then the element (R216). -/
theorem fetchLitLen_lands {s : State} (h : s.Engine) (hp : s.phase = .infSym) (hs : s.SymbolsSound) :
    Lands (runElement (fetchLitLen s)) (s.Onward 1) := by
  refine CoreResult.Sound.runElement_lands ?_ (onward_ended s 1)
  unfold fetchLitLen
  refine (decodeSym_sound _ h).bind fun v t ⟨⟨⟨c, ht⟩, hrun⟩, hv⟩ => ?_
  have hv288 : v < 288 := hv.elim (by omega) (litTable_lt hs)
  subst ht
  obtain ⟨i, hi, hland⟩ := decodeLitLen_lands hrun.1 hp hs hv288
  exact .ok ⟨i, hi, hrun.2.lands hland⟩

/-! ### Distance symbols -/

/-- DIST: extra bits, the distance check, then the copy (R219, R223, R224). -/
theorem execDist_lands {s : State} (sym : Nat) (h : s.Engine) (hp : s.phase = .infSym) (hs : s.SymbolsSound) :
    Lands (execDist sym s) (s.Onward 0) := by
  unfold execDist
  refine CoreResult.Sound.lands ?_ (onward_ended s 0)
  refine (takeBits_sound _ (dext_le _) h).bind fun x t ⟨_, ⟨c, ht⟩, hrun⟩ => ?_
  subst ht
  have hdist : State.Engine { s with cursor := c, inflate := { s.inflate with
      matchDist := dbase sym + x, needDist := false } } := hrun.1
  dsimp only
  split
  · exact .raise hdist.raisable
  · exact ((copyMatch_sound _ _ hdist).symbols (copyMatch_onlyOutput ..) hp hs).mono fun _ u ⟨hinv, hon⟩ =>
      ⟨hinv, fun hi => (hrun.2.trans (hon hi)).mono (Nat.zero_le _)⟩

/-- Every distance symbol lands, the two unassigned ones among them (R219, R223, R226; log 14). -/
theorem decodeDist_lands {s : State} {v : Nat} (h : s.Engine) (hp : s.phase = .infSym) (hs : s.SymbolsSound)
    (hv : v < 32) : ∃ i, decode .dist v = .ok i ∧ Lands (exec i s) (s.Onward 0) := by
  show ∃ i, decodeDist v = .ok i ∧ _
  unfold decodeDist
  split
  · exact ⟨.dist v, rfl, execDist_lands v h hp hs⟩
  · rw [if_pos (by omega)]
    refine ⟨.distInvalid v, rfl, CoreResult.Sound.lands ?_ (onward_ended s 0)⟩
    exact (readOn_sound 10 h).bind fun _ t hread => .raise hread.2.1.raisable

/-- A symbol of FIXED_DIST, or the five bits that match none, is a distance symbol (R124, R185, R226; log 14). -/
theorem fetchFixedDist_sound {s : State} (h : s.Engine) :
    (fetchFixedDist s).Sound fun x t => ∃ v, x = decode .dist v ∧ v < 32 ∧ s.ReadTo t 1 := by
  unfold fetchFixedDist
  have hfound := searchSym_found_mem fixedDist 5 1 0 0 0 s
  refine ((searchSym_sound fixedDist 5 1 0 0 0 h (by decide)).and fun r t hr sym (hsym : r = .found sym) =>
    hfound t sym (hsym ▸ hr)).bind fun r t ⟨⟨hread, hmiss⟩, hsym⟩ => ?_
  cases r with
  | found sym =>
    refine .ok ⟨sym, rfl, ?_, hread⟩
    rcases hsym sym rfl with rfl | hm
    · omega
    · have := sortedTable_symbol_lt _ _ hm
      rw [fixedDistLens, List.length_replicate] at this
      omega
  | missed code => exact .ok ⟨code, rfl, by have := hmiss code rfl; omega, hread⟩

/-- A distance symbol lands: its code, then the element (R219, R223). -/
theorem fetchDist_lands {s : State} (h : s.Engine) (hp : s.phase = .infSym) (hs : s.SymbolsSound) :
    Lands (runElement (fetchDist s)) (s.Onward 1) := by
  refine CoreResult.Sound.runElement_lands ?_ (onward_ended s 1)
  have hsymbol {v : Nat} {t : State} (hv : v < 32) (hread : s.ReadTo t 1) :
      ∃ i, decode .dist v = .ok i ∧ Lands (exec i t) (s.Onward 1) := by
    obtain ⟨⟨c, rfl⟩, hrun⟩ := hread
    obtain ⟨i, hi, hland⟩ := decodeDist_lands hrun.1 hp hs hv
    exact ⟨i, hi, hrun.2.lands hland⟩
  unfold fetchDist
  split
  · refine (fetchFixedDist_sound h).mono fun x t ⟨v, hx, hv, hread⟩ => ?_
    rw [hx]
    exact hsymbol hv hread
  · rename_i hfixed
    refine (decodeSym_sound _ h).bind fun v t ⟨hread, hv⟩ => .ok (hsymbol ?_ hread)
    obtain ⟨-, hdt⟩ := hs.resolve_left hfixed
    exact hv.elim (by omega) fun hm => by have := hdt v hm; omega

end Sys2Proof.Machine
end

section
/-! PROOFS of the family 10_state.md, part 5: the reconstructor and the normalizer stand at rows and pixels of the raster
(R250 to R258, R271 to R276, R290 to R292). -/

namespace Sys2Proof.Machine

/-! ### Passes -/

/-- The next nonempty pass comes after p, has a first row, and begins where pass p ends: the passes between hold no bytes
(R273, R275). -/
theorem nextPass_some {g : GeomRegs} {p q : Nat}
    (h : nextPass g.format.interlace g.width.toNat g.height.toNat p = some q) :
    g.HasRow q 0 ∧ g.passStart q = g.passStart (p + 1) := by
  unfold nextPass at h
  have hspec := firstNonEmpty_spec g.width.toNat g.height.toNat (p + 1) ((passesOf g.format.interlace).drop p)
  rw [h] at hspec
  obtain ⟨hpq, -, ⟨x, hx, hne⟩, hempty⟩ := hspec
  rw [List.getElem?_drop, show p + (q - (p + 1)) = q - 1 by omega] at hx
  obtain ⟨hlen, -⟩ := List.getElem?_eq_some_iff.mp hx
  simp only [PassGeom.nonEmpty, Bool.and_eq_true, decide_eq_true_eq] at hne
  have hgeom : passGeom g.format.interlace q = x := by
    rw [passGeom, List.getD_eq_getElem?_getD, hx, Option.getD_some]
  refine ⟨⟨by omega, by omega, by rw [hgeom]; exact hne.1, by rw [hgeom]; exact hne.2⟩, ?_⟩
  have hsplit : (passesOf g.format.interlace).take (q - 1) = (passesOf g.format.interlace).take p ++
      ((passesOf g.format.interlace).drop p).take (q - 1 - p) := by
    rw [← List.take_add, show p + (q - 1 - p) = q - 1 by omega]
  unfold GeomRegs.passStart
  rw [hsplit, List.map_append, List.sum_append, Nat.add_sub_cancel, Nat.add_eq_left]
  refine List.sum_eq_zero fun n hn => ?_
  obtain ⟨y, hy, rfl⟩ := List.mem_map.mp hn
  obtain ⟨i, hi, hyi⟩ := List.mem_iff_getElem.mp hy
  rw [List.length_take] at hi
  have hy? : ((passesOf g.format.interlace).drop p)[p + 1 + i - (p + 1)]? = some y := by
    rw [Nat.add_sub_cancel_left, ← hyi, List.getElem_take]
    exact List.getElem?_eq_getElem _
  have := hempty (p + 1 + i) (by omega) (by omega) y hy?
  rw [PassGeom.passBytes, this]
  rfl

/-- An image with pixels has a first pass: pass 1 starts at column and row 0 (R271, R275). -/
theorem nextPass_zero {g : GeomRegs} (h : g.Legal) :
    nextPass g.format.interlace g.width.toNat g.height.toNat 0 = some 1 := by
  have hpos {w : Word} (hw : w ≠ 0) : 0 < w.toNat := Nat.pos_of_ne_zero fun h0 => hw (BitVec.eq_of_toNat_eq h0)
  have hw := hpos h.1
  have hh := hpos h.2.1
  unfold nextPass passesOf
  split <;>
    simp [adam7, firstNonEmpty, PassGeom.nonEmpty, PassGeom.pw, PassGeom.ph, ceilDiv, hw, hh]
  all_goals omega

/-- The pass after p begins past the rows of p (R274, R275). -/
theorem passStart_succ {g : GeomRegs} {p row : Nat} (h : g.HasRow p row) :
    g.passStart (p + 1) =
      g.passStart p + (passGeom g.format.interlace p).ph g.height.toNat * (1 + g.rowBytesOf p) := by
  obtain ⟨hp, hlen, hpw, hph⟩ := h
  obtain ⟨k, rfl⟩ : ∃ k, p = k + 1 := ⟨p - 1, by omega⟩
  have hget : (passesOf g.format.interlace)[k] = passGeom g.format.interlace (k + 1) := by
    rw [passGeom, List.getD_eq_getElem _ _ (by omega)]
    rfl
  unfold GeomRegs.passStart
  rw [Nat.add_sub_cancel, Nat.add_sub_cancel, List.take_add_one, List.getElem?_eq_getElem (by omega), hget]
  simp only [Option.toList_some, List.map_append, List.sum_append, List.map_cons, List.map_nil, List.sum_cons,
    List.sum_nil, Nat.add_zero]
  rw [passBytes_eq, if_pos ⟨hpw, by omega⟩]
  rfl

/-- The last row of a pass ends where the pass after it begins. -/
theorem tagIndex_last {g : GeomRegs} {p row : Nat} (h : g.HasRow p row)
    (hlast : ¬ row + 1 < (passGeom g.format.interlace p).ph g.height.toNat) :
    g.tagIndex p row + 1 + g.rowBytesOf p = g.passStart (p + 1) := by
  obtain ⟨-, -, -, hrow⟩ := id h
  rw [passStart_succ h, show (passGeom g.format.interlace p).ph g.height.toNat = row + 1 by omega, GeomRegs.tagIndex]
  rw [Nat.add_mul, Nat.one_mul]
  omega

/-- The next row of a pass begins past the row before it. -/
theorem tagIndex_succ (g : GeomRegs) (p row : Nat) :
    g.tagIndex p (row + 1) = g.tagIndex p row + 1 + g.rowBytesOf p := by
  rw [GeomRegs.tagIndex, GeomRegs.tagIndex, Nat.add_mul, Nat.one_mul]
  omega

theorem tagIndex_zero (g : GeomRegs) (p : Nat) : g.tagIndex p 0 = g.passStart p := by
  rw [GeomRegs.tagIndex, Nat.zero_mul, Nat.add_zero]

theorem passStart_one (g : GeomRegs) : g.passStart 1 = 0 := rfl

/-! ### Entering the back end -/

theorem State.Running.finishCommand_inv {s : State} (h : s.Running) : (finishCommand s).Inv := by
  obtain ⟨hrais, -, herr, hlegal, hfits, -⟩ := h
  exact Sys2Proof.Machine.finishCommand_inv hrais herr fun _ => ⟨hlegal, hfits⟩

/-- EXPAND begins at the first pixel of pass 1 (R292). -/
theorem enterExpand_inv {s : State} (h : s.Running) (hx : s.isExpand = true) (hraw : s.status.rawvalid = true) :
    (enterExpand s).Inv := by
  have hfirst := nextPass_zero h.2.2.2.1
  obtain ⟨hrow, -⟩ := nextPass_some hfirst
  unfold enterExpand
  rw [hfirst]
  have hrun : State.Running { s with
      norm := { s.norm with pass := 1, row := 0, col := 0, rawpos := 0 }, phase := .expand } := h
  obtain ⟨-, -, hpw, -⟩ := id hrow
  refine hrun.inv Phase.noConfusion Phase.noConfusion (fun hp => absurd hp Bool.false_ne_true) Phase.noConfusion
    fun _ => ⟨hx, hraw, hrow, hpw, ?_⟩
  exact (tagIndex_zero s.geom 1).symm

/-- R331, R336: RAWVALID is set, and the command expands or ends. -/
theorem endRecon_inv {s : State} (h : s.Running) : (endRecon s).Inv := by
  have hvalid : State.Running { s with status := s.status.setRawValid true } := h
  rcases endRecon_cases s with ⟨hx, he⟩ | ⟨-, he⟩ <;> rw [he]
  · exact enterExpand_inv hvalid hx rfl
  · exact hvalid.finishCommand_inv

/-- The registers of a pass's first row are those of row 0 of the raster (R252, R275). -/
theorem firstRow_inv {s : State} {p pos : Nat} (h : s.Running) (hd : s.isDecode = true) (hp : s.phase = .recon)
    (hrow : s.geom.HasRow p 0) (hpos : s.geom.passStart p = pos) :
    State.Inv { s with recon := firstRowOf s.geom p pos } := by
  have hrun : State.Running { s with recon := firstRowOf s.geom p pos } := h
  refine hrun.inv (by simp [hp]) (by simp [hp]) (by simp [hp, Phase.inflating]) (fun _ => ?_) (by simp [hp])
  exact ⟨hd, hrow, rfl, rfl, by rw [← hpos, ← tagIndex_zero]; rfl, rfl⟩

/-- RECON begins at the first row of pass 1 (R252). -/
theorem enterRecon_inv {s : State} (h : s.Running) (hd : s.isDecode = true) : (enterRecon s).Inv := by
  have hfirst := nextPass_zero h.2.2.2.1
  obtain ⟨hrow, -⟩ := nextPass_some hfirst
  unfold enterRecon
  rw [hfirst]
  have hrun : State.Running { s with phase := .recon } := h
  exact firstRow_inv hrun hd rfl hrow (passStart_one _)

theorem enterRecon_phase {s : State} (h : s.geom.Legal) : (enterRecon s).phase = .recon := by
  unfold enterRecon
  rw [nextPass_zero h]

/-! ### Rows -/

/-- After a row comes the next row of the raster, or the end of the phase (R252, R275). -/
theorem nextRow_inv {s : State} (h : s.Running) (hp : s.phase = .recon) (hs : s.ReconSound) : (nextRow s).Inv := by
  obtain ⟨hd, hrow, hbpp, hbytes, hcur, -⟩ := hs
  rcases nextRow_cases s with ⟨hlt, he⟩ | ⟨hlast, ⟨q, hq, he⟩ | ⟨-, he⟩⟩ <;> rw [he]
  · have hrun : State.Running { s with recon := { s.recon with
        row := s.recon.row + 1, prev := some s.recon.cur, cur := s.recon.cur + s.recon.rowbytes + 1 } } := h
    refine hrun.inv (by simp [hp]) (by simp [hp]) (by simp [hp, Phase.inflating]) (fun _ => ?_) (by simp [hp])
    obtain ⟨h1, h2, h3, -⟩ := hrow
    refine ⟨hd, ⟨h1, h2, h3, hlt⟩, hbpp, hbytes, ?_, ?_⟩
    · show s.recon.cur + s.recon.rowbytes + 1 = s.geom.tagIndex s.recon.pass (s.recon.row + 1) + 1
      rw [tagIndex_succ, hcur, hbytes]
    · show some s.recon.cur = if s.recon.row + 1 = 0 then none else some (s.geom.tagIndex s.recon.pass s.recon.row + 1)
      rw [if_neg (by omega), hcur]
  · obtain ⟨hrow', hstart⟩ := nextPass_some hq
    exact firstRow_inv h hd hp hrow' (by rw [hstart, ← tagIndex_last hrow hlast, hcur, hbytes])
  · exact endRecon_inv h

/-- A filter element lands: its row lies in RAW (R252, R275). -/
theorem filterRow_lands {s : State} (pred : Byte → Byte → Byte → Byte) (h : s.Running) (hp : s.phase = .recon)
    (hs : s.ReconSound) : Lands (filterRow pred s) fun _ => True := by
  obtain ⟨-, hrow, -, hbytes, hcur, -⟩ := id hs
  obtain ⟨⟨hparams, hmem, ⟨hrise, hbound⟩, hcanon⟩, hb, herr, hlegal, hfits, hrest⟩ := id h
  have hend := tagIndex_fits _ _ _ hrow
  rw [← hbytes, ← hcur] at hend
  rcases filterRow_cases pred s with ⟨hlt, -⟩ | ⟨hle, he⟩
  · omega
  · rw [he]
    have hraw := And.intro (reconLoop_rising pred s.recon s.recon.rowbytes 0 s.raw hrise)
      (reconLoop_bound pred s.recon s.recon.rowbytes 0 _ s.raw hbound hle)
    have hrun : State.Running { s with raw := reconLoop pred s.recon s.recon.rowbytes 0 s.raw } :=
      ⟨⟨hparams, hmem, hraw, hcanon⟩, hb, herr, hlegal, hfits, hrest⟩
    exact ⟨_, rfl, nextRow_inv hrun hp hs, trivial⟩

/-- Every tag is an element that lands (R125, R253 to R258). -/
theorem decodeFilter_lands {s : State} (tag : Byte) (h : s.Running) (hp : s.phase = .recon) (hs : s.ReconSound) :
    ∃ i, decode .filter tag.toNat = .ok i ∧ Lands (exec i s) fun _ => True := by
  show ∃ i, decodeFilter tag.toNat = .ok i ∧ _
  unfold decodeFilter
  split
  · exact ⟨.filtNone, rfl, filterRow_lands _ h hp hs⟩
  · exact ⟨.filtSub, rfl, filterRow_lands _ h hp hs⟩
  · exact ⟨.filtUp, rfl, filterRow_lands _ h hp hs⟩
  · exact ⟨.filtAvg, rfl, filterRow_lands _ h hp hs⟩
  · exact ⟨.filtPaeth, rfl, filterRow_lands _ h hp hs⟩
  · rw [if_pos tag.isLt]
    exact ⟨.filtInvalid _, rfl, lands_raiseError _ h.1 fun _ => trivial⟩

/-- A row of RECON lands: its tag lies in RAW, then the element (R252). -/
theorem recon_lands {s : State} (h : s.Running) (hp : s.phase = .recon) (hs : s.ReconSound) :
    Lands (runElement (fetchTag s)) fun _ => True := by
  obtain ⟨-, hrow, -, -, hcur, -⟩ := id hs
  have hend := tagIndex_fits _ _ _ hrow
  have hfits : s.geom.rasterSize ≤ s.params.rawCapMax := h.2.2.2.2.1
  refine CoreResult.Sound.runElement_lands ?_ fun _ _ => trivial
  unfold fetchTag
  rw [if_neg (by omega)]
  obtain ⟨i, hi, hland⟩ := decodeFilter_lands (s.raw.read (s.recon.cur - 1)) h hp hs
  exact .ok ⟨i, hi, hland⟩

end Sys2Proof.Machine
end

section
/-! PROOFS of the family 10_state.md, part 6: the pixel elements and the start of a command (R276, R290 to R325, R330 to
R349). -/

namespace Sys2Proof.Machine

/-! ### Pixels -/

theorem formatWord_toNat (f : FormatReg) :
    (formatWord f).toNat = f.bitDepth.toNat + 256 * f.colorModel.toNat + 65536 * f.interlace.toNat := by
  rw [formatWord, BitVec.toNat_ofNat, Nat.mod_eq_of_lt (by omega)]

/-- The element of FORMAT is a pixel step of its depth and its channels, over the passes of its INTERLACE (R142, R290 to
R325). -/
theorem decodePixel_step {f : FormatReg} (hil : f.interlace.toNat ≤ 1) (hf : f.supported = true) :
    ∃ i conv, decode .pixfmt (formatWord f).toNat = .ok i
      ∧ (∀ s, exec i s = pixelStep f.bitDepth.toNat (channels f.colorModel) conv f.interlace s)
      ∧ 1 ≤ f.bitDepth.toNat ∧ (f.bitDepth.toNat < 8 → channels f.colorModel = 1) ∧ 1 ≤ channels f.colorModel
      ∧ (f.bitDepth.toNat ≤ 8 ∨ f.bitDepth.toNat = 16) := by
  have hfields : (formatWord f).toNat % 256 = f.bitDepth.toNat ∧ (formatWord f).toNat / 256 % 256 = f.colorModel.toNat
      ∧ (formatWord f).toNat / 65536 % 256 = f.interlace.toNat := by
    rw [formatWord_toNat]; omega
  obtain ⟨hdepth, hmodel, hinterlace⟩ := hfields
  simp only [decode, decodePixel, hdepth, hmodel, hinterlace, BitVec.ofNat_toNat, BitVec.setWidth_eq]
  rw [if_neg (Nat.not_le.mpr (formatWord f).isLt), if_neg (by omega)]
  obtain ⟨d, m, il⟩ := f
  dsimp only
  simp only [FormatReg.supported, Bool.or_eq_true, Bool.and_eq_true, beq_iff_eq] at hf
  rcases hf with (((⟨rfl, hd⟩ | ⟨rfl, hd⟩) | ⟨rfl, hd⟩) | ⟨rfl, hd⟩) | ⟨rfl, hd⟩
  · rcases hd with (((rfl | rfl) | rfl) | rfl) | rfl
    · exact ⟨.pixG1 il, grayPixel 255, rfl, fun _ => rfl, by decide⟩
    · exact ⟨.pixG2 il, grayPixel 85, rfl, fun _ => rfl, by decide⟩
    · exact ⟨.pixG4 il, grayPixel 17, rfl, fun _ => rfl, by decide⟩
    · exact ⟨.pixG8 il, grayPixel 1, rfl, fun _ => rfl, by decide⟩
    · exact ⟨.pixG16 il, grayPixel16, rfl, fun _ => rfl, by decide⟩
  · rcases hd with rfl | rfl
    · exact ⟨.pixRgb8 il, rgbPixel lowByte, rfl, fun _ => rfl, by decide⟩
    · exact ⟨.pixRgb16 il, rgbPixel to8, rfl, fun _ => rfl, by decide⟩
  · rcases hd with ((rfl | rfl) | rfl) | rfl
    · exact ⟨.pixP1 il, palettePixel, rfl, fun _ => rfl, by decide⟩
    · exact ⟨.pixP2 il, palettePixel, rfl, fun _ => rfl, by decide⟩
    · exact ⟨.pixP4 il, palettePixel, rfl, fun _ => rfl, by decide⟩
    · exact ⟨.pixP8 il, palettePixel, rfl, fun _ => rfl, by decide⟩
  · rcases hd with rfl | rfl
    · exact ⟨.pixGa8 il, grayAlphaPixel lowByte, rfl, fun _ => rfl, by decide⟩
    · exact ⟨.pixGa16 il, grayAlphaPixel to8, rfl, fun _ => rfl, by decide⟩
  · rcases hd with rfl | rfl
    · exact ⟨.pixRgba8 il, rgbaPixel lowByte, rfl, fun _ => rfl, by decide⟩
    · exact ⟨.pixRgba16 il, rgbaPixel to8, rfl, fun _ => rfl, by decide⟩

theorem mul_lt_of_lt_ceilDiv {c a b : Nat} (h : c < ceilDiv a b) : c * b < a := by
  have := Nat.mul_le_of_le_div b (c + 1) (a + b - 1) h
  rw [Nat.add_mul, Nat.one_mul] at this
  rcases Nat.eq_zero_or_pos b with rfl | hb
  · rw [ceilDiv, Nat.div_zero] at h; omega
  · omega

/-- A column of a pass is a column of the image (R271, R272, R276). -/
theorem column_lt {g : PassGeom} {w col : Nat} (h : col < g.pw w) : g.xs + col * g.dx < w := by
  unfold PassGeom.pw at h
  split at h
  · have := mul_lt_of_lt_ceilDiv h; omega
  · omega

/-- A row of a pass is a row of the image (R271, R272, R276). -/
theorem row_lt {g : PassGeom} {hgt row : Nat} (h : row < g.ph hgt) : g.ys + row * g.dy < hgt := by
  unfold PassGeom.ph at h
  split at h
  · have := mul_lt_of_lt_ceilDiv h; omega
  · omega

/-- The four bytes of a pixel of the raster lie in OUT (R276, R308, R310). -/
theorem pixelAddress_fits {s : State} (hs : s.ExpandSound) :
    pixelAddress s.geom.format.interlace s + 4 ≤ s.out.base.toNat + s.rasterBytes := by
  obtain ⟨-, -, ⟨-, -, -, hrow⟩, hcol, -⟩ := hs
  have hx := column_lt hcol
  have hy := row_lt hrow
  have hmul := Nat.mul_le_mul_right s.geom.width.toNat (Nat.succ_le_of_lt hy)
  rw [Nat.succ_mul, Nat.mul_comm s.geom.height.toNat] at hmul
  simp only [pixelAddress, State.rasterBytes]
  omega

/-- The samples of a pixel lie in the data bytes of its row (R250, R293, R294, R297). -/
theorem lastSampleByte_lt {d ch pw col : Nat} (start : Nat) (hd : 1 ≤ d) (hsub : d < 8 → ch = 1) (hch : 1 ≤ ch)
    (hdepth : d ≤ 8 ∨ d = 16) (hcol : col < pw) :
    lastSampleByte d ch start col < start + ceilDiv (pw * (ch * d)) 8 := by
  have hmul := Nat.mul_le_mul_right (ch * d) (Nat.succ_le_of_lt hcol)
  rw [Nat.succ_mul] at hmul
  unfold lastSampleByte ceilDiv
  split
  · rename_i hlt
    rw [hsub hlt, Nat.one_mul] at hmul ⊢
    omega
  · split
    · rename_i heq
      rw [heq, ← Nat.mul_assoc, ← Nat.mul_assoc] at hmul
      rw [heq, ← Nat.mul_assoc]
      omega
    · obtain rfl : d = 16 := by omega
      rw [← Nat.mul_assoc, ← Nat.mul_assoc] at hmul
      rw [← Nat.mul_assoc]
      omega

/-- After a pixel comes the next pixel of the raster, or the end of the command (R275, R292). -/
theorem nextPixel_inv {s : State} (h : s.Running) (hp : s.phase = .expand) (hs : s.ExpandSound) :
    (nextPixel s.geom.format.interlace s.geom.format.bitsPerPixel s).Inv := by
  obtain ⟨hx, hraw, hrow, hcol, hpos⟩ := hs
  have hstand {n : NormRegs} (hrow : s.geom.HasRow n.pass n.row)
      (hcol : n.col < (passGeom s.geom.format.interlace n.pass).pw s.geom.width.toNat)
      (hpos : n.rawpos = s.geom.tagIndex n.pass n.row) : State.Inv { s with norm := n } := by
    have hrun : State.Running { s with norm := n } := h
    exact hrun.inv (by simp [hp]) (by simp [hp]) (by simp [hp, Phase.inflating]) (by simp [hp])
      fun _ => ⟨hx, hraw, hrow, hcol, hpos⟩
  have hafter : s.norm.rawpos + 1 +
      (passGeom s.geom.format.interlace s.norm.pass).rowBytes s.geom.width.toNat s.geom.format.bitsPerPixel =
      s.geom.tagIndex s.norm.pass s.norm.row + 1 + s.geom.rowBytesOf s.norm.pass := by rw [hpos]; rfl
  obtain ⟨h1, h2, hpw, -⟩ := id hrow
  unfold nextPixel
  dsimp only
  split
  · rename_i hlt
    exact hstand hrow hlt hpos
  · split
    · rename_i hlt
      exact hstand ⟨h1, h2, hpw, hlt⟩ hpw (by rw [tagIndex_succ]; exact hafter)
    · rename_i hlast
      split
      · rename_i q hq
        obtain ⟨hrow', hstart⟩ := nextPass_some hq
        obtain ⟨-, -, hpw', -⟩ := id hrow'
        refine hstand hrow' hpw' ?_
        rw [tagIndex_zero, hstart, ← tagIndex_last hrow hlast]
        exact hafter
      · exact State.Running.finishCommand_inv (s := { s with norm := { s.norm with rawpos := _ } }) h

/-- A pixel element lands: its samples lie in RAW, its bytes in OUT (R290 to R310). -/
theorem expand_lands {s : State} (h : s.Running) (hp : s.phase = .expand) (hs : s.ExpandSound) :
    Lands (runElement (fetchFormat s)) fun _ => True := by
  obtain ⟨⟨hparams, hmem, hcanon⟩, hb, herr, hlegal, hfits, hstarted⟩ := id h
  obtain ⟨hx, hraw, hrow, hcol, hpos⟩ := id hs
  obtain ⟨-, -, hil, hsupported⟩ := id hlegal
  obtain ⟨-, -, hout⟩ := id hstarted
  obtain ⟨hbase, hcap⟩ := hout hx
  have haddr := pixelAddress_fits hs
  have hend := tagIndex_fits _ _ _ hrow
  obtain ⟨i, conv, hi, hexec, hd, hsub, hch, hdepth⟩ := decodePixel_step hil hsupported
  have hlast := lastSampleByte_lt (s.norm.rawpos + 1) hd hsub hch hdepth hcol
  have hbytes : ceilDiv ((passGeom s.geom.format.interlace s.norm.pass).pw s.geom.width.toNat *
      (channels s.geom.format.colorModel * s.geom.format.bitDepth.toNat)) 8 = s.geom.rowBytesOf s.norm.pass := rfl
  refine CoreResult.Sound.runElement_lands (.ok ⟨i, hi, ?_⟩) fun _ _ => trivial
  rw [hexec]
  rcases pixelStep_cases s.geom.format.bitDepth.toNat (channels s.geom.format.colorModel) conv
    s.geom.format.interlace s with ⟨hge, -⟩ | ⟨e, -, he⟩ | ⟨hge, -⟩ | ⟨px, -, hlt, he⟩
  · omega
  · rw [he]; exact lands_raiseError e h.1 fun _ => trivial
  · omega
  · rw [he, Nat.mul_comm]
    have hwritten : State.Running { s with
        norm := { s.norm with
          sample := readSamples s.geom.format.bitDepth.toNat (channels s.geom.format.colorModel) s }
        hmem := s.hmem.writePixel (pixelAddress s.geom.format.interlace s) px } :=
      ⟨⟨hparams, Memory.wf_writePixel _ _ _ hmem hlt, hcanon⟩, hb, herr, hlegal, hfits, hstarted⟩
    exact ⟨_, rfl, nextPixel_inv hwritten hp hs, trivial⟩

end Sys2Proof.Machine
end

section
/-! PROOFS of the family 10_state.md, part 7: a START, the host's moves, and the invariant over every step. -/

namespace Sys2Proof.Machine

/-! ### The start of a command (R341 to R349) -/

theorem segBytes_length (s : State) (i off : Nat) : (s.segBytes i off).length = (s.segs.lenAt i).toNat - off := by
  simp [State.segBytes]

theorem flatMap_segBytes_length (s : State) (l : List Nat) :
    (l.flatMap fun i => s.segBytes i 0).length = (l.map fun i => (s.segs.lenAt i).toNat).sum := by
  induction l with
  | nil => rfl
  | cons i r ih => simp [segBytes_length, ih]

/-- From wherever the cursor stands, no more bytes come than the segments hold (R160, R343). -/
theorem unreadFrom_length_le (s : State) (idx off : Nat) : (s.unreadFrom idx off).length ≤ s.segs.total := by
  unfold State.unreadFrom
  split
  · rename_i hidx
    have hdrop : (List.range s.segs.count.toNat).drop idx = idx :: (List.range s.segs.count.toNat).drop (idx + 1) := by
      rw [List.drop_eq_getElem_cons (by simpa using hidx), List.getElem_range]
    rw [List.length_append, segBytes_length, flatMap_segBytes_length, SegRegs.total]
    conv_rhs => rw [← List.take_append_drop idx (List.range s.segs.count.toNat), List.map_append, List.sum_append,
      hdrop, List.map_cons, List.sum_cons]
    omega
  · exact Nat.zero_le _

/-- How many bytes are unread depends on the segments and the cursor, not on the bytes. -/
theorem unread_length_congr {s t : State} (hs : t.segs = s.segs) (hc : t.cursor = s.cursor) :
    t.unread.length = s.unread.length := by
  rw [unread_eq, unread_eq]
  unfold State.unreadFrom
  rw [hs, hc]
  split
  · rw [List.length_append, List.length_append, segBytes_length, segBytes_length, flatMap_segBytes_length,
      flatMap_segBytes_length, hs]
  · rfl

/-- What the checks R341 to R347 have found when none has failed. -/
theorem earlyChecks_none {s : State} (h : earlyChecks s = none) :
    s.ctrl.cmd ≠ 0 ∧ (s.ctrl.cmd = 2 → s.status.rawvalid = true)
      ∧ (s.isDecode = true → s.segs.count.toNat ≤ s.params.maxSegs ∧ s.segs.fit = true ∧ s.segs.total ≤ 2 ^ 32 - 1)
      ∧ (s.isExpand = true → s.out.base.toNat + s.out.cap.toNat ≤ 2 ^ 32) ∧ s.geom.Legal := by
  unfold earlyChecks at h
  split_ifs at h with hcmd hsegs hcounts hfit htotal hout hgeom hformat
  rw [not_or, not_and, Bool.not_eq_false] at hcmd
  rw [not_and, Bool.not_eq_false] at hfit
  rw [not_and, Nat.not_lt] at hsegs htotal hout
  rw [not_or, not_or, Nat.not_lt] at hgeom
  rw [Bool.not_eq_false] at hformat
  exact ⟨hcmd.1, hcmd.2, fun hd => ⟨hsegs hd, hfit hd, htotal hd⟩, hout, hgeom.1, hgeom.2.1, hgeom.2.2, hformat⟩

/-- A CMD other than 0 decodes or expands (R331). -/
theorem isDecode_or_isExpand {s : State} (h : s.ctrl.cmd ≠ 0) : s.isDecode = true ∨ s.isExpand = true := by
  unfold State.isDecode State.isExpand
  generalize s.ctrl.cmd = c at h ⊢
  revert c
  decide

/-- CMD = EXPAND alone expands without decoding (R331). -/
theorem cmd_eq_expand {s : State} (h : s.ctrl.cmd ≠ 0) (hd : s.isDecode = false) :
    s.ctrl.cmd = 2 ∧ s.isExpand = true := by
  unfold State.isDecode at hd
  unfold State.isExpand
  generalize s.ctrl.cmd = c at h hd ⊢
  revert c
  decide

/-- The first block header of a command: the cursor at IN_SKIP, nothing produced (R166, R200). -/
theorem enterInflate_inv {s : State} (h : s.Running) (hd : s.isDecode = true) : (enterInflate s).Inv := by
  have hrun : (enterInflate s).Running := h
  have hengine : (enterInflate s).Engine := by
    refine ⟨hrun, hd, ⟨Nat.zero_le _, Nat.one_pos⟩, ?_, Nat.zero_le _⟩
    show 0 + (s.unreadFrom _ _).length ≤ s.segs.total
    rw [Nat.zero_add]
    exact unreadFrom_length_le s _ _
  exact hengine.inv rfl Phase.noConfusion Phase.noConfusion

/-- The checks R341 to R349 end in the first phase of the command, or in an error. -/
theorem startPhase_sound {s : State} (h : s.Raisable) (hb : s.isBusy = true) (herr : s.status.errCode = 0)
    (hraw : s.status.rawvalid = true → s.geom.rasterSize ≤ s.params.rawCapMax) :
    (startPhase s).Sound fun _ u => u.Inv := by
  unfold startPhase
  cases he : earlyChecks s with
  | some e => exact .raise h
  | none =>
    obtain ⟨hcmd, hvalid, hsegs, hout, hlegal⟩ := earlyChecks_none he
    have hkind := isDecode_or_isExpand hcmd
    dsimp only
    split
    · rename_i hd
      split
      · exact .raise h
      · rename_i hfits
        split
        · exact .raise h
        · rename_i hroom
          have hstarted : s.Started := by
            refine ⟨hlegal, Nat.not_lt.mp hfits, hkind, hsegs, fun hx => ⟨hout hx, ?_⟩⟩
            have hroom : ¬ (s.isExpand = true ∧ s.outTooSmall = true) := hroom
            simpa [hx, State.outTooSmall] using hroom
          have hrun : (latchRawSize s).Running := ⟨h, hb, herr, hstarted⟩
          exact .ok (enterInflate_inv hrun hd)
    · rename_i hd
      obtain ⟨hexpand, hx⟩ := cmd_eq_expand hcmd (by simpa using hd)
      split
      · exact .raise h
      · rename_i hroom
        have hstarted : s.Started :=
          ⟨hlegal, hraw (hvalid hexpand), hkind, hsegs, fun hx => ⟨hout hx, by simpa [State.outTooSmall] using hroom⟩⟩
        exact .ok (enterExpand_inv ⟨h, hb, herr, hstarted⟩ hx (hvalid hexpand))

/-- A START while not BUSY lands (R330). -/
theorem startCommand_lands {s : State} (cmd : BitVec 2) (inchk ie : Bool) (h : s.Inv) :
    Lands (startCommand cmd inchk ie s) fun _ => True := by
  unfold startCommand
  split
  · exact ⟨s, rfl, h, trivial⟩
  · obtain ⟨hparams, hcanon, ⟨-, -, hvalid, -⟩, -⟩ := h
    refine CoreResult.Sound.lands ((startPhase_sound ?_ ?_ ?_ ?_).mono fun _ _ hu => ⟨hu, trivial⟩) fun _ _ => trivial
    all_goals rw [beginCommand_eq]
    · exact ⟨hparams, hcanon⟩
    · rfl
    · intro hraw
      have hraw : s.status.rawvalid = true := by
        dsimp only at hraw
        split at hraw
        · exact absurd hraw Bool.false_ne_true
        · exact hraw
      exact (hvalid hraw).2.2

/-! ### The core's step -/

/-- The size checks end in RECON, or in an error (R229 to R231, R252). -/
theorem endChecks_sound {s : State} (h : s.Engine) : (endChecks s).Sound fun _ u => u.Inv ∧ u.phase = .recon := by
  unfold endChecks
  split
  · exact .raise h.raisable
  · split
    · exact .raise h.raisable
    · exact .ok ⟨enterRecon_inv h.1 h.2.1, enterRecon_phase h.1.2.2.2.1⟩

/-- Every phase of the core lands; from one inflate element to the next the cursor has moved on, by a bit at least where
a header or a symbol is read (R61, R62). -/
theorem coreStep_lands {s : State} (h : s.Inv) :
    Lands (coreStep s) fun u => s.phase.inflating = true → s.Onward (if s.phase = .infStored then 0 else 1) u := by
  obtain ⟨hparams, hcanon, ⟨hbusy, herr, hvalid, -⟩, -, hinf, hrecon, hexpand⟩ := id h
  unfold coreStep
  cases hp : s.phase with
  | idle => exact ⟨s, rfl, h, fun hi => absurd hi Bool.false_ne_true⟩
  | startCheck =>
    have hb : s.isBusy = true := hbusy.mpr (by simp [hp])
    have herr : s.status.errCode = 0 := errCode_of_busy herr hb
    refine CoreResult.Sound.lands ((startPhase_sound ⟨hparams, hcanon⟩ hb herr fun hr => (hvalid hr).2.2).mono
      fun _ _ hu => ⟨hu, ?_⟩) fun _ _ => ?_
    all_goals exact fun hi => absurd hi Bool.false_ne_true
  | infHdr =>
    have hengine := h.engine (by rw [hp]; rfl)
    exact (infHdr_lands hengine).mono fun _ hu _ => hu
  | infStored =>
    have hengine := h.engine (by rw [hp]; rfl)
    exact ((storedBody_sound hengine).lands (onward_ended _ 0)).mono fun _ hu _ => hu
  | infDynHdr =>
    have hengine := h.engine (by rw [hp]; rfl)
    obtain ⟨-, -, -, -, hlen, -⟩ := hinf (by rw [hp]; rfl)
    exact (infDynHdr_lands hengine hp (hlen hp)).mono fun _ hu _ => hu
  | infSym =>
    have hengine := h.engine (by rw [hp]; rfl)
    obtain ⟨-, -, -, -, -, hsym⟩ := hinf (by rw [hp]; rfl)
    dsimp only
    unfold fetchSymbol
    split
    · exact (fetchDist_lands hengine hp (hsym hp)).mono fun _ hu _ => hu
    · exact (fetchLitLen_lands hengine hp (hsym hp)).mono fun _ hu _ => hu
  | infEnd =>
    have hengine := h.engine (by rw [hp]; rfl)
    refine CoreResult.Sound.lands ((endChecks_sound hengine).mono fun _ u ⟨hinv, hphase⟩ => ⟨hinv, fun _ hi => ?_⟩)
      fun u hu _ => onward_ended s _ u hu
    rw [hphase] at hi
    exact absurd hi Bool.false_ne_true
  | recon =>
    have hrun := h.running (by simp [hp]) (by simp [hp]) (by simp [hp])
    exact (recon_lands hrun hp (hrecon hp)).mono fun _ _ hi => absurd hi Bool.false_ne_true
  | expand =>
    have hrun := h.running (by simp [hp]) (by simp [hp]) (by simp [hp])
    exact (expand_lands hrun hp (hexpand hp)).mono fun _ _ hi => absurd hi Bool.false_ne_true
  | ended => exact ⟨s, rfl, h, fun hi => absurd hi Bool.false_ne_true⟩

end Sys2Proof.Machine
end

section
/-! PROOFS of the family 10_state.md, part 8: what a host write can do, and the three statements that rest on the
invariant (O57, O58, O21). -/

namespace Sys2Proof.Machine

/-! ### Command words (R34, R111, R112) -/

/-- A CTRL word is a START with its CMD, a CLEAR, or no command word (R111, R112). -/
theorem decodeCmd_word (w : Word) :
    decode .cmd w.toNat =
      if w.getLsbD 0 then .ok (startElement (w.extractLsb' 1 2) (w.getLsbD 3) (w.getLsbD 4) (w.getLsbD 5))
      else if w.getLsbD 5 then .ok (.ctrlClear (w.extractLsb' 1 2) (w.getLsbD 3) (w.getLsbD 4))
      else .error .plainCtrlWrite := by
  have hcmd : w.extractLsb' 1 2 = BitVec.ofNat 2 (w.toNat / 2 % 4) := by
    refine BitVec.eq_of_toNat_eq ?_
    rw [BitVec.extractLsb'_toNat, BitVec.toNat_ofNat, Nat.shiftRight_eq_div_pow]
    omega
  show decodeCmd w.toNat = _
  unfold decodeCmd
  rw [if_neg (Nat.not_le.mpr w.isLt), hcmd]
  change (if w.getLsbD 0 = true then _ else _) = _
  have hlt : w.toNat / 2 % 4 < 4 := Nat.mod_lt _ (by omega)
  generalize w.toNat / 2 % 4 = c at hlt ⊢
  obtain rfl | rfl | rfl | rfl : c = 0 ∨ c = 1 ∨ c = 2 ∨ c = 3 := by omega
  all_goals rfl

/-- Every START element runs the one START with its CMD (R330). -/
theorem exec_startElement (cmd : BitVec 2) (inchk ie clear : Bool) (s : State) :
    exec (startElement cmd inchk ie clear) s = startCommand cmd inchk ie s := by
  obtain rfl | rfl | rfl | rfl : cmd = 0 ∨ cmd = 1 ∨ cmd = 2 ∨ cmd = 3 := by revert cmd; decide
  all_goals rfl

/-- Everything a legal register write can do: a START, a CLEAR, or a plain write (R112, R340). -/
theorem regWriteStep_cases {s : State} {addr : Word} {bits off : Nat} (w : Word)
    (h : regOffset s.params addr bits = some off) :
    (off = 0 ∧ w.getLsbD 0 = true ∧
        regWriteStep addr bits w s = startCommand (w.extractLsb' 1 2) (w.getLsbD 3) (w.getLsbD 4) s)
      ∨ (off = 0 ∧ w.getLsbD 0 = false ∧ w.getLsbD 5 = true ∧
        regWriteStep addr bits w s = execCtrlClear (w.extractLsb' 1 2) (w.getLsbD 3) (w.getLsbD 4) s)
      ∨ ((off = 0 → w.getLsbD 0 = false ∧ w.getLsbD 5 = false) ∧
        regWriteStep addr bits w s = .next (hostPlainWrite off w s)) := by
  unfold regWriteStep
  rw [h]
  dsimp only
  by_cases h0 : off = 0
  · rw [if_pos h0, decodeCmd_word]
    cases hstart : w.getLsbD 0 with
    | true => exact .inl ⟨h0, rfl, exec_startElement ..⟩
    | false =>
      cases hclear : w.getLsbD 5 with
      | true => exact .inr (.inl ⟨h0, rfl, rfl, rfl⟩)
      | false => exact .inr (.inr ⟨fun _ => ⟨rfl, rfl⟩, by rw [h0]; rfl⟩)
  · rw [if_neg h0]
    exact .inr (.inr ⟨fun h => absurd h h0, rfl⟩)

/-! ### Plain writes (R340) -/

/-- What a plain write of `w` at `off` leaves of STATUS, the geometry and the lists of cells: RAWVALID falls with the
geometry (R52), and one entry of one list changes at most (R44 to R46). -/
def State.PlainWrite (off : Nat) (w : Word) (s t : State) : Prop :=
  (((off = 0x008 ∨ off = 0x00C ∨ off = 0x010) ∧ t.status = s.status.setRawValid false)
      ∨ (t.status = s.status ∧ t.geom = s.geom))
    ∧ (t.segs.base = s.segs.base ∨ ∃ i < s.params.maxSegs, t.segs.base = setEntry i w s.segs.base)
    ∧ (t.segs.len = s.segs.len ∨ ∃ i < s.params.maxSegs, t.segs.len = setEntry i w s.segs.len)
    ∧ (t.color.pal = s.color.pal ∨ ∃ i < 256, t.color.pal = insertCell i (w.setWidth 24) s.color.pal)
    ∧ (t.color.trns = s.color.trns ∨ ∃ i < 256, t.color.trns = insertCell i (w.setWidth 8) s.color.trns)

theorem writeReg_plainWrite (off : Nat) (w : Word) (s : State) : s.PlainWrite off w (writeReg off w s) := by
  unfold writeReg
  repeat' refine iteInduction (motive := s.PlainWrite off w) (fun _ => ?_) (fun _ => ?_)
  any_goals exact ⟨.inr ⟨rfl, rfl⟩, .inl rfl, .inl rfl, .inl rfl, .inl rfl⟩
  · exact ⟨.inl ⟨by omega, rfl⟩, .inl rfl, .inl rfl, .inl rfl, .inl rfl⟩
  · exact ⟨.inl ⟨by omega, rfl⟩, .inl rfl, .inl rfl, .inl rfl, .inl rfl⟩
  · exact ⟨.inl ⟨by omega, rfl⟩, .inl rfl, .inl rfl, .inl rfl, .inl rfl⟩
  · exact ⟨.inr ⟨rfl, rfl⟩, .inr ⟨_, by omega, rfl⟩, .inl rfl, .inl rfl, .inl rfl⟩
  · exact ⟨.inr ⟨rfl, rfl⟩, .inl rfl, .inr ⟨_, by omega, rfl⟩, .inl rfl, .inl rfl⟩
  · exact ⟨.inr ⟨rfl, rfl⟩, .inl rfl, .inl rfl, .inr ⟨_, by omega, rfl⟩, .inl rfl⟩
  · exact ⟨.inr ⟨rfl, rfl⟩, .inl rfl, .inl rfl, .inl rfl, .inr ⟨_, by omega, rfl⟩⟩

/-- Listing an entry of an existing slot keeps the canonical form. -/
theorem insertCell_canonical {α : Type} {l : List (Nat × α)} {P : Nat × α → Prop} {i : Nat} {v : α}
    (h : risingFrom 0 l = true ∧ ∀ c ∈ l, P c) (hi : P (i, v)) :
    risingFrom 0 (insertCell i v l) = true ∧ ∀ c ∈ insertCell i v l, P c :=
  ⟨risingFrom_insertCell _ _ _ _ h.1 (Nat.zero_le _), fun c hc =>
    (mem_insertCell hc).elim (fun he => he ▸ hi) (h.2 c)⟩

/-- Storing a word in an existing slot keeps the canonical form: a 0 is not listed. -/
theorem setEntry_canonical {l : List (Nat × Word)} {i n : Nat} {v : Word}
    (h : risingFrom 0 l = true ∧ ∀ c ∈ l, c.1 < n ∧ c.2 ≠ 0) (hi : i < n) :
    risingFrom 0 (setEntry i v l) = true ∧ ∀ c ∈ setEntry i v l, c.1 < n ∧ c.2 ≠ 0 := by
  unfold setEntry
  split
  · exact ⟨risingFrom_eraseCell _ _ _ h.1, fun c hc => h.2 c (mem_eraseCell hc)⟩
  · rename_i hv
    exact insertCell_canonical (P := fun c => c.1 < n ∧ c.2 ≠ 0) h ⟨hi, hv⟩

/-- A plain write keeps every list of cells in its canonical form (R340). -/
theorem writeReg_canonical {s : State} (off : Nat) (w : Word) (h : s.Canonical) : (writeReg off w s).Canonical := by
  obtain ⟨hmem, hraw, hpal, htrns, hbase, hlen, hinflate⟩ := h
  obtain ⟨-, hb, hl, hp, ht⟩ := writeReg_plainWrite off w s
  obtain ⟨c, st, g, se, co, o, he⟩ := writeReg_regsOnly off w s
  rw [he] at hb hl hp ht ⊢
  refine ⟨hmem, hraw, ?pal, ?trns, ?base, ?len, hinflate⟩
  case pal =>
    rcases hp with he | ⟨i, hi, he⟩ <;> rw [he]
    · exact hpal
    · exact insertCell_canonical (P := fun c => c.1 < 256) hpal hi
  case trns =>
    rcases ht with he | ⟨i, hi, he⟩ <;> rw [he]
    · exact htrns
    · exact insertCell_canonical (P := fun c => c.1 < 256) htrns hi
  case base =>
    rcases hb with he | ⟨i, hi, he⟩ <;> rw [he]
    · exact hbase
    · exact setEntry_canonical hbase hi
  case len =>
    rcases hl with he | ⟨i, hi, he⟩ <;> rw [he]
    · exact hlen
    · exact setEntry_canonical hlen hi

/-! ### The invariant over the host's moves -/

theorem State.Inv.idle_or_ended {s : State} (h : s.Inv) (hb : s.isBusy = false) :
    s.phase = .idle ∨ s.phase = .ended := by
  obtain ⟨-, -, ⟨hbusy, -⟩, -⟩ := h
  by_contra hne
  rw [not_or] at hne
  exact Bool.false_ne_true (hb.symm.trans (hbusy.mpr hne))

/-- A plain write while not BUSY keeps the invariant: a valid RAW is given up with its geometry (R52, R340). -/
theorem writeReg_inv {s : State} (off : Nat) (w : Word) (h : s.Inv) (hb : s.isBusy = false) :
    (writeReg off w s).Inv := by
  have hphase := h.idle_or_ended hb
  obtain ⟨hparams, hcanon, ⟨hbusy, herr, hvalid, hrace⟩, -⟩ := h
  have hcanon' := writeReg_canonical off w hcanon
  obtain ⟨hstatus, -⟩ := writeReg_plainWrite off w s
  obtain ⟨c, st, g, se, co, o, he⟩ := writeReg_regsOnly off w s
  rw [he] at hcanon' hstatus ⊢
  refine inv_of_phase_idle_or_ended hparams hcanon' ?_ hphase
  rcases hstatus with ⟨-, hst⟩ | ⟨hst, hg⟩
  · obtain rfl : st = s.status.setRawValid false := hst
    exact ⟨hbusy, herr, fun hr => absurd hr Bool.false_ne_true, hrace⟩
  · obtain rfl : st = s.status := hst
    obtain rfl : g = s.geom := hg
    exact ⟨hbusy, herr, hvalid, hrace⟩

/-- CLEAR while not BUSY keeps the invariant: IDLE has no error code (R35, R339). -/
theorem clearCommand_inv {s : State} (cmd : BitVec 2) (inchk ie : Bool) (h : s.Inv) (hb : s.isBusy = false) :
    (clearCommand cmd inchk ie s).Inv := by
  have hphase := h.idle_or_ended hb
  obtain ⟨hparams, hcanon, ⟨hbusy, herr, hvalid, hrace⟩, -⟩ := h
  have hstate : s.status.cleared.state = .idle := by
    rw [cleared_state, if_neg fun hs => by rw [State.isBusy, hs] at hb; exact absurd hb (by decide)]
  have hcode : s.status.cleared.errCode = 0 := by
    unfold StatusReg.cleared
    split
    · rfl
    · rename_i hne
      by_contra hcode
      exact hne (.inr (herr.mp hcode))
  have hidle : (clearCommand cmd inchk ie s).isBusy = false := by
    rw [State.isBusy, clearCommand_status, hstate]; rfl
  refine inv_of_phase_idle_or_ended hparams hcanon ⟨?_, ?_, fun hr => ?_, fun _ => hrace hb⟩ hphase
  · exact iff_of_false (hidle ▸ Bool.false_ne_true) fun hp => hphase.elim hp.1 hp.2
  · exact iff_of_false (fun hne => hne hcode) fun he => by
      rw [clearCommand_status, hstate] at he; exact CoreState.noConfusion he
  · rw [clearCommand_status, cleared_rawvalid] at hr
    exact ⟨by rw [clearCommand_status, hstate]; decide, (hvalid hr).2⟩

/-- HMEM in canonical form, marks only while BUSY, the draws and the host's side: the invariant asks no more of them. -/
theorem State.Inv.hostSide {s : State} (h : s.Inv) (m : Memory) (r : List (Nat × Nat)) (d : Nat) (b : BusSide)
    (hm : m.wf = true) (hr : s.isBusy = false → r = []) :
    State.Inv { s with hmem := m, race := r, draws := d, bus := b } := by
  obtain ⟨hparams, ⟨-, hcanon⟩, ⟨hbusy, herr, hvalid, -⟩, hstarted, hinf, hrecon, hexpand⟩ := h
  refine ⟨hparams, ⟨hm, hcanon⟩, ⟨hbusy, herr, hvalid, hr⟩, hstarted, fun hp => ?_, hrecon, hexpand⟩
  obtain ⟨hd, htidy, hcount, hrest⟩ := hinf hp
  refine ⟨hd, htidy, ?_, hrest⟩
  have hlen : (State.unread { s with hmem := m, race := r, draws := d, bus := b }).length = s.unread.length :=
    unread_length_congr rfl rfl
  rw [hlen]
  exact hcount

theorem hostMemWrite_inv {s : State} (addr : Word) (b : Byte) (h : s.Inv) : (hostMemWrite addr.toNat b s).Inv := by
  have hm := Memory.wf_write s.hmem addr.toNat b h.2.1.1 addr.isLt
  unfold hostMemWrite
  cases hb : s.isBusy with
  | true => exact h.hostSide _ _ _ s.bus hm fun hf => absurd (hb.symm.trans hf) (by decide)
  | false => exact h.hostSide _ _ s.draws s.bus hm fun _ => h.2.2.1.2.2.2 hb

theorem hostMemRead_inv {s : State} (a : Nat) (h : s.Inv) : (hostMemRead a s).Inv := by
  unfold hostMemRead
  split <;> exact h

theorem hostRegRead_inv {s : State} (off : Nat) (h : s.Inv) : (hostRegRead off s).Inv := by
  unfold hostRegRead
  split <;> exact h

/-- The reset input gives the invariant anew, whatever it interrupts (R450, R451). -/
theorem resetEvent_inv {s : State} (h : s.Inv) : (resetEvent s).Inv := by
  have hreset := resetSatisfiesTheInvariant s.params h.1
  obtain ⟨hparams, ⟨-, hcanon⟩, hstatus, hrest⟩ := hreset
  exact inv_of_phase_idle_or_ended hparams ⟨resetMem_wf s h.2.1.1, hcanon⟩ hstatus (.inl rfl)

/-- A legal register write lands (R32, R51, R112, R340). -/
theorem regWriteStep_lands {s : State} {addr : Word} {bits off : Nat} (w : Word) (h : s.Inv)
    (hoff : regOffset s.params addr bits = some off) : Lands (regWriteStep addr bits w s) fun _ => True := by
  rcases regWriteStep_cases w hoff with ⟨-, -, he⟩ | ⟨-, -, -, he⟩ | ⟨-, he⟩ <;> rw [he]
  · exact startCommand_lands _ _ _ h
  · unfold execCtrlClear
    split
    · exact ⟨s, rfl, h, trivial⟩
    · rename_i hb
      exact ⟨_, rfl, clearCommand_inv _ _ _ h (by simpa using hb), trivial⟩
  · refine ⟨_, rfl, ?_, trivial⟩
    unfold hostPlainWrite
    split
    · exact h
    · rename_i hb
      exact writeReg_inv off w h (by simpa using hb)

/-- Every step from a state with the invariant lands, or is an access without meaning (R32). -/
theorem step_lands {s : State} (h : s.Inv) :
    Lands (step s) (fun _ => True) ∨ step s = .refused .illegalRegisterAccess := by
  have hq (q : List HostMove) : (s.withQueue q).Inv := h
  unfold step
  split
  · exact .inl ((coreStep_lands h).mono fun _ _ => trivial)
  · exact .inl ((coreStep_lands (hq _)).mono fun _ _ => trivial)
  · split
    · exact .inl ((coreStep_lands h).mono fun _ _ => trivial)
    · rename_i q _ _
      exact .inl ⟨_, rfl, hq q, trivial⟩
  · rename_i addr bits w q _
    cases hoff : regOffset s.params addr bits with
    | some off => exact .inl (regWriteStep_lands w (hq q) hoff)
    | none => exact .inr (by unfold regWriteStep; rw [withQueue_params, hoff])
  · rename_i addr bits q _
    unfold regReadStep
    rw [withQueue_params]
    cases hoff : regOffset s.params addr bits with
    | some off => exact .inl ⟨_, rfl, hostRegRead_inv off (hq q), trivial⟩
    | none => exact .inr rfl
  · exact .inl ⟨_, rfl, hostMemWrite_inv _ _ (hq _), trivial⟩
  · exact .inl ⟨_, rfl, hostMemRead_inv _ (hq _), trivial⟩
  · exact .inl ⟨_, rfl, resetEvent_inv (hq _), trivial⟩

/-! ### The statements -/

/-- Settles O57: whatever phase the core is in and whatever the host does, the step lands in the invariant. -/
theorem invariantIsKeptByEveryStep : Obligations.InvariantIsKeptByEveryStep := by
  intro s t h hstep
  rcases step_lands h with ⟨u, hu, hinv, -⟩ | hrefused
  · obtain rfl : t = u := by rw [hstep] at hu; exact Host.Outcome.next.inj hu
    exact hinv
  · rw [hstep] at hrefused
    cases hrefused

/-- Settles O58: a step that does not land is an access of R32. -/
theorem noStepFaults : Obligations.NoStepFaults := by
  intro s h
  rcases step_lands h with ⟨u, hu, -⟩ | hrefused
  · exact .inl ⟨u, hu⟩
  · exact .inr hrefused

/-- When the core moves next, the step is the core's, at the state without the move. -/
theorem step_of_coreMoves {s : State} (h : s.CoreMoves) : ∃ q, step s = coreStep (s.withQueue q) := by
  unfold step
  rcases h with hq | ⟨q, hq⟩ <;> rw [hq]
  · exact ⟨s.bus.queue, rfl⟩
  · exact ⟨q, rfl⟩

/-- Settles O21: the core's step from an inflate phase to an inflate phase has passed bits of the stream. -/
theorem cursorMovesOnlyForward : Obligations.CursorMovesOnlyForward := by
  intro s t h hmoves hstep hp hp'
  obtain ⟨q, hq⟩ := step_of_coreMoves hmoves
  have hinv : (s.withQueue q).Inv := h
  obtain ⟨u, hu, -, honward⟩ := coreStep_lands hinv
  obtain rfl : t = u := by rw [← hq, hstep] at hu; exact Host.Outcome.next.inj hu
  obtain ⟨k, hk, hlen, hbits, hcons⟩ := honward hp hp'
  refine ⟨k, hbits, fun hstored => ⟨?_, hlen⟩, hcons⟩
  rwa [if_neg (by exact hstored)] at hk

end Sys2Proof.Machine
end

section
/-! PROOFS of the family 10_state.md, part 9: what a step of the core can do to STATUS and bfinal, in every state
(R63). -/

namespace Sys2Proof.Machine

/-! ### The datapath keeps STATUS and bfinal -/

/-- STATUS is `st` and bfinal is `b`. -/
def State.HasFlags (st : StatusReg) (b : Bool) (t : State) : Prop := t.status = st ∧ t.inflate.bfinal = b

/-- The state of the result, if it has one, meets `P`. -/
inductive CoreResult.Holds {α : Type} (P : State → Prop) : CoreResult α → Prop
  | ok {v : α} {t : State} (h : P t) : Holds P (.ok v t)
  | raise {e : Err} {t : State} (h : P t) : Holds P (.raise e t)
  | fault {f : Fault} : Holds P (.fault f)

theorem CoreResult.Holds.bind {α β : Type} {P : State → Prop} {r : CoreResult α} {f : α → State → CoreResult β}
    (hr : r.Holds P) (hf : ∀ v t, P t → (f v t).Holds P) : (r.bind f).Holds P := by
  cases hr with
  | ok h => exact hf _ _ h
  | raise h => exact .raise h
  | fault => exact .fault

theorem CoreResult.Holds.mono {α : Type} {P Q : State → Prop} {r : CoreResult α} (hr : r.Holds P)
    (h : ∀ t, P t → Q t) : r.Holds Q := by
  cases hr with
  | ok hp => exact .ok (h _ hp)
  | raise hp => exact .raise (h _ hp)
  | fault => exact .fault

/-- A next state of a result meets `P`, or is an error raised in a state that does. -/
theorem CoreResult.Holds.outcome {α : Type} {P : State → Prop} {r : CoreResult α} {t : State} (hr : r.Holds P)
    (h : r.outcome = .next t) : P t ∨ ∃ e u, P u ∧ t = raiseError e u := by
  cases hr with
  | ok hp => exact .inl (Host.Outcome.next.inj h ▸ hp)
  | raise hp => exact .inr ⟨_, _, hp, (Host.Outcome.next.inj h).symm⟩
  | fault => cases h

section
variable {st : StatusReg} {b : Bool}

theorem CoreResult.OnlyCursor.hasFlags {α : Type} {s : State} {r : CoreResult α} (h : r.OnlyCursor s)
    (hs : s.HasFlags st b) : r.Holds (State.HasFlags st b) := by
  cases r with
  | ok v t => rw [show t = { s with cursor := t.cursor } from h]; exact .ok hs
  | raise e t => rw [show t = { s with cursor := t.cursor } from h.2]; exact .raise hs
  | fault f => exact .fault

theorem CoreResult.OnlyOutput.hasFlags {α : Type} {s : State} {r : CoreResult α} (h : r.OnlyOutput s)
    (hs : s.HasFlags st b) : r.Holds (State.HasFlags st b) := by
  cases r with
  | ok v t => rw [OnlyOutput.of_ok h rfl]; exact .ok hs
  | raise e t => rw [h.2]; exact .raise hs
  | fault f => exact .fault

theorem takeBits_hasFlags (n : Nat) {s : State} (hs : s.HasFlags st b) : (takeBits n s).Holds (State.HasFlags st b) :=
  CoreResult.OnlyCursor.hasFlags (takeBits_onlyCursor n s) hs

theorem decodeSym_hasFlags (tab : HuffTable) {s : State} (hs : s.HasFlags st b) :
    (decodeSym tab s).Holds (State.HasFlags st b) :=
  CoreResult.OnlyCursor.hasFlags (decodeSym_onlyCursor tab s) hs

theorem storedBody_hasFlags {s : State} (hs : s.HasFlags st b) : (storedBody s).Holds (State.HasFlags st b) :=
  (CoreResult.OnlyOutput.hasFlags (copyStored_onlyOutput _ s) hs).bind fun _ _ ht => .ok ht

theorem storedBlock_hasFlags {s : State} (hs : s.HasFlags st b) : (storedBlock s).Holds (State.HasFlags st b) := by
  unfold storedBlock
  refine (takeBits_hasFlags 16 (s := align s) hs).bind fun n t ht => ?_
  have ht : State.HasFlags st b { t with inflate := { t.inflate with storedLen := BitVec.ofNat 16 n } } := ht
  refine (takeBits_hasFlags 16 ht).bind fun c u hu => ?_
  have hbody : State.HasFlags st b { u with phase := .infStored } := hu
  split
  · exact .raise hu
  · exact storedBody_hasFlags hbody

theorem readClLens_hasFlags (order : List Nat) {s : State} (hs : s.HasFlags st b) :
    (readClLens order s).Holds (State.HasFlags st b) := by
  induction order generalizing s with
  | nil => exact .ok hs
  | cons j js ih => exact (takeBits_hasFlags 3 hs).bind fun v t ht => ih ht

theorem readCodeLengthCode_hasFlags {s : State} (hs : s.HasFlags st b) :
    (readCodeLengthCode s).Holds (State.HasFlags st b) := by
  unfold readCodeLengthCode
  have hzero : State.HasFlags st b { s with inflate := { s.inflate with clLen := List.replicate 19 0 } } := hs
  refine (readClLens_hasFlags _ hzero).bind fun _ u hu => ?_
  split
  · exact .raise hu
  · exact .ok hu

theorem dynamicBlock_hasFlags {s : State} (hs : s.HasFlags st b) : (dynamicBlock s).Holds (State.HasFlags st b) := by
  unfold dynamicBlock
  refine (takeBits_hasFlags 5 hs).bind fun a t ht => ?_
  have ht : State.HasFlags st b { t with inflate := { t.inflate with hlit := a + 257 } } := ht
  refine (takeBits_hasFlags 5 ht).bind fun d u hu => ?_
  have hu : State.HasFlags st b { u with inflate := { u.inflate with hdist := d + 1 } } := hu
  refine (takeBits_hasFlags 4 hu).bind fun c v hv => ?_
  have hv : State.HasFlags st b { v with inflate := { v.inflate with hclen := c + 4 } } := hv
  dsimp only
  split
  · exact .raise hv
  · exact readCodeLengthCode_hasFlags hv

theorem lengthLoop_hasFlags {s : State} (hs : s.HasFlags st b) : (lengthLoop s).Holds (State.HasFlags st b) := by
  rcases lengthLoop_cases s with ⟨-, he⟩ | ⟨-, he⟩ <;> rw [he]
  · exact .ok hs
  · unfold buildLitDist
    split
    · exact .raise hs
    · dsimp only
      split
      · exact .raise hs
      · exact .ok hs

theorem putLengths_hasFlags (p r : Nat) {s : State} (hs : s.HasFlags st b) :
    (putLengths p r s).Holds (State.HasFlags st b) := by
  rcases putLengths_cases p r s with ⟨-, he⟩ | ⟨-, he⟩ <;> rw [he]
  · exact .raise hs
  · exact lengthLoop_hasFlags hs

end

/-! ### The elements of each carrier -/

/-- What a carrier's decoder gives is an element of that carrier (R110). -/
theorem decode_format {f : Format} {w : Nat} {i : Instr} (h : decode f w = .ok i) : i.format = f := by
  cases f
  all_goals
    simp only [decode, decodeCmd, decodeHeader, decodeCodeLength, decodeLitLen, decodeDist, decodeFilter,
      decodePixel] at h
    repeat' split at h
    all_goals cases h <;> rfl

/-- From `s`, a datapath step has left STATUS and given bfinal the value `b`, or raised an error where it had. -/
def State.DatapathMove (s : State) (b : Bool) (t : State) : Prop :=
  State.HasFlags s.status b t ∨ ∃ e u, State.HasFlags s.status b u ∧ t = raiseError e u

/-- A block header's elements keep STATUS and latch its BFINAL (R201). -/
theorem exec_bhdr_flags {s t : State} {i : Instr} (hf : i.format = .bhdr) (h : exec i s = .next t) :
    ∃ b, s.DatapathMove b t := by
  have hlatch (f : Bool) (ty : BitVec 2) : State.HasFlags s.status f (latchHeader f ty s) := ⟨rfl, rfl⟩
  cases i with
  | blkStored f => exact ⟨f, (storedBlock_hasFlags (hlatch f 0)).outcome h⟩
  | blkFixed f => exact ⟨f, .inl (Host.Outcome.next.inj h ▸ hlatch f 1)⟩
  | blkDynamic f => exact ⟨f, (dynamicBlock_hasFlags (hlatch f 2)).outcome h⟩
  | blkInvalid f => exact ⟨f, .inr ⟨_, _, hlatch f 3, (Host.Outcome.next.inj h).symm⟩⟩
  | _ => cases hf

/-- The code-length symbols keep STATUS and bfinal (R210 to R215). -/
theorem exec_cl_flags {s t : State} {i : Instr} (hf : i.format = .cl) (h : exec i s = .next t) :
    s.DatapathMove s.inflate.bfinal t := by
  have hs : State.HasFlags s.status s.inflate.bfinal s := ⟨rfl, rfl⟩
  have hrepeat (n base : Nat) (p : State → Nat) :
      ((takeBits n s).bind fun x u => putLengths (p u) (base + x) u).Holds
        (State.HasFlags s.status s.inflate.bfinal) :=
    (takeBits_hasFlags n hs).bind fun _ _ hu => putLengths_hasFlags _ _ hu
  cases i with
  | clLen v =>
    have hput : State.HasFlags s.status s.inflate.bfinal { s with inflate := { s.inflate with
        len := s.inflate.len.set s.inflate.lenIdx v, lenIdx := s.inflate.lenIdx + 1 } } := hs
    exact (lengthLoop_hasFlags hput).outcome h
  | clRepPrev =>
    refine CoreResult.Holds.outcome ?_ h
    split
    · exact .raise hs
    · exact hrepeat 2 3 fun u => u.inflate.len.getD (u.inflate.lenIdx - 1) 0
  | clRepZero3 => exact (hrepeat 3 3 fun _ => 0).outcome h
  | clRepZero11 => exact (hrepeat 7 11 fun _ => 0).outcome h
  | _ => cases hf

/-- The literal/length symbols keep STATUS and bfinal (R216 to R220, R225). -/
theorem exec_litlen_flags {s t : State} {i : Instr} (hf : i.format = .litlen) (h : exec i s = .next t) :
    s.DatapathMove s.inflate.bfinal t := by
  have hs : State.HasFlags s.status s.inflate.bfinal s := ⟨rfl, rfl⟩
  cases i with
  | lit v => exact (CoreResult.OnlyOutput.hasFlags (emit_onlyOutput v s) hs).outcome h
  | eob => exact .inl (Host.Outcome.next.inj h ▸ hs)
  | len sym =>
    simp only [exec, execLen] at h
    generalize sym - 257 = k at h
    refine CoreResult.Holds.outcome ?_ h
    exact (takeBits_hasFlags _ hs).bind fun _ _ hu => .ok hu
  | lenInvalid sym => exact .inr ⟨_, s, hs, (Host.Outcome.next.inj h).symm⟩
  | _ => cases hf

/-- The distance symbols keep STATUS and bfinal (R219 to R227). -/
theorem exec_dist_flags {s t : State} {i : Instr} (hf : i.format = .dist) (h : exec i s = .next t) :
    s.DatapathMove s.inflate.bfinal t := by
  have hs : State.HasFlags s.status s.inflate.bfinal s := ⟨rfl, rfl⟩
  cases i with
  | dist sym =>
    refine ((takeBits_hasFlags _ hs).bind fun x u hu => ?_).outcome h
    have hmatch : State.HasFlags s.status s.inflate.bfinal { u with inflate := { u.inflate with
        matchDist := dbase sym + x, needDist := false } } := hu
    dsimp only
    split
    · exact .raise hmatch
    · exact CoreResult.OnlyOutput.hasFlags (copyMatch_onlyOutput ..) hmatch
  | distInvalid sym =>
    exact ((CoreResult.OnlyCursor.hasFlags (readOn_onlyCursor 10 s) hs).bind fun _ _ hu => .raise hu).outcome h
  | _ => cases hf

/-! ### The phases -/

/-- What a step of the core can do to STATUS: keep it, raise an error, finish the command, or, at the end of RECON, set
RAWVALID and go on to EXPAND or to the end (R63, R331, R336, R338, R410). -/
inductive State.FlagMove (s t : State) : Prop
  | kept (h : t.status = s.status)
  | raised (e : Err) (h : t.status = ⟨.error, false, e.code⟩) (hp : t.phase = .ended)
  | finished (h : t.status = s.status.finished) (hp : t.phase = .ended)
  | valid (hs : s.phase = .recon ∨ s.phase = .infEnd) (h : t.status = s.status.setRawValid true)
      (hp : t.phase = .expand)
  | validFinished (hs : s.phase = .recon ∨ s.phase = .infEnd) (h : t.status = (s.status.setRawValid true).finished)
      (hp : t.phase = .ended)

theorem State.DatapathMove.flagMove {s t : State} {b : Bool} (h : s.DatapathMove b t) :
    s.FlagMove t ∧ t.inflate.bfinal = b := by
  rcases h with ⟨hst, hb⟩ | ⟨e, u, ⟨-, hb⟩, rfl⟩
  · exact ⟨.kept hst, hb⟩
  · exact ⟨.raised e rfl rfl, hb⟩

/-- What holds of the state after a fetch goes over to the next state, if every element of the carrier and every error
carries it over. -/
theorem runElement_next {P R : State → Prop} {t : State} {r : CoreResult (Except DecodeError Instr)} {f : Format}
    (h : runElement r = .next t) (hr : r.Holds P) (hf : ∀ i u, r = .ok (.ok i) u → i.format = f)
    (hexec : ∀ {u v : State} {i : Instr}, P u → i.format = f → exec i u = .next v → R v)
    (hraise : ∀ e u, P u → R (raiseError e u)) : R t := by
  cases hr with
  | @ok x u hu =>
    cases x with
    | ok i => exact hexec hu (hf i u rfl) h
    | error e => cases h
  | raise hu => exact Host.Outcome.next.inj h ▸ hraise _ _ hu
  | fault => cases h

/-- A fetch that keeps STATUS and bfinal, then an element of its carrier that keeps them. -/
theorem runElement_flags {s t : State} {r : CoreResult (Except DecodeError Instr)} {f : Format}
    (hr : r.Holds (State.HasFlags s.status s.inflate.bfinal)) (hf : ∀ i u, r = .ok (.ok i) u → i.format = f)
    (hexec : ∀ {u v : State} {i : Instr}, i.format = f → exec i u = .next v → u.DatapathMove u.inflate.bfinal v)
    (h : runElement r = .next t) : s.DatapathMove s.inflate.bfinal t := by
  refine runElement_next h hr hf (fun hu hi he => ?_) fun e u hu => .inr ⟨e, u, hu, rfl⟩
  obtain ⟨hst, hb⟩ := hu
  have hmove := hexec hi he
  rwa [State.DatapathMove, hst, hb] at hmove

/-- A fetch that ends in a decode answers elements of the carrier only. -/
theorem bind_decode_format {α : Type} {r : CoreResult α} {f : Format} {word : α → Nat} {i : Instr} {u : State}
    (h : (r.bind fun v t => .ok (decode f (word v)) t) = .ok (.ok i) u) : i.format = f := by
  cases r with
  | ok v t =>
    injection h with hi
    exact decode_format hi
  | raise e t => cases h
  | fault g => cases h

/-- INF_DYN_HDR keeps STATUS and bfinal, or raises (R210). -/
theorem infDynHdr_flags {s t : State} (h : runElement (fetchCodeLength s) = .next t) :
    s.DatapathMove s.inflate.bfinal t := by
  have hs : State.HasFlags s.status s.inflate.bfinal s := ⟨rfl, rfl⟩
  exact runElement_flags ((decodeSym_hasFlags _ hs).bind fun _ _ hu => .ok hu) (fun _ _ hi => bind_decode_format hi)
    exec_cl_flags h

/-- INF_SYM keeps STATUS and bfinal, or raises (R216, R219). -/
theorem infSym_flags {s t : State} (h : runElement (fetchSymbol s) = .next t) :
    s.DatapathMove s.inflate.bfinal t := by
  have hs : State.HasFlags s.status s.inflate.bfinal s := ⟨rfl, rfl⟩
  unfold fetchSymbol fetchDist at h
  split at h
  · split at h
    · refine runElement_flags (f := .dist) ?_ ?_ exec_dist_flags h
      · refine (CoreResult.OnlyCursor.hasFlags (searchSym_onlyCursor ..) hs).bind fun r u hu => ?_
        cases r <;> exact .ok hu
      · intro i u hi
        unfold fetchFixedDist at hi
        cases hr : searchSym fixedDist 5 1 0 0 0 s with
        | ok r v =>
          rw [hr] at hi
          cases r <;> (injection hi with hi; exact decode_format hi)
        | raise e v => rw [hr] at hi; cases hi
        | fault g => rw [hr] at hi; cases hi
    · exact runElement_flags ((decodeSym_hasFlags _ hs).bind fun _ _ hu => .ok hu)
        (fun _ _ hi => bind_decode_format hi) exec_dist_flags h
  · exact runElement_flags ((decodeSym_hasFlags _ hs).bind fun _ _ hu => .ok hu) (fun _ _ hi => bind_decode_format hi)
      exec_litlen_flags h

/-- INF_HDR keeps STATUS, or raises (R201). -/
theorem infHdr_flags {s t : State} (h : runElement (fetchHeader s) = .next t) : ∃ b, s.DatapathMove b t := by
  have hbits (n : Nat) {u : State} (hu : u.status = s.status) :
      (takeBits n u).Holds fun v => v.status = s.status :=
    (takeBits_hasFlags n ⟨hu, rfl⟩).mono fun _ hv => hv.1
  refine runElement_next (P := fun u => u.status = s.status) (R := fun t => ∃ b, s.DatapathMove b t) (f := .bhdr)
    h ?_ ?_ (fun hu hi he => ?_) fun e u hu => ?_
  · exact (hbits 1 rfl).bind fun f u hu => (hbits 2 (u := latchFinal (f.testBit 0) u) hu).bind fun _ _ hv => .ok hv
  · intro i u hi
    unfold fetchHeader at hi
    cases hf : takeBits 1 s with
    | ok f v => rw [hf] at hi; exact bind_decode_format (r := takeBits 2 (latchFinal (f.testBit 0) v)) hi
    | raise e v => rw [hf] at hi; cases hi
    | fault g => rw [hf] at hi; cases hi
  · obtain ⟨b, hmove⟩ := exec_bhdr_flags hi he
    rw [State.DatapathMove, hu] at hmove
    exact ⟨b, hmove⟩
  · exact ⟨u.inflate.bfinal, .inr ⟨e, u, ⟨hu, rfl⟩, rfl⟩⟩

/-! ### The back end and the start -/

theorem enterExpand_flags (s : State) :
    (enterExpand s).inflate.bfinal = s.inflate.bfinal ∧
      (((enterExpand s).status = s.status ∧ (enterExpand s).phase = .expand) ∨
        ((enterExpand s).status = s.status.finished ∧ (enterExpand s).phase = .ended)) := by
  rcases enterExpand_cases s with ⟨p, -, he⟩ | ⟨-, he⟩ <;> rw [he]
  · exact ⟨rfl, .inl ⟨rfl, rfl⟩⟩
  · exact ⟨rfl, .inr ⟨rfl, rfl⟩⟩

/-- The end of RECON sets RAWVALID and leaves RECON (R331, R336). -/
theorem endRecon_flags {s t : State} (hp : t.phase = .recon ∨ t.phase = .infEnd) (hst : s.status = t.status) :
    t.FlagMove (endRecon s) ∧ (endRecon s).inflate.bfinal = s.inflate.bfinal := by
  rcases endRecon_cases s with ⟨-, he⟩ | ⟨-, he⟩ <;> rw [he]
  · obtain ⟨hb, ⟨hst', hphase⟩ | ⟨hst', hphase⟩⟩ := enterExpand_flags { s with status := s.status.setRawValid true }
    · exact ⟨.valid hp (hst ▸ hst') hphase, hb⟩
    · exact ⟨.validFinished hp (hst ▸ hst') hphase, hb⟩
  · exact ⟨.validFinished hp (hst ▸ rfl) rfl, rfl⟩

/-- RECON keeps STATUS from row to row (R252). -/
theorem recon_flags {s t : State} (hp : s.phase = .recon) (h : runElement (fetchTag s) = .next t) :
    s.FlagMove t ∧ t.inflate.bfinal = s.inflate.bfinal := by
  have hrow {u v : State} (pred : Byte → Byte → Byte → Byte) (hu : u = s) (he : filterRow pred u = .next v) :
      s.FlagMove v ∧ v.inflate.bfinal = s.inflate.bfinal := by
    subst hu
    rcases filterRow_cases pred u with ⟨-, hf⟩ | ⟨-, hf⟩ <;> rw [hf] at he
    · cases he
    · obtain rfl := Host.Outcome.next.inj he
      rcases nextRow_cases { u with raw := reconLoop pred u.recon u.recon.rowbytes 0 u.raw } with
        ⟨-, hn⟩ | ⟨-, ⟨q, -, hn⟩ | ⟨-, hn⟩⟩ <;> rw [hn]
      · exact ⟨.kept rfl, rfl⟩
      · exact ⟨.kept rfl, rfl⟩
      · exact endRecon_flags (.inl hp) rfl
  refine runElement_next (P := fun u => u = s)
    (R := fun t => s.FlagMove t ∧ t.inflate.bfinal = s.inflate.bfinal) (f := .filter)
    h ?_ ?_ (fun {u v i} hu hi he => ?_) fun e u hu => ?_
  · unfold fetchTag
    split
    · exact .fault
    · exact .ok rfl
  · intro i u hi
    unfold fetchTag at hi
    split at hi
    · cases hi
    · injection hi with hi
      exact decode_format hi
  · cases i with
    | filtNone => exact hrow _ hu he
    | filtSub => exact hrow _ hu he
    | filtUp => exact hrow _ hu he
    | filtAvg => exact hrow _ hu he
    | filtPaeth => exact hrow _ hu he
    | filtInvalid tag => 
      obtain rfl := Host.Outcome.next.inj he
      exact ⟨.raised _ rfl rfl, hu ▸ rfl⟩
    | _ => cases hi
  · exact ⟨.raised e rfl rfl, hu ▸ rfl⟩

/-- A pixel keeps STATUS, ends the command, or raises (R292, R305, R338). -/
theorem pixelStep_flags {d ch : Nat} {conv : ColorRegs → Samples → Except Err Rgba} {il : Byte} {s t : State}
    (h : pixelStep d ch conv il s = .next t) : s.FlagMove t ∧ t.inflate.bfinal = s.inflate.bfinal := by
  rcases pixelStep_cases d ch conv il s with ⟨-, he⟩ | ⟨e, -, he⟩ | ⟨-, he⟩ | ⟨p, -, -, he⟩ <;> rw [he] at h
  · cases h
  · obtain rfl := Host.Outcome.next.inj h
    exact ⟨.raised e rfl rfl, rfl⟩
  · cases h
  · obtain rfl := Host.Outcome.next.inj h
    rcases nextPixel_cases il (d * ch) { s with
        norm := { s.norm with sample := readSamples d ch s }
        hmem := s.hmem.writePixel (pixelAddress il s) p } with ⟨_, _, _, _, hn⟩ | ⟨_, hn⟩ <;> rw [hn]
    · exact ⟨.kept rfl, rfl⟩
    · exact ⟨.finished rfl rfl, rfl⟩

/-- Every pixel element is a pixel step (R290). -/
theorem exec_pixfmt {i : Instr} (hf : i.format = .pixfmt) :
    ∃ d ch conv il, ∀ s, exec i s = pixelStep d ch conv il s := by
  cases i with
  | pixG1 il => exact ⟨1, 1, grayPixel 255, il, fun _ => rfl⟩
  | pixG2 il => exact ⟨2, 1, grayPixel 85, il, fun _ => rfl⟩
  | pixG4 il => exact ⟨4, 1, grayPixel 17, il, fun _ => rfl⟩
  | pixG8 il => exact ⟨8, 1, grayPixel 1, il, fun _ => rfl⟩
  | pixG16 il => exact ⟨16, 1, grayPixel16, il, fun _ => rfl⟩
  | pixRgb8 il => exact ⟨8, 3, rgbPixel lowByte, il, fun _ => rfl⟩
  | pixRgb16 il => exact ⟨16, 3, rgbPixel to8, il, fun _ => rfl⟩
  | pixP1 il => exact ⟨1, 1, palettePixel, il, fun _ => rfl⟩
  | pixP2 il => exact ⟨2, 1, palettePixel, il, fun _ => rfl⟩
  | pixP4 il => exact ⟨4, 1, palettePixel, il, fun _ => rfl⟩
  | pixP8 il => exact ⟨8, 1, palettePixel, il, fun _ => rfl⟩
  | pixGa8 il => exact ⟨8, 2, grayAlphaPixel lowByte, il, fun _ => rfl⟩
  | pixGa16 il => exact ⟨16, 2, grayAlphaPixel to8, il, fun _ => rfl⟩
  | pixRgba8 il => exact ⟨8, 4, rgbaPixel lowByte, il, fun _ => rfl⟩
  | pixRgba16 il => exact ⟨16, 4, rgbaPixel to8, il, fun _ => rfl⟩
  | _ => cases hf

/-- EXPAND keeps STATUS from pixel to pixel (R292). -/
theorem expand_flags {s t : State} (h : runElement (fetchFormat s) = .next t) :
    s.FlagMove t ∧ t.inflate.bfinal = s.inflate.bfinal := by
  refine runElement_next (P := fun u => u = s)
    (R := fun t => s.FlagMove t ∧ t.inflate.bfinal = s.inflate.bfinal) (f := .pixfmt) h (.ok rfl) (fun i u hi => ?_)
    (fun hu hi he => ?_) fun e u hu => ⟨.raised e rfl rfl, hu ▸ rfl⟩
  · injection hi with hi
    exact decode_format hi
  · obtain ⟨d, ch, conv, il, hstep⟩ := exec_pixfmt hi
    rw [hstep] at he
    exact hu ▸ pixelStep_flags he

/-- The start checks keep STATUS and bfinal, end the command of an image without pixels, or raise (R341 to R349). -/
theorem startPhase_flags {s t : State} (h : (startPhase s).outcome = .next t) :
    s.FlagMove t ∧ t.inflate.bfinal = s.inflate.bfinal := by
  have hraise {e : Err} {u : State} (hb : u.inflate.bfinal = s.inflate.bfinal)
      (he : (CoreResult.raise e u : CoreResult Unit).outcome = .next t) :
      s.FlagMove t ∧ t.inflate.bfinal = s.inflate.bfinal := by
    obtain rfl := Host.Outcome.next.inj he
    exact ⟨.raised e rfl rfl, hb⟩
  unfold startPhase at h
  cases he : earlyChecks s with
  | some e => rw [he] at h; exact hraise rfl h
  | none =>
    rw [he] at h
    dsimp only at h
    split at h
    · split at h
      · exact hraise (u := latchRawSize s) rfl h
      · split at h
        · exact hraise (u := latchRawSize s) rfl h
        · obtain rfl := Host.Outcome.next.inj h
          exact ⟨.kept rfl, rfl⟩
    · split at h
      · exact hraise rfl h
      · obtain rfl := Host.Outcome.next.inj h
        obtain ⟨hb, ⟨hst, -⟩ | ⟨hst, hp⟩⟩ := enterExpand_flags s
        · exact ⟨.kept hst, hb⟩
        · exact ⟨.finished hst hp, hb⟩

/-- The size checks keep STATUS, or raise (R229 to R231). -/
theorem endChecks_flags {s t : State} (hp : s.phase = .infEnd) (h : (endChecks s).outcome = .next t) :
    s.FlagMove t ∧ t.inflate.bfinal = s.inflate.bfinal := by
  unfold endChecks at h
  split at h
  · obtain rfl := Host.Outcome.next.inj h
    exact ⟨.raised .sizeMismatch rfl rfl, rfl⟩
  · split at h
    · obtain rfl := Host.Outcome.next.inj h
      exact ⟨.raised .sizeMismatch rfl rfl, rfl⟩
    · obtain rfl := Host.Outcome.next.inj h
      rcases enterRecon_cases s with ⟨p, -, he⟩ | ⟨-, he⟩ <;> rw [he]
      · exact ⟨.kept rfl, rfl⟩
      · exact endRecon_flags (.inr hp) rfl

/-- Everything a step of the core can do to STATUS and bfinal, in every state (R63). -/
theorem coreStep_flags {s t : State} (h : coreStep s = .next t) :
    s.FlagMove t ∧ (t.inflate.bfinal = s.inflate.bfinal ∨ s.phase = .infHdr)
      ∧ (t = s ∨ (s.phase ≠ .idle ∧ s.phase ≠ .ended)) := by
  unfold coreStep at h
  have hs : State.HasFlags s.status s.inflate.bfinal s := ⟨rfl, rfl⟩
  cases hp : s.phase <;> rw [hp] at h <;> dsimp only at h
  case idle => obtain rfl := Host.Outcome.next.inj h; exact ⟨.kept rfl, .inl rfl, .inl rfl⟩
  case ended => obtain rfl := Host.Outcome.next.inj h; exact ⟨.kept rfl, .inl rfl, .inl rfl⟩
  case infHdr =>
    obtain ⟨b, hmove⟩ := infHdr_flags h
    exact ⟨hmove.flagMove.1, .inr rfl, .inr ⟨Phase.noConfusion, Phase.noConfusion⟩⟩
  all_goals
    suffices hflags : s.FlagMove t ∧ t.inflate.bfinal = s.inflate.bfinal from
      ⟨hflags.1, .inl hflags.2, .inr ⟨Phase.noConfusion, Phase.noConfusion⟩⟩
  case startCheck => exact startPhase_flags h
  case infStored => exact State.DatapathMove.flagMove ((storedBody_hasFlags hs).outcome h)
  case infDynHdr => exact (infDynHdr_flags h).flagMove
  case infSym => exact (infSym_flags h).flagMove
  case infEnd => exact endChecks_flags hp h
  case recon => exact recon_flags hp h
  case expand => exact expand_flags h

end Sys2Proof.Machine
end

section
/-! PROOFS of the family 10_state.md, part 10: STATE, ERR_CODE, RAWVALID and bfinal over every step (O10, O13). -/

namespace Sys2Proof.Machine

/-! ### What a step can do to the flags -/

theorem regOffset_bits {p : Params} {addr : Word} {bits off : Nat} (h : regOffset p addr bits = some off) :
    bits = 32 := by
  unfold regOffset at h
  dsimp only at h
  split at h
  · rename_i hlegal; exact hlegal.1
  · cases h

/-- A START that is not ignored leaves the flags as its checks do, from BUSY, ERR_CODE 0 and the RAWVALID of R331. -/
theorem startCommand_flags {s t : State} {cmd : BitVec 2} {inchk ie : Bool} (hb : s.isBusy = false)
    (h : startCommand cmd inchk ie s = .next t) :
    (beginCommand cmd inchk ie s).FlagMove t ∧ t.inflate.bfinal = s.inflate.bfinal := by
  unfold startCommand at h
  rw [hb, if_neg Bool.false_ne_true] at h
  have hflags := startPhase_flags h
  rwa [show (beginCommand cmd inchk ie s).inflate = s.inflate by rw [beginCommand_eq]] at hflags

/-- Everything a legal register write can do to the flags: nothing, a START, a CLEAR, or a write of the geometry, none of
the last three while BUSY (R51, R52, R330, R339). -/
theorem regWriteStep_flags {s t : State} {addr w : Word} {bits off : Nat}
    (hoff : regOffset s.params addr bits = some off)
    (h : regWriteStep addr bits w s = .next t) :
    (t.status = s.status ∧ t.inflate = s.inflate)
      ∨ (s.isBusy = false ∧ off = 0 ∧ w.getLsbD 0 = true ∧
          (beginCommand (w.extractLsb' 1 2) (w.getLsbD 3) (w.getLsbD 4) s).FlagMove t ∧
          t.inflate.bfinal = s.inflate.bfinal)
      ∨ (s.isBusy = false ∧ off = 0 ∧ w.getLsbD 0 = false ∧ w.getLsbD 5 = true ∧ t.status = s.status.cleared
          ∧ t.inflate = s.inflate)
      ∨ (s.isBusy = false ∧ (off = 0x008 ∨ off = 0x00C ∨ off = 0x010) ∧ t.status = s.status.setRawValid false
          ∧ t.inflate = s.inflate) := by
  rcases regWriteStep_cases w hoff with ⟨h0, hstart, he⟩ | ⟨h0, hstart, hclear, he⟩ | ⟨-, he⟩ <;> rw [he] at h
  · cases hb : s.isBusy with
    | true =>
      rw [startCommand, hb, if_pos rfl] at h
      obtain rfl := Host.Outcome.next.inj h
      exact .inl ⟨rfl, rfl⟩
    | false => exact .inr (.inl ⟨rfl, h0, hstart, startCommand_flags hb h⟩)
  · unfold execCtrlClear at h
    split at h
    · obtain rfl := Host.Outcome.next.inj h
      exact .inl ⟨rfl, rfl⟩
    · rename_i hb
      obtain rfl := Host.Outcome.next.inj h
      exact .inr (.inr (.inl ⟨by simpa using hb, h0, hstart, hclear, rfl, rfl⟩))
  · obtain rfl := Host.Outcome.next.inj h
    unfold hostPlainWrite
    split
    · exact .inl ⟨rfl, rfl⟩
    · rename_i hb
      obtain ⟨hstatus, -⟩ := writeReg_plainWrite off w s
      obtain ⟨c, st, g, se, co, o, he⟩ := writeReg_regsOnly off w s
      have hinf : (writeReg off w s).inflate = s.inflate := by rw [he]
      rcases hstatus with ⟨hgeom, hst⟩ | ⟨hst, -⟩
      · exact .inr (.inr (.inr ⟨by simpa using hb, hgeom, hst, hinf⟩))
      · exact .inl ⟨hst, hinf⟩

/-- Everything a step can be, as far as the flags go: a step of the core, a move that leaves them, a legal register
write, or the reset input. -/
theorem step_flags {s t : State} (h : step s = .next t) :
    (∃ q, coreStep (s.withQueue q) = .next t)
      ∨ (t.status = s.status ∧ t.inflate = s.inflate)
      ∨ (∃ addr w q off, s.bus.queue = .regWrite addr 32 w :: q ∧ regOffset s.params addr 32 = some off
          ∧ regWriteStep addr 32 w (s.withQueue q) = .next t)
      ∨ ∃ q, s.bus.queue = .reset :: q ∧ t = resetEvent (s.withQueue q) := by
  unfold step at h
  split at h
  · exact .inl ⟨s.bus.queue, h⟩
  · exact .inl ⟨_, h⟩
  · split at h
    · exact .inl ⟨s.bus.queue, h⟩
    · obtain rfl := Host.Outcome.next.inj h
      exact .inr (.inl ⟨rfl, rfl⟩)
  · rename_i addr bits w q hq
    cases hoff : regOffset s.params addr bits with
    | some off =>
      obtain rfl := regOffset_bits hoff
      exact .inr (.inr (.inl ⟨addr, w, q, off, hq, hoff, h⟩))
    | none =>
      unfold regWriteStep at h
      rw [withQueue_params, hoff] at h
      cases h
  · rename_i addr bits q hq
    unfold regReadStep at h
    split at h
    · cases h
    · obtain rfl := Host.Outcome.next.inj h
      unfold hostRegRead
      split <;> exact .inr (.inl ⟨rfl, rfl⟩)
  · obtain rfl := Host.Outcome.next.inj h
    unfold hostMemWrite
    dsimp only
    split <;> exact .inr (.inl ⟨rfl, rfl⟩)
  · obtain rfl := Host.Outcome.next.inj h
    unfold hostMemRead
    split <;> exact .inr (.inl ⟨rfl, rfl⟩)
  · rename_i q hq
    exact .inr (.inr (.inr ⟨q, hq, (Host.Outcome.next.inj h).symm⟩))

/-! ### STATE, ERR_CODE and bfinal -/

/-- STATUS or bfinal differ only after a move of the rules (R36, R63, R201): what `FlagsChangeOnlyAsStated` says of one
step. -/
theorem step_changes {s t : State} (h : step s = .next t) :
    let accepted (k : Nat) : Prop := ∃ addr w q, s.bus.queue = .regWrite addr 32 w :: q ∧
      regOffset s.params addr 32 = some 0 ∧ s.isBusy = false ∧ w.getLsbD k = true
    (t.status.state = s.status.state ∧ t.status.errCode = s.status.errCode
        ∧ (t.inflate.bfinal = s.inflate.bfinal ∨ s.phase = .infHdr))
      ∨ (t.inflate.bfinal = s.inflate.bfinal ∧ (accepted 0 ∨ (accepted 5 ∧ t.status.state = .idle
          ∧ t.status.errCode = 0 ∧ t.status.rawvalid = s.status.rawvalid)))
      ∨ ((t.inflate.bfinal = s.inflate.bfinal ∨ s.phase = .infHdr) ∧ s.phase ≠ .idle ∧ s.phase ≠ .ended ∧ t.phase = .ended
          ∧ (t.status.state = .error ∨ (t.status.state = .done ∧ t.status.errCode = s.status.errCode)))
      ∨ ((∃ q, s.bus.queue = .reset :: q) ∧ t.status.state = .idle ∧ t.status.errCode = 0) := by
  intro accepted
  rcases step_flags h with ⟨q, hcore⟩ | ⟨hst, hinf⟩ | ⟨addr, w, q, off, hq, hoff, hwrite⟩ | ⟨q, hq, rfl⟩
  · obtain ⟨hmove, hb, hrun⟩ := coreStep_flags hcore
    rcases hrun with rfl | ⟨hidle, hended⟩
    · exact .inl ⟨rfl, rfl, .inl rfl⟩
    · cases hmove with
      | kept hst => exact .inl ⟨by rw [hst]; rfl, by rw [hst]; rfl, hb⟩
      | raised e hst hp => exact .inr (.inr (.inl ⟨hb, hidle, hended, hp, .inl (by rw [hst])⟩))
      | finished hst hp => exact .inr (.inr (.inl ⟨hb, hidle, hended, hp, .inr (by rw [hst]; exact ⟨rfl, rfl⟩)⟩))
      | valid _ hst hp => exact .inl ⟨by rw [hst]; rfl, by rw [hst]; rfl, hb⟩
      | validFinished _ hst hp =>
        exact .inr (.inr (.inl ⟨hb, hidle, hended, hp, .inr (by rw [hst]; exact ⟨rfl, rfl⟩)⟩))
  · exact .inl ⟨by rw [hst], by rw [hst], .inl (by rw [hinf])⟩
  · rcases regWriteStep_flags (s := s.withQueue q) hoff hwrite with
      ⟨hst, hinf⟩ | ⟨hb, h0, hstart, -, hbf⟩ | ⟨hb, h0, -, hclear, hst, hinf⟩ | ⟨-, -, hst, hinf⟩
    · exact .inl ⟨by rw [hst]; rfl, by rw [hst]; rfl, .inl (by rw [hinf]; rfl)⟩
    · exact .inr (.inl ⟨hbf, .inl ⟨addr, w, q, hq, h0 ▸ hoff, hb, hstart⟩⟩)
    · have hbf : t.inflate.bfinal = s.inflate.bfinal := by rw [hinf]; rfl
      rw [withQueue_status] at hst
      by_cases hcomplete : s.status.state = .done ∨ s.status.state = .error
      · rw [StatusReg.cleared, if_pos hcomplete] at hst
        exact .inr (.inl ⟨hbf, .inr ⟨⟨addr, w, q, hq, h0 ▸ hoff, hb, hclear⟩, by rw [hst], by rw [hst], by rw [hst]⟩⟩)
      · rw [StatusReg.cleared, if_neg hcomplete] at hst
        exact .inl ⟨by rw [hst], by rw [hst], .inl hbf⟩
    · exact .inl ⟨by rw [hst]; rfl, by rw [hst]; rfl, .inl (by rw [hinf]; rfl)⟩
  · exact .inr (.inr (.inr ⟨⟨q, hq⟩, rfl, rfl⟩))

/-- A header cut off in BTYPE, or before it, raises TruncatedInput with the bits it has had latched (R113, R201, R417). -/
theorem fetchHeader_cut_off {s : State} (hs : s.CanRead) (hlen : s.bitsLeft.length < 3) :
    ∃ c, fetchHeader s = .raise .truncatedInput { s with
      cursor := c, inflate := { s.inflate with bfinal := s.bitsLeft.headD s.inflate.bfinal } } := by
  unfold fetchHeader
  rcases takeBits_cases 1 s (by omega) hs with ⟨hle, t, ht, hadv⟩ | ⟨hlt, c, hc, -⟩
  · obtain ⟨b, rest, hbits⟩ := List.exists_cons_of_length_pos hle
    obtain ⟨hst, htidy, hrest, -⟩ := hadv
    have hbit : (s.peek 0 1).testBit 0 = b := by
      rw [State.peek, hbits]
      cases b <;> simp [packBits]
    have hlatch : (latchFinal b t).CanRead := by rw [hst] at htidy ⊢; exact ⟨hs.1, htidy⟩
    have hshort : (latchFinal b t).bitsLeft.length < 2 := by
      rw [latchFinal_bitsLeft, hrest, List.length_drop]; omega
    rcases takeBits_cases 2 (latchFinal b t) (by omega) hlatch with ⟨hle, -⟩ | ⟨-, c, hc, -⟩
    · omega
    · refine ⟨c, ?_⟩
      rw [ht, CoreResult.bind, hbit, hc, hbits, hst]
      rfl
  · have hnil : s.bitsLeft = [] := List.length_eq_zero_iff.mp (by omega)
    exact ⟨c, by rw [hc, hnil]; rfl⟩

/-- Settles O13: by what a step can do to the flags, and what a header cut off has latched. -/
theorem flagsChangeOnlyAsStated : Obligations.FlagsChangeOnlyAsStated := by
  refine ⟨fun s t h => ?_, fun s q hs hq hp hlen => ?_⟩
  · intro accepted cleared ranToItsEnd resets
    rcases step_changes h with ⟨hstate, hcode, hb⟩ | ⟨hb, haccepted⟩ | ⟨hb, hidle, hended, hp, hend⟩ |
      ⟨hreset, hstate, hcode⟩
    · exact ⟨fun hne => absurd hstate hne, fun hne => absurd hcode hne, fun hne => .inl (hb.resolve_left hne)⟩
    · exact ⟨fun _ => haccepted.imp_right .inl, fun _ => haccepted.imp_right .inl, fun hne => absurd hb hne⟩
    · refine ⟨fun _ => .inr (.inr (.inr ⟨⟨hidle, hended, hp⟩, ?_⟩)), fun hne => ?_,
        fun hne => .inl (hb.resolve_left hne)⟩
      · exact hend.symm.imp_left And.left
      · exact .inr (.inr (.inr ⟨⟨hidle, hended, hp⟩, hend.resolve_right fun hd => hne hd.2⟩))
    · exact ⟨fun _ => .inr (.inr (.inl ⟨hreset, hstate⟩)), fun _ => .inr (.inr (.inl ⟨hreset, hcode⟩)),
        fun _ => .inr hreset⟩
  · have hread : (s.withQueue q).CanRead := hs
    obtain ⟨c, hc⟩ := fetchHeader_cut_off hread hlen
    refine ⟨raiseError .truncatedInput { s.withQueue q with
      cursor := c, inflate := { s.inflate with bfinal := s.bitsLeft.headD s.inflate.bfinal } }, ?_, rfl, rfl, rfl⟩
    unfold step coreStep
    rw [hq]
    dsimp only
    rw [withQueue_phase, hp]
    dsimp only
    rw [hc]
    rfl

/-! ### RAWVALID -/

/-- CMD decodes exactly when its low bit, bit 1 of CTRL, is 1 (R34, R331). -/
theorem extract_cmd_decodes (w : Word) : (w.extractLsb' 1 2 = 1 ∨ w.extractLsb' 1 2 = 3) ↔ w.getLsbD 1 = true := by
  have hodd : ∀ c : BitVec 2, (c = 1 ∨ c = 3) ↔ c.getLsbD 0 = true := by decide
  rw [hodd, BitVec.getLsbD_extractLsb']
  simp

/-- After a START, RAWVALID is 0 for a DECODE-type command and else as it was, or an error has cleared it (R331, R410). -/
theorem beginCommand_rawvalid {s t : State} {w : Word} {inchk ie : Bool}
    (hmove : (beginCommand (w.extractLsb' 1 2) inchk ie s).FlagMove t) :
    (t.status.state = .error ∧ t.status.rawvalid = false)
      ∨ t.status.rawvalid = if w.getLsbD 1 then false else s.status.rawvalid := by
  have hbegin : (beginCommand (w.extractLsb' 1 2) inchk ie s).status.rawvalid =
      if w.getLsbD 1 then false else s.status.rawvalid := by
    rw [beginCommand_eq]
    simp only [extract_cmd_decodes]
  have hphase : (beginCommand (w.extractLsb' 1 2) inchk ie s).phase = .startCheck := by rw [beginCommand_eq]
  cases hmove with
  | kept hst => exact .inr (by rw [hst, hbegin])
  | raised e hst _ => exact .inl (by rw [hst]; exact ⟨rfl, rfl⟩)
  | finished hst _ => exact .inr (by rw [hst, finished_rawvalid, hbegin])
  | valid hs | validFinished hs => rw [hphase] at hs; exact absurd hs (by decide)

/-- The size checks of a legal geometry do not end the command: RECON follows, or an error (R229 to R231). -/
theorem infEnd_next {s t : State} (h : s.Inv) (hp : s.phase = .infEnd) (hstep : coreStep s = .next t) :
    t.phase = .recon ∨ t.status.rawvalid = false := by
  have hsound := endChecks_sound (h.engine (by rw [hp]; rfl))
  unfold coreStep at hstep
  rw [hp] at hstep
  dsimp only at hstep
  generalize endChecks s = r at hsound hstep
  cases hsound with
  | ok hu => exact .inl (Host.Outcome.next.inj hstep ▸ hu.2)
  | raise hu => exact .inr (Host.Outcome.next.inj hstep ▸ rfl)

/-- RAWVALID over a step of the core: it stays, rises as RECON ends, or falls with an error (R52, R336, R410). -/
theorem coreStep_rawvalid {s t : State} (h : s.Inv) (hstep : coreStep s = .next t) :
    t.status.rawvalid = s.status.rawvalid
      ∨ (t.status.rawvalid = true ∧ s.phase = .recon ∧ t.phase ≠ .recon ∧ t.status.state ≠ .error ∧ s.isDecode = true)
      ∨ (t.status.state = .error ∧ t.status.rawvalid = false) := by
  obtain ⟨hmove, -⟩ := coreStep_flags hstep
  have hrise (hs : s.phase = .recon ∨ s.phase = .infEnd) (hvalid : t.status.rawvalid = true) (hp : t.phase ≠ .recon)
      (hstate : t.status.state ≠ .error) :
      t.status.rawvalid = true ∧ s.phase = .recon ∧ t.phase ≠ .recon ∧ t.status.state ≠ .error ∧ s.isDecode = true := by
    have hrecon := hs.resolve_right fun he => (infEnd_next h he hstep).elim hp fun hf => by
      rw [hvalid] at hf; exact absurd hf (by decide)
    obtain ⟨-, -, -, -, -, hsound, -⟩ := id h
    exact ⟨hvalid, hrecon, hp, hstate, (hsound hrecon).1⟩
  cases hmove with
  | kept hst => exact .inl (by rw [hst])
  | raised e hst _ => exact .inr (.inr (by rw [hst]; exact ⟨rfl, rfl⟩))
  | finished hst _ => exact .inl (by rw [hst]; rfl)
  | valid hs hst hp =>
    have hstate : s.status.state ≠ .error := by
      obtain ⟨-, -, ⟨hbusy, -⟩, -⟩ := id h
      have hb := hbusy.mpr (by rcases hs with hs | hs <;> rw [hs] <;> decide)
      intro he
      rw [State.isBusy, he] at hb
      exact absurd hb (by decide)
    exact .inr (.inl (hrise hs (by rw [hst]; rfl) (by rw [hp]; decide) (by rw [hst]; exact hstate)))
  | validFinished hs hst hp =>
    exact .inr (.inl (hrise hs (by rw [hst]; rfl) (by rw [hp]; decide) (by rw [hst]; exact CoreState.noConfusion)))

/-- RAWVALID over a step: it stays, rises as RECON ends, or falls in one of the four cases of the rule (R52). -/
theorem step_rawvalid {s t : State} (h : s.Inv) (hstep : step s = .next t) :
    t.status.rawvalid = s.status.rawvalid
      ∨ (t.status.rawvalid = true ∧ s.phase = .recon ∧ t.phase ≠ .recon ∧ t.status.state ≠ .error ∧ s.isDecode = true)
      ∨ (t.status.rawvalid = false ∧ ((∃ q, s.bus.queue = .reset :: q) ∨ t.status.state = .error
          ∨ ∃ addr w q off, s.bus.queue = .regWrite addr 32 w :: q ∧ regOffset s.params addr 32 = some off
              ∧ s.isBusy = false
              ∧ ((off = 0 ∧ w.getLsbD 0 = true ∧ w.getLsbD 1 = true) ∨ off = 0x008 ∨ off = 0x00C ∨ off = 0x010))) := by
  rcases step_flags hstep with ⟨q, hcore⟩ | ⟨hst, -⟩ | ⟨addr, w, q, off, hq, hoff, hwrite⟩ | ⟨q, hq, rfl⟩
  · have hinv : (s.withQueue q).Inv := h
    exact (coreStep_rawvalid hinv hcore).imp_right (.imp_right fun ⟨he, hf⟩ => ⟨hf, .inr (.inl he)⟩)
  · exact .inl (by rw [hst])
  · rcases regWriteStep_flags (s := s.withQueue q) hoff hwrite with
      ⟨hst, -⟩ | ⟨hb, h0, hstart, hmove, -⟩ | ⟨-, -, -, -, hst, -⟩ | ⟨hb, hgeom, hst, -⟩
    · exact .inl (by rw [hst]; rfl)
    · rcases beginCommand_rawvalid hmove with ⟨he, hf⟩ | hraw
      · exact .inr (.inr ⟨hf, .inr (.inl he)⟩)
      · cases hdec : w.getLsbD 1 with
        | true =>
          rw [hdec, if_pos rfl] at hraw
          exact .inr (.inr ⟨hraw, .inr (.inr ⟨addr, w, q, off, hq, hoff, hb, .inl ⟨h0, hstart, hdec⟩⟩)⟩)
        | false =>
          rw [hdec, if_neg Bool.false_ne_true] at hraw
          exact .inl hraw
    · exact .inl (by rw [hst, cleared_rawvalid]; rfl)
    · exact .inr (.inr ⟨by rw [hst]; rfl, .inr (.inr ⟨addr, w, q, off, hq, hoff, hb, .inr hgeom⟩)⟩)
  · exact .inr (.inr ⟨rfl, .inl ⟨q, hq⟩⟩)

/-- A DECODE-type START and a write of the geometry leave RAWVALID 0 while not BUSY (R52, R331). -/
theorem regWriteStep_drops {s t : State} {addr w : Word} {off : Nat} (hoff : regOffset s.params addr 32 = some off)
    (hb : s.isBusy = false)
    (hw : (off = 0 ∧ w.getLsbD 0 = true ∧ w.getLsbD 1 = true) ∨ off = 0x008 ∨ off = 0x00C ∨ off = 0x010)
    (h : regWriteStep addr 32 w s = .next t) : t.status.rawvalid = false := by
  rcases regWriteStep_cases w hoff with ⟨h0, -, he⟩ | ⟨h0, hstart, -, -⟩ | ⟨hplain, he⟩
  · rcases hw with ⟨-, -, hdec⟩ | hgeom
    · rw [he] at h
      rcases beginCommand_rawvalid (startCommand_flags hb h).1 with ⟨-, hf⟩ | hraw
      · exact hf
      · rwa [hdec, if_pos rfl] at hraw
    · omega
  · rcases hw with ⟨-, hstart', -⟩ | hgeom
    · rw [hstart] at hstart'; exact absurd hstart' Bool.false_ne_true
    · omega
  · rw [he] at h
    obtain rfl := Host.Outcome.next.inj h
    rw [hostPlainWrite, hb, if_neg Bool.false_ne_true]
    rcases hw with ⟨h0, hstart, -⟩ | rfl | rfl | rfl
    · rw [(hplain h0).1] at hstart; exact absurd hstart Bool.false_ne_true
    all_goals rfl

/-- Settles O10: by what a step can do to RAWVALID; that it is 0 in ERROR is the invariant's. -/
theorem rawValidChangesOnlyAsStated : Obligations.RawValidChangesOnlyAsStated := by
  intro s t q addr w off hinv h
  have hmove := step_rawvalid hinv h
  obtain ⟨-, -, ⟨-, -, hvalid, -⟩, -⟩ := id hinv
  obtain ⟨-, -, ⟨-, -, hvalid', -⟩, -⟩ := invariantIsKeptByEveryStep s t hinv h
  refine ⟨fun hq => ?reset, fun hq hoff hb hw => ?drops, fun he => ?error, fun hlow hhigh => ?rise,
    fun hhigh hlow => ?fall⟩
  case reset =>
    unfold step at h
    rw [hq] at h
    exact Host.Outcome.next.inj h ▸ rfl
  case drops =>
    unfold step at h
    rw [hq] at h
    exact regWriteStep_drops (s := s.withQueue q) hoff hb hw h
  case error =>
    by_contra hne
    exact (hvalid' (by simpa using hne)).1 he
  case rise =>
    rcases hmove with heq | hrise | ⟨hf, -⟩
    · rw [hlow, hhigh] at heq; exact absurd heq.symm Bool.false_ne_true
    · exact hrise.2
    · rw [hhigh] at hf; exact absurd hf.symm Bool.false_ne_true
  case fall =>
    rcases hmove with heq | ⟨hrise, -⟩ | ⟨-, hreset | herror | hwrite⟩
    · rw [hlow, hhigh] at heq; exact absurd heq Bool.false_ne_true
    · rw [hlow] at hrise; exact absurd hrise Bool.false_ne_true
    · exact .inl hreset
    · exact .inr (.inl ⟨(hvalid hhigh).1, herror⟩)
    · exact .inr (.inr hwrite)

end Sys2Proof.Machine
end

section
/-! PROOFS of the family 10_state.md, part 11: the register window (R32 to R52, R340). -/

namespace Sys2Proof.Machine

/-! ### Which accesses are legal (R32) -/

/-- R32: an access is legal when it is 32 bits wide, aligned and in the window; the offset is then the distance from
REG_BASE (log 27). -/
theorem regOffset_eq (p : Params) (addr : Word) (bits : Nat) :
    regOffset p addr bits =
      if bits = 32 ∧ 0 ≤ (addr.toNat : Int) - p.regBase.toNat ∧ (addr.toNat : Int) - p.regBase.toNat < 4096
          ∧ ((addr.toNat : Int) - p.regBase.toNat) % 4 = 0
      then some (addr.toNat - p.regBase.toNat) else none := by
  unfold regOffset
  exact if_congr (by omega) rfl rfl

theorem windowOffset_of_regOffset {p : Params} {addr : Word} {bits off : Nat}
    (h : regOffset p addr bits = some off) : WindowOffset off := by
  unfold regOffset at h
  dsimp only at h
  split at h
  · rename_i hlegal
    obtain rfl := Option.some.inj h
    exact ⟨hlegal.2.2.1, hlegal.2.2.2⟩
  · cases h

/-- A START answers a next state in every state: its checks raise errors and no fault (R341 to R349). -/
theorem startCommand_next (cmd : BitVec 2) (inchk ie : Bool) (s : State) :
    ∃ t, startCommand cmd inchk ie s = .next t := by
  have houtcome {r : CoreResult Unit} (h : ∀ f, r ≠ .fault f) : ∃ t, r.outcome = .next t := by
    cases r with
    | ok v t => exact ⟨t, rfl⟩
    | raise e t => exact ⟨_, rfl⟩
    | fault f => exact absurd rfl (h f)
  unfold startCommand
  split
  · exact ⟨s, rfl⟩
  · refine houtcome fun f => ?_
    unfold startPhase
    dsimp only
    repeat' split
    all_goals (intro he; cases he)

/-- Every legal register write takes place, in every state (R32). -/
theorem regWriteStep_next {s : State} {addr : Word} {bits off : Nat} (w : Word)
    (h : regOffset s.params addr bits = some off) : ∃ t, regWriteStep addr bits w s = .next t := by
  rcases regWriteStep_cases w h with ⟨-, -, he⟩ | ⟨-, -, -, he⟩ | ⟨-, he⟩ <;> rw [he]
  · exact startCommand_next ..
  · unfold execCtrlClear
    split <;> exact ⟨_, rfl⟩
  · exact ⟨_, rfl⟩

theorem step_regWrite {s : State} {addr w : Word} {bits : Nat} {q : List HostMove}
    (h : s.bus.queue = .regWrite addr bits w :: q) : step s = regWriteStep addr bits w (s.withQueue q) := by
  unfold step; rw [h]

theorem step_regRead {s : State} {addr : Word} {bits : Nat} {q : List HostMove}
    (h : s.bus.queue = .regRead addr bits :: q) : step s = regReadStep addr bits (s.withQueue q) := by
  unfold step; rw [h]

theorem regReadStep_of_some {s : State} {addr : Word} {bits off : Nat} (h : regOffset s.params addr bits = some off) :
    regReadStep addr bits s = .next (hostRegRead off s) := by
  unfold regReadStep; rw [h]

/-- Settles O8: the access of R32 takes place, any other is refused. -/
theorem onlyIllegalAccessesAreRefused : Obligations.OnlyIllegalAccessesAreRefused := by
  intro s q addr w bits hq off
  have hoff := regOffset_eq s.params addr bits
  split
  · rename_i hlegal
    rw [if_pos hlegal] at hoff
    rcases hq with hq | hq
    · rw [step_regWrite hq]
      exact regWriteStep_next (s := s.withQueue q) w hoff
    · rw [step_regRead hq]
      exact ⟨_, regReadStep_of_some (s := s.withQueue q) hoff⟩
  · rename_i hillegal
    rw [if_neg hillegal] at hoff
    rcases hq with hq | hq
    · rw [step_regWrite hq, regWriteStep, withQueue_params, hoff]
    · rw [step_regRead hq, regReadStep, withQueue_params, hoff]

/-- Settles O9: every arm of a register write tests BUSY first, and a read draws for the counters. -/
theorem busyCoreIgnoresHostWrites : Obligations.BusyCoreIgnoresHostWrites := by
  intro s q addr w off hb hoff
  have hb' : (s.withQueue q).isBusy = true := hb
  refine ⟨fun hq => ?_, fun hq => ?_⟩
  · rw [step_regWrite hq]
    rcases regWriteStep_cases (s := s.withQueue q) w hoff with ⟨-, -, he⟩ | ⟨-, -, -, he⟩ | ⟨-, he⟩ <;> rw [he]
    · rw [startCommand, if_pos hb']
    · rw [execCtrlClear, if_pos hb']
    · rw [hostPlainWrite, if_pos hb']
  · rw [step_regRead hq, regReadStep_of_some (s := s.withQueue q) hoff]
    refine ⟨_, rfl, ?_⟩
    have hcounter : isCounter off = true ↔ off = 0x030 ∨ off = 0x034 ∨ off = 0x038 := by
      simp [isCounter, or_assoc]
    unfold hostRegRead
    rw [hb', Bool.true_and]
    by_cases hc : off = 0x030 ∨ off = 0x034 ∨ off = 0x038
    · rw [if_pos (hcounter.mpr hc), if_pos hc]; rfl
    · rw [if_neg (hc ∘ hcounter.mp), if_neg hc]; rfl

end Sys2Proof.Machine
end

section
/-! PROOFS of the family 10_state.md, part 12: the core's step in each phase that reads an element (O6), and the reset
input (O12). -/

namespace Sys2Proof.Machine

/-! ### The core's step (R62, R110) -/

/-- A fetch that gives an element is followed by the element. -/
theorem runElement_of_ok {r : CoreResult (Except DecodeError Instr)} {i : Instr} {t : State}
    (h : r = .ok (.ok i) t) : runElement r = exec i t := by
  rw [h]; rfl

/-- A carrier read and then decoded is the fetch of its element. -/
theorem bind_decode_of_ok {r : CoreResult Nat} {f : Format} {v : Nat} {i : Instr} {t : State}
    (hr : r = .ok v t) (hi : decode f v = .ok i) :
    r.bind (fun v s1 => (.ok (decode f v) s1 : CoreResult (Except DecodeError Instr))) = .ok (.ok i) t := by
  rw [hr]; exact congrArg (CoreResult.ok · t) hi

/-- Settles O6: each phase's fetch reads its carrier and decodes it. -/
theorem coreStepRunsTheDecodedElement : Obligations.CoreStepRunsTheDecodedElement := by
  intro s t q i hq
  have hstep : step s = coreStep (s.withQueue q) := by unfold step; rw [hq]
  have hphase : (s.withQueue q).phase = s.phase := rfl
  rw [hstep, coreStep, hphase]
  refine ⟨?header, ?codeLength, ?litLen, ?dist, ?fixedDist, ?tag, ?format⟩
  case header =>
    rintro hp ⟨f, b, s1, hf, hb, hi⟩
    rw [hp]
    refine runElement_of_ok ?_
    rw [fetchHeader, hf]
    change (takeBits 2 { s1 with inflate := { s1.inflate with bfinal := f.testBit 0 } }).bind _ = _
    rw [hb]
    exact congrArg (CoreResult.ok · t) hi
  case codeLength =>
    rintro hp ⟨v, hv, hi⟩
    rw [hp]
    exact runElement_of_ok (bind_decode_of_ok hv hi)
  case litLen =>
    rintro hp hneed ⟨v, hv, hi⟩
    rw [hp]
    refine runElement_of_ok ?_
    rw [fetchSymbol, if_neg (by exact hneed ▸ Bool.false_ne_true)]
    exact bind_decode_of_ok hv hi
  case dist =>
    rintro hp hneed hbtype ⟨v, hv, hi⟩
    rw [hp]
    refine runElement_of_ok ?_
    rw [fetchSymbol, if_pos (by exact hneed), fetchDist, if_neg (by exact hbtype)]
    exact bind_decode_of_ok hv hi
  case fixedDist =>
    rintro hp hneed hbtype ⟨v, hv, hi⟩
    rw [hp]
    refine runElement_of_ok ?_
    rw [fetchSymbol, if_pos (by exact hneed), fetchDist, if_pos (by exact hbtype), hv, hi]
  case tag =>
    intro hp hcur hi
    rw [hp]
    refine runElement_of_ok ?_
    rw [fetchTag, if_neg (by exact Nat.not_le.mpr hcur)]
    exact congrArg (CoreResult.ok · (s.withQueue q)) hi
  case format =>
    intro hp hi
    rw [hp]
    exact runElement_of_ok (congrArg (CoreResult.ok · (s.withQueue q)) hi)

/-! ### The reset input (R450, R451) -/

theorem step_reset {s : State} {q : List HostMove} (h : s.bus.queue = .reset :: q) :
    step s = .next (resetEvent (s.withQueue q)) := by
  unfold step; rw [h]

/-- Settles O12: `resetEvent` writes the reset values down; HMEM is as `resetMem_read` says. -/
theorem resetInputRestoresResetValues : Obligations.ResetInputRestoresResetValues := by
  intro s q hq
  refine ⟨resetEvent (s.withQueue q), step_reset hq, rfl, rfl, rfl, rfl, rfl, rfl, rfl, fun _ => ⟨rfl, rfl⟩, rfl, rfl,
    rfl, rfl, rfl, rfl, fun _ => ⟨rfl, rfl, rfl⟩, rfl, rfl, rfl, fun a ha => ?_⟩
  exact resetMem_read (s.withQueue q) a ha

end Sys2Proof.Machine
end

section
/-! PROOFS of the family 10_state.md, part 13: what a register write stores, and what it leaves (O7). -/

namespace Sys2Proof.Machine

/-! ### The fields of a word (R34, R39) -/

/-- A field of k bits holds the k low bits of the word. -/
theorem setWidth_setWidth_eq_and (w : Word) {k : Nat} (hk : k < 32) :
    (w.setWidth k).setWidth 32 = w &&& BitVec.ofNat 32 (2 ^ k - 1) := by
  have hpow : 2 ^ k < 2 ^ 32 := Nat.pow_lt_pow_right (by omega) hk
  refine BitVec.eq_of_toNat_eq ?_
  rw [BitVec.toNat_setWidth, BitVec.toNat_setWidth, BitVec.toNat_and, BitVec.toNat_ofNat,
    Nat.mod_eq_of_lt (Nat.lt_of_le_of_lt (Nat.sub_le _ 1) hpow), Nat.and_two_pow_sub_one_eq_mod]
  exact Nat.mod_eq_of_lt ((Nat.mod_lt _ (Nat.two_pow_pos k)).trans hpow)

/-- CTRL keeps CMD, INCHK and IE, the bits 1 to 4 (R34). -/
theorem ctrlWord_of_word (w : Word) :
    ctrlWord ⟨w.extractLsb' 1 2, w.getLsbD 3, w.getLsbD 4⟩ = w &&& 0x1E := by
  have hsmall : ∀ r < 32, (2 * (r / 2 % 4) + 8 * (r / 8 % 2) + 16 * (r / 16 % 2)) % 2 ^ 32 = r &&& 30 := by decide
  have hlow : w.toNat &&& 30 = w.toNat % 32 &&& 30 := by
    rw [← Nat.and_two_pow_sub_one_eq_mod w.toNat 5, Nat.and_assoc]; rfl
  refine BitVec.eq_of_toNat_eq ?_
  change _ = w.toNat &&& 30
  rw [hlow, ← hsmall _ (Nat.mod_lt _ (by omega)), ctrlWord, BitVec.toNat_ofNat, BitVec.extractLsb'_toNat,
    BitVec.getLsbD, BitVec.getLsbD, Nat.toNat_testBit, Nat.toNat_testBit, Nat.shiftRight_eq_div_pow]
  congr 1
  omega

/-- FORMAT keeps its three bytes (R39). -/
theorem formatWord_of_word (w : Word) :
    formatWord ⟨w.extractLsb' 0 8, w.extractLsb' 8 8, w.extractLsb' 16 8⟩ = w &&& 0x00FFFFFF := by
  rw [show (0x00FFFFFF : Word) = BitVec.ofNat 32 (2 ^ 24 - 1) from rfl, ← setWidth_setWidth_eq_and w (by omega)]
  refine BitVec.eq_of_toNat_eq ?_
  rw [formatWord_toNat, BitVec.toNat_setWidth, BitVec.toNat_setWidth]
  simp only [BitVec.extractLsb'_toNat, Nat.shiftRight_eq_div_pow]
  omega

/-! ### What a plain write leaves (R32, R340) -/

/-- Every register but the one at `off` reads in `t` as in `s`; RAWVALID falls with the geometry (R52). -/
structure State.WroteOnly (off : Nat) (s t : State) : Prop where
  params : t.params = s.params := by rfl
  rawSize : t.rawSize = s.rawSize := by rfl
  outPos : t.inflate.outPos = s.inflate.outPos := by rfl
  consumed : t.cursor.consumed = s.cursor.consumed := by rfl
  status : t.status = if off = 0x008 ∨ off = 0x00C ∨ off = 0x010 then s.status.setRawValid false else s.status := by
    exact (if_neg (by omega)).symm
  ctrl : off ≠ 0x000 → t.ctrl = s.ctrl := by exact fun _ => rfl
  width : off ≠ 0x008 → t.geom.width = s.geom.width := by exact fun _ => rfl
  height : off ≠ 0x00C → t.geom.height = s.geom.height := by exact fun _ => rfl
  format : off ≠ 0x010 → t.geom.format = s.geom.format := by exact fun _ => rfl
  count : off ≠ 0x014 → t.segs.count = s.segs.count := by exact fun _ => rfl
  inSkip : off ≠ 0x018 → t.segs.inSkip = s.segs.inSkip := by exact fun _ => rfl
  expIn : off ≠ 0x01C → t.segs.expIn = s.segs.expIn := by exact fun _ => rfl
  palCount : off ≠ 0x020 → t.color.palCount = s.color.palCount := by exact fun _ => rfl
  trnsLen : off ≠ 0x024 → t.color.trnsLen = s.color.trnsLen := by exact fun _ => rfl
  outBase : off ≠ 0x028 → t.out.base = s.out.base := by exact fun _ => rfl
  outCap : off ≠ 0x02C → t.out.cap = s.out.cap := by exact fun _ => rfl
  baseAt : ∀ i, off ≠ 0x100 + 8 * i → t.segs.baseAt i = s.segs.baseAt i := by exact fun _ _ => rfl
  lenAt : ∀ i, off ≠ 0x104 + 8 * i → t.segs.lenAt i = s.segs.lenAt i := by exact fun _ _ => rfl
  palAt : ∀ i, off ≠ 0x800 + 4 * i → t.color.palAt i = s.color.palAt i := by exact fun _ _ => rfl
  trnsAt : ∀ i, off ≠ 0xC00 + 4 * i → t.color.trnsAt i = s.color.trnsAt i := by exact fun _ _ => rfl

/-- Storing an entry leaves the others. -/
theorem lookupCell_setEntry_ne {l : List (Nat × Word)} {i k : Nat} (v : Word) (h : risingFrom 0 l = true)
    (hne : i ≠ k) : (lookupCell k (setEntry i v l)).getD 0 = (lookupCell k l).getD 0 := by
  rw [lookupCell_setEntry _ _ 0 _ _ h, if_neg hne]

/-- Listing a value leaves the others. -/
theorem lookupCell_insertCell_ne {α : Type} {i k : Nat} (v d : α) (l : List (Nat × α)) (hne : i ≠ k) :
    (lookupCell k (insertCell i v l)).getD d = (lookupCell k l).getD d := by
  rw [lookupCell_insertCell, if_neg hne]

theorem writeReg_wroteOnly {s : State} {off : Nat} (w : Word) (h : s.Canonical) (hoff : WindowOffset off) :
    s.WroteOnly off (writeReg off w s) := by
  obtain ⟨-, -, -, -, ⟨hbase, -⟩, ⟨hlen, -⟩, -⟩ := h
  obtain ⟨-, halign⟩ := hoff
  unfold writeReg
  repeat' refine iteInduction (motive := s.WroteOnly off) (fun _ => ?_) (fun _ => ?_)
  · exact { ctrl := fun h => absurd ‹_› h }
  · exact { width := fun h => absurd ‹_› h, status := (if_pos (by omega)).symm }
  · exact { height := fun h => absurd ‹_› h, status := (if_pos (by omega)).symm }
  · exact { format := fun h => absurd ‹_› h, status := (if_pos (by omega)).symm }
  · exact { count := fun h => absurd ‹_› h }
  · exact { inSkip := fun h => absurd ‹_› h }
  · exact { expIn := fun h => absurd ‹_› h }
  · exact { palCount := fun h => absurd ‹_› h }
  · exact { trnsLen := fun h => absurd ‹_› h }
  · exact { outBase := fun h => absurd ‹_› h }
  · exact { outCap := fun h => absurd ‹_› h }
  · exact {}
  · exact {}
  · exact { baseAt := fun i hi => lookupCell_setEntry_ne w hbase (by omega) }
  · exact { lenAt := fun i hi => lookupCell_setEntry_ne w hlen (by omega) }
  · exact { palAt := fun i hi => lookupCell_insertCell_ne _ _ _ (by omega) }
  · exact { trnsAt := fun i hi => lookupCell_insertCell_ne _ _ _ (by omega) }
  · exact {}

/-- Every other register reads as before, but STATUS after a write of the geometry (R52). -/
theorem State.WroteOnly.readReg_eq {off off2 : Nat} {s t : State} (h : s.WroteOnly off t) (hoff2 : WindowOffset off2)
    (hne : off2 ≠ off) :
    readReg t off2 =
      if (off = 0x008 ∨ off = 0x00C ∨ off = 0x010) ∧ off2 = 0x004 then
        statusWord { s.status with rawvalid := false }
      else readReg s off2 := by
  obtain ⟨-, halign⟩ := hoff2
  by_cases hstatus : off2 = 0x004
  · subst hstatus
    change statusWord t.status = _
    rw [h.status]
    by_cases hgeom : off = 0x008 ∨ off = 0x00C ∨ off = 0x010
    · rw [if_pos hgeom, if_pos ⟨hgeom, rfl⟩]; rfl
    · rw [if_neg hgeom, if_neg fun hg => hgeom hg.1]; rfl
  · rw [if_neg fun hg => hstatus hg.2]
    unfold readReg
    refine ite_congr rfl (fun _ => congrArg ctrlWord (h.ctrl (by omega))) fun _ => ?_
    refine ite_congr rfl (fun h4 => absurd h4 hstatus) fun _ => ?_
    refine ite_congr rfl (fun _ => h.width (by omega)) fun _ => ?_
    refine ite_congr rfl (fun _ => h.height (by omega)) fun _ => ?_
    refine ite_congr rfl (fun _ => congrArg formatWord (h.format (by omega))) fun _ => ?_
    refine ite_congr rfl (fun _ => congrArg (BitVec.setWidth 32) (h.count (by omega))) fun _ => ?_
    refine ite_congr rfl (fun _ => h.inSkip (by omega)) fun _ => ?_
    refine ite_congr rfl (fun _ => h.expIn (by omega)) fun _ => ?_
    refine ite_congr rfl (fun _ => congrArg (BitVec.setWidth 32) (h.palCount (by omega))) fun _ => ?_
    refine ite_congr rfl (fun _ => congrArg (BitVec.setWidth 32) (h.trnsLen (by omega))) fun _ => ?_
    refine ite_congr rfl (fun _ => h.outBase (by omega)) fun _ => ?_
    refine ite_congr rfl (fun _ => h.outCap (by omega)) fun _ => ?_
    refine ite_congr rfl (fun _ => h.rawSize) fun _ => ?_
    refine ite_congr rfl (fun _ => h.outPos) fun _ => ?_
    refine ite_congr rfl (fun _ => h.consumed) fun _ => ?_
    refine ite_congr rfl (fun _ => rfl) fun _ => ?_
    refine ite_congr rfl (fun _ => ?segment) fun _ => ?_
    case segment =>
      refine ite_congr (by rw [h.params]) (fun _ => rfl) fun _ => ?_
      exact ite_congr rfl (fun _ => h.baseAt _ (by omega)) fun _ => h.lenAt _ (by omega)
    refine ite_congr rfl (fun _ => congrArg (BitVec.setWidth 32) (h.palAt _ (by omega))) fun _ => ?_
    exact congrArg (BitVec.setWidth 32) (h.trnsAt _ (by omega))

/-! ### What a plain write stores (R33 to R46) -/

/-- The offsets from the segment table on. -/
theorem writeReg_of_le {off : Nat} (w : Word) (s : State) (h : 0x100 ≤ off) :
    writeReg off w s =
      if off < 0x800 then
        if s.params.maxSegs ≤ (off - 0x100) / 8 then s
        else if off % 8 = 0 then
          { s with segs := { s.segs with base := setEntry ((off - 0x100) / 8) w s.segs.base } }
        else { s with segs := { s.segs with len := setEntry ((off - 0x100) / 8) w s.segs.len } }
      else if off < 0xC00 then
        { s with color := { s.color with pal := insertCell ((off - 0x800) / 4) (w.setWidth 24) s.color.pal } }
      else if off < 0x1000 then
        { s with color := { s.color with trns := insertCell ((off - 0xC00) / 4) (w.setWidth 8) s.color.trns } }
      else s := by
  unfold writeReg
  iterate 12 rw [if_neg (by omega)]

theorem readReg_of_le {off : Nat} (s : State) (h : 0x100 ≤ off) :
    readReg s off =
      if off < 0x800 then
        if s.params.maxSegs ≤ (off - 0x100) / 8 then 0
        else if off % 8 = 0 then s.segs.baseAt ((off - 0x100) / 8)
        else s.segs.lenAt ((off - 0x100) / 8)
      else if off < 0xC00 then (s.color.palAt ((off - 0x800) / 4)).setWidth 32
      else (s.color.trnsAt ((off - 0xC00) / 4)).setWidth 32 := by
  unfold readReg
  iterate 16 rw [if_neg (by omega)]

theorem writeMask_of_le {off : Nat} (p : Params) (h : 0x100 ≤ off) :
    writeMask p off =
      if off < 0x100 + 8 * p.maxSegs then some 0xFFFFFFFF
      else if off < 0x800 then none
      else if off < 0xC00 then some 0x00FFFFFF
      else some 0xFF := by
  unfold writeMask
  iterate 8 rw [if_neg (by omega)]

/-- Below the segment table: CTRL and the registers of R33, one by one; an offset without a register stores nothing. -/
theorem readReg_writeReg_same_low {s : State} {off : Nat} (w : Word) (hlow : off < 0x100) (hoff : WindowOffset off) :
    readReg (writeReg off w s) off = (writeMask s.params off).elim (readReg s off) (w &&& ·) := by
  obtain ⟨-, halign⟩ := hoff
  have hall : w = w &&& 0xFFFFFFFF := (BitVec.and_allOnes (x := w)).symm
  by_cases hmapped : off < 0x030
  · obtain rfl | rfl | rfl | rfl | rfl | rfl | rfl | rfl | rfl | rfl | rfl | rfl :
        off = 0x000 ∨ off = 0x004 ∨ off = 0x008 ∨ off = 0x00C ∨ off = 0x010 ∨ off = 0x014 ∨ off = 0x018 ∨ off = 0x01C
          ∨ off = 0x020 ∨ off = 0x024 ∨ off = 0x028 ∨ off = 0x02C := by omega
    · exact ctrlWord_of_word w
    · rfl
    · exact hall
    · exact hall
    · exact formatWord_of_word w
    · exact setWidth_setWidth_eq_and w (k := 16) (by omega)
    · exact hall
    · exact hall
    · exact setWidth_setWidth_eq_and w (k := 9) (by omega)
    · exact setWidth_setWidth_eq_and w (k := 9) (by omega)
    · exact hall
    · exact hall
  · have hwrite : writeReg off w s = s := by
      unfold writeReg
      iterate 11 rw [if_neg (by omega)]
      rw [if_pos hlow]
    have hmask : writeMask s.params off = none := by
      unfold writeMask
      iterate 7 rw [if_neg (by omega)]
      rw [if_pos hlow]
    rw [hwrite, hmask]; rfl

/-- The segment table, PAL and TRNS: the entry of the slot; past MAX_SEGS nothing is stored (R44 to R46). -/
theorem readReg_writeReg_same_table {s : State} {off : Nat} (w : Word) (hc : s.Canonical) (hp : s.params.Legal)
    (hhigh : 0x100 ≤ off) (hoff : WindowOffset off) :
    readReg (writeReg off w s) off = (writeMask s.params off).elim (readReg s off) (w &&& ·) := by
  obtain ⟨-, -, -, -, ⟨hbase, -⟩, ⟨hlen, -⟩, -⟩ := hc
  obtain ⟨-, hmax, -⟩ := hp
  obtain ⟨hlt, -⟩ := hoff
  have hall : w = w &&& 0xFFFFFFFF := (BitVec.and_allOnes (x := w)).symm
  by_cases hseg : off < 0x800
  · by_cases hslot : s.params.maxSegs ≤ (off - 0x100) / 8
    · have hmask : writeMask s.params off = none := by
        rw [writeMask_of_le _ hhigh, if_neg (by omega), if_pos hseg]
      rw [hmask, writeReg_of_le w s hhigh, if_pos hseg, if_pos hslot]
      rfl
    · have hmask : writeMask s.params off = some 0xFFFFFFFF := by
        rw [writeMask_of_le _ hhigh, if_pos (by omega)]
      rw [hmask, writeReg_of_le w s hhigh, if_pos hseg, if_neg hslot]
      by_cases hkind : off % 8 = 0
      · rw [if_pos hkind, readReg_of_le _ hhigh, if_pos hseg, if_neg (by exact hslot), if_pos hkind]
        exact (lookupCell_setEntry _ _ 0 w _ hbase).trans ((if_pos rfl).trans hall)
      · rw [if_neg hkind, readReg_of_le _ hhigh, if_pos hseg, if_neg (by exact hslot), if_neg hkind]
        exact (lookupCell_setEntry _ _ 0 w _ hlen).trans ((if_pos rfl).trans hall)
  · have hpast : ¬ off < 0x100 + 8 * s.params.maxSegs := by omega
    by_cases hpal : off < 0xC00
    · have hmask : writeMask s.params off = some 0x00FFFFFF := by
        rw [writeMask_of_le _ hhigh, if_neg hpast, if_neg hseg, if_pos hpal]
      rw [hmask, writeReg_of_le w s hhigh, if_neg hseg, if_pos hpal, readReg_of_le _ hhigh, if_neg hseg, if_pos hpal,
        ColorRegs.palAt, lookupCell_insertCell, if_pos rfl]
      exact setWidth_setWidth_eq_and w (k := 24) (by omega)
    · have hmask : writeMask s.params off = some 0xFF := by
        rw [writeMask_of_le _ hhigh, if_neg hpast, if_neg hseg, if_neg hpal]
      rw [hmask, writeReg_of_le w s hhigh, if_neg hseg, if_neg hpal, if_pos hlt, readReg_of_le _ hhigh, if_neg hseg,
        if_neg hpal, ColorRegs.trnsAt, lookupCell_insertCell, if_pos rfl]
      exact setWidth_setWidth_eq_and w (k := 8) (by omega)

/-- A write that is no command word is plain (R112, R340). -/
theorem regWriteStep_of_plain {s : State} {addr w : Word} {bits off : Nat}
    (h : regOffset s.params addr bits = some off)
    (hctrl : off = 0 → w.getLsbD 0 = false ∧ w.getLsbD 5 = false) :
    regWriteStep addr bits w s = .next (hostPlainWrite off w s) := by
  rcases regWriteStep_cases w h with ⟨h0, hstart, -⟩ | ⟨h0, -, hclear, -⟩ | ⟨-, he⟩
  · exact absurd ((hctrl h0).1.symm.trans hstart) Bool.false_ne_true
  · exact absurd ((hctrl h0).2.symm.trans hclear) Bool.false_ne_true
  · exact he

/-- A register reads back what was written, within its fields; a read-only or unmapped offset as before (R32). -/
theorem readReg_writeReg_same {s : State} {off : Nat} (w : Word) (hc : s.Canonical) (hp : s.params.Legal)
    (hoff : WindowOffset off) :
    readReg (writeReg off w s) off = (writeMask s.params off).elim (readReg s off) (w &&& ·) := by
  by_cases hlow : off < 0x100
  · exact readReg_writeReg_same_low w hlow hoff
  · exact readReg_writeReg_same_table w hc hp (Nat.not_lt.mp hlow) hoff

theorem hostRegRead_idle {s : State} (off : Nat) (hb : s.isBusy = false) :
    hostRegRead off s = s.returned (readReg s off) := by
  rw [hostRegRead, hb]; rfl

/-- Settles O7: `readReg_writeReg_same` for the register written, `WroteOnly` for the others. -/
theorem registerReadsBackWhatWasWritten : Obligations.RegisterReadsBackWhatWasWritten := by
  refine ⟨fun s q addr w off hc hp hb hq hoff hctrl => ?_, fun s q addr off hb hoff => ⟨fun hq => ?_, fun hq => ?_⟩⟩
  · have hwindow := windowOffset_of_regOffset hoff
    have hstep : step s = .next (writeReg off w (s.withQueue q)) := by
      rw [step_regWrite hq, regWriteStep_of_plain (s := s.withQueue q) hoff hctrl, hostPlainWrite,
        if_neg (by exact hb ▸ Bool.false_ne_true)]
    refine ⟨_, hstep, ?same, fun off2 hoff2 hne => ?other⟩
    case same =>
      have hsame := readReg_writeReg_same (s := s.withQueue q) w hc hp hwindow
      rw [hsame, withQueue_params]
      cases writeMask s.params off <;> rfl
    case other => exact (writeReg_wroteOnly (s := s.withQueue q) w hc hwindow).readReg_eq hoff2 hne
  · rw [step_regRead hq, regReadStep_of_some (s := s.withQueue q) hoff, hostRegRead_idle off (by exact hb)]
    rfl
  · unfold step
    rw [hq]
    dsimp only
    rw [if_neg (hb ▸ Bool.false_ne_true)]
    rfl

end Sys2Proof.Machine
end

section
/-! PROOFS of the family 10_state.md, part 14: a START that passes its checks (R341 to R349), and irq (R66, O11). -/

namespace Sys2Proof.Machine

/-! ### The start checks are those of R341 to R349, in that order -/

theorem isDecode_iff_toNat (s : State) : s.isDecode = true ↔ s.ctrl.cmd.toNat = 1 ∨ s.ctrl.cmd.toNat = 3 := by
  unfold State.isDecode
  generalize s.ctrl.cmd = c
  revert c
  decide

theorem isExpand_iff_toNat (s : State) : s.isExpand = true ↔ s.ctrl.cmd.toNat = 2 ∨ s.ctrl.cmd.toNat = 3 := by
  unfold State.isExpand
  generalize s.ctrl.cmd = c
  revert c
  decide

/-- Every segment lies in HMEM, or one of them does not (R343). -/
theorem fit_eq_false_iff (g : SegRegs) : g.fit = false ↔ ∃ p ∈ g.pairs, 2 ^ 32 < p.1 + p.2 := by
  simp [SegRegs.fit, SegRegs.pairs]

theorem sumLen_eq_total (g : SegRegs) : g.sumLen = g.total := by
  rw [SegRegs.sumLen, SegRegs.pairs, List.map_map]; rfl

/-- The formats of the core are the pairs of R142. -/
theorem supported_iff_mem_formatPairs (f : FormatReg) :
    f.supported = true ↔ (f.colorModel.toNat, f.bitDepth.toNat) ∈ formatPairs := by
  simp [FormatReg.supported, formatPairs, BitVec.toNat_eq, and_or_left, or_assoc]

theorem trnsLenLegal_iff (m : Byte) (pal trns : BitVec 9) :
    trnsLenLegal m pal trns = true ↔ trnsAllowed m.toNat pal.toNat trns.toNat := by
  simp [trnsLenLegal, BitVec.toNat_eq, or_assoc]

/-- The core's checks are the conditions of R341 to R347, with their errors. -/
theorem earlyChecks_eq_firstFailure (s : State) :
    earlyChecks s = firstFailure (checksToR347 s.ctrl.cmd.toNat s) := by
  have hcmd (c : BitVec 2) : (c = 0 ↔ c.toNat = 0) ∧ (c = 2 ↔ c.toNat = 2) := by revert c; decide
  obtain ⟨hreserved, hexpand⟩ := hcmd s.ctrl.cmd
  have hformat := not_congr (supported_iff_mem_formatPairs s.geom.format)
  have htrns := not_congr (trnsLenLegal_iff s.geom.format.colorModel s.color.palCount s.color.trnsLen)
  rw [Bool.not_eq_true] at hformat htrns
  unfold earlyChecks
  simp only [checksToR347, firstFailure, decide_eq_true_eq, hreserved, hexpand, isDecode_iff_toNat, isExpand_iff_toNat,
    fit_eq_false_iff, sumLen_eq_total, hformat, htrns]

/-- The checks of a START are those of its CMD, on the registers the START found. -/
theorem earlyChecks_beginCommand (cmd : BitVec 2) (inchk ie : Bool) (s : State) :
    earlyChecks (beginCommand cmd inchk ie s) = firstFailure (checksToR347 cmd.toNat s) := by
  rw [earlyChecks_eq_firstFailure, beginCommand_eq]
  dsimp only
  obtain rfl | rfl | rfl | rfl : cmd = 0 ∨ cmd = 1 ∨ cmd = 2 ∨ cmd = 3 := by revert cmd; decide
  all_goals rfl

theorem firstFailure_append (l l' : List (Bool × Err)) :
    firstFailure (l ++ l') = (firstFailure l).or (firstFailure l') := by
  induction l with
  | nil => rfl
  | cons c r ih =>
    obtain ⟨failed, e⟩ := c
    cases failed with
    | true => rfl
    | false => exact ih

/-- Where no check of R348 and R349 fails, there is room in RAW and in OUT. -/
theorem checksFromR348_none {cmd : Nat} {s : State} (h : firstFailure (checksFromR348 cmd s) = none) :
    (cmd = 1 ∨ cmd = 3 → s.geom.rasterSize ≤ s.params.rawCapMax)
      ∧ (cmd = 2 ∨ cmd = 3 → s.outTooSmall = false) := by
  simp only [checksFromR348, firstFailure, decide_eq_true_eq] at h
  split_ifs at h with hraw hout
  rw [not_and, Nat.not_lt] at hraw
  exact ⟨hraw, fun hx => decide_eq_false fun hsmall => hout ⟨hx, hsmall⟩⟩

/-- A START that fails no check enters the first phase of its command (R331). -/
theorem startPhase_of_no_error {cmd : BitVec 2} {s : State} (inchk ie : Bool) (h : startError cmd.toNat s = none) :
    let b := beginCommand cmd inchk ie s
    b.geom.Legal ∧ startPhase b = .ok () (if b.isDecode then enterInflate (latchRawSize b) else enterExpand b) := by
  intro b
  rw [startError, firstFailure_append, Option.or_eq_none_iff] at h
  have hearly : earlyChecks b = none := (earlyChecks_beginCommand cmd inchk ie s).trans h.1
  obtain ⟨hraw, hout⟩ := checksFromR348_none h.2
  obtain ⟨hnonzero, -, -, -, hlegal⟩ := earlyChecks_none hearly
  have hb : b = _ := beginCommand_eq cmd inchk ie s
  have hcmd : b.ctrl.cmd = cmd := by rw [hb]
  have hout : b.isExpand = true → b.outTooSmall = false := fun hx => by
    rw [isExpand_iff_toNat, hcmd] at hx
    rw [hb]
    exact hout hx
  have hraw : b.isDecode = true → b.geom.rasterSize ≤ b.params.rawCapMax := fun hd => by
    rw [isDecode_iff_toNat, hcmd] at hd
    rw [hb]
    exact hraw hd
  refine ⟨hlegal, ?_⟩
  unfold startPhase
  rw [hearly]
  dsimp only
  cases hd : b.isDecode with
  | true =>
    rw [if_pos rfl, if_pos rfl, if_neg (by exact Nat.not_lt.mpr (hraw hd)), if_neg]
    rintro ⟨hx, hsmall⟩
    exact Bool.false_ne_true ((hout hx).symm.trans hsmall)
  | false =>
    rw [if_neg Bool.false_ne_true, if_neg Bool.false_ne_true, hout (cmd_eq_expand hnonzero hd).2]
    rfl

/-! ### irq (R66) -/

theorem irq_eq_false_of_ie {s : State} (h : s.ctrl.ie = false) : s.irq = false := by
  rw [State.irq, h, Bool.false_and]

theorem irq_eq_false_of_state {s : State} (h : s.status.state = .idle ∨ s.status.state = .busy) : s.irq = false := by
  have hincomplete : (s.status.state == .done || s.status.state == .error) = false := by
    rcases h with h | h
    all_goals rw [h]; rfl
  rw [State.irq, hincomplete, Bool.and_false]

/-- The start checks leave CTRL as the START wrote it (R330). -/
theorem startPhase_ctrl (s : State) : (startPhase s).Holds fun u => u.ctrl = s.ctrl := by
  unfold startPhase
  split
  · exact .raise rfl
  · dsimp only
    split
    · split
      · exact .raise rfl
      · split
        · exact .raise rfl
        · exact .ok rfl
    · split
      · exact .raise rfl
      · refine .ok ?_
        rcases enterExpand_cases s with ⟨p, -, he⟩ | ⟨-, he⟩
        · rw [he]
        · rw [he]; rfl

/-- A START while not BUSY stores IE, whatever its checks find (R330). -/
theorem startCommand_ctrl {cmd : BitVec 2} {inchk ie : Bool} {s t : State} (hb : s.isBusy = false)
    (h : startCommand cmd inchk ie s = .next t) : t.ctrl = ⟨cmd, inchk, ie⟩ := by
  rw [startCommand, hb] at h
  have hbegin : (beginCommand cmd inchk ie s).ctrl = ⟨cmd, inchk, ie⟩ := by rw [beginCommand_eq]
  rcases (startPhase_ctrl _).outcome h with ht | ⟨e, u, hu, rfl⟩
  · exact ht.trans hbegin
  · exact hu.trans hbegin

/-- A START that fails no check leaves the core BUSY (R330, R331). -/
theorem startCommand_busy {cmd : BitVec 2} {inchk ie : Bool} {s t : State} (hb : s.isBusy = false)
    (herr : startError cmd.toNat s = none) (h : startCommand cmd inchk ie s = .next t) : t.status.state = .busy := by
  obtain ⟨hlegal, hok⟩ := startPhase_of_no_error inchk ie herr
  rw [startCommand, hb, if_neg Bool.false_ne_true, hok] at h
  obtain rfl := Host.Outcome.next.inj h
  have hbegin : (beginCommand cmd inchk ie s).status.state = .busy := by rw [beginCommand_eq]
  split
  · exact hbegin
  · rcases enterExpand_cases (beginCommand cmd inchk ie s) with ⟨p, -, he⟩ | ⟨hnone, -⟩
    · rw [he]; exact hbegin
    · rw [nextPass_zero hlegal] at hnone
      cases hnone

/-- Settles O11: IE and completion, event by event. -/
theorem irqFollowsCompletionAndEnable : Obligations.IrqFollowsCompletionAndEnable := by
  refine ⟨fun s => ?iff, fun s t cmd inchk ie hb h => ?clear, fun s t cmd inchk ie clear hb hpass h => ?start,
    fun s w hie => irq_eq_false_of_ie hie, rfl⟩
  case iff => simp only [State.irq, Bool.and_eq_true, Bool.or_eq_true, beq_iff_eq]
  case clear =>
    obtain rfl : clearCommand cmd inchk ie s = t := by
      have hclear : exec (.ctrlClear cmd inchk ie) s = execCtrlClear cmd inchk ie s := rfl
      rw [hclear, execCtrlClear, hb] at h
      exact Host.Outcome.next.inj h
    refine irq_eq_false_of_state ?_
    rw [clearCommand_status, cleared_state]
    split
    · exact .inr rfl
    · exact .inl rfl
  case start =>
    rw [exec_startElement] at h
    rcases hpass with herr | hie
    · exact irq_eq_false_of_state (.inr (startCommand_busy hb herr h))
    · exact irq_eq_false_of_ie (by rw [startCommand_ctrl hb h, hie])

end Sys2Proof.Machine
end

section
/-! PROOFS of the family 20_memory.md, part 1: what a step of the core leaves alone while its command runs, and how the
command ends (R62, R309, R338, R410). -/

namespace Sys2Proof.Machine

/-! ### The frame of a running command -/

/-- `s` with the core's own registers and RAWVALID as at reset: what a running command leaves alone, but for the pixels
it writes to HMEM. -/
def State.frame (s : State) : State :=
  { State.reset with
    params := s.params
    ctrl := s.ctrl
    status := s.status.setRawValid false
    geom := s.geom
    segs := s.segs
    color := s.color
    out := s.out
    hmem := s.hmem
    race := s.race
    draws := s.draws
    bus := s.bus }

/-- The frame of `t` is `v`. Writing a register outside the frame keeps this by definition. -/
def State.HasFrame (v t : State) : Prop := t.frame = v

theorem isBusy_of_frame {s t : State} (h : t.frame = s.frame) : t.isBusy = s.isBusy :=
  show t.frame.isBusy = s.frame.isBusy from congrArg State.isBusy h

/-! ### The inflate engine keeps the frame -/

section
variable {v : State}

theorem CoreResult.OnlyCursor.frame {α : Type} {s : State} {r : CoreResult α} (h : r.OnlyCursor s)
    (hs : v.HasFrame s) : r.Holds v.HasFrame := by
  cases r with
  | ok x t => rw [show t = { s with cursor := t.cursor } from h]; exact .ok hs
  | raise e t => rw [show t = { s with cursor := t.cursor } from h.2]; exact .raise hs
  | fault f => exact .fault

theorem CoreResult.OnlyOutput.frame {α : Type} {s : State} {r : CoreResult α} (h : r.OnlyOutput s)
    (hs : v.HasFrame s) : r.Holds v.HasFrame := by
  cases r with
  | ok x t => rw [OnlyOutput.of_ok h rfl]; exact .ok hs
  | raise e t => rw [h.2]; exact .raise hs
  | fault f => exact .fault

theorem takeBits_frame (n : Nat) {s : State} (hs : v.HasFrame s) : (takeBits n s).Holds v.HasFrame :=
  CoreResult.OnlyCursor.frame (takeBits_onlyCursor n s) hs

theorem decodeSym_frame (tab : HuffTable) {s : State} (hs : v.HasFrame s) : (decodeSym tab s).Holds v.HasFrame :=
  CoreResult.OnlyCursor.frame (decodeSym_onlyCursor tab s) hs

theorem storedBody_frame {s : State} (hs : v.HasFrame s) : (storedBody s).Holds v.HasFrame :=
  .bind (CoreResult.OnlyOutput.frame (copyStored_onlyOutput _ s) hs) fun _ _ ht => .ok ht

theorem storedBlock_frame {s : State} (hs : v.HasFrame s) : (storedBlock s).Holds v.HasFrame := by
  refine .bind (takeBits_frame 16 hs) fun n t ht => .bind (takeBits_frame 16 ht) fun c u hu => ?_
  exact iteInduction (fun _ => .raise hu) fun _ => storedBody_frame hu

theorem readClLens_frame (order : List Nat) {s : State} (hs : v.HasFrame s) :
    (readClLens order s).Holds v.HasFrame := by
  induction order generalizing s with
  | nil => exact .ok hs
  | cons j js ih => exact .bind (takeBits_frame 3 hs) fun _ _ ht => ih ht

theorem readCodeLengthCode_frame {s : State} (hs : v.HasFrame s) : (readCodeLengthCode s).Holds v.HasFrame := by
  refine .bind (readClLens_frame _ hs) fun _ t ht => ?_
  cases build t.inflate.clLen true with
  | error e => exact .raise ht
  | ok clt => exact .ok ht

theorem dynamicBlock_frame {s : State} (hs : v.HasFrame s) : (dynamicBlock s).Holds v.HasFrame :=
  .bind (takeBits_frame 5 hs) fun _ _ ht => .bind (takeBits_frame 5 ht) fun _ _ hu =>
    .bind (takeBits_frame 4 hu) fun _ _ hw =>
      iteInduction (fun _ => .raise hw) fun _ => readCodeLengthCode_frame hw

theorem buildLitDist_frame {s : State} (hs : v.HasFrame s) : (buildLitDist s).Holds v.HasFrame := by
  unfold buildLitDist
  split
  · exact .raise hs
  · dsimp only
    split
    · exact .raise hs
    · exact .ok hs

theorem lengthLoop_frame {s : State} (hs : v.HasFrame s) : (lengthLoop s).Holds v.HasFrame :=
  iteInduction (fun _ => .ok hs) fun _ => buildLitDist_frame hs

theorem putLengths_frame (p r : Nat) {s : State} (hs : v.HasFrame s) : (putLengths p r s).Holds v.HasFrame :=
  iteInduction (fun _ => .raise hs) fun _ => lengthLoop_frame hs

/-- Every element of the inflate engine is a datapath result that keeps the frame (R201 to R227). -/
theorem exec_inflate_frame {i : Instr} {s : State} (hf : i.format ∈ [.bhdr, .cl, .litlen, .dist])
    (hs : v.HasFrame s) : ∃ r : CoreResult Unit, exec i s = r.outcome ∧ r.Holds v.HasFrame := by
  have hrepeat (n base : Nat) (p : State → Nat) :
      ((takeBits n s).bind fun x t => putLengths (p t) (base + x) t).Holds v.HasFrame :=
    .bind (takeBits_frame n hs) fun _ _ ht => putLengths_frame _ _ ht
  cases i with
  | blkStored f => exact ⟨_, rfl, storedBlock_frame hs⟩
  | blkFixed f => exact ⟨.ok () _, rfl, .ok hs⟩
  | blkDynamic f => exact ⟨_, rfl, dynamicBlock_frame hs⟩
  | blkInvalid f => exact ⟨.raise .invalidBlockType _, rfl, .raise hs⟩
  | clLen n => exact ⟨_, rfl, lengthLoop_frame hs⟩
  | clRepPrev =>
    exact ⟨_, rfl, iteInduction (fun _ => .raise hs) fun _ =>
      hrepeat 2 3 fun t => t.inflate.len.getD (t.inflate.lenIdx - 1) 0⟩
  | clRepZero3 => exact ⟨_, rfl, hrepeat 3 3 fun _ => 0⟩
  | clRepZero11 => exact ⟨_, rfl, hrepeat 7 11 fun _ => 0⟩
  | lit b => exact ⟨_, rfl, CoreResult.OnlyOutput.frame (emit_onlyOutput b s) hs⟩
  | eob => exact ⟨.ok () _, rfl, .ok hs⟩
  | len sym =>
    simp only [exec, execLen]
    generalize sym - 257 = k
    exact ⟨_, rfl, .bind (takeBits_frame _ hs) fun _ _ ht => .ok ht⟩
  | lenInvalid sym => exact ⟨.raise .invalidCode s, rfl, .raise hs⟩
  | dist sym =>
    exact ⟨_, rfl, .bind (takeBits_frame _ hs) fun _ _ ht => iteInduction (fun _ => .raise ht) fun _ =>
      CoreResult.OnlyOutput.frame (copyMatch_onlyOutput ..) ht⟩
  | distInvalid sym =>
    exact ⟨_, rfl, .bind (CoreResult.OnlyCursor.frame (readOn_onlyCursor 10 s) hs) fun _ _ ht => .raise ht⟩
  | _ => simp [Instr.format] at hf

/-! ### The fetches keep the frame -/

/-- A fetch from the carrier `f`: it decodes a word of `f`, in a state with the frame `v`, or stops (R110). -/
inductive CoreResult.Fetches (f : Format) (v : State) : CoreResult (Except DecodeError Instr) → Prop
  | ok {w : Nat} {t : State} (h : v.HasFrame t) : Fetches f v (.ok (decode f w) t)
  | raise {e : Err} {t : State} (h : v.HasFrame t) : Fetches f v (.raise e t)
  | fault {g : Fault} : Fetches f v (.fault g)

theorem CoreResult.Fetches.bind {α : Type} {f : Format} {r : CoreResult α}
    {k : α → State → CoreResult (Except DecodeError Instr)} (hr : r.Holds v.HasFrame)
    (hk : ∀ x t, v.HasFrame t → (k x t).Fetches f v) : (r.bind k).Fetches f v := by
  cases hr with
  | ok h => exact hk _ _ h
  | raise h => exact .raise h
  | fault => exact .fault

theorem fetchHeader_fetches {s : State} (hs : v.HasFrame s) : (fetchHeader s).Fetches .bhdr v :=
  .bind (takeBits_frame 1 hs) fun _ _ ht => .bind (takeBits_frame 2 ht) fun _ _ hu => .ok hu

theorem fetchCodeLength_fetches {s : State} (hs : v.HasFrame s) : (fetchCodeLength s).Fetches .cl v :=
  .bind (decodeSym_frame _ hs) fun _ _ ht => .ok ht

theorem fetchLitLen_fetches {s : State} (hs : v.HasFrame s) : (fetchLitLen s).Fetches .litlen v :=
  .bind (decodeSym_frame _ hs) fun _ _ ht => .ok ht

theorem fetchFixedDist_fetches {s : State} (hs : v.HasFrame s) : (fetchFixedDist s).Fetches .dist v := by
  refine .bind (CoreResult.OnlyCursor.frame (searchSym_onlyCursor ..) hs) fun r t ht => ?_
  cases r with
  | found sym => exact .ok ht
  | missed code => exact .ok ht

theorem fetchDist_fetches {s : State} (hs : v.HasFrame s) : (fetchDist s).Fetches .dist v :=
  iteInduction (fun _ => fetchFixedDist_fetches hs) fun _ => .bind (decodeSym_frame _ hs) fun _ _ ht => .ok ht

theorem fetchTag_fetches {s : State} (hs : v.HasFrame s) : (fetchTag s).Fetches .filter v :=
  iteInduction (fun _ => .fault) fun _ => .ok hs

/-- A step that fetches has run an element of the carrier, or raised the fetch's error. -/
theorem CoreResult.Fetches.runElement_next {f : Format} {r : CoreResult (Except DecodeError Instr)} {t : State}
    (hr : r.Fetches f v) (h : runElement r = .next t) :
    (∃ i u, i.format = f ∧ v.HasFrame u ∧ exec i u = .next t) ∨ ∃ e u, v.HasFrame u ∧ t = raiseError e u := by
  cases hr with
  | @ok w u hu =>
    cases hi : decode f w with
    | ok i => rw [hi] at h; exact .inl ⟨i, u, decode_format hi, hu, h⟩
    | error e => rw [hi] at h; cases h
  | raise hu => exact .inr ⟨_, _, hu, (Host.Outcome.next.inj h).symm⟩
  | fault => cases h

end

/-! ### The core's step -/

/-- `m` is HMEM after the step's own writes: as before or, in EXPAND, with the pixel written (R309, R310). -/
def State.Writes (s : State) (m : Memory) : Prop :=
  m = s.hmem ∨ s.phase = .expand ∧ ∃ p, m = s.hmem.writePixel (pixelAddress s.geom.format.interlace s) p

/-- Everything a step of the core can do to the frame: keep it but for a pixel, or end the command from a state that has
it, in an error or in finish() (R338, R410). -/
inductive State.CoreMove (s t : State) : Prop
  | runs (m : Memory) (hm : s.Writes m) (h : t.frame = State.frame { s with hmem := m })
  | raised (e : Err) (u : State) (ht : t = raiseError e u) (h : u.frame = s.frame)
  | finished (m : Memory) (hm : s.Writes m) (u : State) (ht : t = finishCommand u)
      (h : u.frame = State.frame { s with hmem := m })

theorem CoreResult.Holds.coreMove {α : Type} {s t : State} {r : CoreResult α} (hr : r.Holds s.frame.HasFrame)
    (h : r.outcome = .next t) : s.CoreMove t := by
  rcases hr.outcome h with ht | ⟨e, u, hu, ht⟩
  · exact .runs s.hmem (.inl rfl) ht
  · exact .raised e u ht hu

/-- A phase that fetches from an inflate carrier keeps the frame, or raises (R62, R110). -/
theorem inflate_move {s t : State} {f : Format} {r : CoreResult (Except DecodeError Instr)}
    (hr : r.Fetches f s.frame) (hf : f ∈ [.bhdr, .cl, .litlen, .dist]) (h : runElement r = .next t) : s.CoreMove t := by
  rcases hr.runElement_next h with ⟨i, u, hi, hu, he⟩ | ⟨e, u, hu, ht⟩
  · obtain ⟨r, hexec, hholds⟩ := exec_inflate_frame (hi ▸ hf) hu
    exact hholds.coreMove (hexec ▸ he)
  · exact .raised e u ht hu

theorem enterExpand_move {s u : State} (h : u.frame = s.frame) : s.CoreMove (enterExpand u) := by
  rcases enterExpand_cases u with ⟨p, -, he⟩ | ⟨-, he⟩ <;> rw [he]
  · exact .runs s.hmem (.inl rfl) h
  · exact .finished s.hmem (.inl rfl) u rfl h

theorem endRecon_move {s u : State} (h : u.frame = s.frame) : s.CoreMove (endRecon u) := by
  rcases endRecon_cases u with ⟨-, he⟩ | ⟨-, he⟩ <;> rw [he]
  · exact enterExpand_move h
  · exact .finished s.hmem (.inl rfl) _ rfl h

theorem nextRow_move {s u : State} (h : u.frame = s.frame) : s.CoreMove (nextRow u) := by
  rcases nextRow_cases u with ⟨-, he⟩ | ⟨-, ⟨p, -, he⟩ | ⟨-, he⟩⟩ <;> rw [he]
  · exact .runs s.hmem (.inl rfl) h
  · exact .runs s.hmem (.inl rfl) h
  · exact endRecon_move h

/-- A row of RECON keeps the frame, ends the phase, or raises (R252, R258). -/
theorem recon_move {s t : State} (h : runElement (fetchTag s) = .next t) : s.CoreMove t := by
  have hrow {u : State} (pred : Byte → Byte → Byte → Byte) (hu : u.frame = s.frame) (he : filterRow pred u = .next t) :
      s.CoreMove t := by
    rcases filterRow_cases pred u with ⟨-, hf⟩ | ⟨-, hf⟩ <;> rw [hf] at he
    · cases he
    · exact Host.Outcome.next.inj he ▸ nextRow_move hu
  rcases (fetchTag_fetches rfl).runElement_next h with ⟨i, u, hi, hu, he⟩ | ⟨e, u, hu, ht⟩
  · cases i with
    | filtNone => exact hrow _ hu he
    | filtSub => exact hrow _ hu he
    | filtUp => exact hrow _ hu he
    | filtAvg => exact hrow _ hu he
    | filtPaeth => exact hrow _ hu he
    | filtInvalid tag => exact .raised .invalidFilterType u (Host.Outcome.next.inj he).symm hu
    | _ => cases hi
  · exact .raised e u ht hu

/-- After a pixel comes the next pixel, or the end of the command (R292). -/
theorem nextPixel_move {s u : State} {m : Memory} {il : Byte} {bits : Nat} (hm : s.Writes m)
    (h : u.frame = State.frame { s with hmem := m }) : s.CoreMove (nextPixel il bits u) := by
  rcases nextPixel_cases il bits u with ⟨_, _, _, _, he⟩ | ⟨_, he⟩ <;> rw [he]
  · exact .runs m hm h
  · exact .finished m hm _ rfl h

/-- A pixel of a legal raster is written at its address, or raises (R276, R292, R305, R310). -/
theorem expand_move {s t : State} (hp : s.phase = .expand) (hlegal : s.geom.Legal)
    (h : runElement (fetchFormat s) = .next t) : s.CoreMove t := by
  obtain ⟨-, -, hil, hsupported⟩ := hlegal
  obtain ⟨i, conv, hi, hexec, -⟩ := decodePixel_step hil hsupported
  have hfetch : fetchFormat s = .ok (.ok i) s := congrArg (CoreResult.ok · s) hi
  rw [runElement_of_ok hfetch, hexec] at h
  rcases pixelStep_cases s.geom.format.bitDepth.toNat (channels s.geom.format.colorModel) conv
    s.geom.format.interlace s with ⟨-, he⟩ | ⟨e, -, he⟩ | ⟨-, he⟩ | ⟨p, -, -, he⟩ <;> rw [he] at h
  · cases h
  · exact .raised e _ (Host.Outcome.next.inj h).symm rfl
  · cases h
  · exact Host.Outcome.next.inj h ▸ nextPixel_move (.inr ⟨hp, p, rfl⟩) rfl

/-- The start checks keep the frame, end the command of an image without pixels, or raise (R341 to R349). -/
theorem startPhase_move {s t : State} (h : (startPhase s).outcome = .next t) : s.CoreMove t := by
  have hraise {e : Err} {u : State} (hu : u.frame = s.frame)
      (he : (CoreResult.raise e u : CoreResult Unit).outcome = .next t) : s.CoreMove t :=
    .raised e u (Host.Outcome.next.inj he).symm hu
  unfold startPhase at h
  split at h
  · exact hraise rfl h
  · dsimp only at h
    split at h
    · split at h
      · exact hraise (u := latchRawSize s) rfl h
      · split at h
        · exact hraise (u := latchRawSize s) rfl h
        · exact Host.Outcome.next.inj h ▸ .runs s.hmem (.inl rfl) rfl
    · split at h
      · exact hraise rfl h
      · exact Host.Outcome.next.inj h ▸ enterExpand_move rfl

/-- The size checks keep the frame, end the command of an image without rows, or raise (R229 to R231). -/
theorem endChecks_move {s t : State} (h : (endChecks s).outcome = .next t) : s.CoreMove t := by
  unfold endChecks at h
  split at h
  · exact .raised .sizeMismatch s (Host.Outcome.next.inj h).symm rfl
  · split at h
    · exact .raised .sizeMismatch s (Host.Outcome.next.inj h).symm rfl
    · obtain rfl := Host.Outcome.next.inj h
      rcases enterRecon_cases s with ⟨p, -, he⟩ | ⟨-, he⟩ <;> rw [he]
      · exact .runs s.hmem (.inl rfl) rfl
      · exact endRecon_move rfl

/-- Everything a step of the core can do to the frame, from a state with the invariant (R62). -/
theorem coreStep_move {s t : State} (hinv : s.Inv) (h : coreStep s = .next t) : s.CoreMove t := by
  unfold coreStep at h
  cases hp : s.phase <;> rw [hp] at h <;> dsimp only at h
  case idle => exact Host.Outcome.next.inj h ▸ .runs s.hmem (.inl rfl) rfl
  case ended => exact Host.Outcome.next.inj h ▸ .runs s.hmem (.inl rfl) rfl
  case startCheck => exact startPhase_move h
  case infHdr => exact inflate_move (fetchHeader_fetches rfl) (by decide) h
  case infStored => exact (storedBody_frame rfl).coreMove h
  case infDynHdr => exact inflate_move (fetchCodeLength_fetches rfl) (by decide) h
  case infSym =>
    unfold fetchSymbol at h
    split at h
    · exact inflate_move (fetchDist_fetches rfl) (by decide) h
    · exact inflate_move (fetchLitLen_fetches rfl) (by decide) h
  case infEnd => exact endChecks_move h
  case recon => exact recon_move h
  case expand =>
    obtain ⟨-, -, -, hlegal, -⟩ := hinv.running (by simp [hp]) (by simp [hp]) (by simp [hp])
    exact expand_move hp hlegal h

end Sys2Proof.Machine
end

section
/-! PROOFS of the family 20_memory.md, part 2: the host's HMEM accesses, and the OUT bytes it wrote while BUSY once the
command has ended (R87, R91, R92, R412, R451, R457). -/

namespace Sys2Proof.Machine

/-! ### Host accesses -/

theorem hostMemWrite_idle {s : State} (a : Nat) (b : Byte) (hb : s.isBusy = false) :
    hostMemWrite a b s = { s with hmem := s.hmem.write a b } := by
  unfold hostMemWrite; rw [hb]; rfl

theorem hostMemWrite_busy {s : State} (a : Nat) (b : Byte) (hb : s.isBusy = true) :
    hostMemWrite a b s =
      { s with hmem := s.hmem.write a b, race := (a, s.draws) :: s.race, draws := s.draws + 1 } := by
  unfold hostMemWrite; rw [hb]; rfl

/-- After a host write while BUSY the core reads a draw there, and every other byte as before (R92; log 11). -/
theorem coreRead_hostMemWrite {s : State} (a : Nat) (b : Byte) (x : Nat) (hw : s.hmem.wf = true)
    (hb : s.isBusy = true) :
    (hostMemWrite a b s).coreRead x = if x = a then Config.freeRace s.draws a else s.coreRead x := by
  rw [hostMemWrite_busy a b hb]
  unfold State.coreRead
  dsimp only
  by_cases hx : x = a
  · subst hx; simp [lookupCell]
  · rw [lookupCell, if_neg (Ne.symm hx), Memory.read_write _ _ _ _ hw, if_neg hx, if_neg hx]

/-! ### The end of a command (R92) -/

/-- The address is an OUT byte the host wrote while BUSY in this command (R92). -/
def State.Raced (s : State) (a : Nat) : Prop := s.inOut a = true ∧ lookupCell a s.race ≠ none

theorem raced_of_frame {s t : State} {a : Nat} (h : t.frame = s.frame) (hr : s.Raced a) : t.Raced a :=
  show t.frame.Raced a from h ▸ hr

theorem inOut_iff (s : State) (a : Nat) : s.inOut a = true ↔ s.out.base.toNat ≤ a ∧ a < s.outEnd := by
  simp only [State.inOut, Bool.and_eq_true, decide_eq_true_eq]

/-- At the end of a command such a byte is a draw. -/
theorem settledMem_read_raced {s : State} {a : Nat} (h : s.Raced a) :
    ∃ k, s.settledMem.read a = Config.freeHmem k a := by
  obtain ⟨hout, hrace⟩ := h
  obtain ⟨k, hk⟩ := Option.ne_none_iff_exists'.mp hrace
  exact ⟨k, settle_read_raced _ _ _ _ _ _ ((inOut_iff s a).mp hout) hk⟩

/-- So it is after an error, where the whole OUT range of an EXPAND-type command is drawn anew (R412). -/
theorem errorMem_read_raced {s : State} {a : Nat} (h : s.Raced a) : ∃ k, s.errorMem.read a = Config.freeHmem k a := by
  unfold State.errorMem
  split
  · exact ⟨s.draws, by rw [Memory.read_makeFree, if_pos ((inOut_iff s a).mp h.1)]⟩
  · exact settledMem_read_raced h

/-- So it is after the reset input, which ends a running command as an error does (R451, R457). -/
theorem resetMem_read_raced {s : State} {a : Nat} (hb : s.isBusy = true) (h : s.Raced a) :
    ∃ k, s.resetMem.read a = Config.freeHmem k a := by
  rw [State.resetMem, if_pos hb]
  exact errorMem_read_raced h

/-- A step of the core that ends a running command settles the memory of a state with the command's frame, in an error
or in finish(). -/
theorem coreStep_ends_raced {s t : State} {a : Nat} (hinv : s.Inv) (h : coreStep s = .next t) (hb : s.isBusy = true)
    (hend : t.isBusy = false) (hr : s.Raced a) : ∃ k, t.hmem.read a = Config.freeHmem k a := by
  cases coreStep_move hinv h with
  | runs m _ hf =>
    have hbusy : t.isBusy = true := (isBusy_of_frame hf).trans hb
    exact absurd (hend.symm.trans hbusy) Bool.false_ne_true
  | raised e u ht hf => exact ht ▸ errorMem_read_raced (raced_of_frame hf hr)
  | finished m _ u ht hf => exact ht ▸ settledMem_read_raced (raced_of_frame hf hr)

/-! ### The statement -/

/-- Settles O60: a write and a read by what they do while BUSY and while not; the end of a command by what a step of the
core can do to the frame. -/
theorem hostMemoryAccesses : Obligations.HostMemoryAccesses := by
  refine ⟨fun s q addr b hw hq => ?write, fun s q addr hq => ?read,
    fun s t a hinv hmove hstep hb hend hout hrace => ?ends⟩
  case write =>
    have hstep : step s = .next (hostMemWrite addr.toNat b (s.withQueue q)) := by unfold step; rw [hq]
    have hread (x : Nat) := Memory.read_write s.hmem addr.toNat x b hw
    refine ⟨_, hstep, ?_⟩
    cases hb : s.isBusy with
    | false =>
      rw [hostMemWrite_idle _ _ (by exact hb)]
      exact ⟨rfl, (hread _).trans (if_pos rfl), fun x hx => (hread x).trans (if_neg hx), fun _ => ⟨rfl, rfl⟩,
        fun h => absurd h Bool.false_ne_true⟩
    | true =>
      have hcore (x : Nat) := coreRead_hostMemWrite (s := s.withQueue q) addr.toNat b x hw hb
      rw [hostMemWrite_busy _ _ (by exact hb)] at hcore ⊢
      exact ⟨rfl, (hread _).trans (if_pos rfl), fun x hx => (hread x).trans (if_neg hx),
        fun h => absurd h.symm Bool.false_ne_true,
        fun _ => ⟨(hcore _).trans (if_pos rfl), fun x hx => (hcore x).trans (if_neg hx), rfl⟩⟩
  case read =>
    have hstep : step s = .next (hostMemRead addr.toNat (s.withQueue q)) := by unfold step; rw [hq]
    have hbyte (c : Byte) : (c.setWidth 32).toNat = c.toNat := BitVec.toNat_setWidth_of_le (by decide)
    refine ⟨_, hstep, ?_⟩
    unfold hostMemRead
    split
    · rename_i hdraw
      rw [Bool.and_eq_true] at hdraw
      exact ⟨rfl, (hbyte _).trans (if_pos hdraw).symm⟩
    · rename_i hplain
      rw [Bool.and_eq_true] at hplain
      exact ⟨rfl, (hbyte _).trans (if_neg hplain).symm⟩
  case ends =>
    rcases hmove with hmoves | ⟨q, hq⟩
    · obtain ⟨q, hcore⟩ := step_of_coreMoves hmoves
      exact coreStep_ends_raced (s := s.withQueue q) hinv (hcore ▸ hstep) hb hend ⟨hout, hrace⟩
    · rw [step_reset hq] at hstep
      obtain rfl := Host.Outcome.next.inj hstep
      exact resetMem_read_raced (s := s.withQueue q) hb ⟨hout, hrace⟩

end Sys2Proof.Machine
end

section
/-! PROOFS of the family 30_encoding.md, part 1: decoder and encoder are each other's inverse (R110 to R125, R142). -/

namespace Sys2Proof.Machine

/-! ### From a word to its element and back -/

/-- R125: a tag from 5 on is FILT_INVALID, up to the width of a byte. -/
theorem decodeFilter_of_five_le {n : Nat} (h : 5 ≤ n) :
    decodeFilter n = if n < 256 then .ok (.filtInvalid (BitVec.ofNat 8 n)) else .error .wordTooWide := by
  obtain ⟨m, rfl⟩ := Nat.exists_eq_add_of_le' h
  rfl

/-- R141: INTERLACE is 0 or 1 in an element. -/
theorem interlace_eq {il : Byte} (h : il.toNat ≤ 1) : il = 0 ∨ il = 1 := by bv_omega

/-- Settles O1: the flags and the INTERLACE of a word by their values, its symbol or its byte by the range it lies in. -/
theorem decodeOfEncodeIsIdentity : Obligations.DecodeOfEncodeIsIdentity := by
  intro i hwf
  cases i with
  | cmdReserved inchk ie clear | cmdDecode inchk ie clear | cmdExpand inchk ie clear
  | cmdDecodeExpand inchk ie clear => revert inchk ie clear; decide
  | ctrlClear cmd inchk ie => revert cmd inchk ie; decide
  | blkStored bfinal | blkFixed bfinal | blkDynamic bfinal | blkInvalid bfinal => cases bfinal <;> rfl
  | clRepPrev | clRepZero3 | clRepZero11 | eob | filtNone | filtSub | filtUp | filtAvg | filtPaeth => rfl
  | clLen v => exact if_pos (of_decide_eq_true hwf)
  | lit b =>
    show decodeLitLen b.toNat = _
    rw [decodeLitLen, if_pos b.isLt, BitVec.ofNat_toNat, BitVec.setWidth_eq]
  | len sym =>
    simp only [Instr.wellFormed, Bool.and_eq_true, decide_eq_true_eq] at hwf
    show decodeLitLen sym = _
    rw [decodeLitLen, if_neg (by omega), if_neg (by omega), if_pos hwf.2]
  | lenInvalid sym =>
    simp only [Instr.wellFormed, Bool.and_eq_true, decide_eq_true_eq] at hwf
    show decodeLitLen sym = _
    rw [decodeLitLen, if_neg (by omega), if_neg (by omega), if_neg (by omega), if_pos hwf.2]
  | dist sym => exact if_pos (of_decide_eq_true hwf)
  | distInvalid sym =>
    simp only [Instr.wellFormed, Bool.and_eq_true, decide_eq_true_eq] at hwf
    show decodeDist sym = _
    rw [decodeDist, if_neg (by omega), if_pos hwf.2]
  | filtInvalid tag =>
    show decodeFilter tag.toNat = _
    rw [decodeFilter_of_five_le (of_decide_eq_true hwf), if_pos tag.isLt, BitVec.ofNat_toNat, BitVec.setWidth_eq]
  | pixG1 il | pixG2 il | pixG4 il | pixG8 il | pixG16 il | pixRgb8 il | pixRgb16 il | pixP1 il | pixP2 il | pixP4 il
  | pixP8 il | pixGa8 il | pixGa16 il | pixRgba8 il | pixRgba16 il =>
    obtain rfl | rfl := interlace_eq (of_decide_eq_true hwf)
    all_goals rfl

/-- Settles O3: the decoders evaluate on these words. -/
theorem tableWordsDecode : Obligations.TableWordsDecode := by
  unfold Obligations.TableWordsDecode
  decide

/-! ### The word of a decoded element -/

/-- R111: a START's word from its fields. -/
theorem encode_startElement (cmd : BitVec 2) (inchk ie clear : Bool) :
    encode (startElement cmd inchk ie clear) = encodeStart cmd.toNat inchk ie clear := by
  revert cmd inchk ie clear; decide

theorem startElement_wellFormed (cmd : BitVec 2) (inchk ie clear : Bool) :
    (startElement cmd inchk ie clear).wellFormed = true := by
  revert cmd inchk ie clear; decide

/-- R32, R111: the fields of a CTRL word are its six low bits. -/
theorem ctrl_fields (w : Word) :
    (w.getLsbD 0).toNat + 2 * (w.extractLsb' 1 2).toNat + 8 * (w.getLsbD 3).toNat + 16 * (w.getLsbD 4).toNat
      + 32 * (w.getLsbD 5).toNat = w.toNat % 64 := by
  simp only [BitVec.getLsbD, Nat.toNat_testBit, BitVec.extractLsb'_toNat, Nat.shiftRight_eq_div_pow]
  omega

/-- R111, R112, R32: a CTRL word that is a command word is its element's, bits 31 to 6 dropped. -/
theorem encode_of_decodeCmd {w : Nat} {i : Instr} (h : decode .cmd w = .ok i) :
    i.wellFormed = true ∧ encode i = w % 64 := by
  have hw : w < 2 ^ 32 := by
    by_contra hge
    rw [decode, decodeCmd, if_pos (Nat.not_lt.mp hge)] at h
    cases h
  obtain ⟨v, rfl⟩ : ∃ v : Word, v.toNat = w := ⟨BitVec.ofNat 32 w, by rw [BitVec.toNat_ofNat, Nat.mod_eq_of_lt hw]⟩
  have hfields := ctrl_fields v
  rw [decodeCmd_word] at h
  cases hstart : v.getLsbD 0 with
  | true =>
    rw [hstart, if_pos rfl] at h
    obtain rfl := Except.ok.inj h
    rw [hstart, Bool.toNat_true] at hfields
    exact ⟨startElement_wellFormed .., by rw [encode_startElement, encodeStart, hfields]⟩
  | false =>
    rw [hstart, if_neg Bool.false_ne_true] at h
    cases hclear : v.getLsbD 5 with
    | true =>
      rw [hclear, if_pos rfl] at h
      obtain rfl := Except.ok.inj h
      rw [hstart, hclear, Bool.toNat_true, Bool.toNat_false] at hfields
      exact ⟨rfl, by rw [encode]; omega⟩
    | false =>
      rw [hclear, if_neg Bool.false_ne_true] at h
      cases h

/-- R113, R114: BFINAL is bit 0, BTYPE bits 2 and 1. -/
theorem encode_of_decodeHeader {w : Nat} {i : Instr} (h : decode .bhdr w = .ok i) :
    i.wellFormed = true ∧ encode i = w := by
  have hbit : (w.testBit 0).toNat = w % 2 := by rw [Nat.toNat_testBit, Nat.pow_zero, Nat.div_one]
  change decodeHeader w = _ at h
  unfold decodeHeader at h
  split_ifs at h with hwide
  obtain htype | htype | htype | htype : w / 2 = 0 ∨ w / 2 = 1 ∨ w / 2 = 2 ∨ w / 2 = 3 := by omega
  all_goals
    rw [htype] at h
    obtain rfl := Except.ok.inj h
    refine ⟨rfl, ?_⟩
    simp only [encode, hbit]
    omega

/-- R118: a code-length symbol is its own word. -/
theorem encode_of_decodeCodeLength {w : Nat} {i : Instr} (h : decode .cl w = .ok i) :
    i.wellFormed = true ∧ encode i = w := by
  change decodeCodeLength w = _ at h
  unfold decodeCodeLength at h
  split_ifs at h with hlen h16 h17 h18
  all_goals obtain rfl := Except.ok.inj h
  · exact ⟨decide_eq_true hlen, rfl⟩
  · exact ⟨rfl, h16.symm⟩
  · exact ⟨rfl, h17.symm⟩
  · exact ⟨rfl, h18.symm⟩

/-- R119: a literal/length symbol is its own word. -/
theorem encode_of_decodeLitLen {w : Nat} {i : Instr} (h : decode .litlen w = .ok i) :
    i.wellFormed = true ∧ encode i = w := by
  change decodeLitLen w = _ at h
  unfold decodeLitLen at h
  split_ifs at h with hlit heob hlen hinvalid
  all_goals obtain rfl := Except.ok.inj h
  · exact ⟨rfl, Nat.mod_eq_of_lt hlit⟩
  · exact ⟨rfl, heob.symm⟩
  · exact ⟨by simp only [Instr.wellFormed, Bool.and_eq_true, decide_eq_true_eq]; omega, rfl⟩
  · exact ⟨by simp only [Instr.wellFormed, Bool.and_eq_true, decide_eq_true_eq]; omega, rfl⟩

/-- R120: a distance symbol is its own word. -/
theorem encode_of_decodeDist {w : Nat} {i : Instr} (h : decode .dist w = .ok i) :
    i.wellFormed = true ∧ encode i = w := by
  change decodeDist w = _ at h
  unfold decodeDist at h
  split_ifs at h with hdist hinvalid
  all_goals obtain rfl := Except.ok.inj h
  · exact ⟨decide_eq_true hdist, rfl⟩
  · exact ⟨by simp only [Instr.wellFormed, Bool.and_eq_true, decide_eq_true_eq]; omega, rfl⟩

/-- R125: a tag is its own word. -/
theorem encode_of_decodeFilter {w : Nat} {i : Instr} (h : decode .filter w = .ok i) :
    i.wellFormed = true ∧ encode i = w := by
  change decodeFilter w = _ at h
  rcases Nat.lt_or_ge w 5 with hlt | hge
  · obtain rfl | rfl | rfl | rfl | rfl : w = 0 ∨ w = 1 ∨ w = 2 ∨ w = 3 ∨ w = 4 := by omega
    all_goals
      obtain rfl := Except.ok.inj h
      exact ⟨rfl, rfl⟩
  · rw [decodeFilter_of_five_le hge] at h
    split_ifs at h with hbyte
    obtain rfl := Except.ok.inj h
    have htag : (BitVec.ofNat 8 w).toNat = w := Nat.mod_eq_of_lt hbyte
    exact ⟨decide_eq_true (htag.symm ▸ hge), htag⟩

/-- R39, R142: a FORMAT word is its element's, bits 31 to 24 dropped. -/
theorem encode_of_decodePixel {w : Nat} {i : Instr} (h : decode .pixfmt w = .ok i) :
    i.wellFormed = true ∧ encode i = w % 2 ^ 24 := by
  change decodePixel w = _ at h
  unfold decodePixel at h
  split_ifs at h with hwide hil
  have hinterlace : (BitVec.ofNat 8 (w / 65536 % 256)).toNat = w / 65536 % 256 :=
    Nat.mod_eq_of_lt (Nat.mod_lt _ (by decide))
  have hword {model depth : Nat} (hm : w / 256 % 256 = model) (hd : w % 256 = depth) :
      encodeFormat model depth (BitVec.ofNat 8 (w / 65536 % 256)) = w % 2 ^ 24 := by
    rw [encodeFormat, hinterlace]; omega
  have hwf : decide ((BitVec.ofNat 8 (w / 65536 % 256)).toNat ≤ 1) = true :=
    decide_eq_true (hinterlace.symm ▸ Nat.not_lt.mp hil)
  split at h
  on_goal 16 => cases h
  all_goals
    obtain rfl := Except.ok.inj h
    exact ⟨hwf, hword ‹_› ‹_›⟩

/-- Settles O2: carrier by carrier. -/
theorem encodeOfDecodeIsIdentity : Obligations.EncodeOfDecodeIsIdentity := by
  intro f w i h
  have hformat := decode_format h
  suffices hword : i.wellFormed = true
      ∧ encode i = if f = .cmd then w % 64 else if f = .pixfmt then w % 2 ^ 24 else w from
    ⟨hword.1, hformat, hword.2⟩
  cases f with
  | cmd => exact encode_of_decodeCmd h
  | bhdr => exact encode_of_decodeHeader h
  | cl => exact encode_of_decodeCodeLength h
  | litlen => exact encode_of_decodeLitLen h
  | dist => exact encode_of_decodeDist h
  | filter => exact encode_of_decodeFilter h
  | pixfmt => exact encode_of_decodePixel h

end Sys2Proof.Machine
end

section
/-! PROOFS of the family 30_encoding.md, part 2: reads that follow one another in one element, each at its place of the
stream (R61, R163, R186), and the elements that are a few such reads (R206 to R213, R219, R226). -/

namespace Sys2Proof.Machine

/-! ### Reads one after another -/

/-- From `s`, which can read, the cursor `c` stands at the k-th undelivered bit. -/
def State.CursorAt (s : State) (c : Cursor) (k : Nat) : Prop :=
  s.CanRead ∧ k ≤ s.bitsLeft.length ∧ s.Advanced { s with cursor := c } k

theorem State.CanRead.cursorAt_zero {s : State} (h : s.CanRead) : s.CursorAt s.cursor 0 := by
  have hnone : ceilDiv (0 - s.cursor.bitcnt) 8 = 0 := by unfold ceilDiv; omega
  exact ⟨h, Nat.zero_le _, rfl, h.2, rfl, by rw [hnone]; exact (BitVec.add_zero _).symm⟩

theorem State.CursorAt.canRead {s : State} {c : Cursor} {k : Nat} (h : s.CursorAt c k) :
    State.CanRead { s with cursor := c } := by
  obtain ⟨hs, -, -, htidy, -⟩ := h
  exact ⟨hs.1, htidy⟩

theorem State.CursorAt.bitsLeft_eq {s : State} {c : Cursor} {k : Nat} (h : s.CursorAt c k) :
    State.bitsLeft { s with cursor := c } = s.bitsLeft.drop k := by
  obtain ⟨-, -, -, -, hbits, -⟩ := h
  exact hbits

/-- R163: the bytes two reads fetch are those one read of both fetches. -/
theorem State.CursorAt.add {s : State} {c d : Cursor} {k n : Nat} (h : s.CursorAt c k)
    (hn : k + n ≤ s.bitsLeft.length) (hd : State.Advanced { s with cursor := c } { s with cursor := d } n) :
    s.CursorAt d (k + n) := by
  obtain ⟨hs, hk, -, ⟨hcnt, -⟩, hbits, hcons⟩ := h
  obtain ⟨-, htidy, hbits', hcons'⟩ := hd
  have hlen : c.bitcnt + 8 * (State.unread { s with cursor := c }).length = s.bitsLeft.length - k := by
    rw [← List.length_drop, ← hbits]; exact (bitsLeft_length { s with cursor := c }).symm
  have hbytes : ceilDiv (k + n - s.cursor.bitcnt) 8 = ceilDiv (k - s.cursor.bitcnt) 8 + ceilDiv (n - c.bitcnt) 8 := by
    have hcnt0 := hs.2.1
    have hcnt : c.bitcnt ≤ 7 := hcnt
    rw [bitsLeft_length] at hlen hk
    unfold ceilDiv
    omega
  refine ⟨hs, hn, rfl, htidy, by rw [hbits', hbits, List.drop_drop], ?_⟩
  rw [hcons', hcons, hbytes, BitVec.ofNat_add, BitVec.add_assoc]

/-- R163: the read of n bits at the k-th undelivered one, whatever the element has put in the inflate registers by
then. -/
theorem State.CursorAt.takeBits {s : State} {c : Cursor} {k : Nat} (h : s.CursorAt c k) {n : Nat} (hn : n ≤ 24)
    (hlen : k + n ≤ s.bitsLeft.length) (r : InflateRegs) :
    ∃ d, takeBits n { s with cursor := c, inflate := r } = .ok (s.peek k n) { s with cursor := d, inflate := r }
      ∧ s.CursorAt d (k + n) := by
  have hread : State.CanRead { s with cursor := c, inflate := r } := h.canRead
  have hbits : State.bitsLeft { s with cursor := c, inflate := r } = s.bitsLeft.drop k := h.bitsLeft_eq
  rcases takeBits_cases n _ hn hread with ⟨-, t, ht, hadv⟩ | ⟨hlt, -⟩
  · obtain ⟨hst, hrest⟩ := hadv
    rw [hst] at ht
    refine ⟨t.cursor, ?_, h.add hlen ⟨rfl, ?_⟩⟩
    · rw [ht, State.peek, hbits, List.drop_zero]; rfl
    · rw [hst] at hrest; exact hrest
  · rw [hbits, List.length_drop] at hlt; omega

/-- R163, R413: the stream ends before the read of n bits. -/
theorem State.CursorAt.takeBits_short {s : State} {c : Cursor} {k : Nat} (h : s.CursorAt c k) {n : Nat} (hn : n ≤ 24)
    (hlen : s.bitsLeft.length < k + n) :
    ∃ d, Machine.takeBits n { s with cursor := c } = .raise .truncatedInput { s with cursor := d } := by
  obtain ⟨-, hk, -⟩ := id h
  rcases takeBits_cases n _ hn h.canRead with ⟨hle, -⟩ | ⟨-, d, hd, -⟩
  · rw [h.bitsLeft_eq, List.length_drop] at hle; omega
  · exact ⟨d, hd⟩

/-- R121: an element that reads n extra bits goes on with the next n undelivered ones. -/
theorem State.CanRead.bind_takeBits {s : State} (h : s.CanRead) {n : Nat} (hn : n ≤ 24)
    (hlen : n ≤ s.bitsLeft.length) :
    ∃ c, s.Advanced { s with cursor := c } n ∧ ∀ f : Nat → State → CoreResult Unit,
      (takeBits n s).bind f = f (s.peek 0 n) { s with cursor := c } := by
  obtain ⟨c, hc, -, -, hadv⟩ := h.cursorAt_zero.takeBits hn (by rwa [Nat.zero_add]) s.inflate
  rw [Nat.zero_add] at hadv
  exact ⟨c, hadv, fun f => congrArg (CoreResult.bind · f) hc⟩

/-! ### A length symbol (R219) -/

/-- Settles O36: the extra bits are read, then match_len is set. -/
theorem lengthSymbolSetsMatchLen : Obligations.LengthSymbolSetsMatchLen := by
  intro s sym hs _ _ hlen
  obtain ⟨c, hadv, hbind⟩ := hs.bind_takeBits (lext_le _) hlen
  refine ⟨c, hadv, ?_⟩
  show execLen sym s = _
  rw [execLen, hbind]
  rfl

/-! ### Code-length symbols (R210 to R213) -/

/-- R210, R214: r lengths put while more are to come. -/
theorem putLengths_of_lt {p r : Nat} {s : State} (h : s.inflate.lenIdx + r < s.inflate.total) :
    putLengths p r s = .ok () { s with inflate := { s.inflate with
      len := writeLens p r s.inflate.lenIdx s.inflate.len, lenIdx := s.inflate.lenIdx + r } } := by
  rw [putLengths, if_neg (by omega), lengthLoop, if_pos (by exact h)]

/-- R121, R210 to R213: a code-length symbol reads its extra bits, then puts its lengths; CL_LEN is a repeat of one. -/
theorem exec_of_codeLengthShape {s : State} {i : Instr} {k least p : Nat}
    (h : codeLengthShape s.inflate i = some (k, least, p)) (hs : s.CanRead) (hk : k ≤ s.bitsLeft.length)
    (hmore : s.inflate.lenIdx + (least + s.peek 0 k) < s.inflate.total) :
    ∃ c, s.Advanced { s with cursor := c } k
      ∧ exec i s = (putLengths p (least + s.peek 0 k) { s with cursor := c }).outcome := by
  have hextra (hk24 : k ≤ 24) := hs.bind_takeBits hk24 hk
  cases i with
  | clLen v =>
    obtain ⟨rfl, rfl, rfl⟩ : 0 = k ∧ 1 = least ∧ v = p := by simpa [codeLengthShape] using h
    obtain ⟨-, -, hadv⟩ := hs.cursorAt_zero
    have hnone : s.peek 0 0 = 0 := Nat.lt_one_iff.mp (peek_lt s 0 0)
    refine ⟨s.cursor, hadv, ?_⟩
    rw [hnone] at hmore ⊢
    rw [putLengths, if_neg (by exact Nat.not_lt.mpr (Nat.le_of_lt hmore))]
    rfl
  | clRepPrev =>
    obtain ⟨hprev, rfl, rfl, rfl⟩ : s.inflate.lenIdx ≠ 0 ∧ 2 = k ∧ 3 = least
        ∧ s.inflate.len.getD (s.inflate.lenIdx - 1) 0 = p := by simpa [codeLengthShape] using h
    obtain ⟨c, hadv, hbind⟩ := hextra (by omega)
    refine ⟨c, hadv, congrArg CoreResult.outcome ?_⟩
    rw [if_neg hprev]
    exact hbind _
  | clRepZero3 =>
    obtain ⟨rfl, rfl, rfl⟩ : 3 = k ∧ 3 = least ∧ 0 = p := by simpa [codeLengthShape] using h
    obtain ⟨c, hadv, hbind⟩ := hextra (by omega)
    exact ⟨c, hadv, congrArg CoreResult.outcome (hbind _)⟩
  | clRepZero11 =>
    obtain ⟨rfl, rfl, rfl⟩ : 7 = k ∧ 11 = least ∧ 0 = p := by simpa [codeLengthShape] using h
    obtain ⟨c, hadv, hbind⟩ := hextra (by omega)
    exact ⟨c, hadv, congrArg CoreResult.outcome (hbind _)⟩
  | _ => cases h

/-- Settles O32: the lengths put are those `writeLens` writes. -/
theorem codeLengthSymbolWritesLengths : Obligations.CodeLengthSymbolWritesLengths := by
  intro s i k least p hs _ hshape hk r hmore hlen
  obtain ⟨c, hadv, he⟩ := exec_of_codeLengthShape hshape hs hk hmore
  refine ⟨c, writeLens p r s.inflate.lenIdx s.inflate.len, hadv, ?_, writeLens_length ..,
    fun j => writeLens_getD p r _ j _ (by omega)⟩
  rw [he, putLengths_of_lt (by exact hmore)]
  rfl

/-! ### The code-length code of a dynamic block (R206 to R209) -/

/-- `cl_len` after the reads of R209 at the positions `order`, the first of them at the k-th undelivered bit. -/
def State.peekClLens (s : State) : (k : Nat) → (order : List Nat) → List Nat → List Nat
  | _, [], l => l
  | k, j :: js, l => s.peekClLens (k + 3) js (l.set j (s.peek k 3))

/-- R209: the lengths read are those at their places in the stream. -/
theorem State.CursorAt.readClLens {s : State} {c : Cursor} {k : Nat} (h : s.CursorAt c k) (order : List Nat)
    (hlen : k + 3 * order.length ≤ s.bitsLeft.length) (r : InflateRegs) :
    ∃ d, readClLens order { s with cursor := c, inflate := r } =
        .ok () { s with cursor := d, inflate := { r with clLen := s.peekClLens k order r.clLen } }
      ∧ s.CursorAt d (k + 3 * order.length) := by
  induction order generalizing c k r with
  | nil => exact ⟨c, rfl, h⟩
  | cons j js ih =>
    rw [List.length_cons] at hlen ⊢
    obtain ⟨d, hd, hat⟩ := h.takeBits (n := 3) (by omega) (by omega) r
    obtain ⟨e, he, hat'⟩ := ih hat (by omega) { r with clLen := r.clLen.set j (s.peek k 3) }
    refine ⟨e, ?_, by rwa [Nat.mul_succ, Nat.add_comm _ 3, ← Nat.add_assoc]⟩
    rw [Machine.readClLens, hd]
    exact he

theorem peekClLens_length (s : State) (k : Nat) (order l : List Nat) : (s.peekClLens k order l).length = l.length := by
  induction order generalizing k l with
  | nil => rfl
  | cons j js ih => rw [State.peekClLens, ih, List.length_set]

/-- R206, R209: the entry of a position that is read is the number read for it; any other keeps its value. -/
theorem peekClLens_getD (s : State) (k j : Nat) {order l : List Nat} (hnodup : order.Nodup)
    (hlt : ∀ i ∈ order, i < l.length) :
    (s.peekClLens k order l).getD j 0 =
      if j ∈ order then s.peek (k + 3 * order.idxOf j) 3 else l.getD j 0 := by
  induction order generalizing k l with
  | nil => rfl
  | cons i is ih =>
    obtain ⟨hi, hnodup⟩ := List.nodup_cons.mp hnodup
    obtain ⟨hilt, hlt⟩ := List.forall_mem_cons.mp hlt
    rw [State.peekClLens, ih (k + 3) hnodup (by rwa [List.length_set])]
    by_cases hij : i = j
    · subst hij
      rw [if_neg hi, if_pos (List.mem_cons_self ..), List.idxOf_cons_self, Nat.mul_zero, Nat.add_zero,
        List.getD_eq_getElem _ _ (by rwa [List.length_set]), List.getElem_set_self]
    · have hmem : j ∈ i :: is ↔ j ∈ is := by simp [Ne.symm hij]
      have hplace : k + 3 * (i :: is).idxOf j = k + 3 + 3 * is.idxOf j := by
        rw [List.idxOf_cons_ne _ hij]; omega
      have hkeep : (l.set i (s.peek k 3)).getD j 0 = l.getD j 0 := by
        simp only [List.getD_eq_getElem?_getD, List.getElem?_set_ne hij]
      rw [hplace, hkeep]
      exact if_congr hmem.symm rfl rfl

/-- R206: CLORDER has a place for each of the 19 code-length symbols. -/
theorem mem_clOrder : ∀ j < 19, j ∈ clOrder := by decide

/-- R206: the first n lengths read, from the k-th undelivered bit on, leave the absent ones 0. -/
theorem peekClLens_clOrder (s : State) (k n : Nat) :
    s.peekClLens k (clOrder.take n) (List.replicate 19 0) =
      (List.range 19).map fun j => if clOrder.idxOf j < n then s.peek (k + 3 * clOrder.idxOf j) 3 else 0 := by
  refine List.ext_getElem (by rw [peekClLens_length]; simp) fun j hj _ => ?_
  have hj19 : j < 19 := by rwa [peekClLens_length, List.length_replicate] at hj
  have hmem := mem_clOrder j hj19
  have hnodup : (clOrder.take n).Nodup := List.Nodup.sublist (List.take_sublist ..) (by decide)
  have hlt : ∀ i ∈ clOrder.take n, i < (List.replicate 19 0).length := fun i hi =>
    (by decide : ∀ i ∈ clOrder, i < 19) i (List.mem_of_mem_take hi)
  rw [← List.getD_eq_getElem _ 0 hj, peekClLens_getD s k j hnodup hlt, List.getElem_map, List.getElem_range,
    List.getD_replicate _ hj19]
  by_cases hin : j ∈ clOrder.take n
  · rw [if_pos hin, if_pos ((List.mem_take_iff_idxOf_lt hmem).mp hin), (List.take_prefix ..).idxOf_eq_of_mem hin]
  · rw [if_neg hin, if_neg (mt (List.mem_take_iff_idxOf_lt hmem).mpr hin)]

/-- R209, R210: the code-length code is read and CLT built from it. -/
theorem State.CursorAt.readCodeLengthCode {s : State} {c : Cursor} {k : Nat} (h : s.CursorAt c k) (r : InflateRegs)
    {cl : List Nat} (hcl : s.peekClLens k (clOrder.take r.hclen) (List.replicate 19 0) = cl)
    (hcount : r.hclen ≤ 19) (hlen : k + 3 * r.hclen ≤ s.bitsLeft.length) (hcheck : checkLengths cl = none) :
    ∃ d, readCodeLengthCode { s with cursor := c, inflate := r } =
        .ok () { s with
          cursor := d
          inflate := { r with clLen := cl, lenIdx := 0 }
          tables := { s.tables with clt := sortedTable cl }
          phase := .infDynHdr }
      ∧ s.CursorAt d (k + 3 * r.hclen) := by
  have hn : (clOrder.take r.hclen).length = r.hclen := List.length_take_of_le hcount
  obtain ⟨d, hd, hat⟩ := h.readClLens (clOrder.take r.hclen) (by rwa [hn]) { r with clLen := List.replicate 19 0 }
  rw [hn] at hat
  rw [hcl] at hd
  refine ⟨d, ?_, hat⟩
  have hbuild : build cl true = .ok (sortedTable cl) := by
    rcases build_cases cl with ⟨e, he, -⟩ | ⟨-, hok⟩
    · rw [hcheck] at he; cases he
    · exact hok
  unfold Machine.readCodeLengthCode
  dsimp only
  rw [hd]
  dsimp only [CoreResult.bind]
  rw [hbuild]

/-- Settles O29: three counts, then the code-length code, each read at its place. -/
theorem dynamicBlockBuildsTheCodeLengthTable : Obligations.DynamicBlockBuildsTheCodeLengthTable := by
  intro s bfinal hs hlit hdist hclen cl hlen hcount hcheck
  have hclen19 : hclen ≤ 19 := by have := peek_lt s 10 4; omega
  let r : InflateRegs := { s.inflate with bfinal := bfinal, btype := 2 }
  obtain ⟨c1, h1, hat1⟩ := hs.cursorAt_zero.takeBits (n := 5) (by omega) (by omega) r
  obtain ⟨c2, h2, hat2⟩ := hat1.takeBits (n := 5) (by omega) (by omega) { r with hlit := hlit }
  obtain ⟨c3, h3, hat3⟩ := hat2.takeBits (n := 4) (by omega) (by omega) { r with hlit := hlit, hdist := hdist }
  obtain ⟨c, h4, -, -, hadv⟩ := hat3.readCodeLengthCode { r with hlit := hlit, hdist := hdist, hclen := hclen }
    (peekClLens_clOrder s 14 hclen) hclen19 hlen hcheck
  refine ⟨c, hadv, ?_⟩
  show (dynamicBlock { s with inflate := r }).outcome = _
  unfold dynamicBlock
  rw [h1]
  dsimp only [CoreResult.bind]
  rw [h2]
  dsimp only [CoreResult.bind]
  rw [h3]
  dsimp only [CoreResult.bind]
  rw [if_neg (Nat.not_lt.mpr hcount)]
  exact congrArg CoreResult.outcome h4

end Sys2Proof.Machine
end

section
/-! PROOFS of the family 30_encoding.md, part 3: the canonical decode of R186 against a sorted table: the lengths it passes
over, and the length at which it finds the symbol (R183, R186, R189). -/

namespace Sys2Proof.Machine

/-! ### Sorted tables (R183) -/

/-- The symbols of a code shorter than l, in the order of the table. -/
def shorterSymbols (lens : List Nat) (l : Nat) : List Nat :=
  (List.range (l - 1)).flatMap fun k => symbolsFrom (k + 1) 0 lens

theorem shorterSymbols_succ (lens : List Nat) {l : Nat} (hl : 1 ≤ l) :
    shorterSymbols lens (l + 1) = shorterSymbols lens l ++ symbolsFrom l 0 lens := by
  obtain ⟨k, rfl⟩ := Nat.exists_eq_add_of_le' hl
  simp only [shorterSymbols, Nat.add_sub_cancel, List.range_succ, List.flatMap_append, List.flatMap_cons,
    List.flatMap_nil, List.append_nil]

theorem symbolsFrom_length (l s : Nat) (lens : List Nat) : (symbolsFrom l s lens).length = lens.count l := by
  induction lens generalizing s with
  | nil => rfl
  | cons x r ih =>
    rw [symbolsFrom, List.count_cons]
    split <;> rename_i hx
    · rw [List.length_cons, ih, if_pos (beq_iff_eq.mpr hx)]
    · rw [ih, if_neg (hx ∘ beq_iff_eq.mp), Nat.add_zero]

/-- R183, R189: among the symbols of its length, a symbol stands at its rank. -/
theorem symbolsFrom_rank {l i s : Nat} {lens : List Nat} (h : lens[i]? = some l) :
    (symbolsFrom l s lens)[(lens.take i).count l]? = some (s + i) := by
  induction lens generalizing i s with
  | nil => cases h
  | cons x r ih =>
    rw [symbolsFrom]
    cases i with
    | zero =>
      obtain rfl : x = l := by simpa using h
      rw [if_pos rfl]; rfl
    | succ j =>
      have hrest := ih (s := s + 1) (by simpa using h)
      rw [List.take_succ_cons, List.count_cons]
      split <;> rename_i hx
      · rw [if_pos (beq_iff_eq.mpr hx), List.getElem?_cons_succ, hrest]; congr 1; omega
      · rw [if_neg (hx ∘ beq_iff_eq.mp)]; exact hrest.trans (by congr 1; omega)

/-- R183: the symbols up to length l begin the table. -/
theorem shorterSymbols_prefix (lens : List Nat) {l : Nat} (hl : l ≤ 16) :
    shorterSymbols lens l <+: (sortedTable lens).symbol := by
  show _ <+: (List.range 15).flatMap fun k => symbolsFrom (k + 1) 0 lens
  obtain ⟨d, hd⟩ := Nat.exists_eq_add_of_le (show l - 1 ≤ 15 by omega)
  rw [hd, List.range_add, List.flatMap_append]
  exact List.prefix_append ..

/-- R181: the table counts the symbols of each length. -/
theorem sortedTable_count (lens : List Nat) {l : Nat} (hl : l ≤ 15) :
    (sortedTable lens).count.getD l 0 = lens.count l := by
  show (countLengths lens).getD l 0 = _
  rw [countLengths, List.getD_eq_getElem _ _ (by rw [List.length_map, List.length_range]; omega), List.getElem_map,
    List.getElem_range]
  rfl

/-- R183, R189: a symbol's place in the table is that of the first of its length, and its rank. -/
theorem sortedTable_symbol {lens : List Nat} {sym l : Nat} (hl : 1 ≤ l) (hl15 : l ≤ 15) (h : lens[sym]? = some l) :
    (sortedTable lens).symbol.getD ((shorterSymbols lens l).length + (lens.take sym).count l) 0 = sym := by
  have hrank := symbolsFrom_rank (s := 0) h
  have hlt : (lens.take sym).count l < (symbolsFrom l 0 lens).length := (List.getElem?_eq_some_iff.mp hrank).1
  obtain ⟨longer, htable⟩ := shorterSymbols_prefix lens (by omega : l + 1 ≤ 16)
  rw [← htable, shorterSymbols_succ lens hl, List.append_assoc, List.getD_eq_getElem?_getD,
    List.getElem?_append_right (Nat.le_add_right ..), Nat.add_sub_cancel_left, List.getElem?_append_left hlt, hrank,
    Nat.zero_add]
  rfl

/-! ### Canonical codes (R189) -/

theorem codeBase_succ (lens : List Nat) {l : Nat} (hl : 1 ≤ l) :
    codeBase lens (l + 1) = 2 * (codeBase lens l + lens.count l) := by
  obtain ⟨k, rfl⟩ := Nat.exists_eq_add_of_le' hl
  rfl

/-- R189: a code of a longer length lies past every code of a shorter one. -/
theorem codeBase_past (lens : List Nat) {l : Nat} (hl : 1 ≤ l) (d : Nat) :
    (codeBase lens l + lens.count l) * 2 ^ (d + 1) ≤ codeBase lens (l + (d + 1)) := by
  induction d with
  | zero => rw [codeBase_succ lens hl, Nat.mul_comm]; rfl
  | succ d ih =>
    rw [← Nat.add_assoc l, codeBase_succ lens (by omega), Nat.pow_succ, ← Nat.mul_assoc, Nat.mul_comm]
    exact Nat.mul_le_mul_left 2 (Nat.le_add_right_of_le ih)

/-! ### The search (R186) -/

/-- The first of the n bits of v, most significant first. -/
theorem codeBits_succ (n v : Nat) : codeBits (n + 1) v = v.testBit n :: codeBits n v := rfl

theorem codeBits_length (n v : Nat) : (codeBits n v).length = n := by
  induction n with
  | zero => rfl
  | succ n ih => rw [codeBits_succ, List.length_cons, ih]

/-- The search of R186 at length l with m bits of the code v still to come: the code so far, base[l] of R189, and the
number of shorter symbols. -/
def searchFrom (lens : List Nat) (v m fuel l : Nat) (s : State) : CoreResult SymbolSearch :=
  searchSym (sortedTable lens) fuel l (2 * (v / 2 ^ m)) (codeBase lens l) (shorterSymbols lens l).length s

/-- decodeSym's search is one from length 1, with all bits of the code to come. -/
theorem searchFrom_one (lens : List Nat) {v m : Nat} (hv : v < 2 ^ m) (fuel : Nat) (s : State) :
    searchFrom lens v m fuel 1 s = searchSym (sortedTable lens) fuel 1 0 0 0 s := by
  rw [searchFrom, Nat.div_eq_of_lt hv]; rfl

/-- R186: the search reads the next bit of the code; the symbol is found, or the next length is tried. -/
theorem State.CursorAt.searchFrom_bit {s : State} {c : Cursor} {k m v l : Nat} {lens : List Nat} (h : s.CursorAt c k)
    (hbits : codeBits (m + 1) v <+: s.bitsLeft.drop k) (hl : 1 ≤ l) (hl15 : l ≤ 15) (fuel : Nat) :
    ∃ d, s.CursorAt d (k + 1) ∧ codeBits m v <+: s.bitsLeft.drop (k + 1)
      ∧ searchFrom lens v (m + 1) (fuel + 1) l { s with cursor := c } =
        if v / 2 ^ m < codeBase lens l + lens.count l then
          .ok (.found ((sortedTable lens).symbol.getD
            ((shorterSymbols lens l).length + (v / 2 ^ m - codeBase lens l)) 0)) { s with cursor := d }
        else searchFrom lens v m fuel (l + 1) { s with cursor := d } := by
  obtain ⟨rest, hrest⟩ := hbits
  rw [codeBits_succ, List.cons_append] at hrest
  have hlen : k + 1 ≤ s.bitsLeft.length := by
    have := congrArg List.length hrest
    rw [List.length_cons, List.length_drop] at this
    omega
  have hpeek : s.peek k 1 = v / 2 ^ m % 2 := by
    rw [State.peek, ← hrest, ← Nat.toNat_testBit]; rfl
  have hcode : 2 * (v / 2 ^ (m + 1)) + v / 2 ^ m % 2 = v / 2 ^ m := by
    rw [Nat.pow_succ, ← Nat.div_div_eq_div_mul]; omega
  obtain ⟨d, hd, hat⟩ := h.takeBits (n := 1) (Nat.one_le_ofNat) hlen s.inflate
  refine ⟨d, hat, ⟨rest, ?_⟩, ?_⟩
  · rw [← List.drop_drop, ← hrest]; rfl
  · rw [searchFrom, searchSym, show Machine.takeBits 1 { s with cursor := c } = _ from hd, hpeek]
    dsimp only [CoreResult.bind]
    rw [hcode, sortedTable_count lens hl15, searchFrom, codeBase_succ lens hl, shorterSymbols_succ lens hl,
      List.length_append, symbolsFrom_length]

/-- R186, R189: the search passes over n lengths whose codes all lie below the code. -/
theorem State.CursorAt.searchFrom_pass {s : State} {c : Cursor} {k n m v l : Nat} {lens : List Nat}
    (h : s.CursorAt c k) (hbits : codeBits (n + m) v <+: s.bitsLeft.drop k) (hl : 1 ≤ l) (hln : l + n ≤ 16)
    (hpast : ∀ j, l ≤ j → j < l + n → codeBase lens j + lens.count j ≤ v / 2 ^ (l + n + m - (j + 1))) (fuel : Nat) :
    ∃ d, s.CursorAt d (k + n) ∧ codeBits m v <+: s.bitsLeft.drop (k + n)
      ∧ searchFrom lens v (n + m) (fuel + n) l { s with cursor := c } =
        searchFrom lens v m fuel (l + n) { s with cursor := d } := by
  induction n generalizing c k l with
  | zero => exact ⟨c, h, by rwa [Nat.zero_add] at hbits, by rw [Nat.zero_add]; rfl⟩
  | succ n ih =>
    rw [Nat.add_right_comm n] at hbits ⊢
    rw [Nat.add_comm n, ← Nat.add_assoc l] at hln hpast ⊢
    obtain ⟨d, hat, hbits', hbit⟩ := h.searchFrom_bit hbits hl (by omega) (fuel + n) (lens := lens)
    have hmiss := hpast l (Nat.le_refl l) (by omega)
    rw [show l + 1 + n + m - (l + 1) = n + m by omega] at hmiss
    obtain ⟨e, hat', hbits'', hsearch⟩ := ih hat hbits' (Nat.le_succ_of_le hl) hln fun j hj hlt =>
      hpast j (Nat.le_of_succ_le hj) hlt
    refine ⟨e, by rwa [← Nat.add_assoc], by rwa [← Nat.add_assoc], ?_⟩
    rw [Nat.add_comm 1, ← Nat.add_assoc, hbit, if_neg (Nat.not_lt.mpr hmiss), hsearch]

/-- R188, R189: the search finds a symbol whose canonical code comes next, and reads no bit more. -/
theorem State.CanRead.searchSym_canonical {s : State} {lens : List Nat} {sym L fuel : Nat} (hs : s.CanRead)
    (hsym : lens[sym]? = some L) (hL : 1 ≤ L) (hL15 : L ≤ 15) (hfuel : L ≤ fuel)
    (hcode : canonicalCode lens sym < 2 ^ L) (hbits : codeBits L (canonicalCode lens sym) <+: s.bitsLeft) :
    ∃ d, searchSym (sortedTable lens) fuel 1 0 0 0 s = .ok (.found sym) { s with cursor := d } ∧ s.CursorAt d L := by
  have hlen : lens.getD sym 0 = L := by rw [List.getD_eq_getElem?_getD, hsym]; rfl
  have hvalue : canonicalCode lens sym = codeBase lens L + (lens.take sym).count L := by rw [canonicalCode, hlen]
  have hrank : (lens.take sym).count L < lens.count L := by
    rw [← symbolsFrom_length L 0 lens]
    exact (List.getElem?_eq_some_iff.mp (symbolsFrom_rank hsym)).1
  generalize canonicalCode lens sym = v at hcode hbits hvalue
  obtain ⟨n, rfl⟩ := Nat.exists_eq_add_of_le' hL
  obtain ⟨f, rfl⟩ := Nat.exists_eq_add_of_le' hfuel
  have hpast : ∀ j, 1 ≤ j → j < 1 + n → codeBase lens j + lens.count j ≤ v / 2 ^ (1 + n + 1 - (j + 1)) := by
    intro j hj hjn
    obtain ⟨d, rfl⟩ := Nat.exists_eq_add_of_le (show j ≤ n by omega)
    rw [show 1 + (j + d) + 1 - (j + 1) = d + 1 by omega, Nat.le_div_iff_mul_le (by positivity)]
    exact (codeBase_past lens hj d).trans (hvalue ▸ Nat.le_add_right ..)
  obtain ⟨c, hat, hbits', hpass⟩ :=
    hs.cursorAt_zero.searchFrom_pass hbits (Nat.le_refl 1) (by omega) hpast (f + 1)
  obtain ⟨d, hat', -, hfound⟩ := hat.searchFrom_bit (m := 0) hbits' hL hL15 f (lens := lens)
  rw [Nat.zero_add] at hat'
  rw [Nat.add_comm 1 n] at hpass
  refine ⟨d, ?_, hat'⟩
  rw [← searchFrom_one lens hcode, ← Nat.add_assoc, Nat.add_right_comm]
  refine hpass.trans (hfound.trans ?_)
  rw [Nat.pow_zero, Nat.div_one, hvalue, if_pos (Nat.add_lt_add_left hrank _),
    Nat.add_sub_cancel_left, sortedTable_symbol hL hL15 hsym]

end Sys2Proof.Machine
end

section
/-! PROOFS of the family 30_encoding.md, part 4: the fixed codes (R123, R124, R185) are canonical, and a fixed block reads
them as their symbols (O4); the two distance codes without a symbol (R226, O39). -/

namespace Sys2Proof.Machine

/-! ### The fixed codes are canonical -/

/-- R189: the codes of a block of symbols of one length are consecutive. -/
theorem canonicalCode_of_block {lens before after : List Nat} {n l start rank sym : Nat}
    (hlens : lens = before ++ (List.replicate n l ++ after)) (hstart : before.length = start)
    (hrank : before.count l = rank) (hle : start ≤ sym) (hlt : sym < start + n) :
    lens[sym]? = some l ∧ canonicalCode lens sym = codeBase lens l + rank + (sym - start) := by
  obtain ⟨k, rfl⟩ := Nat.exists_eq_add_of_le hle
  subst hstart hrank
  have hk : k < n := Nat.lt_of_add_lt_add_left hlt
  have hlen : lens[before.length + k]? = some l := by
    rw [hlens, List.getElem?_append_right (Nat.le_add_right ..), Nat.add_sub_cancel_left,
      List.getElem?_append_left (by rwa [List.length_replicate]), List.getElem?_replicate, if_pos hk]
  have hcount : (lens.take (before.length + k)).count l = before.count l + k := by
    rw [hlens, List.take_length_add_append, List.take_append_of_le_length (by rw [List.length_replicate]; omega),
      List.take_replicate, List.count_append, List.count_replicate_self, Nat.min_eq_left (Nat.le_of_lt hk)]
  refine ⟨hlen, ?_⟩
  rw [canonicalCode, List.getD_eq_getElem?_getD, hlen, Option.getD_some, hcount, Nat.add_sub_cancel_left,
    Nat.add_assoc]

theorem count_fixedLitLens (l : Nat) :
    fixedLitLens.count l = (if 8 == l then 144 else 0) + (if 9 == l then 112 else 0) + (if 7 == l then 24 else 0)
      + (if 8 == l then 8 else 0) := by
  simp only [fixedLitLens, List.count_append, List.count_replicate]

theorem count_fixedDistLens (l : Nat) : fixedDistLens.count l = if 5 == l then 30 else 0 :=
  List.count_replicate

/-- R189: base of the three lengths of R185. -/
theorem codeBase_fixedLitLens :
    codeBase fixedLitLens 7 = 0 ∧ codeBase fixedLitLens 8 = 0x30 ∧ codeBase fixedLitLens 9 = 0x190 := by
  simp only [codeBase, count_fixedLitLens]
  decide

/-- R123, R185, R189: the fixed code of a literal/length symbol is its canonical code. -/
theorem fixedLitLenCode_canonical {sym : Nat} (h : sym < 288) :
    ∃ L, fixedLitLens[sym]? = some L ∧ 1 ≤ L ∧ L ≤ 15 ∧ canonicalCode fixedLitLens sym < 2 ^ L
      ∧ fixedLitLenCode sym = codeBits L (canonicalCode fixedLitLens sym) := by
  obtain ⟨hbase7, hbase8, hbase9⟩ := codeBase_fixedLitLens
  have hblocks : fixedLitLens = List.replicate 144 8 ++ (List.replicate 112 9 ++
      (List.replicate 24 7 ++ List.replicate 8 8)) := by simp only [fixedLitLens, List.append_assoc]
  unfold fixedLitLenCode
  split_ifs with h144 h256 h280
  · obtain ⟨hlen, hcode⟩ := canonicalCode_of_block (n := 144) (start := 0) (rank := 0) (before := []) hblocks rfl rfl
      (Nat.zero_le sym) (by omega)
    exact ⟨8, hlen, by omega, by omega, by omega, congrArg (codeBits 8) (by omega)⟩
  · obtain ⟨hlen, hcode⟩ := canonicalCode_of_block (rank := 0) hblocks List.length_replicate
      (by rw [List.count_replicate]; rfl) (Nat.not_lt.mp h144) (by omega)
    exact ⟨9, hlen, by omega, by omega, by omega, congrArg (codeBits 9) (by omega)⟩
  · obtain ⟨hlen, hcode⟩ := canonicalCode_of_block (n := 24) (start := 256) (rank := 0)
      (hblocks.trans (List.append_assoc ..).symm) (by simp only [List.length_append, List.length_replicate])
      (by simp only [List.count_append, List.count_replicate]; rfl) (Nat.not_lt.mp h256) (by omega)
    exact ⟨7, hlen, by omega, by omega, by omega, congrArg (codeBits 7) (by omega)⟩
  · obtain ⟨hlen, hcode⟩ := canonicalCode_of_block (lens := fixedLitLens) (n := 8) (start := 280) (rank := 144)
      (after := []) (by rw [List.append_nil]; rfl) (by simp only [List.length_append, List.length_replicate])
      (by simp only [List.count_append, List.count_replicate]; rfl) (Nat.not_lt.mp h280) (by omega)
    exact ⟨8, hlen, by omega, by omega, by omega, congrArg (codeBits 8) (by omega)⟩

/-- R189: no fixed distance code is shorter than 5 bits, so every base up to 5 is 0. -/
theorem codeBase_fixedDistLens {l : Nat} (h : l ≤ 5) : codeBase fixedDistLens l = 0 := by
  induction l with
  | zero => rfl
  | succ l ih =>
    rcases Nat.eq_zero_or_pos l with rfl | hl
    · rfl
    · have hnone : fixedDistLens.count l = 0 := by
        rw [count_fixedDistLens, if_neg (by rw [beq_iff_eq]; omega)]
      rw [codeBase_succ _ hl, ih (by omega), hnone]

/-- R124, R185, R189: the fixed code of a distance symbol is its canonical code, the number itself. -/
theorem fixedDistCode_canonical {sym : Nat} (h : sym < 30) :
    fixedDistLens[sym]? = some 5 ∧ canonicalCode fixedDistLens sym = sym := by
  obtain ⟨hlen, hcode⟩ := canonicalCode_of_block (lens := fixedDistLens) (n := 30) (start := 0) (rank := 0)
    (before := []) (List.append_nil _).symm rfl rfl (Nat.zero_le sym) (by omega)
  exact ⟨hlen, hcode.trans (by rw [codeBase_fixedDistLens (Nat.le_refl 5)]; omega)⟩

/-! ### The symbols of a fixed block -/

/-- R123, R186: a fixed block's literal/length symbol is read from its code. -/
theorem State.CanRead.fetchSymbol_fixedLitLen {s : State} {sym : Nat} (hs : s.CanRead) (hfixed : s.inflate.btype = 1)
    (hneed : s.inflate.needDist = false) (hsym : sym < 288) (hbits : fixedLitLenCode sym <+: s.bitsLeft) :
    ∃ d, fetchSymbol s = .ok (decode .litlen sym) { s with cursor := d }
      ∧ s.CursorAt d (fixedLitLenCode sym).length := by
  obtain ⟨L, hlen, hL, hL15, hlt, hcode⟩ := fixedLitLenCode_canonical hsym
  rw [hcode] at hbits ⊢
  obtain ⟨d, hd, hat⟩ := hs.searchSym_canonical hlen hL hL15 hL15 hlt hbits
  refine ⟨d, ?_, by rwa [codeBits_length]⟩
  rw [fetchSymbol, if_neg (hneed ▸ Bool.false_ne_true), fetchLitLen, State.litTable, if_pos hfixed, decodeSym]
  rw [fixedLit, hd]
  rfl

/-- The distance symbol of a fixed block is read by `fetchFixedDist`. -/
theorem fetchSymbol_eq_fetchFixedDist {s : State} (hfixed : s.inflate.btype = 1) (hneed : s.inflate.needDist = true) :
    fetchSymbol s = fetchFixedDist s := by
  rw [fetchSymbol, if_pos hneed, fetchDist, if_pos hfixed]

/-- R124, R186: no fixed distance code matches within the first n bits of a 5-bit code, if it begins with 1111 or n is
below 5. -/
theorem State.CanRead.searchFixedDist_pass {s : State} {n v : Nat} (hs : s.CanRead) (hn : n ≤ 5)
    (hbits : codeBits n v <+: s.bitsLeft) (hv : v < 2 ^ n) (hpast : n = 5 → 30 ≤ v) (fuel : Nat) :
    ∃ d, s.CursorAt d n ∧ searchSym fixedDist (fuel + n) 1 0 0 0 s =
      searchFrom fixedDistLens v 0 fuel (1 + n) { s with cursor := d } := by
  have hmiss : ∀ j, 1 ≤ j → j < 1 + n →
      codeBase fixedDistLens j + fixedDistLens.count j ≤ v / 2 ^ (1 + n + 0 - (j + 1)) := by
    intro j hj hjn
    rw [codeBase_fixedDistLens (by omega), Nat.zero_add, count_fixedDistLens]
    split <;> rename_i h5
    · obtain rfl : 5 = j := by simpa using h5
      obtain rfl : n = 5 := by omega
      simpa using hpast rfl
    · exact Nat.zero_le _
  obtain ⟨d, hat, -, hd⟩ := hs.cursorAt_zero.searchFrom_pass (m := 0) hbits (Nat.le_refl 1) (by omega) hmiss fuel
  rw [Nat.zero_add] at hat
  exact ⟨d, hat, (searchFrom_one fixedDistLens hv (fuel + n) s).symm.trans hd⟩

/-- R124, R226: a fixed block's distance symbol, or the number of a code no symbol has, is read from its five bits. -/
theorem State.CanRead.fetchSymbol_fixedDist {s : State} {sym : Nat} (hs : s.CanRead) (hfixed : s.inflate.btype = 1)
    (hneed : s.inflate.needDist = true) (hsym : sym < 32) (hbits : fixedDistCode sym <+: s.bitsLeft) :
    ∃ d, fetchSymbol s = .ok (decode .dist sym) { s with cursor := d } ∧ s.CursorAt d 5 := by
  rw [fetchSymbol_eq_fetchFixedDist hfixed hneed, fetchFixedDist]
  rcases Nat.lt_or_ge sym 30 with hlt | hge
  · obtain ⟨hlen, hcode⟩ := fixedDistCode_canonical hlt
    obtain ⟨d, hd, hat⟩ := hs.searchSym_canonical (fuel := 5) hlen (by omega) (by omega) (Nat.le_refl 5)
      (by rw [hcode]; omega) (by rwa [hcode])
    refine ⟨d, ?_, hat⟩
    rw [fixedDist, hd]
    rfl
  · obtain ⟨d, hat, hd⟩ := hs.searchFixedDist_pass (Nat.le_refl 5) hbits (by omega) (fun _ => hge) 0
    refine ⟨d, ?_, hat⟩
    rw [hd]
    show (CoreResult.ok (decode .dist (2 * (sym / 2 ^ 0) / 2)) { s with cursor := d } : CoreResult _) = _
    rw [Nat.pow_zero, Nat.div_one, Nat.mul_div_cancel_left _ (by decide : 0 < 2)]

/-- Settles O4: the codes are canonical, so the search of a sorted table finds their symbols. -/
theorem fixedCodesAreReadAsTheirSymbols : Obligations.FixedCodesAreReadAsTheirSymbols := by
  refine ⟨fun sym h => ?_, fun sym h => ?_, fun s sym hs hfixed => ⟨fun hneed h hbits => ?_, fun hneed h hbits => ?_⟩⟩
  · obtain ⟨L, hlen, -, -, -, hcode⟩ := fixedLitLenCode_canonical h
    rw [List.getD_eq_getElem?_getD, hlen]
    exact hcode
  · obtain ⟨hlen, hcode⟩ := fixedDistCode_canonical h
    rw [List.getD_eq_getElem?_getD, hlen, hcode]
    rfl
  · obtain ⟨d, hd, -, -, hadv⟩ := hs.fetchSymbol_fixedLitLen hfixed hneed h hbits
    exact ⟨_, hd, hadv⟩
  · obtain ⟨d, hd, -, -, hadv⟩ := hs.fetchSymbol_fixedDist hfixed hneed h hbits
    exact ⟨_, hd, hadv⟩

/-! ### The distance codes without a symbol (R226) -/

/-- R410, R412: what an error leaves. -/
theorem raiseError_failed (s : State) (e : Err) : s.Failed (raiseError e s) e := by
  refine ⟨rfl, rfl, rfl, fun a ha => errorMem_read s a (.inl ha), fun hx hrace => ?_⟩
  rw [raiseError_hmem, State.errorMem, hx, State.settledMem, hrace]
  rfl

/-- R186: the bits decodeSym reads on, if they are there. -/
theorem State.CursorAt.readOn {s : State} {c : Cursor} {k n : Nat} (h : s.CursorAt c k)
    (hlen : k + n ≤ s.bitsLeft.length) :
    ∃ d, readOn n { s with cursor := c } = .ok () { s with cursor := d } ∧ s.CursorAt d (k + n) := by
  induction n generalizing c k with
  | zero => exact ⟨c, rfl, h⟩
  | succ n ih =>
    obtain ⟨d, hd, hat⟩ := h.takeBits (n := 1) (Nat.one_le_ofNat) (by omega) s.inflate
    obtain ⟨e, he, hat'⟩ := ih hat (by omega)
    rw [Nat.add_right_comm, Nat.add_assoc] at hat'
    refine ⟨e, ?_, hat'⟩
    rw [Machine.readOn, show Machine.takeBits 1 { s with cursor := c } = _ from hd]
    exact he

/-- R186, R413: the stream ends before the bits decodeSym reads on. -/
theorem State.CursorAt.readOn_short {s : State} {c : Cursor} {k n : Nat} (h : s.CursorAt c k)
    (hlen : s.bitsLeft.length < k + n) :
    ∃ d, Machine.readOn n { s with cursor := c } = .raise .truncatedInput { s with cursor := d } := by
  induction n generalizing c k with
  | zero =>
    obtain ⟨-, hk, -⟩ := h
    omega
  | succ n ih =>
    rw [Machine.readOn]
    rcases Nat.lt_or_ge s.bitsLeft.length (k + 1) with hlt | hge
    · obtain ⟨d, hd⟩ := h.takeBits_short (n := 1) (Nat.one_le_ofNat) hlt
      exact ⟨d, by rw [hd]; rfl⟩
    · obtain ⟨d, hd, hat⟩ := h.takeBits (n := 1) (Nat.one_le_ofNat) hge s.inflate
      obtain ⟨e, he⟩ := ih hat (by omega)
      refine ⟨e, ?_⟩
      rw [show Machine.takeBits 1 { s with cursor := c } = _ from hd]
      exact he

/-- R226: DIST_INVALID reads ten bits more and raises InvalidCode. -/
theorem State.CursorAt.exec_distInvalid {s : State} {c : Cursor} {k : Nat} (h : s.CursorAt c k)
    (hlen : k + 10 ≤ s.bitsLeft.length) (sym : Nat) :
    ∃ d, exec (.distInvalid sym) { s with cursor := c } = .next (raiseError .invalidCode { s with cursor := d })
      ∧ s.CursorAt d (k + 10) := by
  obtain ⟨d, hd, hat⟩ := h.readOn hlen
  refine ⟨d, ?_, hat⟩
  show execDistInvalid sym _ = _
  rw [execDistInvalid, hd]
  rfl

/-- R226, R413: DIST_INVALID raises TruncatedInput if the stream ends before its ten bits. -/
theorem State.CursorAt.exec_distInvalid_short {s : State} {c : Cursor} {k : Nat} (h : s.CursorAt c k)
    (hlen : s.bitsLeft.length < k + 10) (sym : Nat) :
    ∃ d, exec (.distInvalid sym) { s with cursor := c } =
      .next (raiseError .truncatedInput { s with cursor := d }) := by
  obtain ⟨d, hd⟩ := h.readOn_short hlen
  refine ⟨d, ?_⟩
  show execDistInvalid sym _ = _
  rw [execDistInvalid, hd]
  rfl

/-- R186, R226, R413: with four bits left, 1111, the search for a fixed distance symbol raises TruncatedInput. -/
theorem State.CanRead.fetchFixedDist_short {s : State} (hs : s.CanRead) (hbits : s.bitsLeft = [true, true, true, true]) :
    ∃ d, fetchFixedDist s = .raise .truncatedInput { s with cursor := d } := by
  have hprefix : codeBits 4 15 <+: s.bitsLeft := by rw [hbits]; exact List.prefix_rfl
  obtain ⟨c, hat, hc⟩ := hs.searchFixedDist_pass (by omega) hprefix (by omega) (by omega) 1
  obtain ⟨d, hd⟩ := hat.takeBits_short (n := 1) (Nat.one_le_ofNat) (by rw [hbits]; decide)
  refine ⟨d, ?_⟩
  rw [fetchFixedDist, hc, searchFrom, searchSym, hd]
  rfl

/-- R124, R226: a fixed block's distance symbol that begins with 1111 raises InvalidCode after 15 bits, or TruncatedInput
if the stream ends first. -/
theorem State.CanRead.fixedDist_unassigned {s : State} (hs : s.CanRead) (hfixed : s.inflate.btype = 1)
    (hneed : s.inflate.needDist = true) (hbits : [true, true, true, true] <+: s.bitsLeft) :
    ∃ d, runElement (fetchSymbol s) = .next
      (raiseError (if 15 ≤ s.bitsLeft.length then .invalidCode else .truncatedInput) { s with cursor := d }) := by
  obtain ⟨rest, hrest⟩ := hbits
  cases rest with
  | nil =>
    obtain ⟨d, hd⟩ := hs.fetchFixedDist_short hrest.symm
    refine ⟨d, ?_⟩
    rw [fetchSymbol_eq_fetchFixedDist hfixed hneed, hd, ← hrest]
    rfl
  | cons b rest =>
    have hcode : fixedDistCode (30 + b.toNat) <+: s.bitsLeft := by
      rw [← hrest]
      cases b <;> exact ⟨rest, rfl⟩
    have hlt := b.toNat_lt
    obtain ⟨c, hc, hat⟩ := hs.fetchSymbol_fixedDist hfixed hneed (by omega) hcode
    have hinvalid : decode .dist (30 + b.toNat) = .ok (.distInvalid (30 + b.toNat)) := by cases b <;> rfl
    rw [runElement_of_ok (hc.trans (by rw [hinvalid]))]
    split <;> rename_i hlen
    · obtain ⟨d, hd, -⟩ := hat.exec_distInvalid hlen (30 + b.toNat)
      exact ⟨d, hd⟩
    · exact hat.exec_distInvalid_short (by omega) (30 + b.toNat)

theorem step_yieldCore {s : State} {q : List HostMove} (h : s.bus.queue = .yieldCore :: q) :
    step s = coreStep (s.withQueue q) := by
  unfold step; rw [h]

theorem coreStep_infSym {s : State} (h : s.phase = .infSym) : coreStep s = runElement (fetchSymbol s) := by
  unfold coreStep; rw [h]

/-- Settles O39: the search passes over 1111, then the element or the end of the stream raises the error. -/
theorem unassignedDistanceCodeRaises : Obligations.UnassignedDistanceCodeRaises := by
  refine ⟨fun s q hs hq hp hfixed hneed hbits => ?_, fun s sym hs _ hlen => ?_⟩
  · have hread : (s.withQueue q).CanRead := hs
    obtain ⟨d, hd⟩ := hread.fixedDist_unassigned hfixed hneed hbits
    refine ⟨_, (step_yieldCore hq).trans ((coreStep_infSym (s := s.withQueue q) hp).trans hd), rfl, rfl, ?_⟩
    show StatusReg.mk .error false (Err.code _) = _
    rw [apply_ite Err.code]
    rfl
  · obtain ⟨d, hd, -, -, hadv⟩ := hs.cursorAt_zero.exec_distInvalid (by omega) sym
    exact ⟨d, _, hd, hadv, raiseError_failed _ _⟩

end Sys2Proof.Machine
end

section
/-! PROOFS of the family 30_encoding.md, part 5: a CTRL write runs its element (R112, R340), and the sizes of a raster
(R250, R274). -/

namespace Sys2Proof.Machine

/-! ### CTRL writes -/

/-- R112, R330: a legal write of a command word to CTRL is run as its element. -/
theorem regWriteStep_of_command {s : State} {addr w : Word} {bits : Nat} {i : Instr}
    (hoff : regOffset s.params addr bits = some 0) (hi : decode .cmd w.toNat = .ok i) :
    regWriteStep addr bits w s = exec i s := by
  unfold regWriteStep
  rw [hoff]
  dsimp only
  rw [if_pos rfl, hi]

/-- R340: a legal write that is no command word at CTRL is a plain write. -/
theorem regWriteStep_of_no_command {s : State} {addr w : Word} {bits off : Nat}
    (hoff : regOffset s.params addr bits = some off) (h : off ≠ 0 ∨ ∃ e, decode .cmd w.toNat = .error e) :
    regWriteStep addr bits w s = .next (hostPlainWrite off w s) := by
  unfold regWriteStep
  rw [hoff]
  dsimp only
  split_ifs with h0
  · obtain ⟨e, he⟩ := h.resolve_left (not_not.mpr h0)
    rw [he, h0]
  · rfl

/-- Settles O5: a command word or a plain write, by what the CTRL decoder answers. -/
theorem ctrlWriteRunsItsElement : Obligations.CtrlWriteRunsItsElement := by
  intro s q addr w off hq hoff
  rw [step_regWrite hq]
  refine ⟨fun i h0 hi => ?_, fun h => regWriteStep_of_no_command (s := s.withQueue q) hoff h⟩
  subst h0
  exact regWriteStep_of_command (s := s.withQueue q) hoff hi

/-! ### The size of a raster -/

/-- R250, R273, R274: a pass takes a tag and its data bytes for each row, and nothing when it is empty. -/
theorem passBytes_eq_rows (p : PassGeom) (w h bits : Nat) :
    p.passBytes w h bits = if p.pw w = 0 ∨ p.ph h = 0 then 0 else p.ph h * (1 + (p.pw w * bits + 7) / 8) := by
  rw [passBytes_eq]
  split_ifs with hrows hempty hempty
  · omega
  · rfl
  · rfl
  · omega

/-- Settles O46: pass by pass; the sizes of R274's table are computed. -/
theorem rasterSizeIsTheSumOverPasses : Obligations.RasterSizeIsTheSumOverPasses := by
  refine ⟨fun g => ?_, by decide⟩
  rw [GeomRegs.rasterSize]
  exact congrArg List.sum (List.map_congr_left fun p _ => passBytes_eq_rows p _ _ _)

end Sys2Proof.Machine
end

section
/-! PROOFS of the family 40_bit_cursor.md: what takeBits delivers (R163), and where the cursor starts (R166). -/

namespace Sys2Proof.Machine

/-! ### takeBits -/

/-- Settles O19: the two outcomes of `takeBits_cases`, told apart by the number of bits left. -/
theorem takeBitsReadsTheLogicalStream : Obligations.TakeBitsReadsTheLogicalStream := by
  intro s n hn hs
  rcases takeBits_cases n s hn hs with ⟨hle, hok⟩ | ⟨hlt, c, hraise, hcons⟩
  · exact ⟨fun _ => hok, fun h => absurd hle (Nat.not_le.mpr h)⟩
  · exact ⟨fun h => absurd hlt (Nat.not_lt.mpr h), fun _ => ⟨_, hraise, rfl, hcons⟩⟩

/-! ### The unread bytes at a place of the cursor -/

/-- From the start of a segment, the bytes to come are those of this segment and the later ones (R160). -/
theorem unreadFrom_zero (s : State) (idx : Nat) :
    s.unreadFrom idx 0 = ((List.range s.segs.count.toNat).drop idx).flatMap fun i => s.segBytes i 0 := by
  unfold State.unreadFrom
  split_ifs with hidx
  · have hrange : idx < (List.range s.segs.count.toNat).length := by simpa using hidx
    rw [List.drop_eq_getElem_cons hrange, List.flatMap_cons, List.getElem_range]
  · rw [List.drop_eq_nil_of_le (by simpa using hidx), List.flatMap_nil]

theorem logicalStream_eq_unreadFrom (s : State) : s.logicalStream = s.unreadFrom 0 0 := by
  rw [unreadFrom_zero, List.drop_zero, State.logicalStream]

theorem segBytes_eq_drop (s : State) (i off : Nat) : s.segBytes i off = (s.segBytes i 0).drop off := by
  rw [State.segBytes, State.segBytes, List.drop_zero, List.map_drop]

/-- Moving the cursor within a segment, its end included, drops as many bytes of those to come. -/
theorem unreadFrom_eq_drop (s : State) {idx off : Nat} (hi : idx < s.segs.count.toNat)
    (ho : off ≤ (s.segs.lenAt idx).toNat) : s.unreadFrom idx off = (s.unreadFrom idx 0).drop off := by
  unfold State.unreadFrom
  rw [if_pos hi, if_pos hi, List.drop_append_of_le_length (by rwa [segBytes_length]), ← segBytes_eq_drop]

/-- R161: skipping a whole segment leaves the bytes from the next segment on. -/
theorem unreadFrom_succ_eq_drop (s : State) {idx : Nat} (hi : idx < s.segs.count.toNat) :
    s.unreadFrom (idx + 1) 0 = (s.unreadFrom idx 0).drop (s.segs.lenAt idx).toNat := by
  rw [← unreadFrom_next s idx _ hi (Nat.le_refl _), unreadFrom_eq_drop s hi (Nat.le_refl _)]

theorem unreadFrom_past_end (s : State) {idx : Nat} (off : Nat) (hi : ¬ idx < s.segs.count.toNat) :
    s.unreadFrom idx off = [] :=
  if_neg hi

/-- Inside a segment there is a byte to come. -/
theorem unreadFrom_ne_nil (s : State) {idx off : Nat} (hi : idx < s.segs.count.toNat)
    (ho : off < (s.segs.lenAt idx).toNat) : s.unreadFrom idx off ≠ [] := by
  unfold State.unreadFrom
  rw [if_pos hi, segBytes_cons s idx off ho, List.cons_append]
  exact List.cons_ne_nil _ _

/-! ### cursorInit -/

/-- The place p = (seg_idx, seg_off) of a cursor that has skipped k of the bytes to come from the start of segment idx
(R166): a byte of a segment, or just past the last segment. -/
structure State.SkippedTo (s : State) (idx k : Nat) (p : Nat × Nat) : Prop where
  unread : s.unreadFrom p.1 p.2 = (s.unreadFrom idx 0).drop k
  idx_le : p.1 ≤ s.segs.count.toNat
  off_lt : p.1 < s.segs.count.toNat → p.2 < (s.segs.lenAt p.1).toNat

/-- Past the last segment nothing is left to skip. -/
theorem skippedTo_end (s : State) {idx : Nat} (k : Nat) (hi : idx ≤ s.segs.count.toNat)
    (hend : ¬ idx < s.segs.count.toNat) : s.SkippedTo idx k (idx, 0) where
  unread := by rw [unreadFrom_past_end s 0 hend, List.drop_nil]
  idx_le := hi
  off_lt hlt := absurd hlt hend

/-- R166: the segment walk skips what it is asked to skip. -/
theorem skipBytes_skippedTo (s : State) (fuel idx k : Nat) (hf : s.segs.count.toNat ≤ idx + fuel)
    (hi : idx ≤ s.segs.count.toNat) : s.SkippedTo idx k (skipBytes s.segs fuel idx k) := by
  induction fuel generalizing idx k with
  | zero => exact skippedTo_end s k hi (by omega)
  | succ fuel ih =>
    rw [skipBytes]
    split_ifs with hidx hlen
    · have hskip : (s.unreadFrom (idx + 1) 0).drop (k - (s.segs.lenAt idx).toNat) = (s.unreadFrom idx 0).drop k := by
        rw [unreadFrom_succ_eq_drop s hidx, List.drop_drop, Nat.add_sub_cancel' hlen]
      have hnext := ih (idx + 1) (k - (s.segs.lenAt idx).toNat) (by omega) hidx
      exact ⟨hnext.unread.trans hskip, hnext.idx_le, hnext.off_lt⟩
    · have hlt : k < (s.segs.lenAt idx).toNat := Nat.lt_of_not_le hlen
      exact ⟨unreadFrom_eq_drop s hidx hlt.le, hi, fun _ => hlt⟩
    · exact skippedTo_end s k hi hidx

/-- A cursor that has skipped every byte to come stands past the last segment. -/
theorem State.SkippedTo.idx_eq_count {s : State} {idx k : Nat} {p : Nat × Nat} (h : s.SkippedTo idx k p)
    (hall : (s.unreadFrom idx 0).length ≤ k) : p.1 = s.segs.count.toNat := by
  have hnil : s.unreadFrom p.1 p.2 = [] := h.unread.trans (List.drop_eq_nil_of_le hall)
  exact h.idx_le.antisymm (Nat.le_of_not_lt fun hlt => unreadFrom_ne_nil s hlt (h.off_lt hlt) hnil)

/-- R166: IN_SKIP bytes of the logical stream are skipped. -/
theorem cursorInit_skippedTo (s : State) :
    s.SkippedTo 0 s.segs.inSkip.toNat ((cursorInit s).cursor.segIdx, (cursorInit s).cursor.segOff) :=
  skipBytes_skippedTo s _ 0 _ (Nat.le_add_left _ _) (Nat.zero_le _)

/-- Settles O20: where the segment walk of R166 ends. -/
theorem cursorStartsAtInSkip : Obligations.CursorStartsAtInSkip := by
  intro s
  have hskip := cursorInit_skippedTo s
  rw [logicalStream_eq_unreadFrom]
  exact ⟨rfl, hskip.unread, rfl, rfl, rfl, hskip.idx_eq_count, hskip.off_lt⟩

end Sys2Proof.Machine
end

section
/-! PROOFS of the family 41_huffman.md, part 1: the completeness check in terms of the code space (R182), and what it
says of the canonical codes (R189). -/

namespace Sys2Proof.Machine

/-! ### The code space -/

/-- R182: one bit more doubles the code space taken; the lengths of that many bits take one code each. -/
theorem codeSpaceUsed_succ (lens : List Nat) (L : Nat) :
    codeSpaceUsed lens (L + 1) = 2 * codeSpaceUsed lens L + lens.count (L + 1) := by
  have hdouble : ∀ l ∈ List.range L,
      lens.count (l + 1) * 2 ^ (L + 1 - (l + 1)) = 2 * (lens.count (l + 1) * 2 ^ (L - (l + 1))) := by
    intro l hl
    rw [Nat.succ_sub (List.mem_range.mp hl), Nat.pow_succ]
    ring
  rw [codeSpaceUsed, List.range_succ, List.map_append, List.sum_append, List.map_congr_left hdouble,
    List.sum_map_mul_left, codeSpaceUsed]
  simp

/-- R182, R189: the code space taken by shorter codes ends where the codes of the next length begin. -/
theorem codeBase_succ_eq (lens : List Nat) (L : Nat) : codeBase lens (L + 1) = 2 * codeSpaceUsed lens L := by
  induction L with
  | zero => rfl
  | succ L ih => rw [codeBase_succ lens (Nat.le_add_left 1 L), ih, codeSpaceUsed_succ]

/-- R182, R189: the codes of length L end where the code space taken ends. -/
theorem codeBase_add_count (lens : List Nat) {L : Nat} (hL : 1 ≤ L) :
    codeBase lens L + lens.count L = codeSpaceUsed lens L := by
  obtain ⟨l, rfl⟩ := Nat.exists_eq_add_of_le' hL
  rw [codeBase_succ_eq, codeSpaceUsed_succ]

/-! ### The completeness check (R182) -/

/-- The lengths up to some L take more than the L-bit code space. -/
abbrev Oversubscribed (lens : List Nat) : Prop := ∃ L, 1 ≤ L ∧ L ≤ 15 ∧ 2 ^ L < codeSpaceUsed lens L

/-- The degenerate case: exactly one symbol with nonzero length, that length being 1. -/
abbrev LoneSymbol (lens : List Nat) : Prop := lens.count 1 = 1 ∧ lens.length - lens.count 0 = 1

theorem codeSpaceUsed_le_of_not_oversubscribed {lens : List Nat} (h : ¬ Oversubscribed lens) {L : Nat} (hL : 1 ≤ L)
    (hL15 : L ≤ 15) : codeSpaceUsed lens L ≤ 2 ^ L :=
  Nat.le_of_not_lt fun hlt => h ⟨L, hL, hL15, hlt⟩

/-- R182: the loop over the lengths after l, of whose code space `left` is left, ends at the first that is
over-subscribed, or with what is left of the last. -/
theorem codeSpaceLeft_cases (lens : List Nat) {fuel l left : Nat} (hl : l + fuel ≤ 15)
    (hleft : codeSpaceUsed lens l + left = 2 ^ l) :
    (codeSpaceLeft (countLengths lens) fuel (l + 1) left = none
        ∧ ∃ L, l < L ∧ L ≤ l + fuel ∧ 2 ^ L < codeSpaceUsed lens L)
      ∨ ∃ r, codeSpaceLeft (countLengths lens) fuel (l + 1) left = some r
        ∧ codeSpaceUsed lens (l + fuel) + r = 2 ^ (l + fuel)
        ∧ ∀ L, l < L → L ≤ l + fuel → codeSpaceUsed lens L ≤ 2 ^ L := by
  induction fuel generalizing l left with
  | zero => exact .inr ⟨left, rfl, hleft, fun L hlt hle => absurd hlt (Nat.not_lt.mpr hle)⟩
  | succ fuel ih =>
    have hcount : (countLengths lens).getD (l + 1) 0 = lens.count (l + 1) := sortedTable_count lens (by omega)
    have hused := codeSpaceUsed_succ lens l
    have hpow : 2 ^ (l + 1) = 2 * 2 ^ l := Nat.pow_succ'
    rw [codeSpaceLeft, hcount, show l + (fuel + 1) = l + 1 + fuel by omega]
    split_ifs with hover
    · exact .inl ⟨rfl, l + 1, Nat.lt_succ_self l, Nat.le_add_right .., by omega⟩
    · rcases ih (l := l + 1) (left := 2 * left - lens.count (l + 1)) (by omega) (by omega) with
        ⟨hnone, L, hlt, hle, hmore⟩ | ⟨r, hsome, hrest, hfit⟩
      · exact .inl ⟨hnone, L, Nat.lt_of_succ_lt hlt, hle, hmore⟩
      · refine .inr ⟨r, hsome, hrest, fun L hlt hle => ?_⟩
        rcases Nat.eq_or_lt_of_le hlt with rfl | hlt
        · show codeSpaceUsed lens (l + 1) ≤ 2 ^ (l + 1)
          omega
        · exact hfit L hlt hle

/-- R182: everything the completeness check can answer, and when it does. -/
theorem checkLengths_cases (lens : List Nat) :
    (checkLengths lens = some .oversubscribedCode ∧ Oversubscribed lens)
      ∨ (checkLengths lens = some .incompleteCode
        ∧ ¬ Oversubscribed lens ∧ codeSpaceUsed lens 15 < 2 ^ 15 ∧ ¬ LoneSymbol lens)
      ∨ (checkLengths lens = none
        ∧ ¬ Oversubscribed lens ∧ (codeSpaceUsed lens 15 = 2 ^ 15 ∨ LoneSymbol lens)) := by
  have hcount {l : Nat} (hl : l ≤ 15) : (countLengths lens).getD l 0 = lens.count l := sortedTable_count lens hl
  rw [checkLengths, hcount (Nat.zero_le 15), hcount (Nat.one_le_ofNat)]
  rcases codeSpaceLeft_cases lens (fuel := 15) (l := 0) (left := 1) (Nat.le_refl 15) rfl with
    ⟨hnone, hover⟩ | ⟨r, hsome, hrest, hfit⟩
  · rw [hnone]
    exact .inl ⟨rfl, hover⟩
  · rw [Nat.zero_add] at hrest
    have hfits : ¬ Oversubscribed lens := fun ⟨L, hL, hL15, hlt⟩ => Nat.not_lt.mpr (hfit L hL hL15) hlt
    rw [hsome]
    cases r with
    | zero => exact .inr (.inr ⟨rfl, hfits, .inl (by rwa [Nat.add_zero] at hrest)⟩)
    | succ r =>
      split_ifs with hlone
      · exact .inr (.inr ⟨rfl, hfits, .inr hlone⟩)
      · exact .inr (.inl ⟨rfl, hfits, by omega, hlone⟩)

theorem build_of_some {lens : List Nat} {e : Err} (h : checkLengths lens = some e) : build lens true = .error e := by
  rw [build, if_pos rfl, h]

theorem build_of_none {lens : List Nat} (h : checkLengths lens = none) :
    build lens true = .ok (sortedTable lens) := by
  rw [build, if_pos rfl, h]

/-- Settles O22: the three answers of `checkLengths_cases` exclude each other. -/
theorem completenessCheckIsKraft : Obligations.CompletenessCheckIsKraft := by
  intro lens _ tooMany lone
  rcases checkLengths_cases lens with ⟨hcheck, hover⟩ | ⟨hcheck, hfits, hspace, hlone⟩ | ⟨hcheck, hfits, hfull⟩
  · rw [build_of_some hcheck]
    exact ⟨iff_of_true rfl hover, iff_of_false nofun fun h => h.1 hover, iff_of_false nofun fun h => h.1 hover⟩
  · rw [build_of_some hcheck]
    exact ⟨iff_of_false nofun hfits, iff_of_true rfl ⟨hfits, hspace, hlone⟩,
      iff_of_false nofun fun ⟨_, hfull⟩ => hfull.elim (Nat.ne_of_lt hspace) hlone⟩
  · rw [build_of_none hcheck]
    exact ⟨iff_of_false nofun hfits,
      iff_of_false nofun fun ⟨_, hspace, hlone⟩ => hfull.elim (Nat.ne_of_lt hspace) hlone,
      iff_of_true rfl ⟨hfits, hfull⟩⟩

end Sys2Proof.Machine
end

section
/-! PROOFS of the family 41_huffman.md, part 2: what the canonical decode answers (R186 to R189). -/

namespace Sys2Proof.Machine

/-! ### Canonical codes (R188, R189) -/

theorem getElem?_of_getD_pos {lens : List Nat} {sym : Nat} (h : 0 < lens.getD sym 0) :
    lens[sym]? = some (lens.getD sym 0) := by
  rw [List.getD_eq_getElem?_getD] at h ⊢
  cases hsym : lens[sym]? with
  | none => rw [hsym] at h; cases h
  | some l => rfl

/-- R189: a symbol's rank is below the number of symbols of its length. -/
theorem rank_lt_count {lens : List Nat} {sym l : Nat} (h : lens[sym]? = some l) :
    (lens.take sym).count l < lens.count l := by
  rw [← symbolsFrom_length l 0 lens]
  exact (List.getElem?_eq_some_iff.mp (symbolsFrom_rank h)).1

/-- R182, R189: where no length runs past its code space, a canonical code has no more bits than its length. -/
theorem canonicalCode_lt {lens : List Nat} (hfits : ¬ Oversubscribed lens) {sym : Nat} (hL : 0 < lens.getD sym 0)
    (hL15 : lens.getD sym 0 ≤ 15) : canonicalCode lens sym < 2 ^ lens.getD sym 0 :=
  calc canonicalCode lens sym
    _ < codeBase lens (lens.getD sym 0) + lens.count (lens.getD sym 0) :=
        Nat.add_lt_add_left (rank_lt_count (getElem?_of_getD_pos hL)) _
    _ = codeSpaceUsed lens (lens.getD sym 0) := codeBase_add_count lens hL
    _ ≤ 2 ^ lens.getD sym 0 := codeSpaceUsed_le_of_not_oversubscribed hfits hL hL15

/-- Settles O24: the check keeps each code within its length, so the search of a sorted table finds its symbol. -/
theorem canonicalCodeDecodesToItsSymbol : Obligations.CanonicalCodeDecodesToItsSymbol := by
  intro s lens sym hle hcheck hL hs hbits
  have hL15 : lens.getD sym 0 ≤ 15 := getD_le hle sym
  have hfits : ¬ Oversubscribed lens := by
    rcases checkLengths_cases lens with ⟨herr, -⟩ | ⟨herr, -⟩ | ⟨-, hfits, -⟩
    · rw [hcheck] at herr; cases herr
    · rw [hcheck] at herr; cases herr
    · exact hfits
  obtain ⟨d, hd, -, -, hadv⟩ := hs.searchSym_canonical (getElem?_of_getD_pos hL) hL hL15 hL15
    (canonicalCode_lt hfits hL hL15) hbits
  exact ⟨_, by rw [decodeSym, hd]; rfl, hadv⟩

/-! ### A bit 1 against the one-symbol table (R182, R187) -/

/-- R186, R187: where the table has no codes of the lengths to come, the search only reads on. -/
theorem searchSym_of_no_codes {t : HuffTable} {fuel l code first index : Nat} {α : Type}
    {f : SymbolSearch → State → CoreResult α} {g : State → CoreResult α} (hf : ∀ c, f (.missed c) = g)
    (hnone : ∀ j, l ≤ j → j < l + fuel → t.count.getD j 0 = 0) (hpast : first ≤ code) (s : State) :
    (searchSym t fuel l code first index s).bind f = (readOn fuel s).bind fun _ => g := by
  induction fuel generalizing l code first index s with
  | zero => exact congrFun (hf _) s
  | succ fuel ih =>
    rw [searchSym, readOn]
    cases takeBits 1 s with
    | ok b s1 =>
      dsimp only [CoreResult.bind]
      rw [hnone l (Nat.le_refl l) (by omega), if_neg (by omega)]
      exact ih (fun j hj hlt => hnone j (by omega) (by omega)) (by omega) s1
    | raise e s1 => rfl
    | fault f => rfl

theorem count_add_count_add_count_le (lens : List Nat) {l : Nat} (hl : 2 ≤ l) :
    lens.count 0 + lens.count 1 + lens.count l ≤ lens.length := by
  induction lens with
  | nil => exact Nat.le_refl 0
  | cons x r ih =>
    simp only [List.count_cons, List.length_cons, beq_iff_eq]
    split_ifs <;> omega

/-- R182: in the degenerate case no length but 0 and 1 occurs. -/
theorem LoneSymbol.count_eq_zero {lens : List Nat} (h : LoneSymbol lens) {l : Nat} (hl : 2 ≤ l) :
    lens.count l = 0 := by
  obtain ⟨hone, honly⟩ := h
  have := count_add_count_add_count_le lens hl
  omega

/-- R182, R187: after a bit 1, fourteen more bits are read against the one-symbol table, and none of them matches. -/
theorem LoneSymbol.decodeSym_of_one {lens : List Nat} (h : LoneSymbol lens) {s s1 : State}
    (hbit : takeBits 1 s = .ok 1 s1) :
    decodeSym (sortedTable lens) s = (readOn 14 s1).bind fun _ s2 => .raise .invalidCode s2 := by
  have hnone : ∀ j, 2 ≤ j → j < 2 + 14 → (sortedTable lens).count.getD j 0 = 0 := fun j hj hlt =>
    (sortedTable_count lens (by omega)).trans (h.count_eq_zero hj)
  rw [decodeSym, searchSym, hbit]
  dsimp only [CoreResult.bind]
  rw [sortedTable_count lens (Nat.one_le_ofNat), h.1, if_neg (by omega)]
  exact searchSym_of_no_codes (fun _ => rfl) hnone (by omega) s1

/-- Settles O25: the first bit is 1, then the search reads on to 15 bits or to the end of the stream. -/
theorem unmatchedCodeRaisesInvalidCode : Obligations.UnmatchedCodeRaisesInvalidCode := by
  intro s lens _ hone honly hs hhead
  obtain ⟨rest, hbits⟩ := List.head?_eq_some_iff.mp hhead
  have hpeek : s.peek 0 1 = 1 := by rw [State.peek, hbits]; rfl
  obtain ⟨c, hc, hat⟩ := hs.cursorAt_zero.takeBits (n := 1) (Nat.one_le_ofNat) (by rw [hbits]; simp) s.inflate
  rw [hpeek] at hc
  rw [LoneSymbol.decodeSym_of_one ⟨hone, honly⟩ hc]
  refine ⟨fun hlen => ?_, fun hlen => ?_⟩
  · obtain ⟨d, hd, -, -, hadv⟩ := hat.readOn (n := 14) hlen
    exact ⟨_, congrArg (CoreResult.bind · _) hd, hadv⟩
  · obtain ⟨d, hd⟩ := hat.readOn_short (n := 14) hlen
    exact ⟨_, congrArg (CoreResult.bind · _) hd⟩

end Sys2Proof.Machine
end

section
/-! PROOFS of the family 41_huffman.md, part 3: the sorted table holds the symbols with a code, by length, then by value
(R181, R183). -/

namespace Sys2Proof.Machine

/-! ### The symbols of one length (R183) -/

theorem symbolsFrom_pairwise_lt (l s : Nat) (lens : List Nat) : (symbolsFrom l s lens).Pairwise (· < ·) := by
  induction lens generalizing s with
  | nil => exact .nil
  | cons x r ih =>
    rw [symbolsFrom]
    split_ifs
    · exact .cons (fun v hv => ((mem_symbolsFrom l (s + 1) r v).mp hv).1) (ih (s + 1))
    · exact ih (s + 1)

theorem mem_symbolsFrom_zero {l : Nat} {lens : List Nat} {sym : Nat} (hl : 1 ≤ l) :
    sym ∈ symbolsFrom l 0 lens ↔ lens.getD sym 0 = l := by
  rw [mem_symbolsFrom]
  constructor
  · rintro ⟨-, -, h⟩
    rw [List.getD_eq_getElem?_getD]
    exact congrArg (Option.getD · 0) h
  · rintro rfl
    have h := getElem?_of_getD_pos hl
    exact ⟨Nat.zero_le sym, by rw [Nat.zero_add]; exact (List.getElem?_eq_some_iff.mp h).1, h⟩

/-! ### The table -/

/-- R183: the symbols of the table, one length after the other. -/
theorem sortedTable_symbol_eq (lens : List Nat) :
    (sortedTable lens).symbol = (List.range 15).flatMap fun l => symbolsFrom (l + 1) 0 lens := rfl

theorem mem_sortedTable_symbol {lens : List Nat} (hle : ∀ v ∈ lens, v ≤ 15) (sym : Nat) :
    sym ∈ (sortedTable lens).symbol ↔ lens.getD sym 0 ≠ 0 := by
  have hL15 : lens.getD sym 0 ≤ 15 := getD_le hle sym
  simp only [sortedTable_symbol_eq, List.mem_flatMap, List.mem_range, mem_symbolsFrom_zero (Nat.le_add_left ..)]
  constructor
  · rintro ⟨l, -, hl⟩
    omega
  · intro h
    exact ⟨lens.getD sym 0 - 1, by omega, by omega⟩

/-- R181: counting value by value, 0 and 1 to n, counts every length. -/
theorem count_zero_add_sum_count {lens : List Nat} {n : Nat} (hle : ∀ v ∈ lens, v ≤ n) :
    lens.count 0 + ((List.range n).map fun l => lens.count (l + 1)).sum = lens.length := by
  have hsum : ∑ l ∈ Finset.range (n + 1), lens.count l = lens.length := by
    simpa using Multiset.sum_count_eq_card (s := Finset.range (n + 1)) (m := (lens : Multiset Nat)) fun v hv =>
      Finset.mem_range_succ_iff.mpr (hle v hv)
  rw [← hsum, Finset.sum_range_succ', Nat.add_comm]
  rfl

theorem sortedTable_symbol_length {lens : List Nat} (hle : ∀ v ∈ lens, v ≤ 15) :
    (sortedTable lens).symbol.length = lens.length - lens.count 0 := by
  rw [sortedTable_symbol_eq, List.length_flatMap, ← count_zero_add_sum_count hle, Nat.add_sub_cancel_left]
  simp only [symbolsFrom_length]

theorem sortedTable_symbol_pairwise (lens : List Nat) :
    (sortedTable lens).symbol.Pairwise fun a b =>
      lens.getD a 0 < lens.getD b 0 ∨ (lens.getD a 0 = lens.getD b 0 ∧ a < b) := by
  have hmem {l sym : Nat} (h : sym ∈ symbolsFrom (l + 1) 0 lens) : lens.getD sym 0 = l + 1 :=
    (mem_symbolsFrom_zero (Nat.le_add_left ..)).mp h
  rw [sortedTable_symbol_eq, List.pairwise_flatMap]
  constructor
  · intro l _
    exact (symbolsFrom_pairwise_lt (l + 1) 0 lens).imp_of_mem fun ha hb hlt =>
      .inr ⟨(hmem ha).trans (hmem hb).symm, hlt⟩
  · refine List.pairwise_lt_range.imp fun hlt a ha b hb => .inl ?_
    rw [hmem ha, hmem hb]
    exact Nat.succ_lt_succ hlt

/-- Settles O23: the counts, the number of symbols, which they are, and their order. -/
theorem tableIsSortedByLengthThenSymbol : Obligations.TableIsSortedByLengthThenSymbol := fun lens hle =>
  ⟨fun _ hL => sortedTable_count lens hL, sortedTable_symbol_length hle, mem_sortedTable_symbol hle,
    sortedTable_symbol_pairwise lens⟩

end Sys2Proof.Machine
end

section
/-! PROOFS of the family 41_huffman.md, part 4: the code-length symbol that completes the lengths builds LT and DT (R184,
R210 to R215). -/

namespace Sys2Proof.Machine

/-! ### The tables of a dynamic block (R215) -/

/-- The lengths LT is built from. -/
def InflateRegs.litLens (r : InflateRegs) : List Nat := r.len.take r.hlit

/-- The lengths DT is built from. -/
def InflateRegs.distLens (r : InflateRegs) : List Nat := (r.len.drop r.hlit).take r.hdist

/-- R215: everything `buildLitDist()` can do. -/
theorem buildLitDist_cases (s : State) :
    (∃ e, checkLengths s.inflate.litLens = some e ∧ buildLitDist s = .raise e s)
      ∨ (checkLengths s.inflate.litLens = none ∧ ∃ e, checkLengths s.inflate.distLens = some e
        ∧ buildLitDist s = .raise e { s with tables := { s.tables with lt := sortedTable s.inflate.litLens } })
      ∨ (checkLengths s.inflate.litLens = none ∧ checkLengths s.inflate.distLens = none
        ∧ buildLitDist s = .ok () (enterSymbols { s with tables := { s.tables with
            lt := sortedTable s.inflate.litLens, dt := sortedTable s.inflate.distLens } })) := by
  unfold buildLitDist
  rw [← InflateRegs.litLens]
  cases hlit : checkLengths s.inflate.litLens with
  | some e => exact .inl ⟨e, rfl, by rw [build_of_some hlit]⟩
  | none =>
    rw [build_of_none hlit]
    dsimp only
    rw [← InflateRegs.distLens]
    cases hdist : checkLengths s.inflate.distLens with
    | some e => exact .inr (.inl ⟨rfl, e, rfl, by rw [build_of_some hdist]⟩)
    | none => exact .inr (.inr ⟨rfl, rfl, by rw [build_of_none hdist]⟩)

/-! ### The last code-length symbol (R210 to R214) -/

/-- R214: r lengths put, and none to come. -/
theorem putLengths_of_eq {p r : Nat} {s : State} (h : s.inflate.lenIdx + r = s.inflate.total) :
    putLengths p r s = buildLitDist { s with inflate := { s.inflate with
      len := writeLens p r s.inflate.lenIdx s.inflate.len, lenIdx := s.inflate.lenIdx + r } } := by
  rw [putLengths, if_neg (by omega), lengthLoop, if_neg (by exact Nat.not_lt.mpr h.ge)]

/-- R210: CL_LEN is a repeat of one. -/
theorem exec_clLen_eq_putLengths (v : Nat) {s : State} (h : s.inflate.lenIdx + 1 ≤ s.inflate.total) :
    exec (.clLen v) s = (putLengths v 1 s).outcome := by
  rw [putLengths, if_neg (Nat.not_lt.mpr h)]
  rfl

/-- R121, R211 to R214: a repeat reads its extra bits, then puts its lengths. -/
theorem exec_repeat_of_codeLengthShape {s : State} {i : Instr} {k least p : Nat}
    (h : codeLengthShape s.inflate i = some (k, least, p)) (hrepeat : ∀ v, i ≠ .clLen v) (hs : s.CanRead)
    (hk : k ≤ s.bitsLeft.length) :
    ∃ c, s.Advanced { s with cursor := c } k
      ∧ exec i s = (putLengths p (least + s.peek 0 k) { s with cursor := c }).outcome := by
  have hextra (hk24 : k ≤ 24) := hs.bind_takeBits hk24 hk
  cases i with
  | clLen v => exact absurd rfl (hrepeat v)
  | clRepPrev =>
    obtain ⟨hprev, rfl, rfl, rfl⟩ : s.inflate.lenIdx ≠ 0 ∧ 2 = k ∧ 3 = least
        ∧ s.inflate.len.getD (s.inflate.lenIdx - 1) 0 = p := by simpa [codeLengthShape] using h
    obtain ⟨c, hadv, hbind⟩ := hextra (by omega)
    exact ⟨c, hadv, congrArg CoreResult.outcome ((if_neg hprev).trans (hbind _))⟩
  | clRepZero3 =>
    obtain ⟨rfl, rfl, rfl⟩ : 3 = k ∧ 3 = least ∧ 0 = p := by simpa [codeLengthShape] using h
    obtain ⟨c, hadv, hbind⟩ := hextra (by omega)
    exact ⟨c, hadv, congrArg CoreResult.outcome (hbind _)⟩
  | clRepZero11 =>
    obtain ⟨rfl, rfl, rfl⟩ : 7 = k ∧ 11 = least ∧ 0 = p := by simpa [codeLengthShape] using h
    obtain ⟨c, hadv, hbind⟩ := hextra (by omega)
    exact ⟨c, hadv, congrArg CoreResult.outcome (hbind _)⟩
  | _ => cases h

/-- R214, R215: the symbol that completes the lengths reads its extra bits, puts its lengths, and has the tables
built. -/
theorem exec_of_complete_codeLengths {s : State} {i : Instr} {k least p : Nat}
    (h : codeLengthShape s.inflate i = some (k, least, p)) (hs : s.CanRead) (hk : k ≤ s.bitsLeft.length)
    (hlast : s.inflate.lenIdx + (least + s.peek 0 k) = s.inflate.total) :
    ∃ c, s.Advanced { s with cursor := c } k
      ∧ exec i s = (buildLitDist { s with cursor := c, inflate := { s.inflate with
          len := writeLens p (least + s.peek 0 k) s.inflate.lenIdx s.inflate.len
          lenIdx := s.inflate.lenIdx + (least + s.peek 0 k) } }).outcome := by
  suffices hput : ∃ c, s.Advanced { s with cursor := c } k
      ∧ exec i s = (putLengths p (least + s.peek 0 k) { s with cursor := c }).outcome by
    obtain ⟨c, hadv, he⟩ := hput
    exact ⟨c, hadv, he.trans (congrArg CoreResult.outcome (putLengths_of_eq (s := { s with cursor := c }) hlast))⟩
  by_cases hlen : ∃ v, i = .clLen v
  · obtain ⟨v, rfl⟩ := hlen
    obtain ⟨rfl, rfl, rfl⟩ : 0 = k ∧ 1 = least ∧ v = p := by simpa [codeLengthShape] using h
    obtain ⟨-, -, hadv⟩ := hs.cursorAt_zero
    have hnone : s.peek 0 0 = 0 := rfl
    rw [hnone] at hlast ⊢
    exact ⟨s.cursor, hadv, exec_clLen_eq_putLengths v hlast.le⟩
  · exact exec_repeat_of_codeLengthShape h (fun v hv => hlen ⟨v, hv⟩) hs hk

/-- Settles O34: the lengths put are those `writeLens` writes; then each way `buildLitDist` can go. -/
theorem completeCodeLengthsBuildTheTables : Obligations.CompleteCodeLengthsBuildTheTables := by
  intro s i k least p hs _ hshape hk r hlast hlen
  obtain ⟨c, hadv, he⟩ := exec_of_complete_codeLengths hshape hs hk hlast
  let l : List Nat := writeLens p r s.inflate.lenIdx s.inflate.len
  let u : State := { s with cursor := c, inflate := { s.inflate with len := l, lenIdx := s.inflate.lenIdx + r } }
  have hlength : l.length = s.inflate.len.length := writeLens_length ..
  have hvalues (j : Nat) : l.getD j 0 =
      if s.inflate.lenIdx ≤ j ∧ j < s.inflate.lenIdx + r then p else s.inflate.len.getD j 0 :=
    writeLens_getD p r _ j _ (by omega)
  have hnext {b : CoreResult Unit} (hb : buildLitDist u = b) : exec i s = b.outcome :=
    he.trans (congrArg CoreResult.outcome hb)
  rcases buildLitDist_cases u with ⟨e, hlit, hb⟩ | ⟨hlit, e, hdist, hb⟩ | ⟨hlit, hdist, hb⟩
  · refine ⟨c, l, _, hadv, hnext hb, hlength, hvalues, rfl, rfl, ?_⟩
    rw [show checkLengths (l.take s.inflate.hlit) = _ from hlit]
    exact ⟨rfl, rfl⟩
  · refine ⟨c, l, _, hadv, hnext hb, hlength, hvalues, rfl, rfl, ?_⟩
    rw [show checkLengths (l.take s.inflate.hlit) = _ from hlit,
      show checkLengths ((l.drop s.inflate.hlit).take s.inflate.hdist) = _ from hdist]
    exact ⟨rfl, rfl⟩
  · refine ⟨c, l, _, hadv, hnext hb, hlength, hvalues, rfl, rfl, ?_⟩
    rw [show checkLengths (l.take s.inflate.hlit) = _ from hlit,
      show checkLengths ((l.drop s.inflate.hlit).take s.inflate.hdist) = _ from hdist]
    rfl

end Sys2Proof.Machine
end

section
/-! PROOFS of the family 42_inflate.md, part 1: every command ends (R228, R331, R350). Each phase of a command makes
progress of its own: the inflate engine in the stream, RECON and EXPAND in the raster. -/

namespace Sys2Proof.Machine

/-! ### Runs that end -/

/-- The command is over, in DONE or in ERROR (R338, R410). -/
def State.IsOver (t : State) : Prop := (t.status.state = .done ∨ t.status.state = .error) ∧ t.phase = .ended

/-- Some number of moves of the core ends the command (R350). -/
def State.Ends (s : State) : Prop := ∃ n t, coreRun n s = some t ∧ t.IsOver

theorem State.IsOver.ends {s : State} (h : s.IsOver) : s.Ends := ⟨0, s, rfl, h⟩

theorem State.Ends.of_coreStep {s u : State} (hstep : coreStep s = .next u) (h : u.Ends) : s.Ends := by
  obtain ⟨n, t, hrun, ht⟩ := h
  refine ⟨n + 1, t, ?_, ht⟩
  rw [coreRun, hstep]
  exact hrun

theorem raiseError_isOver (e : Err) (s : State) : (raiseError e s).IsOver := ⟨.inr rfl, rfl⟩

theorem finishCommand_isOver (s : State) : (finishCommand s).IsOver := ⟨.inl rfl, rfl⟩

/-! ### EXPAND -/

/-- After a pixel the normalizer stands in the same row one column on, or further in RAW, if the command is not over
(R292). -/
theorem nextPixel_progress (il : Byte) (bits : Nat) (s : State) :
    (nextPixel il bits s).IsOver ∨ ((nextPixel il bits s).phase = s.phase ∧ (nextPixel il bits s).geom = s.geom ∧
      (s.norm.rawpos < (nextPixel il bits s).norm.rawpos ∨
        (nextPixel il bits s).norm = { s.norm with col := s.norm.col + 1 })) := by
  unfold nextPixel
  dsimp only
  split
  · exact .inr ⟨rfl, rfl, .inr rfl⟩
  · split
    · exact .inr ⟨rfl, rfl, .inl (by dsimp only; omega)⟩
    · split
      · exact .inr ⟨rfl, rfl, .inl (by dsimp only; omega)⟩
      · exact .inl (finishCommand_isOver _)

/-- A step of EXPAND ends the command, or the normalizer moves on (R290 to R292). -/
theorem expand_progress {s u : State} (hlegal : s.geom.Legal) (h : runElement (fetchFormat s) = .next u) :
    u.IsOver ∨ (u.phase = s.phase ∧ u.geom = s.geom ∧ (s.norm.rawpos < u.norm.rawpos ∨
      (u.norm.pass = s.norm.pass ∧ u.norm.rawpos = s.norm.rawpos ∧ u.norm.col = s.norm.col + 1))) := by
  obtain ⟨-, -, hil, hsupported⟩ := hlegal
  obtain ⟨i, conv, hi, hexec, -⟩ := decodePixel_step hil hsupported
  have hfetch : fetchFormat s = .ok (.ok i) s := congrArg (CoreResult.ok · s) hi
  rw [runElement_of_ok hfetch, hexec] at h
  rcases pixelStep_cases s.geom.format.bitDepth.toNat (channels s.geom.format.colorModel) conv
    s.geom.format.interlace s with ⟨-, he⟩ | ⟨e, -, he⟩ | ⟨-, he⟩ | ⟨p, -, -, he⟩ <;> rw [he] at h
  · cases h
  · exact .inl (Host.Outcome.next.inj h ▸ raiseError_isOver e _)
  · cases h
  · obtain rfl := Host.Outcome.next.inj h
    refine (nextPixel_progress ..).imp_right fun ⟨hp, hg, hmove⟩ => ⟨hp, hg, hmove.imp_right fun hcol => ?_⟩
    rw [hcol]
    exact ⟨rfl, rfl, rfl⟩

/-- R292: EXPAND ends, for the rows that come lie further in RAW, within S, and a row has finitely many columns. -/
theorem expand_ends {s : State} (h : s.Inv) (hp : s.phase = .expand) : s.Ends := by
  obtain ⟨-, -, -, hlegal, -⟩ := h.running (by simp [hp]) (by simp [hp]) (by simp [hp])
  obtain ⟨-, -, -, -, -, -, hsound⟩ := id h
  obtain ⟨-, -, hrow, hcol, hpos⟩ := hsound hp
  have hfits := tagIndex_fits _ _ _ hrow
  obtain ⟨u, hu, hinv, -⟩ := coreStep_lands h
  have hstep : runElement (fetchFormat s) = .next u := by rw [← hu, coreStep, hp]
  refine .of_coreStep hu ?_
  rcases expand_progress hlegal hstep with hover | ⟨hphase, hgeom, hmove⟩
  · exact hover.ends
  · exact expand_ends hinv (hphase.trans hp)
termination_by (s.geom.rasterSize - s.norm.rawpos,
  (passGeom s.geom.format.interlace s.norm.pass).pw s.geom.width.toNat - s.norm.col)
decreasing_by
  rw [hgeom]
  rcases hmove with hlt | ⟨hpass, heq, hnext⟩
  · exact Prod.Lex.left _ _ (by omega)
  · rw [hpass, heq, hnext]
    exact Prod.Lex.right _ (by omega)

theorem enterExpand_ends {s : State} (h : (enterExpand s).Inv) : (enterExpand s).Ends := by
  rcases enterExpand_cases s with ⟨p, -, he⟩ | ⟨-, he⟩
  · exact expand_ends h (by rw [he])
  · exact he ▸ (finishCommand_isOver s).ends

/-! ### RECON -/

theorem endRecon_phase (s : State) : (endRecon s).IsOver ∨ (endRecon s).phase = .expand := by
  rcases endRecon_cases s with ⟨-, he⟩ | ⟨-, he⟩ <;> rw [he]
  · rcases enterExpand_cases { s with status := s.status.setRawValid true } with ⟨p, -, hx⟩ | ⟨-, hx⟩ <;> rw [hx]
    · exact .inr rfl
    · exact .inl (finishCommand_isOver _)
  · exact .inl (finishCommand_isOver _)

/-- A step of RECON ends the command or the phase, or the reconstructor moves on in RAW (R252). -/
theorem recon_progress {s u : State} (h : runElement (fetchTag s) = .next u) :
    u.IsOver ∨ u.phase = .expand ∨
      (u.phase = s.phase ∧ u.geom = s.geom ∧ s.recon.cur < u.recon.cur) := by
  have hrow (pred : Byte → Byte → Byte → Byte) (he : filterRow pred s = .next u) :
      u.IsOver ∨ u.phase = .expand ∨ (u.phase = s.phase ∧ u.geom = s.geom ∧ s.recon.cur < u.recon.cur) := by
    rcases filterRow_cases pred s with ⟨-, hf⟩ | ⟨-, hf⟩ <;> rw [hf] at he
    · cases he
    · obtain rfl := Host.Outcome.next.inj he
      rcases nextRow_cases { s with raw := reconLoop pred s.recon s.recon.rowbytes 0 s.raw } with
        ⟨-, hn⟩ | ⟨-, ⟨q, -, hn⟩ | ⟨-, hn⟩⟩ <;> rw [hn]
      · exact .inr (.inr ⟨rfl, rfl, by dsimp only; omega⟩)
      · exact .inr (.inr ⟨rfl, rfl, by dsimp only [firstRowOf]; omega⟩)
      · exact (endRecon_phase _).imp_right .inl
  unfold fetchTag at h
  split at h
  · cases h
  · cases hi : decode .filter (s.raw.read (s.recon.cur - 1)).toNat with
    | error e => rw [hi] at h; cases h
    | ok i =>
      rw [hi] at h
      have hf := decode_format hi
      cases i with
      | filtNone => exact hrow _ h
      | filtSub => exact hrow _ h
      | filtUp => exact hrow _ h
      | filtAvg => exact hrow _ h
      | filtPaeth => exact hrow _ h
      | filtInvalid tag => exact .inl (Host.Outcome.next.inj h ▸ raiseError_isOver _ s)
      | _ => cases hf

/-- R252: RECON ends, for the rows that come lie further in RAW, within S. -/
theorem recon_ends {s : State} (h : s.Inv) (hp : s.phase = .recon) : s.Ends := by
  obtain ⟨-, -, -, -, -, hsound, -⟩ := id h
  obtain ⟨-, hrow, -, -, hcur, -⟩ := hsound hp
  have hfits := tagIndex_fits _ _ _ hrow
  obtain ⟨u, hu, hinv, -⟩ := coreStep_lands h
  have hstep : runElement (fetchTag s) = .next u := by rw [← hu, coreStep, hp]
  refine .of_coreStep hu ?_
  rcases recon_progress hstep with hover | hexpand | ⟨hphase, hgeom, hlt⟩
  · exact hover.ends
  · exact expand_ends hinv hexpand
  · exact recon_ends hinv (hphase.trans hp)
termination_by s.geom.rasterSize + 1 - s.recon.cur
decreasing_by rw [hgeom]; omega

/-! ### The inflate phases -/

/-- The core is in a phase of the inflate engine. Writing a register other than the phase keeps this by definition. -/
def State.Inflating (t : State) : Prop := t.phase.inflating = true

theorem CoreResult.OnlyCursor.inflating {α : Type} {s : State} {r : CoreResult α} (h : r.OnlyCursor s)
    (hs : s.Inflating) : r.Holds State.Inflating := by
  cases r with
  | ok v t => rw [show t = { s with cursor := t.cursor } from h]; exact .ok hs
  | raise e t => rw [show t = { s with cursor := t.cursor } from h.2]; exact .raise hs
  | fault f => exact .fault

theorem CoreResult.OnlyOutput.inflating {α : Type} {s : State} {r : CoreResult α} (h : r.OnlyOutput s)
    (hs : s.Inflating) : r.Holds State.Inflating := by
  cases r with
  | ok v t => rw [OnlyOutput.of_ok h rfl]; exact .ok hs
  | raise e t => rw [h.2]; exact .raise hs
  | fault f => exact .fault

theorem takeBits_inflating (n : Nat) {s : State} (hs : s.Inflating) : (takeBits n s).Holds State.Inflating :=
  CoreResult.OnlyCursor.inflating (takeBits_onlyCursor n s) hs

theorem blockEnd_inflating (s : State) : (blockEnd s).Inflating := by
  rw [State.Inflating, blockEnd_phase]
  split <;> rfl

theorem storedBody_inflating {s : State} (hs : s.Inflating) : (storedBody s).Holds State.Inflating :=
  .bind (CoreResult.OnlyOutput.inflating (copyStored_onlyOutput _ s) hs) fun _ t _ => .ok (blockEnd_inflating t)

theorem storedBlock_inflating {s : State} (hs : s.Inflating) : (storedBlock s).Holds State.Inflating :=
  .bind (takeBits_inflating 16 hs) fun _ _ ht => .bind (takeBits_inflating 16 ht) fun _ _ hu =>
    iteInduction (fun _ => .raise hu) fun _ => storedBody_inflating rfl

theorem readClLens_inflating (order : List Nat) {s : State} (hs : s.Inflating) :
    (readClLens order s).Holds State.Inflating := by
  induction order generalizing s with
  | nil => exact .ok hs
  | cons j js ih => exact .bind (takeBits_inflating 3 hs) fun _ _ ht => ih ht

theorem readCodeLengthCode_inflating {s : State} (hs : s.Inflating) :
    (readCodeLengthCode s).Holds State.Inflating := by
  refine .bind (readClLens_inflating _ hs) fun _ t ht => ?_
  cases build t.inflate.clLen true with
  | error e => exact .raise ht
  | ok clt => exact .ok rfl

theorem dynamicBlock_inflating {s : State} (hs : s.Inflating) : (dynamicBlock s).Holds State.Inflating :=
  .bind (takeBits_inflating 5 hs) fun _ _ ht => .bind (takeBits_inflating 5 ht) fun _ _ hu =>
    .bind (takeBits_inflating 4 hu) fun _ _ hv =>
      iteInduction (fun _ => .raise hv) fun _ => readCodeLengthCode_inflating hv

theorem buildLitDist_inflating {s : State} (hs : s.Inflating) : (buildLitDist s).Holds State.Inflating := by
  rcases buildLitDist_cases s with ⟨e, -, he⟩ | ⟨-, e, -, he⟩ | ⟨-, -, he⟩ <;> rw [he]
  · exact .raise hs
  · exact .raise hs
  · exact .ok rfl

theorem lengthLoop_inflating {s : State} (hs : s.Inflating) : (lengthLoop s).Holds State.Inflating :=
  iteInduction (fun _ => .ok hs) fun _ => buildLitDist_inflating hs

theorem putLengths_inflating (p r : Nat) {s : State} (hs : s.Inflating) :
    (putLengths p r s).Holds State.Inflating :=
  iteInduction (fun _ => .raise hs) fun _ => lengthLoop_inflating hs

/-- Every element of the inflate engine leaves the core in an inflate phase, or raises (R61, R62, R201 to R227). -/
theorem exec_inflate_inflating {i : Instr} {s : State} (hf : i.format ∈ [.bhdr, .cl, .litlen, .dist])
    (hs : s.Inflating) : ∃ r : CoreResult Unit, exec i s = r.outcome ∧ r.Holds State.Inflating := by
  have hrepeat (n base : Nat) (p : State → Nat) :
      ((takeBits n s).bind fun x t => putLengths (p t) (base + x) t).Holds State.Inflating :=
    .bind (takeBits_inflating n hs) fun _ _ ht => putLengths_inflating _ _ ht
  cases i with
  | blkStored f => exact ⟨_, rfl, storedBlock_inflating hs⟩
  | blkFixed f => exact ⟨.ok () _, rfl, .ok rfl⟩
  | blkDynamic f => exact ⟨_, rfl, dynamicBlock_inflating hs⟩
  | blkInvalid f => exact ⟨.raise .invalidBlockType _, rfl, .raise hs⟩
  | clLen v => exact ⟨_, rfl, lengthLoop_inflating hs⟩
  | clRepPrev =>
    exact ⟨_, rfl, iteInduction (fun _ => .raise hs) fun _ =>
      hrepeat 2 3 fun t => t.inflate.len.getD (t.inflate.lenIdx - 1) 0⟩
  | clRepZero3 => exact ⟨_, rfl, hrepeat 3 3 fun _ => 0⟩
  | clRepZero11 => exact ⟨_, rfl, hrepeat 7 11 fun _ => 0⟩
  | lit b => exact ⟨_, rfl, CoreResult.OnlyOutput.inflating (emit_onlyOutput b s) hs⟩
  | eob => exact ⟨.ok () _, rfl, .ok (blockEnd_inflating s)⟩
  | len sym =>
    simp only [exec, execLen]
    generalize sym - 257 = k
    exact ⟨_, rfl, .bind (takeBits_inflating _ hs) fun _ _ ht => .ok ht⟩
  | lenInvalid sym => exact ⟨.raise .invalidCode s, rfl, .raise hs⟩
  | dist sym =>
    exact ⟨_, rfl, .bind (takeBits_inflating _ hs) fun _ _ ht => iteInduction (fun _ => .raise ht) fun _ =>
      CoreResult.OnlyOutput.inflating (copyMatch_onlyOutput ..) ht⟩
  | distInvalid sym =>
    exact ⟨_, rfl, .bind (CoreResult.OnlyCursor.inflating (readOn_onlyCursor 10 s) hs) fun _ _ ht => .raise ht⟩
  | _ => simp [Instr.format] at hf

theorem fetchHeader_inflating {s : State} (hs : s.Inflating) : (fetchHeader s).Holds State.Inflating :=
  .bind (takeBits_inflating 1 hs) fun _ _ ht => .bind (takeBits_inflating 2 ht) fun _ _ hu => .ok hu

/-- The fetch of a symbol from a table stays in its phase (R186). -/
theorem fetchSym_inflating (tab : HuffTable) (f : Format) {s : State} (hs : s.Inflating) :
    ((decodeSym tab s).bind fun v t => .ok (decode f v) t).Holds State.Inflating :=
  .bind (CoreResult.OnlyCursor.inflating (decodeSym_onlyCursor tab s) hs) fun _ _ ht => .ok ht

theorem fetchFixedDist_inflating {s : State} (hs : s.Inflating) : (fetchFixedDist s).Holds State.Inflating := by
  refine .bind (CoreResult.OnlyCursor.inflating (searchSym_onlyCursor ..) hs) fun r t ht => ?_
  cases r with
  | found sym => exact .ok ht
  | missed code => exact .ok ht

/-- What a fetch reads is an element of its carrier (R110). -/
theorem CoreResult.Fetches.format_eq {f : Format} {v u : State} {i : Instr}
    {r : CoreResult (Except DecodeError Instr)} (h : r.Fetches f v) (hr : r = .ok (.ok i) u) : i.format = f := by
  cases h with
  | ok _ => injection hr with hi; exact decode_format hi
  | raise _ => cases hr
  | fault => cases hr

/-- A phase that fetches from an inflate carrier goes on to an inflate phase, or ends the command in an error. -/
theorem runElement_inflating {s u : State} {f : Format} {r : CoreResult (Except DecodeError Instr)}
    (hr : r.Holds State.Inflating) (hfetch : r.Fetches f s.frame) (hf : f ∈ [.bhdr, .cl, .litlen, .dist])
    (h : runElement r = .next u) : u.IsOver ∨ u.Inflating := by
  refine runElement_next (R := fun u => u.IsOver ∨ u.Inflating) h hr (fun i t hi => hfetch.format_eq hi)
    (fun {t v i} ht hi he => ?_) fun e t _ => .inl (raiseError_isOver e t)
  obtain ⟨r', hexec, hholds⟩ := exec_inflate_inflating (hi ▸ hf) ht
  rcases hholds.outcome (hexec ▸ he) with hv | ⟨e, w, -, rfl⟩
  · exact .inr hv
  · exact .inl (raiseError_isOver e w)

/-- R204: the data bytes of a stored block are one step, which does not come back to INF_STORED (log 24). -/
theorem storedBody_phase {s u : State} (h : (storedBody s).outcome = .next u) : u.phase ≠ .infStored := by
  unfold storedBody at h
  cases hcopy : copyStored s.inflate.storedLen.toNat s with
  | ok v t =>
    rw [hcopy] at h
    obtain rfl := Host.Outcome.next.inj h
    rw [blockEnd_phase]
    split <;> exact Phase.noConfusion
  | raise e t =>
    rw [hcopy] at h
    obtain rfl := Host.Outcome.next.inj h
    exact Phase.noConfusion
  | fault g => rw [hcopy] at h; cases h

/-- From an inflate phase the core ends the command, begins RECON, or goes on to an inflate phase (R62, R203, R229). -/
theorem inflate_progress {s u : State} (h : s.Inv) (hp : s.Inflating) (hstep : coreStep s = .next u) :
    u.IsOver ∨ u.phase = .recon ∨ u.Inflating := by
  have hengine := h.engine hp
  unfold coreStep at hstep
  cases hphase : s.phase <;> rw [hphase] at hstep <;> dsimp only at hstep
  case infHdr =>
    exact (runElement_inflating (fetchHeader_inflating hp) (fetchHeader_fetches rfl) (by decide) hstep).imp_right .inr
  case infStored =>
    rcases (storedBody_inflating hp).outcome hstep with hu | ⟨e, t, -, rfl⟩
    · exact .inr (.inr hu)
    · exact .inl (raiseError_isOver e t)
  case infDynHdr =>
    exact (runElement_inflating (fetchSym_inflating _ _ hp) (fetchCodeLength_fetches rfl) (by decide)
      hstep).imp_right .inr
  case infSym =>
    refine Or.imp_right .inr ?_
    unfold fetchSymbol at hstep
    split at hstep
    · exact runElement_inflating
        (iteInduction (fun _ => fetchFixedDist_inflating hp) fun _ => fetchSym_inflating _ _ hp)
        (fetchDist_fetches rfl) (by decide) hstep
    · exact runElement_inflating (fetchSym_inflating _ _ hp) (fetchLitLen_fetches rfl) (by decide) hstep
  case infEnd =>
    cases he : endChecks s with
    | ok v t =>
      rw [he] at hstep
      have hsound := he ▸ endChecks_sound hengine
      cases hsound with
      | ok hq => exact .inr (.inl (Host.Outcome.next.inj hstep ▸ hq.2))
    | raise e t => rw [he] at hstep; exact .inl (Host.Outcome.next.inj hstep ▸ raiseError_isOver e t)
    | fault g => rw [he] at hstep; cases hstep
  all_goals
    rw [State.Inflating, hphase] at hp
    exact absurd hp Bool.false_ne_true

/-- R61: the inflate phases end, for each takes a bit at least of the finite stream, or is INF_STORED and does not come
back to itself. -/
theorem inflate_ends {s : State} (h : s.Inv) (hp : s.Inflating) : s.Ends := by
  obtain ⟨u, hu, hinv, honward⟩ := coreStep_lands h
  refine .of_coreStep hu ?_
  rcases inflate_progress h hp hu with hover | hrecon | hinf
  · exact hover.ends
  · exact recon_ends hinv hrecon
  · exact inflate_ends hinv hinf
termination_by 2 * s.bitsLeft.length + if s.phase = .infStored then 1 else 0
decreasing_by
  obtain ⟨k, hk, hlen, hbits, -⟩ := honward hp hinf
  rw [hbits, List.length_drop]
  by_cases hstored : s.phase = .infStored
  · have hleft : u.phase ≠ .infStored := storedBody_phase (s := s) (by rw [← hu, coreStep, hstored])
    rw [if_pos hstored, if_neg hleft]
    omega
  · rw [if_neg hstored] at hk ⊢
    split <;> omega

/-! ### Every command -/

/-- R331, R341 to R349: the start checks end the command, or begin its first phase. -/
theorem startCheck_ends {s : State} (h : s.Inv) (hp : s.phase = .startCheck) : s.Ends := by
  obtain ⟨u, hu, hinv, -⟩ := coreStep_lands h
  have hstep : (startPhase s).outcome = .next u := by rw [← hu, coreStep, hp]
  refine .of_coreStep hu ?_
  have hraise {e : Err} {t : State} (he : (CoreResult.raise e t : CoreResult Unit).outcome = .next u) : u.Ends :=
    Host.Outcome.next.inj he ▸ (raiseError_isOver e t).ends
  unfold startPhase at hstep
  split at hstep
  · exact hraise hstep
  · dsimp only at hstep
    split at hstep
    · split at hstep
      · exact hraise hstep
      · split at hstep
        · exact hraise hstep
        · obtain rfl := Host.Outcome.next.inj hstep
          exact inflate_ends hinv rfl
    · split at hstep
      · exact hraise hstep
      · obtain rfl := Host.Outcome.next.inj hstep
        exact enterExpand_ends hinv

/-- Settles O59: phase by phase, in the order a command takes them. -/
theorem everyCommandEnds : Obligations.EveryCommandEnds := by
  intro s h hbusy
  obtain ⟨-, -, ⟨hphase, -⟩, -⟩ := id h
  obtain ⟨hidle, hended⟩ := hphase.mp hbusy
  suffices hends : s.Ends by
    obtain ⟨n, t, hrun, hstate, ht⟩ := hends
    exact ⟨n, t, hrun, hstate, ht⟩
  cases hp : s.phase with
  | idle => exact absurd hp hidle
  | startCheck => exact startCheck_ends h hp
  | infHdr | infStored | infDynHdr | infSym | infEnd => exact inflate_ends h (by rw [State.Inflating, hp]; rfl)
  | recon => exact recon_ends h hp
  | expand => exact expand_ends h hp
  | ended => exact absurd hp hended

end Sys2Proof.Machine
end

section
/-! PROOFS of the family 42_inflate.md, part 2: the elements that are one move or one error, the stops of code lengths
and of a dynamic header, and the final size checks (R202 to R225, R229 to R231, R258). -/

namespace Sys2Proof.Machine

/-! ### Elements that are one move, or one error -/

/-- Settles O28: both are one update of the registers. -/
theorem fixedBlockBeginsAndBlockEnds : Obligations.FixedBlockBeginsAndBlockEnds := fun _ => ⟨fun _ => rfl, rfl⟩

/-- Settles O31: each is `raiseError`, the first after the header is latched. -/
theorem invalidElementsRaiseTheirErrors : Obligations.InvalidElementsRaiseTheirErrors := fun _ =>
  ⟨fun _ => ⟨_, rfl, raiseError_failed _ _⟩, fun _ _ => ⟨_, rfl, raiseError_failed _ _⟩,
    fun _ _ => ⟨_, rfl, raiseError_failed _ _⟩⟩

/-- Settles O37: the tables are computed. -/
theorem lengthAndDistanceTablesCoverTheirRanges : Obligations.LengthAndDistanceTablesCoverTheirRanges := by
  unfold Obligations.LengthAndDistanceTablesCoverTheirRanges
  decide

/-! ### Results one after another (R10) -/

theorem CoreResult.bind_of_ok {α β : Type} {r : CoreResult α} {v : α} {t : State} (h : r = .ok v t)
    (f : α → State → CoreResult β) : r.bind f = f v t := by
  rw [h]; rfl

theorem CoreResult.bind_of_raise {α β : Type} {r : CoreResult α} {e : Err} {t : State} (h : r = .raise e t)
    (f : α → State → CoreResult β) : r.bind f = .raise e t := by
  rw [h]; rfl

/-! ### Output (R222) -/

theorem emit_full {b : Byte} {s : State} (h : s.geom.rasterSize ≤ s.inflate.outPos.toNat) :
    emit b s = .raise .outputOverflow s :=
  if_pos h

theorem emit_room {b : Byte} {s : State} (hsize : s.inflate.outPos.toNat < s.geom.rasterSize)
    (hcap : s.inflate.outPos.toNat < s.params.rawCapMax) :
    emit b s = .ok () { s with
      raw := s.raw.write s.inflate.outPos.toNat b
      inflate := { s.inflate with outPos := s.inflate.outPos + 1 } } := by
  rw [emit, if_neg (Nat.not_le.mpr hsize), if_neg (Nat.not_le.mpr hcap)]

/-- Writing one byte grows RAW by it. -/
theorem grown_write (r : RawBuf) (pos : Nat) (byte : Nat → Byte) : r.Grown (r.write pos (byte 0)) pos 1 byte := by
  intro i
  rw [RawBuf.read_write]
  by_cases hi : i = pos
  · rw [if_pos hi, if_pos (by omega), hi, Nat.sub_self]
  · rw [if_neg hi, if_neg (by omega)]

/-- Settles O35: the byte is emitted, or does not fit. -/
theorem literalIsEmitted : Obligations.LiteralIsEmitted := by
  intro s b
  refine ⟨fun ⟨hsize, hcap, _⟩ => ⟨_, ?_, grown_write s.raw s.inflate.outPos.toNat fun _ => b⟩, fun hfull => ?_⟩
  · exact congrArg CoreResult.outcome (emit_room hsize hcap)
  · exact ⟨_, congrArg CoreResult.outcome (emit_full hfull), raiseError_failed s _⟩

/-! ### Code-length symbols (R211 to R214) -/

/-- Settles O33: with no previous length the element raises at once; a repeat reads its extra bits, then finds no room
for its lengths. -/
theorem codeLengthOverrunRaises : Obligations.CodeLengthOverrunRaises := by
  refine fun s hs => ⟨fun hfirst => ?_, fun i k least p hi hshape hk hover => ?_⟩
  · exact ⟨_, congrArg CoreResult.outcome (if_pos hfirst), raiseError_failed s _⟩
  · have hrepeat (v : Nat) : i ≠ .clLen v := by rcases hi with rfl | rfl | rfl <;> exact Instr.noConfusion
    obtain ⟨c, hadv, he⟩ := exec_repeat_of_codeLengthShape hshape hrepeat hs hk
    exact ⟨c, _, he.trans (congrArg CoreResult.outcome (if_pos hover)), hadv, raiseError_failed _ _⟩

/-! ### The header of a dynamic block (R207 to R209) -/

/-- R207, R208: the three counts are read; then HDIST is tested, before any length is read. -/
theorem State.CanRead.dynamicBlock_counts {s : State} (hs : s.CanRead) (hlen : 14 ≤ s.bitsLeft.length)
    (r : InflateRegs) :
    ∃ c, s.CursorAt c 14 ∧
      let u : State := { s with cursor := c, inflate := { r with
        hlit := s.peek 0 5 + 257, hdist := s.peek 5 5 + 1, hclen := s.peek 10 4 + 4 } }
      dynamicBlock { s with inflate := r } =
        if 30 < u.inflate.hdist then .raise .badCodeCount u else readCodeLengthCode u := by
  obtain ⟨c1, h1, hat1⟩ := hs.cursorAt_zero.takeBits (n := 5) (by omega) (by omega) r
  obtain ⟨c2, h2, hat2⟩ := hat1.takeBits (n := 5) (by omega) (by omega) { r with hlit := s.peek 0 5 + 257 }
  obtain ⟨c3, h3, hat3⟩ := hat2.takeBits (n := 4) (by omega) (by omega)
    { r with hlit := s.peek 0 5 + 257, hdist := s.peek 5 5 + 1 }
  exact ⟨c3, hat3,
    (CoreResult.bind_of_ok h1 _).trans ((CoreResult.bind_of_ok h2 _).trans (CoreResult.bind_of_ok h3 _))⟩

/-- R182, R209: a code-length code that fails its check raises the check's error. -/
theorem State.CursorAt.readCodeLengthCode_raise {s : State} {c : Cursor} {k : Nat} (h : s.CursorAt c k)
    (r : InflateRegs) {cl : List Nat} {e : Err}
    (hcl : s.peekClLens k (clOrder.take r.hclen) (List.replicate 19 0) = cl) (hcount : r.hclen ≤ 19)
    (hlen : k + 3 * r.hclen ≤ s.bitsLeft.length) (hcheck : checkLengths cl = some e) :
    ∃ d, Machine.readCodeLengthCode { s with cursor := c, inflate := r } =
      .raise e { s with cursor := d, inflate := { r with clLen := cl } } := by
  have hn : (clOrder.take r.hclen).length = r.hclen := List.length_take_of_le hcount
  obtain ⟨d, hd, -⟩ := h.readClLens (clOrder.take r.hclen) (by rwa [hn]) { r with clLen := List.replicate 19 0 }
  rw [hcl] at hd
  refine ⟨d, (CoreResult.bind_of_ok hd _).trans ?_⟩
  dsimp only
  rw [build_of_some hcheck]

/-- Settles O30: HDIST is tested after the counts; the code-length code is checked once it is read. -/
theorem dynamicBlockErrorsInOrder : Obligations.DynamicBlockErrorsInOrder := by
  intro s bfinal hs hlit hdist hclen cl
  let r : InflateRegs := { s.inflate with bfinal := bfinal, btype := 2 }
  refine ⟨fun hlen hcount => ?_, fun e hlen hcount hcheck => ?_⟩
  · obtain ⟨c, ⟨-, -, hadv⟩, hc⟩ := hs.dynamicBlock_counts hlen r
    exact ⟨c, _, congrArg CoreResult.outcome (hc.trans (if_pos hcount)), hadv, raiseError_failed _ _⟩
  · have hclen19 : hclen ≤ 19 := by have := peek_lt s 10 4; omega
    obtain ⟨c, hat, hc⟩ := hs.dynamicBlock_counts (by omega) r
    obtain ⟨d, hd⟩ := hat.readCodeLengthCode_raise { r with hlit := hlit, hdist := hdist, hclen := hclen }
      (peekClLens_clOrder s 14 hclen) hclen19 hlen hcheck
    exact ⟨_, congrArg CoreResult.outcome ((hc.trans (if_neg (Nat.not_lt.mpr hcount))).trans hd), rfl, rfl, rfl⟩

/-! ### The final block (R229 to R231) -/

/-- Everything the size checks can do, in their order: the output size, then the input size, then RECON (R229 to R231,
R252). -/
theorem endChecks_cases {s : State} (h : s.geom.Legal) :
    (s.inflate.outPos.toNat ≠ s.geom.rasterSize ∧ endChecks s = .raise .sizeMismatch s) ∨
      (s.inflate.outPos.toNat = s.geom.rasterSize ∧ (s.ctrl.inchk = true ∧ s.cursor.consumed ≠ s.segs.expIn) ∧
        endChecks s = .raise .sizeMismatch s) ∨
      (s.inflate.outPos.toNat = s.geom.rasterSize ∧ ¬ (s.ctrl.inchk = true ∧ s.cursor.consumed ≠ s.segs.expIn) ∧
        endChecks s = .ok () { s with recon := firstRowOf s.geom 1 0, phase := .recon }) := by
  unfold endChecks
  split_ifs with hout hin
  · exact .inl ⟨hout, rfl⟩
  · exact .inr (.inl ⟨not_not.mp hout, hin, rfl⟩)
  · refine .inr (.inr ⟨not_not.mp hout, hin, ?_⟩)
    rw [enterRecon, nextPass_zero h]

theorem step_infEnd {s : State} {q : List HostMove} (hq : s.bus.queue = .yieldCore :: q) (hp : s.phase = .infEnd) :
    step s = (endChecks (s.withQueue q)).outcome := by
  rw [step_yieldCore hq, coreStep, State.withQueue]
  dsimp only
  rw [hp]

/-- Settles O40: the three outcomes of `endChecks_cases`. -/
theorem finalBlockChecksTheSizes : Obligations.FinalBlockChecksTheSizes := by
  intro s q hq hp hlegal
  rw [step_infEnd hq hp]
  have hmismatch := raiseError_failed (s.withQueue q) .sizeMismatch
  rcases endChecks_cases (s := s.withQueue q) hlegal with ⟨hout, he⟩ | ⟨hout, hin, he⟩ | ⟨hout, hin, he⟩ <;> rw [he]
  · exact ⟨fun _ => ⟨_, rfl, hmismatch⟩, fun h => absurd h hout, fun h => absurd h hout⟩
  · refine ⟨fun h => absurd hout h, fun _ _ _ => ⟨_, rfl, hmismatch⟩, fun _ h => ?_⟩
    obtain ⟨hchk, hne⟩ := hin
    rcases h with hoff | heq
    · exact absurd (hchk.symm.trans hoff) (by decide)
    · exact absurd heq hne
  · exact ⟨fun h => absurd hout h, fun _ hchk hne => absurd ⟨hchk, hne⟩ hin, fun _ _ => rfl⟩

end Sys2Proof.Machine
end

section
/-! PROOFS of the family 42_inflate.md, part 3: bytes emitted one after another, and the copy of a match (R219 to
R224). -/

namespace Sys2Proof.Machine

/-! ### Bytes emitted one after another (R222) -/

/-- `s` with n more bytes produced, `r` its RAW by then. -/
def State.emitted (s : State) (r : RawBuf) (n : Nat) : State :=
  { s with raw := r, inflate := { s.inflate with outPos := s.inflate.outPos + BitVec.ofNat 32 n } }

theorem emitted_zero (s : State) : s.emitted s.raw 0 = s := by
  have hout : s.inflate.outPos + BitVec.ofNat 32 0 = s.inflate.outPos := BitVec.add_zero _
  rw [State.emitted, hout]

/-- The count of bytes that fit does not wrap. -/
theorem State.HasRoom.emitted_outPos {s : State} {n : Nat} (h : s.HasRoom n) (r : RawBuf) :
    (s.emitted r n).inflate.outPos.toNat = s.inflate.outPos.toNat + n := by
  obtain ⟨-, hcap, hcap32⟩ := h
  show (s.inflate.outPos + BitVec.ofNat 32 n).toNat = _
  rw [BitVec.toNat_add, BitVec.toNat_ofNat, Nat.add_mod_mod, Nat.mod_eq_of_lt (by omega)]

theorem State.HasRoom.mono {s : State} {m n : Nat} (h : s.HasRoom n) (hm : m ≤ n) : s.HasRoom m := by
  obtain ⟨hsize, hcap, hcap32⟩ := h
  exact ⟨by omega, by omega, hcap32⟩

/-- One more byte that fits. -/
theorem State.HasRoom.emit_emitted {s : State} {n : Nat} (h : s.HasRoom (n + 1)) (b : Byte) (r : RawBuf) :
    emit b (s.emitted r n) = .ok () (s.emitted (r.write (s.inflate.outPos.toNat + n) b) (n + 1)) := by
  have hout := (h.mono (Nat.le_add_right n 1)).emitted_outPos r
  obtain ⟨hsize, hcap, -⟩ := h
  have hnext : s.inflate.outPos + BitVec.ofNat 32 n + 1 = s.inflate.outPos + BitVec.ofNat 32 (n + 1) :=
    (BitVec.add_assoc ..).trans (congrArg _ (BitVec.ofNat_add n 1).symm)
  rw [emit_room (by rw [hout]; exact hsize) (by rw [hout]; exact hcap), hout]
  simp only [State.emitted, hnext]

/-- At capacity S the next byte does not fit. -/
theorem State.HasRoom.emit_emitted_full {s : State} {n : Nat} (h : s.HasRoom n)
    (hfull : s.geom.rasterSize = s.inflate.outPos.toNat + n) (b : Byte) (r : RawBuf) :
    emit b (s.emitted r n) = .raise .outputOverflow (s.emitted r n) := by
  refine emit_full ?_
  rw [h.emitted_outPos r]
  exact hfull.le

theorem grown_zero (r : RawBuf) (pos : Nat) (byte : Nat → Byte) : r.Grown r pos 0 byte := fun _ =>
  (if_neg (by omega)).symm

/-- One more byte after n. -/
theorem grown_succ {r r' : RawBuf} {pos n : Nat} {byte : Nat → Byte} (h : r.Grown r' pos n byte) :
    r.Grown (r'.write (pos + n) (byte n)) pos (n + 1) byte := by
  intro i
  rw [RawBuf.read_write, h i]
  by_cases hi : i = pos + n
  · rw [if_pos hi, if_pos (by omega), hi, Nat.add_sub_cancel_left]
  · rw [if_neg hi]
    exact if_congr (by omega) rfl rfl

/-- Only the first n bytes matter. -/
theorem grown_congr {r r' : RawBuf} {pos n : Nat} {byte byte' : Nat → Byte} (h : r.Grown r' pos n byte)
    (hbyte : ∀ k < n, byte k = byte' k) : r.Grown r' pos n byte' := by
  intro i
  rw [h i]
  split_ifs with hi
  · exact hbyte _ (by omega)
  · rfl

/-! ### The copy of a match (R224) -/

theorem copyMatch_add (d m n : Nat) (s : State) :
    copyMatch d (m + n) s = (copyMatch d m s).bind fun _ t => copyMatch d n t := by
  induction m generalizing s with
  | zero => rw [Nat.zero_add]; rfl
  | succ m ih =>
    rw [Nat.succ_add, copyMatch, copyMatch]
    cases emit (s.raw.read (s.inflate.outPos.toNat - d)) s with
    | ok v t => exact ih t
    | raise e t => rfl
    | fault f => rfl

theorem copyMatch_one (d : Nat) (s : State) : copyMatch d 1 s = emit (s.raw.read (s.inflate.outPos.toNat - d)) s := by
  rw [copyMatch]
  cases emit (s.raw.read (s.inflate.outPos.toNat - d)) s <;> rfl

/-- R224: the copy of distance d repeats the last d bytes: the byte it reads for place n is an old one, or one it wrote
d places before. -/
theorem copyMatch_grown {d n : Nat} {s : State} (hd : 0 < d) (hdist : d ≤ s.inflate.outPos.toNat)
    (h : s.HasRoom n) :
    ∃ r, copyMatch d n s = .ok () (s.emitted r n) ∧
      s.raw.Grown r s.inflate.outPos.toNat n fun k => s.raw.read (s.inflate.outPos.toNat - d + k % d) := by
  induction n with
  | zero => exact ⟨s.raw, by rw [emitted_zero]; rfl, grown_zero _ _ _⟩
  | succ n ih =>
    have hroom := h.mono (Nat.le_add_right n 1)
    obtain ⟨r, hr, hgrown⟩ := ih hroom
    have hbyte : r.read (s.inflate.outPos.toNat + n - d) = s.raw.read (s.inflate.outPos.toNat - d + n % d) := by
      rw [hgrown]
      rcases Nat.lt_or_ge n d with hlt | hge
      · rw [if_neg (by omega), Nat.mod_eq_of_lt hlt]
        congr 1
        omega
      · rw [if_pos (by omega), Nat.mod_eq_sub_mod hge,
          show s.inflate.outPos.toNat + n - d - s.inflate.outPos.toNat = n - d by omega]
    refine ⟨_, ?_, grown_succ hgrown⟩
    rw [copyMatch_add, CoreResult.bind_of_ok hr, copyMatch_one, hroom.emitted_outPos r]
    exact hbyte ▸ h.emit_emitted _ r

/-- R222, R224: a match that passes S is copied up to S. -/
theorem copyMatch_overflow {d n : Nat} {s : State} (hd : 0 < d) (hdist : d ≤ s.inflate.outPos.toNat)
    (hpass : s.geom.rasterSize < s.inflate.outPos.toNat + n) (hout : s.inflate.outPos.toNat ≤ s.geom.rasterSize)
    (hcap : s.geom.rasterSize ≤ s.params.rawCapMax) (hcap32 : s.params.rawCapMax < 2 ^ 32) :
    ∃ r m, copyMatch d n s = .raise .outputOverflow (s.emitted r m) ∧
      (s.emitted r m).inflate.outPos.toNat = s.geom.rasterSize := by
  obtain ⟨m, hm⟩ := Nat.exists_eq_add_of_le hout
  have hroom : s.HasRoom m := ⟨hm.ge, by omega, hcap32⟩
  obtain ⟨r, hr, -⟩ := copyMatch_grown hd hdist hroom
  obtain ⟨k, rfl⟩ : ∃ k, n = m + (1 + k) := ⟨n - m - 1, by omega⟩
  refine ⟨r, m, ?_, (hroom.emitted_outPos r).trans hm.symm⟩
  rw [copyMatch_add, CoreResult.bind_of_ok hr, copyMatch_add, copyMatch_one]
  exact CoreResult.bind_of_raise (hroom.emit_emitted_full hm _ r) _

/-! ### A distance symbol (R219, R223) -/

theorem dbase_pos : ∀ k ≤ 29, 0 < dbase k := by decide

/-- Settles O38: the extra bits are read or missing; then the distance check, and the copy that fits or not. -/
theorem distanceSymbolCopiesTheMatch : Obligations.DistanceSymbolCopiesTheMatch := by
  intro s sym hs hsym d n past
  have hd : 0 < d := Nat.add_pos_left (dbase_pos sym hsym) _
  refine ⟨fun hshort => ?_, fun hlen => ?_⟩
  · obtain ⟨c, hc⟩ := hs.cursorAt_zero.takeBits_short (n := dext sym) (dext_le _) (by omega)
    exact ⟨raiseError .truncatedInput { s with cursor := c },
      congrArg CoreResult.outcome (CoreResult.bind_of_raise hc _), rfl, rfl⟩
  · obtain ⟨c, hadv, hbind⟩ := hs.bind_takeBits (dext_le _) hlen
    have hexec : exec (.dist sym) s = (if s.inflate.outPos.toNat < d then .raise .distanceTooFar (past c)
        else copyMatch d n (past c) : CoreResult Unit).outcome := congrArg CoreResult.outcome (hbind _)
    refine ⟨c, hadv, fun hfar => ?_, fun hnear hroom => ?_, fun hnear hpass hout hcap hcap32 => ?_⟩
    · exact ⟨_, hexec.trans (congrArg CoreResult.outcome (if_pos hfar)), raiseError_failed _ _⟩
    · obtain ⟨r, hr, hgrown⟩ := copyMatch_grown (s := past c) hd hnear hroom
      exact ⟨r, hexec.trans (congrArg CoreResult.outcome ((if_neg (Nat.not_lt.mpr hnear)).trans hr)), hgrown⟩
    · obtain ⟨r, m, hr, hend⟩ := copyMatch_overflow (s := past c) hd hnear hpass hout hcap hcap32
      exact ⟨_, hexec.trans (congrArg CoreResult.outcome ((if_neg (Nat.not_lt.mpr hnear)).trans hr)),
        rfl, rfl, rfl, rfl, hend⟩

end Sys2Proof.Machine
end

section
/-! PROOFS of the family 42_inflate.md, part 4: a stored block, read byte by byte (R165, R203, R204). -/

namespace Sys2Proof.Machine

/-! ### The bits of whole bytes (R84) -/

theorem packBits_append (l r : List Bool) : packBits (l ++ r) = packBits l + 2 ^ l.length * packBits r := by
  induction l with
  | nil => simp [packBits]
  | cons b l ih =>
    rw [List.cons_append, packBits, packBits, ih, List.length_cons, Nat.pow_succ']
    ring

theorem packBits_byteBits (b : Byte) : packBits (byteBits b) = b.toNat :=
  (packBits_testBit 8 b.toNat).trans (Nat.mod_eq_of_lt b.isLt)

/-- Two bytes read as one number, the first the low one. -/
theorem packBits_two_bytes (lo hi : Byte) : packBits (byteBits lo ++ byteBits hi) = (hi ++ lo : BitVec 16).toNat := by
  rw [packBits_append, packBits_byteBits, packBits_byteBits, byteBits_length, BitVec.toNat_append,
    ← Nat.shiftLeft_add_eq_or_of_lt lo.isLt, Nat.shiftLeft_eq]
  ring

theorem byteBits_injective : Function.Injective byteBits := fun a b h =>
  BitVec.eq_of_toNat_eq (by rw [← packBits_byteBits, h, packBits_byteBits])

/-- The bits of whole bytes say which bytes they are. -/
theorem flatMap_byteBits_injective : Function.Injective (List.flatMap byteBits) := by
  intro l
  induction l with
  | nil =>
    intro l' h
    have hlen := congrArg List.length h
    rw [flatMap_byteBits_length, flatMap_byteBits_length, List.length_nil] at hlen
    exact (List.length_eq_zero_iff.mp (by omega)).symm
  | cons b l ih =>
    intro l' h
    cases l' with
    | nil =>
      have hlen := congrArg List.length h
      rw [flatMap_byteBits_length, flatMap_byteBits_length, List.length_nil, List.length_cons] at hlen
      omega
    | cons b' l' =>
      obtain ⟨hb, hl⟩ := List.append_inj h (by rw [byteBits_length, byteBits_length])
      rw [byteBits_injective hb, ih hl]

/-! ### Reads of whole bytes (R163, R165) -/

/-- The cursor of `s` stands between two bytes, `bytes` are those to come, and the segments lie in HMEM. -/
structure State.AtByte (s : State) (bytes : List Byte) : Prop where
  fit : s.segs.fit = true
  bitcnt : s.cursor.bitcnt = 0
  bitbuf : s.cursor.bitbuf = 0
  unread : s.unread = bytes

theorem align_atByte {s : State} (h : s.segs.fit = true) : (align s).AtByte s.unread := ⟨h, rfl, rfl, rfl⟩

/-- The registers a read does not look at may change. -/
theorem State.AtByte.setOutput {s : State} {bytes : List Byte} (h : s.AtByte bytes) (r : InflateRegs) (raw : RawBuf)
    (p : Phase) : State.AtByte { s with inflate := r, raw := raw, phase := p } bytes :=
  ⟨h.fit, h.bitcnt, h.bitbuf, h.unread⟩

theorem State.AtByte.canRead {s : State} {bytes : List Byte} (h : s.AtByte bytes) : s.CanRead :=
  ⟨h.fit, by rw [h.bitcnt]; exact Nat.zero_le 7, by rw [h.bitbuf, h.bitcnt]; exact Nat.one_pos⟩

theorem State.AtByte.bitsLeft_eq {s : State} {bytes : List Byte} (h : s.AtByte bytes) :
    s.bitsLeft = bytes.flatMap byteBits := by
  rw [State.bitsLeft, h.bitcnt, h.unread]
  rfl

theorem State.AtByte.bitsLeft_length {s : State} {bytes : List Byte} (h : s.AtByte bytes) :
    s.bitsLeft.length = 8 * bytes.length := by
  rw [h.bitsLeft_eq, flatMap_byteBits_length]

/-- Reading whole bytes leaves the cursor between two bytes. -/
theorem State.AtByte.takeBits {s : State} {front rest : List Byte} (h : s.AtByte (front ++ rest))
    (hn : front.length ≤ 3) :
    ∃ c, takeBits (8 * front.length) s = .ok (packBits (front.flatMap byteBits)) { s with cursor := c }
      ∧ State.AtByte { s with cursor := c } rest
      ∧ c.consumed = s.cursor.consumed + BitVec.ofNat 32 front.length := by
  have hfront : (front.flatMap byteBits).length = 8 * front.length := flatMap_byteBits_length front
  have hlen : 8 * front.length ≤ s.bitsLeft.length := by
    rw [h.bitsLeft_length, List.length_append]; omega
  obtain ⟨c, hc, -, -, -, ⟨hcnt, hbuf⟩, hbits, hcons⟩ :=
    h.canRead.cursorAt_zero.takeBits (n := 8 * front.length) (by omega) (by omega) s.inflate
  rw [Nat.zero_add] at hbits hcons
  have hpeek : s.peek 0 (8 * front.length) = packBits (front.flatMap byteBits) := by
    rw [State.peek, h.bitsLeft_eq, List.drop_zero, List.flatMap_append, ← hfront, List.take_left]
  have hrest : State.bitsLeft { s with cursor := c } = rest.flatMap byteBits := by
    rw [hbits, h.bitsLeft_eq, List.flatMap_append, ← hfront, List.drop_left]
  have hcnt0 : c.bitcnt = 0 := by
    have htotal := Machine.bitsLeft_length { s with cursor := c }
    rw [hrest, flatMap_byteBits_length] at htotal
    have hcnt : c.bitcnt ≤ 7 := hcnt
    have htotal : 8 * rest.length = c.bitcnt + 8 * (State.unread { s with cursor := c }).length := htotal
    omega
  have hbuf0 : c.bitbuf = 0 := by
    have hbuf : c.bitbuf.toNat < 2 ^ c.bitcnt := hbuf
    rw [hcnt0] at hbuf
    exact BitVec.eq_of_toNat_eq (Nat.lt_one_iff.mp hbuf)
  have hceil : ceilDiv (8 * front.length - s.cursor.bitcnt) 8 = front.length := by
    rw [h.bitcnt]; unfold ceilDiv; omega
  refine ⟨c, by rw [← hpeek]; exact hc, ⟨h.fit, hcnt0, hbuf0, ?_⟩, by rw [hceil] at hcons; exact hcons⟩
  refine flatMap_byteBits_injective (hrest ▸ ?_)
  show _ = (List.range c.bitcnt).map _ ++ _
  rw [hcnt0]
  rfl

theorem State.AtByte.takeBits_one {s : State} {b : Byte} {rest : List Byte} (h : s.AtByte (b :: rest)) :
    ∃ c, Machine.takeBits 8 s = .ok b.toNat { s with cursor := c } ∧ State.AtByte { s with cursor := c } rest
      ∧ c.consumed = s.cursor.consumed + 1 := by
  obtain ⟨c, hc, hat, hcons⟩ := State.AtByte.takeBits (front := [b]) h (Nat.le_add_left 1 2)
  refine ⟨c, hc.trans ?_, hat, hcons⟩
  rw [List.flatMap_singleton, packBits_byteBits]

theorem State.AtByte.takeBits_two {s : State} {lo hi : Byte} {rest : List Byte} (h : s.AtByte (lo :: hi :: rest)) :
    ∃ c, Machine.takeBits 16 s = .ok (hi ++ lo : BitVec 16).toNat { s with cursor := c }
      ∧ State.AtByte { s with cursor := c } rest ∧ c.consumed = s.cursor.consumed + 2 := by
  obtain ⟨c, hc, hat, hcons⟩ := State.AtByte.takeBits (front := [lo, hi]) h (Nat.le_succ 2)
  refine ⟨c, hc.trans ?_, hat, hcons⟩
  rw [List.flatMap_cons, List.flatMap_singleton, packBits_two_bytes]

/-- R163, R413: the stream ends before the read of n bits. -/
theorem State.AtByte.takeBits_short {s : State} {bytes : List Byte} (h : s.AtByte bytes) {n : Nat} (hn : n ≤ 24)
    (hlen : 8 * bytes.length < n) :
    ∃ c, Machine.takeBits n s = .raise .truncatedInput { s with cursor := c } :=
  h.canRead.cursorAt_zero.takeBits_short hn (by rw [h.bitsLeft_length]; omega)

/-! ### The data bytes (R204) -/

theorem copyStored_add (m n : Nat) (s : State) :
    copyStored (m + n) s = (copyStored m s).bind fun _ t => copyStored n t := by
  induction m generalizing s with
  | zero => rw [Nat.zero_add]; rfl
  | succ m ih =>
    rw [Nat.succ_add, copyStored, copyStored]
    cases takeBits 8 s with
    | ok b t =>
      dsimp only [CoreResult.bind]
      cases emit (BitVec.ofNat 8 b) t with
      | ok v u => exact ih u
      | raise e u => rfl
      | fault f => rfl
    | raise e t => rfl
    | fault f => rfl

/-- R204: a data byte that is there is read, then emitted. -/
theorem State.AtByte.copyStored_succ {s : State} {b : Byte} {rest : List Byte} (h : s.AtByte (b :: rest)) (n : Nat) :
    ∃ c, State.AtByte { s with cursor := c } rest ∧ c.consumed = s.cursor.consumed + 1
      ∧ copyStored (n + 1) s = (emit b { s with cursor := c }).bind fun _ t => copyStored n t := by
  obtain ⟨c, hc, hat, hcons⟩ := h.takeBits_one
  refine ⟨c, hat, hcons, ?_⟩
  rw [copyStored, CoreResult.bind_of_ok hc, BitVec.ofNat_toNat, BitVec.setWidth_eq]

/-- R204, R413: a data byte that is not there. -/
theorem State.AtByte.copyStored_end {s : State} (h : s.AtByte []) (n : Nat) :
    ∃ c, copyStored (n + 1) s = .raise .truncatedInput { s with cursor := c } := by
  obtain ⟨c, hc⟩ := h.takeBits_short (n := 8) (by omega) (Nat.zero_lt_succ 7)
  exact ⟨c, CoreResult.bind_of_raise hc _⟩

/-- R204: n data bytes that are there and fit are copied. -/
theorem State.AtByte.copyStored_grown {s : State} {bytes : List Byte} {n : Nat} (h : s.AtByte bytes)
    (hlen : n ≤ bytes.length) (hroom : s.HasRoom n) :
    ∃ c r, copyStored n s = .ok () (State.emitted { s with cursor := c } r n)
      ∧ State.AtByte { s with cursor := c } (bytes.drop n)
      ∧ c.consumed = s.cursor.consumed + BitVec.ofNat 32 n
      ∧ s.raw.Grown r s.inflate.outPos.toNat n fun k => bytes.getD k 0 := by
  induction n with
  | zero =>
    refine ⟨s.cursor, s.raw, ?_, h, (BitVec.add_zero _).symm, grown_zero _ _ _⟩
    exact congrArg (CoreResult.ok ()) (emitted_zero s).symm
  | succ n ih =>
    obtain ⟨c, r, hc, hat, hcons, hgrown⟩ := ih (by omega) (hroom.mono (Nat.le_add_right n 1))
    rw [List.drop_eq_getElem_cons hlen] at hat
    have hout : State.AtByte (State.emitted { s with cursor := c } r n) (bytes[n] :: bytes.drop (n + 1)) :=
      hat.setOutput _ _ _
    obtain ⟨d, hat', hcons', hd⟩ := hout.copyStored_succ 0
    have hbyte : bytes.getD n 0 = bytes[n] := List.getD_eq_getElem _ _ hlen
    have hroom' : State.HasRoom { s with cursor := d } (n + 1) := hroom
    refine ⟨d, _, ?_, hat'.setOutput s.inflate s.raw s.phase, ?_, grown_succ hgrown⟩
    · rw [copyStored_add, CoreResult.bind_of_ok hc, hbyte]
      exact hd.trans (CoreResult.bind_of_ok (hroom'.emit_emitted bytes[n] r) _)
    · rw [hcons', BitVec.ofNat_add, ← BitVec.add_assoc, ← hcons]
      rfl

/-- R204, R413: with more bytes to copy than there are, every one that is there is copied. -/
theorem State.AtByte.copyStored_truncated {s : State} {bytes : List Byte} {n : Nat} (h : s.AtByte bytes)
    (hlen : bytes.length < n) (hroom : s.HasRoom bytes.length) :
    ∃ u, copyStored n s = .raise .truncatedInput u
      ∧ u.inflate.outPos = s.inflate.outPos + BitVec.ofNat 32 bytes.length := by
  obtain ⟨k, rfl⟩ : ∃ k, n = bytes.length + (k + 1) := ⟨n - bytes.length - 1, by omega⟩
  obtain ⟨c, r, hc, hat, -, -⟩ := h.copyStored_grown (Nat.le_refl _) hroom
  rw [List.drop_length] at hat
  have hout : (State.emitted { s with cursor := c } r bytes.length).AtByte [] := hat.setOutput _ _ _
  obtain ⟨d, hd⟩ := hout.copyStored_end k
  refine ⟨{ State.emitted { s with cursor := c } r bytes.length with cursor := d }, ?_, rfl⟩
  rw [copyStored_add, CoreResult.bind_of_ok hc]
  exact hd

/-- R204, R222: with more bytes to copy than fit, those that fit are copied, and the one after them is read. -/
theorem State.AtByte.copyStored_overflow {s : State} {bytes : List Byte} {m n : Nat} (h : s.AtByte bytes)
    (hroom : s.HasRoom m) (hfull : s.geom.rasterSize = s.inflate.outPos.toNat + m) (hn : m < n)
    (hlen : m < bytes.length) :
    ∃ u, copyStored n s = .raise .outputOverflow u ∧ u.inflate.outPos.toNat = s.geom.rasterSize
      ∧ u.cursor.consumed = s.cursor.consumed + BitVec.ofNat 32 (m + 1) := by
  obtain ⟨k, rfl⟩ : ∃ k, n = m + (k + 1) := ⟨n - m - 1, by omega⟩
  obtain ⟨c, r, hc, hat, hcons, -⟩ := h.copyStored_grown hlen.le hroom
  rw [List.drop_eq_getElem_cons hlen] at hat
  have hout : State.AtByte (State.emitted { s with cursor := c } r m) (bytes[m] :: bytes.drop (m + 1)) :=
    hat.setOutput _ _ _
  obtain ⟨d, -, hcons', hd⟩ := hout.copyStored_succ k
  have hroom' : State.HasRoom { s with cursor := d } m := hroom
  refine ⟨State.emitted { s with cursor := d } r m, ?_, (hroom'.emitted_outPos r).trans hfull.symm, ?_⟩
  · rw [copyStored_add, CoreResult.bind_of_ok hc]
    exact hd.trans (CoreResult.bind_of_raise (hroom'.emit_emitted_full hfull _ r) _)
  · rw [BitVec.ofNat_add, ← BitVec.add_assoc, ← hcons]
    exact hcons'

/-! ### The block (R201, R203, R204) -/

/-- `s` with LEN read, the cursor after it at `c`. -/
def State.lenRead (s : State) (c : Cursor) (len : Half) : State :=
  { s with cursor := c, inflate := { s.inflate with storedLen := len } }

/-- R204: the check once both 16-bit numbers are read. -/
theorem storedBlock_of_reads {s : State} {c d : Cursor} {len nlen : Half}
    (hlen : takeBits 16 (align s) = .ok len.toNat { s with cursor := c })
    (hnlen : takeBits 16 (s.lenRead c len) = .ok nlen.toNat (s.lenRead d len)) :
    storedBlock s = if nlen ≠ ~~~len then .raise .lengthCheckFailed (s.lenRead d len)
      else storedBody { s.lenRead d len with phase := .infStored } := by
  have hnat (x : Half) : BitVec.ofNat 16 x.toNat = x := by rw [BitVec.ofNat_toNat, BitVec.setWidth_eq]
  rw [storedBlock, CoreResult.bind_of_ok hlen, hnat]
  refine (CoreResult.bind_of_ok hnlen _).trans ?_
  rw [hnat]
  rfl

/-- R204: LEN and its complement are read from the next byte on; then the check, before any data byte is read. -/
theorem storedBlock_header {s : State} {lo hi nlo nhi : Byte} {rest : List Byte} (hfit : s.segs.fit = true)
    (hunread : s.unread = [lo, hi, nlo, nhi] ++ rest) :
    ∃ c, c.consumed = s.cursor.consumed + 4 ∧ (s.lenRead c (hi ++ lo)).AtByte rest ∧
      storedBlock s = if (nhi ++ nlo : BitVec 16) ≠ ~~~(hi ++ lo : BitVec 16)
        then .raise .lengthCheckFailed (s.lenRead c (hi ++ lo))
        else storedBody { s.lenRead c (hi ++ lo) with phase := .infStored } := by
  have hstart : (align s).AtByte (lo :: hi :: nlo :: nhi :: rest) := by
    have hat := align_atByte hfit
    rwa [hunread] at hat
  obtain ⟨c, hc, hat, hcons⟩ := hstart.takeBits_two
  have hlen : (s.lenRead c (hi ++ lo)).AtByte (nlo :: nhi :: rest) := hat.setOutput _ _ _
  obtain ⟨d, hd, hat', hcons'⟩ := hlen.takeBits_two
  refine ⟨d, ?_, hat', storedBlock_of_reads hc hd⟩
  rw [hcons', State.lenRead, hcons, BitVec.add_assoc]
  rfl

/-- R204, R413: the stream ends inside LEN or its complement. -/
theorem storedBlock_short {s : State} (hfit : s.segs.fit = true) (hlen : s.unread.length < 4) :
    ∃ u, storedBlock s = .raise .truncatedInput u ∧ u.inflate.outPos = s.inflate.outPos := by
  have hstart : (align s).AtByte s.unread := align_atByte hfit
  generalize s.unread = bytes at hstart hlen
  rcases Nat.lt_or_ge bytes.length 2 with hone | htwo
  · obtain ⟨c, hc⟩ := hstart.takeBits_short (n := 16) (by omega) (by omega)
    exact ⟨{ align s with cursor := c }, CoreResult.bind_of_raise hc _, rfl⟩
  · obtain ⟨lo, hi, rest, rfl⟩ : ∃ lo hi rest, bytes = lo :: hi :: rest := by
      match bytes, htwo with
      | lo :: hi :: rest, _ => exact ⟨lo, hi, rest, rfl⟩
    obtain ⟨c, hc, hat, -⟩ := hstart.takeBits_two
    have hat : (s.lenRead c (BitVec.ofNat 16 (hi ++ lo : BitVec 16).toNat)).AtByte rest := hat.setOutput _ _ _
    rw [List.length_cons, List.length_cons] at hlen
    obtain ⟨d, hd⟩ := hat.takeBits_short (n := 16) (by omega) (by omega)
    exact ⟨_, (CoreResult.bind_of_ok hc _).trans (CoreResult.bind_of_raise hd _), rfl⟩

/-- Settles O26: the header is read and its check passes; then the data bytes are copied. -/
theorem storedBlockCopiesItsBytes : Obligations.StoredBlockCopiesItsBytes := by
  intro s bfinal lo hi nlo nhi data rest hfit hunread hlen hcheck hroom
  rw [List.append_assoc] at hunread
  obtain ⟨c, hcons, hat, hblock⟩ := storedBlock_header (s := latchHeader bfinal 0 s) hfit hunread
  let u : State := { (latchHeader bfinal 0 s).lenRead c (hi ++ lo) with phase := .infStored }
  have hbody : u.AtByte (data ++ rest) := hat.setOutput _ _ _
  obtain ⟨d, r, hd, hat', hcons', hgrown⟩ := hbody.copyStored_grown (n := data.length)
    (by rw [List.length_append]; exact Nat.le_add_right ..) hroom
  rw [List.drop_left] at hat'
  have hcopy : copyStored u.inflate.storedLen.toNat u =
      .ok () (State.emitted { u with cursor := d } r data.length) :=
    (congrArg (copyStored · u) hlen).trans hd
  refine ⟨blockEnd (State.emitted { u with cursor := d } r data.length),
    congrArg CoreResult.outcome ((hblock.trans (if_neg (not_not.mpr hcheck))).trans (CoreResult.bind_of_ok hcopy _)),
    hat'.unread, hat'.bitcnt, hat'.bitbuf, ?_, grown_congr hgrown fun k hk => ?_, rfl⟩
  · rw [BitVec.ofNat_add, ← BitVec.add_assoc]
    exact hcons'.trans (congrArg (· + _) hcons)
  · rw [List.getD_append _ _ _ _ hk]

/-- Settles O27: the header is short or fails its check, the data end, or the output is full. -/
theorem storedBlockErrorsInOrder : Obligations.StoredBlockErrorsInOrder := by
  intro s bfinal hfit hcap32 hcap hout
  refine ⟨fun hshort => ?_, ?_⟩
  · obtain ⟨u, hu, hpos⟩ := storedBlock_short (s := latchHeader bfinal 0 s) hfit hshort
    exact ⟨_, congrArg CoreResult.outcome hu, rfl, rfl, hpos⟩
  intro lo hi nlo nhi rest hunread n room
  obtain ⟨c, hcons, hat, hblock⟩ := storedBlock_header (s := latchHeader bfinal 0 s) hfit hunread
  let u : State := { (latchHeader bfinal 0 s).lenRead c (hi ++ lo) with phase := .infStored }
  have hbody : u.AtByte rest := hat.setOutput _ _ _
  have hraise {e : Err} {v : State} (hcheck : (nhi ++ nlo : BitVec 16) = ~~~(hi ++ lo : BitVec 16))
      (hcopy : copyStored n u = .raise e v) : exec (.blkStored bfinal) s = .next (raiseError e v) :=
    congrArg CoreResult.outcome
      ((hblock.trans (if_neg (not_not.mpr hcheck))).trans (CoreResult.bind_of_raise hcopy _))
  have hfits {m : Nat} (hm : m ≤ room) : s.HasRoom m := ⟨by omega, by omega, hcap32⟩
  refine ⟨fun hcheck => ?_, fun hcheck hend hroom => ?_, fun hcheck hn hrest => ?_⟩
  · exact ⟨_, congrArg CoreResult.outcome (hblock.trans (if_pos hcheck)), rfl, rfl, rfl, hcons⟩
  · obtain ⟨v, hv, hpos⟩ := hbody.copyStored_truncated hend (hfits hroom)
    exact ⟨_, hraise hcheck hv, rfl, rfl, hpos⟩
  · have hfull : s.geom.rasterSize = s.inflate.outPos.toNat + room := by omega
    obtain ⟨v, hv, hpos, hconsv⟩ := hbody.copyStored_overflow (hfits (Nat.le_refl _)) hfull hn hrest
    refine ⟨_, hraise hcheck hv, rfl, rfl, hpos, ?_⟩
    rw [Nat.add_assoc, BitVec.ofNat_add, ← BitVec.add_assoc]
    exact hconsv.trans (congrArg (· + _) hcons)

end Sys2Proof.Machine
end

section
/-! PROOFS of the family 43_scanline_filters.md, part 1: what a filter element leaves of its row, of the rest of RAW and
of the state (R252 to R261). -/

namespace Sys2Proof.Machine

/-! ### The predictors (R253 to R257) -/

/-- The function of a filter tag on the bytes left, up and upper-left, as its element computes it. -/
def filterPred (tag : Nat) : Byte → Byte → Byte → Byte :=
  if tag = 0 then fun _ _ _ => 0 else if tag = 1 then fun a _ _ => a else if tag = 2 then fun _ b _ => b
  else if tag = 3 then fun a b _ => predAvg a b else predPaeth

theorem exec_filterElement (tag : Nat) (s : State) : exec (filterElement tag) s = filterRow (filterPred tag) s := by
  unfold filterElement filterPred
  split_ifs <;> rfl

/-- R256: the halved sum of two bytes is a byte, so that nothing is cut off. -/
theorem predAvg_toNat (a b : Byte) : (predAvg a b).toNat = (a.toNat + b.toNat) / 2 := by
  rw [predAvg, BitVec.toNat_ofNat, Nat.mod_eq_of_lt (by omega)]

/-- R257: the distances compared are absolute values of integers. -/
theorem predPaeth_toNat (a b c : Byte) : (predPaeth a b c).toNat = predictor 4 a.toNat b.toNat c.toNat := by
  have hdist (x y z w : Int) : (x - y).natAbs ≤ (z - w).natAbs ↔ |x - y| ≤ |z - w| := by
    rw [Int.abs_eq_natAbs, Int.abs_eq_natAbs, Int.ofNat_le]
  simp only [predPaeth, predictor, hdist, OfNat.ofNat_ne_zero, OfNat.ofNat_ne_one, Nat.reduceEqDiff, if_false,
    apply_ite BitVec.toNat]

/-- An element predicts what the tag's predictor says of the values of its neighbours. -/
theorem filterPred_toNat {tag : Nat} (htag : tag ≤ 4) (a b c : Byte) :
    (filterPred tag a b c).toNat = predictor tag a.toNat b.toNat c.toNat := by
  obtain rfl | rfl | rfl | rfl | rfl : tag = 0 ∨ tag = 1 ∨ tag = 2 ∨ tag = 3 ∨ tag = 4 := by omega
  · rfl
  · rfl
  · rfl
  · exact predAvg_toNat a b
  · exact predPaeth_toNat a b c

/-! ### The neighbours (R252, R260) -/

theorem upByte_toNat (s : State) (i : Nat) : (upByte s.recon s.raw i).toNat = s.above i := by
  unfold upByte State.above
  cases s.recon.prev <;> rfl

theorem upLeftByte_toNat (s : State) (i : Nat) :
    (upLeftByte s.recon s.raw i).toNat = if s.recon.bpp ≤ i then s.above (i - s.recon.bpp) else 0 := by
  unfold upLeftByte State.above
  cases s.recon.prev with
  | none => exact (ite_self 0).symm
  | some p =>
    dsimp only
    split
    · rename_i hle
      rw [Nat.add_sub_assoc hle]
    · rfl

theorem leftByte_toNat (r : ReconRegs) (raw : RawBuf) (i : Nat) :
    (leftByte r raw i).toNat = if r.bpp ≤ i then (raw.read (r.cur + i - r.bpp)).toNat else 0 :=
  apply_ite BitVec.toNat ..

/-! ### The row -/

/-- `s` with the row the reconstructor stands at rebuilt in RAW. -/
def State.rebuilt (s : State) (tag : Nat) : State :=
  { s with raw := reconLoop (filterPred tag) s.recon s.recon.rowbytes 0 s.raw }

/-- A filter element whose row lies in RAW reconstructs it and moves on (R252). -/
theorem exec_filterElement_next {s : State} (tag : Nat) (h : s.recon.cur + s.recon.rowbytes ≤ s.params.rawCapMax) :
    exec (filterElement tag) s = .next (nextRow (s.rebuilt tag)) := by
  rw [exec_filterElement]
  rcases filterRow_cases (filterPred tag) s with ⟨hlt, -⟩ | ⟨-, he⟩
  · omega
  · exact he

theorem rebuilt_read_outside (s : State) (tag : Nat) {x : Nat}
    (h : x < s.recon.cur ∨ s.recon.cur + s.recon.rowbytes ≤ x) : (s.rebuilt tag).raw.read x = s.raw.read x :=
  reconLoop_read_outside _ _ _ _ _ _ (by omega)

/-- R252: a byte of the row becomes byte + predictor mod 256, its left neighbour being already reconstructed. -/
theorem rebuilt_read {s : State} {tag i : Nat} (htag : tag ≤ 4) (h : s.RowInRaw) (hi : i < s.recon.rowbytes) :
    ((s.rebuilt tag).raw.read (s.recon.cur + i)).toNat =
      ((s.raw.read (s.recon.cur + i)).toNat +
        predictor tag
          (if s.recon.bpp ≤ i then ((s.rebuilt tag).raw.read (s.recon.cur + i - s.recon.bpp)).toNat else 0)
          (s.above i) (if s.recon.bpp ≤ i then s.above (i - s.recon.bpp) else 0)) % 256 := by
  obtain ⟨hbpp, -, hprev⟩ := h
  have hread := reconLoop_read (filterPred tag) s.recon s.recon.rowbytes 0 i s.raw hbpp
    (fun p hp => by rw [Nat.zero_add]; exact hprev p hp) (Nat.zero_le i) (by omega)
  rw [← leftByte_toNat, ← upByte_toNat, ← upLeftByte_toNat, ← filterPred_toNat htag, ← BitVec.toNat_add]
  exact congrArg BitVec.toNat hread

/-- R261: if the bytes of the row are those of `o` less their predictions, the row becomes `o`: the left neighbours are
already bytes of `o`. -/
theorem rebuilt_of_filtered {s : State} {tag : Nat} {o : Nat → Byte} (htag : tag ≤ 4) (h : s.RowInRaw)
    (hfiltered : ∀ i, i < s.recon.rowbytes →
      ((s.raw.read (s.recon.cur + i)).toNat : Int) =
        (((o i).toNat : Int) -
          predictor tag (if s.recon.bpp ≤ i then (o (i - s.recon.bpp)).toNat else 0) (s.above i)
            (if s.recon.bpp ≤ i then s.above (i - s.recon.bpp) else 0)) % 256)
    (i : Nat) (hi : i < s.recon.rowbytes) : (s.rebuilt tag).raw.read (s.recon.cur + i) = o i := by
  induction i using Nat.strong_induction_on with
  | _ i ih =>
    have hbpp : 1 ≤ s.recon.bpp := h.1
    have hleft : (if s.recon.bpp ≤ i then ((s.rebuilt tag).raw.read (s.recon.cur + i - s.recon.bpp)).toNat else 0) =
        if s.recon.bpp ≤ i then (o (i - s.recon.bpp)).toNat else 0 := by
      split
      · rename_i hle
        rw [Nat.add_sub_assoc hle, ih (i - s.recon.bpp) (by omega) (by omega)]
      · rfl
    have hread := rebuilt_read htag h hi
    rw [hleft] at hread
    have hbyte := hfiltered i hi
    have hlt := (o i).isLt
    exact BitVec.eq_of_toNat_eq (by omega)

/-! ### The move to the next row leaves the rest (R259, R338) -/

theorem settledMem_of_race_nil {s : State} (h : s.race = []) : s.settledMem = s.hmem := by
  rw [State.settledMem, h]
  rfl

/-- From `s` to `t` only the traversal, the phase and STATUS have moved, and neither ERR_CODE nor the samples; of HMEM
and its marks at most what R92 asks for at the end of a command. -/
structure State.Traversed (s t : State) : Prop where
  frame : t = { s with
    recon := t.recon, norm := t.norm, phase := t.phase, status := t.status, hmem := t.hmem, race := t.race }
  errCode : t.status.errCode = s.status.errCode
  sample : t.norm.sample = s.norm.sample
  memory : s.race = [] → t.hmem = s.hmem ∧ t.race = s.race

theorem State.Traversed.raw {s t : State} (h : s.Traversed t) : t.raw = s.raw :=
  (congrArg State.raw h.frame :)

theorem State.Traversed.frame_of_race_nil {s t : State} (h : s.Traversed t) (hrace : s.race = []) :
    t = { s with recon := t.recon, norm := t.norm, phase := t.phase, status := t.status } := by
  obtain ⟨hmem, hmarks⟩ := h.memory hrace
  rw [← hmem, ← hmarks]
  exact h.frame

theorem finishCommand_traversed (s : State) : s.Traversed (finishCommand s) :=
  ⟨rfl, rfl, rfl, fun hrace => ⟨settledMem_of_race_nil hrace, hrace.symm⟩⟩

theorem enterExpand_traversed (s : State) : s.Traversed (enterExpand s) := by
  rcases enterExpand_cases s with ⟨p, -, he⟩ | ⟨-, he⟩ <;> rw [he]
  · exact ⟨rfl, rfl, rfl, fun _ => ⟨rfl, rfl⟩⟩
  · exact finishCommand_traversed s

theorem endRecon_traversed (s : State) : s.Traversed (endRecon s) := by
  have hmoved : State.Traversed { s with status := s.status.setRawValid true } (endRecon s) := by
    rcases endRecon_cases s with ⟨-, he⟩ | ⟨-, he⟩ <;> rw [he]
    · exact enterExpand_traversed _
    · exact finishCommand_traversed _
  exact ⟨hmoved.frame, hmoved.errCode, hmoved.sample, hmoved.memory⟩

theorem nextRow_traversed (s : State) : s.Traversed (nextRow s) := by
  rcases nextRow_cases s with ⟨-, he⟩ | ⟨-, ⟨p, -, he⟩ | ⟨-, he⟩⟩ <;> rw [he]
  · exact ⟨rfl, rfl, rfl, fun _ => ⟨rfl, rfl⟩⟩
  · exact ⟨rfl, rfl, rfl, fun _ => ⟨rfl, rfl⟩⟩
  · exact endRecon_traversed s

/-! ### The statements on one row -/

/-- Settles O42: the row's bytes are rebuilt one after another, the left neighbours first. -/
theorem filterRoundTrip : Obligations.FilterRoundTrip := by
  intro s tag o htag hrow hfiltered
  obtain ⟨-, hfits, -⟩ := id hrow
  refine ⟨_, exec_filterElement_next tag hfits, fun i hi => ?_⟩
  rw [(nextRow_traversed _).raw]
  exact rebuilt_of_filtered htag hrow hfiltered i hi

/-- Settles O41: the loop's result byte by byte, and what the move to the next row leaves. -/
theorem filterReconstructsItsRow : Obligations.FilterReconstructsItsRow := by
  intro s tag htag hrow hrace
  obtain ⟨-, hfits, -⟩ := id hrow
  have hmoved := nextRow_traversed (s.rebuilt tag)
  refine ⟨_, exec_filterElement_next tag hfits, ?_, hmoved.errCode, hmoved.sample, ?_⟩ <;> rw [hmoved.raw]
  · exact hmoved.frame_of_race_nil hrace
  · exact ⟨fun i hi => rebuilt_read_outside s tag hi, fun i hi => rebuilt_read htag hrow hi⟩

end Sys2Proof.Machine
end

section
/-! PROOFS of the family 43_scanline_filters.md, part 2: the order of rows and of pixels (R250, R273, R275, R292). -/

namespace Sys2Proof.Machine

/-! ### Passes (R273, R275) -/

/-- A pass after p that has a first row is a nonempty one of the passes searched (R273). -/
theorem nonEmpty_of_hasRow {g : GeomRegs} {p q : Nat} (hpq : p < q) (h : g.HasRow q 0) :
    ∃ x, ((passesOf g.format.interlace).drop p)[q - (p + 1)]? = some x ∧
      x.nonEmpty g.width.toNat g.height.toNat = true := by
  obtain ⟨-, hlen, hpw, hph⟩ := h
  refine ⟨passGeom g.format.interlace q, ?_, ?_⟩
  · rw [List.getElem?_drop, show p + (q - (p + 1)) = q - 1 by omega, passGeom, List.getD_eq_getElem _ _ (by omega),
      List.getElem?_eq_getElem]
  · rw [PassGeom.nonEmpty, decide_eq_true hpw, decide_eq_true hph]
    rfl

/-- The next pass is the first after p that has a row (R273, R275). -/
theorem nextPass_isFirst {g : GeomRegs} {p q : Nat}
    (h : nextPass g.format.interlace g.width.toNat g.height.toNat p = some q) :
    p < q ∧ ∀ q', p < q' → q' < q → ¬ g.HasRow q' 0 := by
  have hspec := firstNonEmpty_spec g.width.toNat g.height.toNat (p + 1) ((passesOf g.format.interlace).drop p)
  rw [show firstNonEmpty _ _ _ _ = some q from h] at hspec
  obtain ⟨hpq, -, -, hempty⟩ := hspec
  refine ⟨hpq, fun q' hlt hlt' hrow => ?_⟩
  obtain ⟨x, hx, hne⟩ := nonEmpty_of_hasRow hlt hrow
  exact absurd hne (ne_true_of_eq_false (hempty q' hlt hlt' x hx))

/-- Where there is no next pass, no pass after p has a row (R273, R275). -/
theorem not_hasRow_of_nextPass_none {g : GeomRegs} {p q : Nat}
    (h : nextPass g.format.interlace g.width.toNat g.height.toNat p = none) (hpq : p < q) : ¬ g.HasRow q 0 := by
  intro hrow
  have hspec := firstNonEmpty_spec g.width.toNat g.height.toNat (p + 1) ((passesOf g.format.interlace).drop p)
  rw [show firstNonEmpty _ _ _ _ = none from h] at hspec
  obtain ⟨x, hx, hne⟩ := nonEmpty_of_hasRow hpq hrow
  exact absurd hne (ne_true_of_eq_false (hspec x (List.mem_of_getElem? hx)))

theorem nextPass_eq_some {g : GeomRegs} {p q : Nat} (hpq : p < q) (hrow : g.HasRow q 0)
    (hfirst : ∀ q', p < q' → q' < q → ¬ g.HasRow q' 0) :
    nextPass g.format.interlace g.width.toNat g.height.toNat p = some q := by
  cases h : nextPass g.format.interlace g.width.toNat g.height.toNat p with
  | none => exact absurd hrow (not_hasRow_of_nextPass_none h hpq)
  | some r =>
    obtain ⟨hpr, hbefore⟩ := nextPass_isFirst h
    obtain ⟨hrow', -⟩ := nextPass_some h
    rcases Nat.lt_trichotomy r q with hlt | rfl | hgt
    · exact absurd hrow' (hfirst r hpr hlt)
    · rfl
    · exact absurd hrow (hbefore q hpq hgt)

theorem nextPass_eq_none {g : GeomRegs} {p : Nat} (hnone : ∀ q, p < q → ¬ g.HasRow q 0) :
    nextPass g.format.interlace g.width.toNat g.height.toNat p = none := by
  cases h : nextPass g.format.interlace g.width.toNat g.height.toNat p with
  | none => rfl
  | some q => exact absurd (nextPass_some h).1 (hnone q (nextPass_isFirst h).1)

/-! ### Rows (R252, R331, R336) -/

/-- R331, R336: the command expands, from the first pixel of pass 1 on. -/
theorem endRecon_of_isExpand {s : State} (hlegal : s.geom.Legal) (hx : s.isExpand = true) :
    endRecon s = { s with
      status := s.status.setRawValid true
      norm := { s.norm with pass := 1, row := 0, col := 0, rawpos := 0 }, phase := .expand } := by
  rcases endRecon_cases s with ⟨-, he⟩ | ⟨hx', -⟩
  · rw [he, enterExpand, nextPass_zero hlegal]
  · rw [hx] at hx'; cases hx'

/-- R331, R338: the command does not expand, and ends. -/
theorem endRecon_of_not_isExpand {s : State} (hx : ¬ s.isExpand = true) :
    endRecon s = finishCommand { s with status := s.status.setRawValid true } := by
  rcases endRecon_cases s with ⟨hx', -⟩ | ⟨-, he⟩
  · exact absurd hx' hx
  · exact he

/-- The end of RECON leaves RAWVALID set, and BUSY at the first pixel or DONE (R331, R336, R338). -/
theorem endRecon_stands {s : State} (hbusy : s.isBusy = true) (herr : s.status.errCode = 0) (hlegal : s.geom.Legal) :
    (endRecon s).status.rawvalid = true ∧
      if s.isExpand = true then
        (endRecon s).phase = .expand ∧ (endRecon s).status.state = .busy ∧ (endRecon s).norm.pass = 1
          ∧ (endRecon s).norm.row = 0 ∧ (endRecon s).norm.col = 0 ∧ (endRecon s).norm.rawpos = 0
      else (endRecon s).phase = .ended ∧ (endRecon s).status.state = .done ∧ (endRecon s).status.errCode = 0 := by
  by_cases hx : s.isExpand = true
  · rw [if_pos hx, endRecon_of_isExpand hlegal hx]
    exact ⟨rfl, rfl, eq_of_beq hbusy, rfl, rfl, rfl, rfl⟩
  · rw [if_neg hx, endRecon_of_not_isExpand hx]
    exact ⟨rfl, rfl, rfl, herr⟩

theorem nextRow_of_row_lt {s : State}
    (h : s.recon.row + 1 < (passGeom s.geom.format.interlace s.recon.pass).ph s.geom.height.toNat) :
    nextRow s = { s with recon := { s.recon with
      row := s.recon.row + 1, prev := some s.recon.cur, cur := s.recon.cur + s.recon.rowbytes + 1 } } :=
  if_pos h

theorem nextRow_of_nextPass {s : State} {p : Nat}
    (hlast : s.recon.row + 1 = (passGeom s.geom.format.interlace s.recon.pass).ph s.geom.height.toNat)
    (hnext : nextPass s.geom.format.interlace s.geom.width.toNat s.geom.height.toNat s.recon.pass = some p) :
    nextRow s = { s with recon := firstRowOf s.geom p (s.recon.cur + s.recon.rowbytes) } := by
  rcases nextRow_cases s with ⟨hlt, -⟩ | ⟨-, ⟨q, hq, he⟩ | ⟨hnone, -⟩⟩
  · omega
  · rw [he, Option.some.inj (hnext.symm.trans hq)]
  · cases hnext.symm.trans hnone

theorem nextRow_of_lastPass {s : State}
    (hlast : s.recon.row + 1 = (passGeom s.geom.format.interlace s.recon.pass).ph s.geom.height.toNat)
    (hnone : nextPass s.geom.format.interlace s.geom.width.toNat s.geom.height.toNat s.recon.pass = none) :
    nextRow s = endRecon s := by
  rcases nextRow_cases s with ⟨hlt, -⟩ | ⟨-, ⟨q, hq, -⟩ | ⟨-, he⟩⟩
  · omega
  · cases hnone.symm.trans hq
  · exact he

/-- A filter element that completes moves on to the next row (R252). -/
theorem nextRow_of_exec_filterElement {s t : State} {tag : Nat} (h : exec (filterElement tag) s = .next t) :
    t = nextRow (s.rebuilt tag) := by
  rw [exec_filterElement] at h
  rcases filterRow_cases (filterPred tag) s with ⟨-, he⟩ | ⟨-, he⟩ <;> rw [he] at h
  · cases h
  · exact (Host.Outcome.next.inj h).symm

/-- Settles O43: the three ways of `nextRow`; rebuilding the row has moved nothing but RAW. -/
theorem rowsComeInOrder : Obligations.RowsComeInOrder := by
  intro s t tag hinv hphase _ hexec
  obtain ⟨-, hbusy, herr, hlegal, -⟩ := hinv.running (by simp [hphase]) (by simp [hphase]) (by simp [hphase])
  obtain rfl := nextRow_of_exec_filterElement hexec
  refine ⟨fun hlt => ?_, fun hlast p hp hrow hfirst => ?_, fun hlast hnone => ?_⟩
  · rw [nextRow_of_row_lt (s := s.rebuilt tag) hlt]
    exact ⟨hphase, rfl, rfl, rfl⟩
  · rw [nextRow_of_nextPass (s := s.rebuilt tag) hlast (nextPass_eq_some hp hrow hfirst)]
    exact ⟨hphase, rfl, rfl, rfl⟩
  · rw [nextRow_of_lastPass (s := s.rebuilt tag) hlast (nextPass_eq_none hnone)]
    exact endRecon_stands hbusy herr hlegal

/-! ### Pixels (R292, R338) -/

section
variable {il : Byte} {bits : Nat} {s : State}

theorem nextPixel_of_col_lt (h : s.norm.col + 1 < (passGeom il s.norm.pass).pw s.geom.width.toNat) :
    nextPixel il bits s = { s with norm := { s.norm with col := s.norm.col + 1 } } :=
  if_pos h

theorem nextPixel_of_row_lt (hcol : s.norm.col + 1 = (passGeom il s.norm.pass).pw s.geom.width.toNat)
    (hrow : s.norm.row + 1 < (passGeom il s.norm.pass).ph s.geom.height.toNat) :
    nextPixel il bits s = { s with norm := { s.norm with
      row := s.norm.row + 1, col := 0
      rawpos := s.norm.rawpos + 1 + (passGeom il s.norm.pass).rowBytes s.geom.width.toNat bits } } :=
  (if_neg (by omega)).trans (if_pos hrow)

theorem nextPixel_of_nextPass {p : Nat} (hcol : s.norm.col + 1 = (passGeom il s.norm.pass).pw s.geom.width.toNat)
    (hrow : s.norm.row + 1 = (passGeom il s.norm.pass).ph s.geom.height.toNat)
    (hnext : nextPass il s.geom.width.toNat s.geom.height.toNat s.norm.pass = some p) :
    nextPixel il bits s = { s with norm := { s.norm with
      pass := p, row := 0, col := 0
      rawpos := s.norm.rawpos + 1 + (passGeom il s.norm.pass).rowBytes s.geom.width.toNat bits } } :=
  (if_neg (by omega)).trans ((if_neg (by omega)).trans (by rw [hnext]))

theorem nextPixel_of_lastPass (hcol : s.norm.col + 1 = (passGeom il s.norm.pass).pw s.geom.width.toNat)
    (hrow : s.norm.row + 1 = (passGeom il s.norm.pass).ph s.geom.height.toNat)
    (hnone : nextPass il s.geom.width.toNat s.geom.height.toNat s.norm.pass = none) :
    nextPixel il bits s = finishCommand { s with norm := { s.norm with
      rawpos := s.norm.rawpos + 1 + (passGeom il s.norm.pass).rowBytes s.geom.width.toNat bits } } :=
  (if_neg (by omega)).trans ((if_neg (by omega)).trans (by rw [hnone]))

end

/-- `s` with the samples of its pixel read, and HMEM with the pixel written. -/
def State.pixelDone (s : State) (x : Samples) (m : Memory) : State :=
  { s with norm := { s.norm with sample := x }, hmem := m }

/-- The element of FORMAT that raises no error stores the samples and writes HMEM, then moves on to the next pixel
(R292). -/
theorem nextPixel_of_exec {s t : State} {i : Instr} (hlegal : s.geom.Legal) (hok : t.status.state ≠ .error)
    (hi : decode .pixfmt (formatWord s.geom.format).toNat = .ok i) (h : exec i s = .next t) :
    ∃ bits x m, t = nextPixel s.geom.format.interlace bits (s.pixelDone x m) := by
  obtain ⟨-, -, hil, hsupported⟩ := hlegal
  obtain ⟨j, conv, hj, hstep, -⟩ := decodePixel_step hil hsupported
  obtain rfl : j = i := Except.ok.inj (hj.symm.trans hi)
  rw [hstep] at h
  rcases pixelStep_cases s.geom.format.bitDepth.toNat (channels s.geom.format.colorModel) conv
    s.geom.format.interlace s with ⟨-, he⟩ | ⟨e, -, he⟩ | ⟨-, he⟩ | ⟨px, -, -, he⟩ <;> rw [he] at h
  · cases h
  · obtain rfl := Host.Outcome.next.inj h
    exact absurd rfl hok
  · cases h
  · exact ⟨_, _, _, (Host.Outcome.next.inj h).symm⟩

/-- Settles O52: the four ways of `nextPixel`; a running command has ERR_CODE 0. -/
theorem pixelsComeInOrder : Obligations.PixelsComeInOrder := by
  intro s t i hinv hphase hok hi hexec
  obtain ⟨-, -, herr, hlegal, -⟩ := hinv.running (by simp [hphase]) (by simp [hphase]) (by simp [hphase])
  obtain ⟨bits, x, m, rfl⟩ := nextPixel_of_exec hlegal hok hi hexec
  refine ⟨fun hcol => ?_, fun hcol hrow => ?_, fun hcol hrow p hp hfirst hbefore => ?_, fun hcol hrow hnone => ?_⟩
  · rw [nextPixel_of_col_lt (s := s.pixelDone x m) hcol]
    exact ⟨hphase, rfl, rfl, rfl⟩
  · rw [nextPixel_of_row_lt (s := s.pixelDone x m) hcol hrow]
    exact ⟨hphase, rfl, rfl, rfl⟩
  · rw [nextPixel_of_nextPass (s := s.pixelDone x m) hcol hrow (nextPass_eq_some hp hfirst hbefore)]
    exact ⟨hphase, rfl, rfl, rfl⟩
  · rw [nextPixel_of_lastPass (s := s.pixelDone x m) hcol hrow (nextPass_eq_none hnone)]
    exact ⟨rfl, congrArg (StatusReg.mk .done s.status.rawvalid) herr⟩

end Sys2Proof.Machine
end

section
/-! PROOFS of the family 44_interlace.md (R270 to R278). The columns of a pass are the lattice xs + i·dx, of which `pw` counts those
inside the image. A lattice with xs < dx is a residue class, so a raster position names its column and its row in a pass
by a division, and its pass by its place in the 8×8 tile. -/

namespace Sys2Proof.Machine

/-! ### A pass as a pair of residue classes (R271, R276) -/

/-- A pass starts inside its first stride (R271). -/
theorem start_lt_stride {il : Byte} {g : PassGeom} (h : g ∈ passesOf il) : g.xs < g.dx ∧ g.ys < g.dy := by
  revert g
  unfold passesOf
  split <;> decide

theorem passGeom_mem {il : Byte} {p : Nat} (h1 : 1 ≤ p) (hlen : p ≤ (passesOf il).length) :
    passGeom il p ∈ passesOf il := by
  rw [passGeom, List.getD_eq_getElem _ _ (by omega)]
  exact List.getElem_mem _

/-- Member i of a lattice is the number with the residue s and the quotient i. -/
theorem eq_start_add_mul_iff {s d : Nat} (hs : s < d) (x i : Nat) : x = s + i * d ↔ x % d = s ∧ x / d = i := by
  rw [and_comm, Nat.div_mod_unique (Nat.zero_lt_of_lt hs), Nat.mul_comm d i]
  exact ⟨fun h => ⟨h.symm, hs⟩, fun h => h.1.symm⟩

/-- From its start on, a lattice is a residue class. -/
theorem start_le_and_modEq_iff {s d : Nat} (hs : s < d) (x : Nat) : s ≤ x ∧ x % d = s % d ↔ x % d = s := by
  rw [Nat.mod_eq_of_lt hs]
  exact ⟨And.right, fun h => ⟨h ▸ Nat.mod_le x d, h⟩⟩

/-! ### The dimensions of a pass (R272) -/

theorem lt_ceilDiv_of_mul_lt {c a b : Nat} (hb : 0 < b) (h : c * b < a) : c < ceilDiv a b := by
  have hnext : (c + 1) * b ≤ a + b - 1 := by rw [Nat.add_mul]; omega
  exact (Nat.le_div_iff_mul_le hb).mpr hnext

/-- The columns of a pass are all those of its lattice that lie inside the image. -/
theorem lt_pw_iff {g : PassGeom} (hd : 0 < g.dx) (n i : Nat) : i < g.pw n ↔ g.xs + i * g.dx < n := by
  refine ⟨column_lt, fun h => ?_⟩
  rw [PassGeom.pw, if_pos (by omega)]
  exact lt_ceilDiv_of_mul_lt hd (by omega)

/-- The rows of a pass are all those of its lattice that lie inside the image. -/
theorem lt_ph_iff {g : PassGeom} (hd : 0 < g.dy) (n j : Nat) : j < g.ph n ↔ g.ys + j * g.dy < n := by
  refine ⟨row_lt, fun h => ?_⟩
  rw [PassGeom.ph, if_pos (by omega)]
  exact lt_ceilDiv_of_mul_lt hd (by omega)

/-- If the members of a lattice below n are those with an index below k, there are k of them. -/
theorem countP_lattice {s d n k : Nat} (hs : s < d) (hk : ∀ i, i < k ↔ s + i * d < n) :
    (List.range n).countP (fun x => decide (s ≤ x ∧ x % d = s % d)) = k := by
  have hmembers : (Finset.range n).filter (fun x => s ≤ x ∧ x % d = s % d) =
      (Finset.range k).image (fun i => s + i * d) := by
    ext x
    simp only [Finset.mem_filter, Finset.mem_range, Finset.mem_image, start_le_and_modEq_iff hs]
    constructor
    · rintro ⟨hx, hres⟩
      have hpos := (eq_start_add_mul_iff hs x (x / d)).mpr ⟨hres, rfl⟩
      exact ⟨x / d, (hk _).mpr (hpos ▸ hx), hpos.symm⟩
    · rintro ⟨i, hi, rfl⟩
      exact ⟨(hk i).mp hi, ((eq_start_add_mul_iff hs _ i).mp rfl).1⟩
  have hinj : Function.Injective (fun i => s + i * d) := fun i j h =>
    Nat.eq_of_mul_eq_mul_right (Nat.zero_lt_of_lt hs) (Nat.add_left_cancel h)
  calc (List.range n).countP (fun x => decide (s ≤ x ∧ x % d = s % d))
      = ((Finset.range n).filter (fun x => s ≤ x ∧ x % d = s % d)).card := Nat.count_eq_card_filter_range _ n
    _ = k := by rw [hmembers, Finset.card_image_of_injective _ hinj, Finset.card_range]

/-- Settles O44: the indices below pw are those of the lattice's columns inside the image, and so for the rows. -/
theorem passDimensionsCountColumnsAndRows : Obligations.PassDimensionsCountColumnsAndRows := by
  intro il g n hg
  obtain ⟨hx, hy⟩ := start_lt_stride hg
  exact ⟨(countP_lattice hx (lt_pw_iff (Nat.zero_lt_of_lt hx) n)).symm,
    (countP_lattice hy (lt_ph_iff (Nat.zero_lt_of_lt hy) n)).symm⟩

/-! ### The passes over the raster (R276, R278) -/

/-- The raster position (x, y) lies on both lattices of the pass. -/
abbrev PassGeom.Holds (g : PassGeom) (x y : Nat) : Prop := x % g.dx = g.xs ∧ y % g.dy = g.ys

/-- A pass that holds a raster position has it as one pixel, whose column and row are the quotients by the strides. -/
theorem pixel_iff_holds {il : Byte} {g : PassGeom} {w h x y : Nat} (hg : g ∈ passesOf il) (hx : x < w) (hy : y < h)
    (i j : Nat) :
    (i < g.pw w ∧ j < g.ph h ∧ x = g.xs + i * g.dx ∧ y = g.ys + j * g.dy) ↔
      g.Holds x y ∧ x / g.dx = i ∧ y / g.dy = j := by
  obtain ⟨hsx, hsy⟩ := start_lt_stride hg
  have hcol := eq_start_add_mul_iff hsx x i
  have hrow := eq_start_add_mul_iff hsy y j
  constructor
  · rintro ⟨-, -, hxi, hyj⟩
    exact ⟨⟨(hcol.mp hxi).1, (hrow.mp hyj).1⟩, (hcol.mp hxi).2, (hrow.mp hyj).2⟩
  · rintro ⟨⟨hxs, hys⟩, hi, hj⟩
    have hxi := hcol.mpr ⟨hxs, hi⟩
    have hyj := hrow.mpr ⟨hys, hj⟩
    exact ⟨(lt_pw_iff (Nat.zero_lt_of_lt hsx) w i).mpr (hxi ▸ hx),
      (lt_ph_iff (Nat.zero_lt_of_lt hsy) h j).mpr (hyj ▸ hy), hxi, hyj⟩

/-- R278: the residues of the seven passes partition the 8×8 tile. -/
theorem adam7_partitions_tile : ∀ a < 8, ∀ b < 8, ∃ p ∈ Finset.Icc 1 7, (passGeom 1 p).Holds a b ∧
    ∀ q ∈ Finset.Icc 1 7, (passGeom 1 q).Holds a b → q = p := by
  decide +kernel

/-- What a pass holds repeats with the tile, since its strides divide 8 (R271). -/
theorem holds_mod_eight {g : PassGeom} (hg : g ∈ passesOf 1) (x y : Nat) : g.Holds (x % 8) (y % 8) ↔ g.Holds x y := by
  have hdvd : ∀ g ∈ passesOf 1, g.dx ∣ 8 ∧ g.dy ∣ 8 := by decide
  obtain ⟨hdx, hdy⟩ := hdvd g hg
  rw [PassGeom.Holds, Nat.mod_mod_of_dvd x hdx, Nat.mod_mod_of_dvd y hdy]

/-- R270, R278: exactly one pass holds a raster position. -/
theorem existsUnique_pass_holds (il : Byte) (x y : Nat) :
    ∃! p, (1 ≤ p ∧ p ≤ (passesOf il).length) ∧ (passGeom il p).Holds x y := by
  by_cases hil : il = 1
  · subst hil
    obtain ⟨p, hp, hholds, huniq⟩ := adam7_partitions_tile (x % 8) (Nat.mod_lt x (by decide)) (y % 8)
      (Nat.mod_lt y (by decide))
    have htile : ∀ q, 1 ≤ q ∧ q ≤ 7 → ((passGeom 1 q).Holds (x % 8) (y % 8) ↔ (passGeom 1 q).Holds x y) :=
      fun q hq => holds_mod_eight (passGeom_mem hq.1 hq.2) x y
    have hrange := Finset.mem_Icc.mp hp
    refine ⟨p, ⟨hrange, (htile p hrange).mp hholds⟩, ?_⟩
    rintro q ⟨hq, hholds'⟩
    exact huniq q (Finset.mem_Icc.mpr hq) ((htile q hq).mpr hholds')
  · have hone : passesOf il = [⟨0, 0, 1, 1⟩] := if_neg hil
    refine ⟨1, ⟨by simp [hone], ?_⟩, ?_⟩
    · rw [passGeom, hone]
      exact ⟨Nat.mod_one x, Nat.mod_one y⟩
    · rintro q ⟨⟨h1, hlen⟩, -⟩
      rw [hone] at hlen
      exact Nat.le_antisymm hlen h1

/-- Settles O45: one pass holds the position, and that pass has it as one pixel. -/
theorem passesCoverTheRasterOnce : Obligations.PassesCoverTheRasterOnce := by
  intro il w h x y _ hx hy
  have hpixel := fun p (hp : 1 ≤ p ∧ p ≤ (passesOf il).length) =>
    pixel_iff_holds (passGeom_mem hp.1 hp.2) hx hy
  obtain ⟨p, ⟨hp, hholds⟩, huniq⟩ := existsUnique_pass_holds il x y
  refine ⟨(p, x / (passGeom il p).dx, y / (passGeom il p).dy),
    ⟨hp.1, hp.2, (hpixel p hp _ _).mpr ⟨hholds, rfl, rfl⟩⟩, ?_⟩
  rintro ⟨q, i, j⟩ ⟨h1, hlen, hq⟩
  obtain ⟨hholds', rfl, rfl⟩ := (hpixel q ⟨h1, hlen⟩ i j).mp hq
  obtain rfl := huniq q ⟨⟨h1, hlen⟩, hholds'⟩
  rfl

end Sys2Proof.Machine
end

section
/-! PROOFS of the family 45_pixel_normalizer.md, part 1: the core writes no HMEM byte outside OUT (R81, R309, R332). -/

namespace Sys2Proof.Machine

/-! ### HMEM outside OUT -/

/-- `m` is HMEM as in `s` but for bytes of OUT and, for a command that does not expand and meets no byte the host wrote
while BUSY, as a whole (R92, R309). -/
def State.KeepsOutside (s : State) (m : Memory) : Prop :=
  (∀ a, s.inOut a = false → m.read a = s.hmem.read a) ∧ (s.isExpand = false → s.race = [] → m = s.hmem)

theorem keepsOutside_hmem (s : State) : s.KeepsOutside s.hmem := ⟨fun _ _ => rfl, fun _ _ => rfl⟩

theorem State.KeepsOutside.trans {s : State} {m m' : Memory} (h : s.KeepsOutside m)
    (h' : State.KeepsOutside { s with hmem := m } m') : s.KeepsOutside m' := by
  obtain ⟨hout, hall⟩ := h
  obtain ⟨hout', hall'⟩ := h'
  exact ⟨fun a ha => (hout' a ha).trans (hout a ha), fun hx hrace => (hall' hx hrace).trans (hall hx hrace)⟩

/-- The OUT range, CMD, HMEM and the marks of R92 are part of the frame. -/
theorem keepsOutside_of_frame {s t : State} {m : Memory} (h : t.frame = s.frame) (ht : t.KeepsOutside m) :
    s.KeepsOutside m :=
  show s.frame.KeepsOutside m from h ▸ ht

/-! ### The core's writes -/

/-- The end of a command touches raced bytes of OUT only (R92, R338). -/
theorem settledMem_keepsOutside (s : State) : s.KeepsOutside s.settledMem := by
  refine ⟨fun a ha => settle_read _ _ _ _ _ (.inl ?_), fun _ hrace => settledMem_of_race_nil hrace⟩
  rw [← inOut_iff, ha]
  exact Bool.false_ne_true

/-- An error touches OUT bytes only, and only raced ones where the command does not expand (R92, R412). -/
theorem raiseError_keepsOutside (e : Err) (s : State) : s.KeepsOutside (raiseError e s).hmem := by
  obtain ⟨-, -, -, hout, hall⟩ := raiseError_failed s e
  exact ⟨hout, hall⟩

/-- A pixel write touches its four bytes only (R310). -/
theorem Memory.read_writePixel_outside {m : Memory} {o x : Nat} {p : Rgba} (h : m.wf = true) (ho : o + 3 < 2 ^ 32)
    (hx : x < o ∨ o + 4 ≤ x) : (m.writePixel o p).read x = m.read x := by
  rw [Memory.read_writePixel _ _ _ _ h ho, if_neg (by omega), if_neg (by omega), if_neg (by omega), if_neg (by omega)]

/-- The four bytes of a pixel of the raster exist and lie in OUT (R276, R308, R347, R349). -/
theorem State.Inv.pixel_inOut {s : State} (h : s.Inv) (hp : s.phase = .expand) :
    pixelAddress s.geom.format.interlace s + 3 < 2 ^ 32 ∧
      ∀ a, s.inOut a = false →
        a < pixelAddress s.geom.format.interlace s ∨ pixelAddress s.geom.format.interlace s + 4 ≤ a := by
  obtain ⟨-, -, -, -, -, -, hstarted⟩ := h.running (by simp [hp]) (by simp [hp]) (by simp [hp])
  obtain ⟨-, -, -, -, -, -, hsound⟩ := h
  have hfits := pixelAddress_fits (hsound hp)
  have hlow : s.out.base.toNat ≤ pixelAddress s.geom.format.interlace s := Nat.le_add_right ..
  obtain ⟨-, hcap⟩ := hstarted
  have hbounds := hcap (hsound hp).1
  refine ⟨by omega, fun a ha => ?_⟩
  rw [← Bool.not_eq_true, inOut_iff, State.outEnd] at ha
  omega

/-- What an element writes keeps HMEM outside OUT: only EXPAND writes, and its pixel lies in OUT (R309, R310). -/
theorem State.Inv.keepsOutside_of_writes {s : State} {m : Memory} (h : s.Inv) (hm : s.Writes m) : s.KeepsOutside m := by
  rcases hm with rfl | ⟨hp, p, rfl⟩
  · exact keepsOutside_hmem s
  · obtain ⟨haddr, hpixel⟩ := h.pixel_inOut hp
    obtain ⟨-, ⟨hwf, -⟩, -, -, -, -, hsound⟩ := h
    obtain ⟨hexpand, -⟩ := hsound hp
    exact ⟨fun a ha => Memory.read_writePixel_outside hwf haddr (hpixel a ha),
      fun hx => absurd (hx.symm.trans hexpand) Bool.false_ne_true⟩

/-- Settles O55: what a step of the core can do to the frame, each of its moves keeping HMEM outside OUT. -/
theorem coreWritesOnlyTheOutRange : Obligations.CoreWritesOnlyTheOutRange := by
  intro s t hinv hmoves hstep
  obtain ⟨q, hcore⟩ := step_of_coreMoves hmoves
  change (s.withQueue q).KeepsOutside t.hmem
  replace hinv : (s.withQueue q).Inv := hinv
  cases coreStep_move hinv (hcore ▸ hstep) with
  | runs m hm hf =>
    have hmem : t.hmem = m := congrArg State.hmem hf
    exact hmem ▸ hinv.keepsOutside_of_writes hm
  | raised e u ht hf => exact ht ▸ keepsOutside_of_frame hf (raiseError_keepsOutside e u)
  | finished m hm u ht hf =>
    exact ht ▸ (hinv.keepsOutside_of_writes hm).trans (keepsOutside_of_frame hf (settledMem_keepsOutside u))

end Sys2Proof.Machine
end

section
/-! PROOFS of the family 45_pixel_normalizer.md, part 2: the samples of a pixel, their conversion, and what a pixel
element writes (R290 to R325). -/

namespace Sys2Proof.Machine

/-! ### The bits of a row (R84, R293) -/

theorem rowNumber_add (raw : RawBuf) (start k m n : Nat) :
    rowNumber raw start k (m + n) = rowNumber raw start k m * 2 ^ n + rowNumber raw start (k + m) n := by
  induction n with
  | zero => rw [rowNumber, Nat.add_zero, Nat.pow_zero, Nat.mul_one, Nat.add_zero]
  | succ n ih =>
    rw [← Nat.add_assoc, rowNumber, ih, rowNumber, Nat.pow_succ, Nat.add_assoc k]
    ring

theorem rowNumber_lt (raw : RawBuf) (start k n : Nat) : rowNumber raw start k n < 2 ^ n := by
  induction n with
  | zero => exact Nat.one_pos
  | succ n ih =>
    have hbit : rowBit raw start (k + n) < 2 := Nat.mod_lt _ (by decide)
    rw [rowNumber, Nat.pow_succ]
    omega

/-- A number within one byte of the row is a field of that byte (R293). -/
theorem rowNumber_within_byte (raw : RawBuf) (start k : Nat) {n : Nat} (h : k % 8 + n ≤ 8) :
    rowNumber raw start k n = (raw.read (start + k / 8)).toNat / 2 ^ (8 - n - k % 8) % 2 ^ n := by
  induction n with
  | zero => rw [rowNumber, Nat.pow_zero, Nat.mod_one]
  | succ n ih =>
    have hbyte : (k + n) / 8 = k / 8 := by omega
    have hbit : 7 - (k + n) % 8 = 8 - (n + 1) - k % 8 := by omega
    have hshift : 8 - n - k % 8 = 8 - (n + 1) - k % 8 + 1 := by omega
    rw [rowNumber, ih (by omega), rowBit, hbyte, hbit, hshift, Nat.pow_succ, ← Nat.div_div_eq_div_mul, Nat.pow_succ',
      Nat.mod_mul, Nat.add_comm]

/-- Eight bits from a byte on are the byte (R294). -/
theorem rowNumber_byte (raw : RawBuf) (start j : Nat) : rowNumber raw start (j * 8) 8 = (raw.read (start + j)).toNat := by
  have hfits : j * 8 % 8 + 8 ≤ 8 := by omega
  rw [rowNumber_within_byte _ _ _ hfits, Nat.mul_mod_left, Nat.mul_div_cancel j (by decide), Nat.sub_self, Nat.pow_zero,
    Nat.div_one]
  exact Nat.mod_eq_of_lt (raw.read (start + j)).isLt

theorem toNat_append_bytes (hi lo : Byte) : (hi ++ lo : Half).toNat = hi.toNat * 256 + lo.toNat := by
  rw [BitVec.toNat_append, ← Nat.shiftLeft_add_eq_or_of_lt lo.isLt, Nat.shiftLeft_eq]

/-- Sixteen bits from a byte on are two bytes, the high one first (R297). -/
theorem rowNumber_two_bytes (raw : RawBuf) (start j : Nat) :
    rowNumber raw start (j * 8) 16 = (raw.read (start + j) ++ raw.read (start + j + 1) : Half).toNat := by
  rw [rowNumber_add raw start (j * 8) 8 8, rowNumber_byte, ← Nat.succ_mul, rowNumber_byte, toNat_append_bytes]
  rfl

/-! ### Samples (R292 to R297) -/

/-- A depth the normalizer reads samples of: below 8 there is one channel (R142). -/
abbrev SampleShape (d ch : Nat) : Prop := d = 8 ∨ d = 16 ∨ (d = 1 ∨ d = 2 ∨ d = 4) ∧ ch = 1

/-- A sample is the number its bits spell, most significant bit first (R84, R293, R294, R297). -/
theorem getSample_eq {d ch k : Nat} (raw : RawBuf) (start i : Nat) (h : SampleShape d ch) (hk : k < ch) :
    getSample raw d ch start i k = BitVec.ofNat 16 (rowNumber raw start ((i * ch + k) * d) d) := by
  rcases h with rfl | rfl | ⟨hd, rfl⟩
  · rw [rowNumber_byte, BitVec.ofNat_toNat, ← Nat.add_assoc]
    rfl
  · rw [show (i * ch + k) * 16 = 2 * (i * ch + k) * 8 by omega, rowNumber_two_bytes, BitVec.ofNat_toNat,
      BitVec.setWidth_eq]
    rfl
  · obtain rfl : k = 0 := by omega
    have hbits : i * d % 8 + d ≤ 8 := by rcases hd with rfl | rfl | rfl <;> omega
    rw [Nat.mul_one, Nat.add_zero, rowNumber_within_byte _ _ _ hbits, getSample, if_pos (by omega)]
    rfl

/-- The samples read are those of the pixel, in the registers of its channels. -/
theorem readSamples_eq {d ch : Nat} (s : State) (h : SampleShape d ch) :
    let get (k : Nat) (old : Half) : Half := if k < ch then BitVec.ofNat 16 (s.sampleAt d ch k) else old
    readSamples d ch s =
      ⟨get 0 s.norm.sample.s0, get 1 s.norm.sample.s1, get 2 s.norm.sample.s2, get 3 s.norm.sample.s3⟩ := by
  have hget (k : Nat) (old : Half) :
      (if k < ch then getSample s.raw d ch (s.norm.rawpos + 1) s.norm.col k else old) =
        if k < ch then BitVec.ofNat 16 (s.sampleAt d ch k) else old :=
    ite_congr rfl (getSample_eq s.raw _ _ h) fun _ => rfl
  simp only [readSamples, hget]

theorem SampleShape.depth_le {d ch : Nat} (h : SampleShape d ch) : d ≤ 16 := by omega

theorem sampleAt_lt (s : State) (d ch k : Nat) : s.sampleAt d ch k < 2 ^ d := rowNumber_lt ..

theorem toNat_ofNat_sampleAt {d ch : Nat} (s : State) (k : Nat) (h : SampleShape d ch) :
    (BitVec.ofNat 16 (s.sampleAt d ch k)).toNat = s.sampleAt d ch k := by
  rw [BitVec.toNat_ofNat]
  exact Nat.mod_eq_of_lt ((sampleAt_lt s d ch k).trans_le (Nat.pow_le_pow_right (by decide) h.depth_le))

/-! ### The pixel element (R292, R310) -/

theorem finishCommand_of_race_nil {s : State} (hrace : s.race = []) :
    finishCommand s = { s with status := s.status.finished, phase := .ended } := by
  rw [finishCommand, settledMem_of_race_nil hrace, hrace]

/-- From a state without raced bytes, the move to the next pixel changes the traversal and, at the end of the command,
the phase and STATE (R292, R338). -/
theorem nextPixel_moved (il : Byte) (bits : Nat) {s : State} (hrace : s.race = []) :
    ∃ n ph st, nextPixel il bits s = { s with norm := n, phase := ph, status := { s.status with state := st } } ∧
      n.sample = s.norm.sample := by
  rcases nextPixel_cases il bits s with ⟨_, _, _, _, he⟩ | ⟨_, he⟩
  · exact ⟨_, s.phase, s.status.state, he, rfl⟩
  · exact ⟨_, .ended, .done, he.trans (finishCommand_of_race_nil (by exact hrace)), rfl⟩

/-- The samples of a pixel that lies in RAW lie in RAW. -/
theorem State.PixelReady.lastSampleByte_lt {s : State} {d ch : Nat} {il : Byte} (h : s.PixelReady d ch il)
    (hshape : SampleShape d ch) (hch : 1 ≤ ch) :
    lastSampleByte d ch (s.norm.rawpos + 1) s.norm.col < s.params.rawCapMax := by
  obtain ⟨hraw, -⟩ := h
  rw [Nat.mul_assoc] at hraw
  exact (Machine.lastSampleByte_lt _ (by omega) (by omega) hch (by omega) (Nat.lt_succ_self _)).trans_le hraw

/-- What a pixel write leaves in its four bytes (R308, R310). -/
theorem Memory.read_writePixel_bytes {m : Memory} {o : Nat} (p : Rgba) (h : m.wf = true) (ho : o + 3 < 2 ^ 32) :
    (m.writePixel o p).read o = p.r ∧ (m.writePixel o p).read (o + 1) = p.g ∧
      (m.writePixel o p).read (o + 2) = p.b ∧ (m.writePixel o p).read (o + 3) = p.a := by
  simp [Memory.read_writePixel _ _ _ _ h ho]

section
variable {s : State} {d ch : Nat} {il : Byte} {x : Samples} {conv : ColorRegs → Samples → Except Err Rgba}

/-- A pixel whose conversion succeeds is written at its address, and the element moves on (R292, R310). -/
theorem State.PixelReady.pixelStep_wrote {p : Rgba} (h : s.PixelReady d ch il) (hshape : SampleShape d ch)
    (hch : 1 ≤ ch) (hsamples : readSamples d ch s = x) (hconv : conv s.color x = .ok p) :
    ∃ t, pixelStep d ch conv il s = .next t ∧ s.WrotePixel t il p.r.toNat p.g.toNat p.b.toNat p.a.toNat ∧
      t.norm.sample = x := by
  subst hsamples
  have hlast := h.lastSampleByte_lt hshape hch
  obtain ⟨-, haddr, hwf, hrace⟩ := h
  rcases pixelStep_cases d ch conv il s with ⟨hge, -⟩ | ⟨e, he, -⟩ | ⟨hge, -⟩ | ⟨p', hp', -, he⟩
  · omega
  · cases hconv.symm.trans he
  · omega
  · obtain rfl := Except.ok.inj (hconv.symm.trans hp')
    obtain ⟨n, ph, st, hnext, hsample⟩ := nextPixel_moved il (d * ch)
      (s := s.pixelDone (readSamples d ch s) (s.hmem.writePixel (pixelAddress il s) p)) hrace
    obtain ⟨hr, hg, hb, ha⟩ := Memory.read_writePixel_bytes p hwf haddr
    exact ⟨_, he.trans (congrArg _ hnext), ⟨congrArg _ hr, congrArg _ hg, congrArg _ hb, congrArg _ ha,
      fun y hy => Memory.read_writePixel_outside hwf haddr hy, rfl⟩, hsample⟩

/-- A pixel whose conversion fails raises its error, with the samples read and nothing written (R305, R417). -/
theorem State.PixelReady.pixelStep_raises {e : Err} (h : s.PixelReady d ch il) (hshape : SampleShape d ch)
    (hch : 1 ≤ ch) (hsamples : readSamples d ch s = x) (hconv : conv s.color x = .error e) :
    pixelStep d ch conv il s = .next (raiseError e { s with norm := { s.norm with sample := x } }) := by
  subst hsamples
  have hlast := h.lastSampleByte_lt hshape hch
  obtain ⟨-, haddr, -⟩ := h
  rcases pixelStep_cases d ch conv il s with ⟨hge, -⟩ | ⟨e', he', he⟩ | ⟨hge, -⟩ | ⟨p, hp, -, -⟩
  · omega
  · obtain rfl := Except.error.inj (hconv.symm.trans he')
    exact he
  · omega
  · cases hconv.symm.trans hp

end

/-! ### Channels of 8 and 16 bits (R298, R299) -/

theorem to8_toNat (v : Half) : (to8 v).toNat = (v.toNat + 128) / 257 := by
  rw [to8, BitVec.toNat_ofNat, Nat.mod_eq_of_lt (by omega)]

/-- Settles O51: (v + 128) div 257 is within 128/257 of v/257, which is v × 255 / 65535. -/
theorem sixteenToEightRounds : Obligations.SixteenToEightRounds := by
  intro v q
  have hq : q = (v.toNat + 128) / 257 := to8_toNat v
  exact ⟨hq, by omega, by omega⟩

/-- The byte of a channel of depth 8 or 16, as its element computes it. -/
def channelByte (d : Nat) : Half → Byte := if d = 16 then to8 else lowByte

theorem channelByte_toNat {d v : Nat} (hd : d = 8 ∨ d = 16) (hv : v < 2 ^ d) :
    (channelByte d (BitVec.ofNat 16 v)).toNat = channel8 d v := by
  rcases hd with rfl | rfl
  · have hlow : (lowByte (BitVec.ofNat 16 v)).toNat = v := by
      rw [lowByte, BitVec.toNat_setWidth, BitVec.toNat_ofNat]
      omega
    exact hlow
  · have hwide := to8_toNat (BitVec.ofNat 16 v)
    rw [BitVec.toNat_ofNat, Nat.mod_eq_of_lt hv] at hwide
    exact hwide

/-! ### Transparency keys (R300 to R302) -/

theorem eq_key_iff (c : ColorRegs) (v : Half) (i : Nat) : v = c.key i ↔ v.toNat = c.keyValue i := by
  rw [← BitVec.toNat_inj, ColorRegs.key, toNat_append_bytes]
  rfl

theorem grayAlpha_toNat (c : ColorRegs) (v : Half) :
    (grayAlpha c v).toNat = if c.trnsLen = 2 ∧ v.toNat = c.keyValue 0 then 0 else 255 := by
  rw [grayAlpha, apply_ite BitVec.toNat]
  simp only [eq_key_iff]
  rfl

theorem rgbAlpha_toNat (c : ColorRegs) (x : Samples) :
    (rgbAlpha c x).toNat =
      if c.trnsLen = 6 ∧ x.s0.toNat = c.keyValue 0 ∧ x.s1.toNat = c.keyValue 2 ∧ x.s2.toNat = c.keyValue 4 then 0
      else 255 := by
  rw [rgbAlpha, apply_ite BitVec.toNat]
  simp only [eq_key_iff]
  rfl

/-! ### Grayscale (R311 to R315) -/

/-- The gray value of a sample of depth d (R298, R299). -/
def grayByte (d : Nat) (v : Half) : Byte :=
  if d = 16 then to8 v else BitVec.ofNat 8 (v.toNat * (255 / (2 ^ d - 1)))

theorem grayByte_toNat {d : Nat} {v : Half} (hv : v.toNat < 2 ^ d) :
    (grayByte d v).toNat = if d = 16 then (v.toNat + 128) / 257 else v.toNat * (255 / (2 ^ d - 1)) := by
  have hscaled : v.toNat * (255 / (2 ^ d - 1)) ≤ 255 :=
    (Nat.mul_le_mul_right _ (Nat.le_sub_one_of_lt hv)).trans (Nat.mul_div_le 255 (2 ^ d - 1))
  unfold grayByte
  split
  · exact to8_toNat v
  · exact (BitVec.toNat_ofNat ..).trans (Nat.mod_eq_of_lt (Nat.lt_succ_of_le hscaled))

/-- The conversion of a gray pixel of depth d. -/
def grayConv (d : Nat) (c : ColorRegs) (x : Samples) : Except Err Rgba :=
  .ok ⟨grayByte d x.s0, grayByte d x.s0, grayByte d x.s0, grayAlpha c x.s0⟩

/-- The grayscale elements are pixel steps of one channel, with that conversion. -/
theorem exec_pixGray {d : Nat} {i : Instr} {il : Byte}
    (h : (d, i) ∈ [(1, Instr.pixG1 il), (2, .pixG2 il), (4, .pixG4 il), (8, .pixG8 il), (16, .pixG16 il)]) :
    SampleShape d 1 ∧ ∀ s, exec i s = pixelStep d 1 (grayConv d) il s := by
  simp only [List.mem_cons, Prod.mk.injEq, List.not_mem_nil, or_false] at h
  rcases h with ⟨rfl, rfl⟩ | ⟨rfl, rfl⟩ | ⟨rfl, rfl⟩ | ⟨rfl, rfl⟩ | ⟨rfl, rfl⟩ <;> exact ⟨by decide, fun _ => rfl⟩

/-- Settles O47: the gray value and the key match of the sample read, at the pixel's address. -/
theorem grayPixelIsWritten : Obligations.GrayPixelIsWritten := by
  intro s il d i hmem hready v g a
  obtain ⟨hshape, hexec⟩ := exec_pixGray hmem
  have hsample : readSamples d 1 s = { s.norm.sample with s0 := BitVec.ofNat 16 v } := readSamples_eq s hshape
  have hv : (BitVec.ofNat 16 v).toNat = v := toNat_ofNat_sampleAt s 0 hshape
  have hgray : (grayByte d (BitVec.ofNat 16 v)).toNat = g := by
    rw [grayByte_toNat (hv.trans_lt (sampleAt_lt s d 1 0)), hv]
  have halpha : (grayAlpha s.color (BitVec.ofNat 16 v)).toNat = a := by rw [grayAlpha_toNat, hv]
  rw [hexec, ← hgray, ← halpha]
  exact hready.pixelStep_wrote (conv := grayConv d) hshape (by decide) hsample rfl

/-! ### True-color (R316, R317) -/

/-- The true-color elements are pixel steps of three channels. -/
theorem exec_pixRgb {d : Nat} {i : Instr} {il : Byte} (h : (d, i) ∈ [(8, Instr.pixRgb8 il), (16, .pixRgb16 il)]) :
    (d = 8 ∨ d = 16) ∧ ∀ s, exec i s = pixelStep d 3 (rgbPixel (channelByte d)) il s := by
  simp only [List.mem_cons, Prod.mk.injEq, List.not_mem_nil, or_false] at h
  rcases h with ⟨rfl, rfl⟩ | ⟨rfl, rfl⟩ <;> exact ⟨by decide, fun _ => rfl⟩

theorem SampleShape.of_whole_bytes {d : Nat} (ch : Nat) (h : d = 8 ∨ d = 16) : SampleShape d ch :=
  h.imp_right Or.inl

/-- Settles O48: the three channels and the key match of the samples read, at the pixel's address. -/
theorem trueColorPixelIsWritten : Obligations.TrueColorPixelIsWritten := by
  intro s il d i hmem hready v a
  obtain ⟨hd, hexec⟩ := exec_pixRgb hmem
  have hshape := SampleShape.of_whole_bytes 3 hd
  have hsample : readSamples d 3 s = { s.norm.sample with
      s0 := BitVec.ofNat 16 (v 0), s1 := BitVec.ofNat 16 (v 1), s2 := BitVec.ofNat 16 (v 2) } :=
    readSamples_eq s hshape
  have hv (k : Nat) : (BitVec.ofNat 16 (v k)).toNat = v k := toNat_ofNat_sampleAt s k hshape
  have hbyte (k : Nat) : (channelByte d (BitVec.ofNat 16 (v k))).toNat = channel8 d (v k) :=
    channelByte_toNat hd (sampleAt_lt s d 3 k)
  have halpha : (rgbAlpha s.color
      ⟨BitVec.ofNat 16 (v 0), BitVec.ofNat 16 (v 1), BitVec.ofNat 16 (v 2), s.norm.sample.s3⟩).toNat = a := by
    rw [rgbAlpha_toNat, hv, hv, hv]
  rw [hexec, ← hbyte, ← hbyte, ← hbyte, ← halpha]
  exact hready.pixelStep_wrote (conv := rgbPixel (channelByte d)) hshape (by decide) hsample rfl

/-! ### Palette (R318 to R321) -/

/-- The palette elements are pixel steps of one channel. -/
theorem exec_pixPalette {d : Nat} {i : Instr} {il : Byte}
    (h : (d, i) ∈ [(1, Instr.pixP1 il), (2, .pixP2 il), (4, .pixP4 il), (8, .pixP8 il)]) :
    SampleShape d 1 ∧ ∀ s, exec i s = pixelStep d 1 palettePixel il s := by
  simp only [List.mem_cons, Prod.mk.injEq, List.not_mem_nil, or_false] at h
  rcases h with ⟨rfl, rfl⟩ | ⟨rfl, rfl⟩ | ⟨rfl, rfl⟩ | ⟨rfl, rfl⟩ <;> exact ⟨by decide, fun _ => rfl⟩

/-- An index in use gives the bytes of its entry and its alpha (R304, R306). -/
theorem palettePixel_of_lt {c : ColorRegs} {x : Samples} {idx : Nat} (hidx : x.s0.toNat = idx)
    (h : idx < c.palCount.toNat) :
    ∃ p, palettePixel c x = .ok p ∧ p.r.toNat = (c.palAt idx).toNat % 256 ∧
      p.g.toNat = (c.palAt idx).toNat / 256 % 256 ∧ p.b.toNat = (c.palAt idx).toNat / 65536 ∧
      p.a.toNat = if idx < c.trnsLen.toNat then (c.trnsAt idx).toNat else 255 := by
  subst hidx
  have hfield (n : Nat) :
      ((c.palAt x.s0.toNat).extractLsb' n 8).toNat = (c.palAt x.s0.toNat).toNat / 2 ^ n % 256 := by
    rw [BitVec.extractLsb'_toNat, Nat.shiftRight_eq_div_pow]
  have hentry := (c.palAt x.s0.toNat).isLt
  refine ⟨_, if_neg (Nat.not_le.mpr h), (hfield 0).trans ?_, hfield 8, (hfield 16).trans ?_, apply_ite BitVec.toNat ..⟩
  · rw [Nat.pow_zero, Nat.div_one]
  · omega

theorem palettePixel_of_le {c : ColorRegs} {x : Samples} (h : c.palCount.toNat ≤ x.s0.toNat) :
    palettePixel c x = .error .paletteIndexOutOfRange :=
  if_pos h

/-- Settles O49: the entry of an index in use at the pixel's address, or the error of any other index. -/
theorem palettePixelIsLookedUp : Obligations.PalettePixelIsLookedUp := by
  intro s il d i hmem hready idx e sample
  obtain ⟨hshape, hexec⟩ := exec_pixPalette hmem
  have hsample : readSamples d 1 s = sample := readSamples_eq s hshape
  have hidx : sample.s0.toNat = idx := toNat_ofNat_sampleAt s 0 hshape
  constructor
  · intro hlt
    obtain ⟨p, hp, hr, hg, hb, ha⟩ := palettePixel_of_lt (x := sample) hidx hlt
    rw [hexec, ← hr, ← hg, ← hb, ← ha]
    exact hready.pixelStep_wrote hshape (by decide) hsample hp
  · intro hle
    have hp : palettePixel s.color sample = .error .paletteIndexOutOfRange := palettePixel_of_le (hle.trans_eq hidx.symm)
    exact ⟨_, (hexec s).trans (hready.pixelStep_raises hshape (by decide) hsample hp), raiseError_failed _ _⟩

/-! ### Formats with alpha (R322 to R325) -/

/-- The grayscale+alpha elements are pixel steps of two channels. -/
theorem exec_pixGrayAlpha {d : Nat} {i : Instr} {il : Byte} (h : (d, i) ∈ [(8, Instr.pixGa8 il), (16, .pixGa16 il)]) :
    (d = 8 ∨ d = 16) ∧ ∀ s, exec i s = pixelStep d 2 (grayAlphaPixel (channelByte d)) il s := by
  simp only [List.mem_cons, Prod.mk.injEq, List.not_mem_nil, or_false] at h
  rcases h with ⟨rfl, rfl⟩ | ⟨rfl, rfl⟩ <;> exact ⟨by decide, fun _ => rfl⟩

/-- The true-color+alpha elements are pixel steps of four channels. -/
theorem exec_pixRgba {d : Nat} {i : Instr} {il : Byte} (h : (d, i) ∈ [(8, Instr.pixRgba8 il), (16, .pixRgba16 il)]) :
    (d = 8 ∨ d = 16) ∧ ∀ s, exec i s = pixelStep d 4 (rgbaPixel (channelByte d)) il s := by
  simp only [List.mem_cons, Prod.mk.injEq, List.not_mem_nil, or_false] at h
  rcases h with ⟨rfl, rfl⟩ | ⟨rfl, rfl⟩ <;> exact ⟨by decide, fun _ => rfl⟩

/-- Settles O50: every channel of the samples read, at the pixel's address. -/
theorem alphaPixelIsWritten : Obligations.AlphaPixelIsWritten := by
  intro s il d i
  have hbyte {ch : Nat} (hd : d = 8 ∨ d = 16) (k : Nat) :
      (channelByte d (BitVec.ofNat 16 (s.sampleAt d ch k))).toNat = channel8 d (s.sampleAt d ch k) :=
    channelByte_toNat hd (sampleAt_lt s d ch k)
  constructor
  · intro hmem hready v
    obtain ⟨hd, hexec⟩ := exec_pixGrayAlpha hmem
    have hshape := SampleShape.of_whole_bytes 2 hd
    have hsample : readSamples d 2 s =
        { s.norm.sample with s0 := BitVec.ofNat 16 (v 0), s1 := BitVec.ofNat 16 (v 1) } := readSamples_eq s hshape
    rw [hexec, ← hbyte hd, ← hbyte hd]
    exact hready.pixelStep_wrote (conv := grayAlphaPixel (channelByte d)) hshape (by decide) hsample rfl
  · intro hmem hready v
    obtain ⟨hd, hexec⟩ := exec_pixRgba hmem
    have hshape := SampleShape.of_whole_bytes 4 hd
    have hsample : readSamples d 4 s =
        ⟨BitVec.ofNat 16 (v 0), BitVec.ofNat 16 (v 1), BitVec.ofNat 16 (v 2), BitVec.ofNat 16 (v 3)⟩ :=
      readSamples_eq s hshape
    rw [hexec, ← hbyte hd, ← hbyte hd, ← hbyte hd, ← hbyte hd]
    exact hready.pixelStep_wrote (conv := rgbaPixel (channelByte d)) hshape (by decide) hsample rfl

end Sys2Proof.Machine
end

section
/-! PROOFS of the family 46_commands.md: what a START, whether a check fails or none does, and a CLEAR leave
(R330 to R349, R415). -/

namespace Sys2Proof.Machine

/-! ### A START that fails a check (R341 to R349) -/

/-- RAW_SIZE after a START: R348 writes it for a DECODE-type command that has passed the checks up to R347. -/
def startRawSize (cmd : BitVec 2) (s : State) : Word :=
  if (cmd = 1 ∨ cmd = 3) ∧ firstFailure (checksToR347 cmd.toNat s) = none then
    BitVec.ofNat 32 (min s.geom.rasterSize (2 ^ 32 - 1))
  else s.rawSize

theorem beginCommand_isDecode (cmd : BitVec 2) (inchk ie : Bool) (s : State) :
    (beginCommand cmd inchk ie s).isDecode = true ↔ cmd = 1 ∨ cmd = 3 := by
  rw [beginCommand_eq, State.isDecode, Bool.or_eq_true, beq_iff_eq, beq_iff_eq]

/-- What a START that fails a check has written by then, less STATUS and the phase, which the error overwrites: CTRL,
RAW_SIZE, and the model's marks of R92 (R330, R348). -/
def failingStart (cmd : BitVec 2) (inchk ie : Bool) (s : State) : State :=
  { s with ctrl := ⟨cmd, inchk, ie⟩, rawSize := startRawSize cmd s, race := [] }

theorem failingStart_isExpand (cmd : BitVec 2) (inchk ie : Bool) (s : State) :
    (failingStart cmd inchk ie s).isExpand = true ↔ cmd = 2 ∨ cmd = 3 := by
  rw [failingStart, State.isExpand, Bool.or_eq_true, beq_iff_eq, beq_iff_eq]

/-- The checks R341 to R347 raise before RAW_SIZE is written. -/
theorem startPhase_of_early_error {s : State} {e : Err} (h : earlyChecks s = some e) : startPhase s = .raise e s := by
  unfold startPhase
  rw [h]

/-- The checks R348 and R349 raise once a DECODE-type command has written RAW_SIZE. -/
theorem startPhase_of_size_error {s : State} {e : Err} (h : earlyChecks s = none)
    (he : firstFailure (checksFromR348 s.ctrl.cmd.toNat s) = some e) :
    startPhase s = .raise e (if s.isDecode then latchRawSize s else s) := by
  simp only [checksFromR348, firstFailure, decide_eq_true_eq, ← isDecode_iff_toNat, ← isExpand_iff_toNat] at he
  unfold startPhase
  rw [h]
  dsimp only
  split_ifs at he with hraw hout
  · obtain rfl := Option.some.inj he
    obtain ⟨hd, hraw⟩ := hraw
    rw [if_pos hd, if_pos hd, if_pos (by exact hraw)]
  · obtain rfl := Option.some.inj he
    obtain ⟨hx, hsmall⟩ := hout
    have hsmall : s.outTooSmall = true := decide_eq_true hsmall
    cases hd : s.isDecode with
    | true =>
      rw [if_pos rfl, if_pos rfl, if_neg (by exact fun hlarge => hraw ⟨hd, hlarge⟩), if_pos (by exact ⟨hx, hsmall⟩)]
    | false => rw [if_neg Bool.false_ne_true, if_neg Bool.false_ne_true, if_pos hsmall]

/-- A START raises the error of its first check that fails (R341, R410). -/
theorem startCommand_of_error {cmd : BitVec 2} {s : State} {e : Err} (inchk ie : Bool) (hb : s.isBusy = false)
    (h : startError cmd.toNat s = some e) :
    startCommand cmd inchk ie s = .next (raiseError e (failingStart cmd inchk ie s)) := by
  have hearly := earlyChecks_beginCommand cmd inchk ie s
  have hdec := beginCommand_isDecode cmd inchk ie s
  rw [startError, firstFailure_append] at h
  rw [startCommand, hb, if_neg Bool.false_ne_true]
  cases hfail : firstFailure (checksToR347 cmd.toNat s) with
  | some e' =>
    obtain rfl : e' = e := by rw [hfail] at h; exact Option.some.inj h
    rw [startPhase_of_early_error (hearly.trans hfail), failingStart, startRawSize, hfail,
      if_neg fun hc => Option.some_ne_none _ hc.2, beginCommand_eq]
    rfl
  | none =>
    rw [hfail, Option.none_or] at h
    have hlate : firstFailure
        (checksFromR348 (beginCommand cmd inchk ie s).ctrl.cmd.toNat (beginCommand cmd inchk ie s)) = some e := by
      rw [beginCommand_eq]; exact h
    rw [startPhase_of_size_error (hearly.trans hfail) hlate, failingStart, startRawSize]
    by_cases hd : cmd = 1 ∨ cmd = 3
    · rw [if_pos (hdec.mpr hd), if_pos ⟨hd, hfail⟩, beginCommand_eq]; rfl
    · rw [if_neg (mt hdec.mp hd), if_neg fun hc => hd hc.1, beginCommand_eq]; rfl

/-! ### A START that fails none (R331) -/

theorem startError_eq_none_iff {cmd : Nat} {s : State} :
    startError cmd s = none ↔
      firstFailure (checksToR347 cmd s) = none ∧ firstFailure (checksFromR348 cmd s) = none := by
  rw [startError, firstFailure_append, Option.or_eq_none_iff]

/-- Such a START enters the first phase of its command. -/
theorem startCommand_of_no_error {cmd : BitVec 2} {s : State} (inchk ie : Bool) (hb : s.isBusy = false)
    (h : startError cmd.toNat s = none) :
    let b := beginCommand cmd inchk ie s
    b.geom.Legal ∧
      startCommand cmd inchk ie s = .next (if b.isDecode then enterInflate (latchRawSize b) else enterExpand b) := by
  obtain ⟨hlegal, hstart⟩ := startPhase_of_no_error inchk ie h
  refine ⟨hlegal, ?_⟩
  rw [startCommand, hb, if_neg Bool.false_ne_true, hstart]
  rfl

/-- Settles O15: the inflate phase is entered, RAW_SIZE and RAWVALID written (R200, R331, R348). -/
theorem decodeStartEntersInflate : Obligations.DecodeStartEntersInflate := by
  intro s cmd inchk ie clear hb hd herr
  obtain ⟨-, hstart⟩ := startCommand_of_no_error inchk ie hb herr
  rw [exec_startElement, hstart, if_pos ((beginCommand_isDecode cmd inchk ie s).mpr hd), beginCommand_eq, if_pos hd]
  rfl

/-- Settles O16: RAWVALID is among what the checks have found, and pass 1 is not empty (R292, R341). -/
theorem expandStartEntersExpand : Obligations.ExpandStartEntersExpand := by
  intro s inchk ie clear hb herr
  have hearly := (earlyChecks_beginCommand 2 inchk ie s).trans (startError_eq_none_iff.mp herr).1
  obtain ⟨-, hvalid, -⟩ := earlyChecks_none hearly
  replace hvalid : s.status.rawvalid = true := hvalid rfl
  obtain ⟨hlegal, hstart⟩ := startCommand_of_no_error (cmd := 2) inchk ie hb herr
  have hexpand : ¬ (beginCommand 2 inchk ie s).isDecode = true := Bool.false_ne_true
  change startCommand 2 inchk ie s = _
  rw [hstart, if_neg hexpand, enterExpand, nextPass_zero hlegal, beginCommand_eq, hvalid]
  rfl

/-! ### The two together, and CMD = 0 -/

/-- R341: CMD = 0 fails the first check. -/
theorem startError_reserved (s : State) : startError 0 s = some .illegalCommand := rfl

/-- So a START that fails none decodes, or is an EXPAND. -/
theorem cmd_of_startError_none {cmd : BitVec 2} {s : State} (h : startError cmd.toNat s = none) :
    (cmd = 1 ∨ cmd = 3) ∨ cmd = 2 := by
  have hnonzero : cmd ≠ 0 := fun h0 => by
    rw [h0] at h
    exact Option.some_ne_none _ ((startError_reserved s).symm.trans h)
  clear h
  revert cmd
  decide

/-- Settles O14: a failed check by `startCommand_of_error`, else the first phase of the command (O15, O16). -/
theorem startChecksRunInOrder : Obligations.StartChecksRunInOrder := by
  intro s cmd inchk ie clear hb
  cases herr : startError cmd.toNat s with
  | some e =>
    obtain ⟨hstatus, hphase, -, hout, hmem⟩ := raiseError_failed (failingStart cmd inchk ie s) e
    refine ⟨_, (exec_startElement ..).trans (startCommand_of_error inchk ie hb herr),
      rfl, rfl, rfl, rfl, rfl, rfl, rfl, rfl, rfl, fun e' he => ?_, fun h => absurd h (Option.some_ne_none e)⟩
    obtain rfl := Option.some.inj he
    refine ⟨hstatus, hphase, rfl, rfl, rfl, hout, fun h2 h3 => hmem ?_ rfl⟩
    rw [← Bool.not_eq_true, failingStart_isExpand]
    exact not_or.mpr ⟨h2, h3⟩
  | none =>
    obtain ⟨hearly, -⟩ := startError_eq_none_iff.mp herr
    rcases cmd_of_startError_none herr with hd | rfl
    · exact ⟨_, decodeStartEntersInflate s cmd inchk ie clear hb hd herr, rfl, rfl, rfl, rfl, rfl, rfl, rfl, rfl,
        (if_pos ⟨hd, hearly⟩).symm, fun e he => absurd he.symm (Option.some_ne_none e), fun _ => ⟨rfl, rfl, rfl, rfl⟩⟩
    · exact ⟨_, expandStartEntersExpand s inchk ie clear hb herr, rfl, rfl, rfl, rfl, rfl, rfl, rfl, rfl,
        rfl, fun e he => absurd he.symm (Option.some_ne_none e), fun _ => ⟨rfl, rfl, rfl, rfl⟩⟩

/-- Settles O17: CMD = 0 fails the first check, and HMEM is kept, for a START clears the marks of R92. -/
theorem reservedCommandRaisesIllegalCommand : Obligations.ReservedCommandRaisesIllegalCommand := by
  intro s inchk ie clear hb
  obtain ⟨-, -, hframe, -, hmem⟩ := raiseError_failed (failingStart 0 inchk ie s) .illegalCommand
  refine ⟨_, startCommand_of_error (cmd := 0) inchk ie hb (startError_reserved s), ?_, ?_⟩
  · rw [hmem rfl rfl] at hframe
    exact hframe
  · exact Bool.and_true ie

/-! ### CLEAR (R339) -/

/-- Settles O18: the branch of R339 by STATE. -/
theorem clearReturnsToIdle : Obligations.ClearReturnsToIdle := by
  intro s cmd inchk ie hb
  change execCtrlClear cmd inchk ie s = _
  rw [execCtrlClear, hb]
  rfl

end Sys2Proof.Machine
end

section
/-! PROOFS of the family 60_exceptions.md: what an error leaves, and that a step enters ERROR only by an error of the
core, never by one of the parsers (R401, R402, R410 to R414). -/

namespace Sys2Proof.Machine

/-- Settles O53: every clause of R410 to R412 is what `raiseError_failed` says. -/
theorem raiseWritesStatusAndEnds : Obligations.RaiseWritesStatusAndEnds := raiseError_failed

/-! ### The errors of the core (R401, R402) -/

/-- R401: the errors of the parsers, which the core numbers and does not raise. -/
def parserErrors : List Err := [.badSignature, .unexpectedRecordType, .duplicateRecord, .recordOrderingViolation]

/-- R402: the codes of all other errors. -/
theorem code_of_not_parser {e : Err} (he : e ∉ parserErrors) :
    e.code.toNat = 1 ∨ (6 ≤ e.code.toNat ∧ e.code.toNat ≤ 22) := by
  revert he
  cases e <;> decide

theorem checkLengths_not_parser {lens : List Nat} {e : Err} (h : checkLengths lens = some e) : e ∉ parserErrors := by
  rcases checkLengths_cases lens with ⟨hc, -⟩ | ⟨hc, -⟩ | ⟨hc, -⟩ <;> rw [hc] at h <;> cases h
  · decide
  · decide

/-- R341 to R347: the start checks raise IllegalCommand, MalformedHeader, UnsupportedPixelFormat,
UnsupportedTransparency or MissingImageData. -/
theorem earlyChecks_not_parser {s : State} {e : Err} (h : earlyChecks s = some e) : e ∉ parserErrors := by
  unfold earlyChecks at h
  repeat' split at h
  all_goals cases h
  all_goals decide

/-- R305: a pixel raises PaletteIndexOutOfRange only. -/
theorem palettePixel_error {c : ColorRegs} {x : Samples} {e : Err} (h : palettePixel c x = .error e) :
    e = .paletteIndexOutOfRange := by
  unfold palettePixel at h
  dsimp only at h
  split at h
  · exact (Except.error.inj h).symm
  · cases h

/-! ### Datapath results -/

/-- STATE is not ERROR. Writing a register other than STATUS keeps this by definition. -/
def State.NotInError (t : State) : Prop := t.status.state ≠ .error

/-- The result is a state not in ERROR, an error the core may raise (R401), or a fault. -/
inductive CoreResult.CoreErrorsOnly {α : Type} : CoreResult α → Prop
  | ok {v : α} {t : State} (h : t.NotInError) : CoreErrorsOnly (.ok v t)
  | raise {e : Err} {t : State} (he : e ∉ parserErrors) : CoreErrorsOnly (.raise e t)
  | fault {f : Fault} : CoreErrorsOnly (.fault f)

/-- `t`, if it is in ERROR, is what `raise` leaves for an error of the core (R401, R410). -/
def State.RaisedIfInError (t : State) : Prop := t.NotInError ∨ ∃ e u, e ∉ parserErrors ∧ t = raiseError e u

theorem CoreResult.CoreErrorsOnly.bind {α β : Type} {r : CoreResult α} {f : α → State → CoreResult β}
    (hr : r.CoreErrorsOnly) (hf : ∀ v t, t.NotInError → (f v t).CoreErrorsOnly) : (r.bind f).CoreErrorsOnly := by
  cases hr with
  | ok h => exact hf _ _ h
  | raise he => exact .raise he
  | fault => exact .fault

theorem CoreResult.CoreErrorsOnly.outcome {α : Type} {r : CoreResult α} {t : State} (hr : r.CoreErrorsOnly)
    (h : r.outcome = .next t) : t.RaisedIfInError := by
  cases hr with
  | ok ht => exact .inl (Host.Outcome.next.inj h ▸ ht)
  | raise he => exact .inr ⟨_, _, he, (Host.Outcome.next.inj h).symm⟩
  | fault => cases h

theorem CoreResult.OnlyOutput.coreErrorsOnly {α : Type} {s : State} {r : CoreResult α} (h : r.OnlyOutput s)
    (hs : s.NotInError) : r.CoreErrorsOnly := by
  cases r with
  | ok v t => rw [OnlyOutput.of_ok h rfl]; exact .ok hs
  | raise e t =>
    have hlisted : ∀ e ∈ [Err.truncatedInput, .invalidCode, .outputOverflow], e ∉ parserErrors := by decide
    exact .raise (hlisted e h.1)
  | fault f => exact .fault

theorem CoreResult.OnlyCursor.coreErrorsOnly {α : Type} {s : State} {r : CoreResult α} (h : r.OnlyCursor s)
    (hs : s.NotInError) : r.CoreErrorsOnly :=
  OnlyOutput.coreErrorsOnly (OnlyCursor.onlyOutput h) hs

theorem takeBits_coreErrorsOnly (n : Nat) {s : State} (hs : s.NotInError) : (takeBits n s).CoreErrorsOnly :=
  CoreResult.OnlyCursor.coreErrorsOnly (takeBits_onlyCursor n s) hs

/-! ### The inflate engine (R201 to R227) -/

theorem storedBody_coreErrorsOnly {s : State} (hs : s.NotInError) : (storedBody s).CoreErrorsOnly :=
  .bind (CoreResult.OnlyOutput.coreErrorsOnly (copyStored_onlyOutput _ s) hs) fun _ _ ht => .ok ht

/-- R204: a stored block raises LengthCheckFailed besides what its reads and writes raise. -/
theorem storedBlock_coreErrorsOnly {s : State} (hs : s.NotInError) : (storedBlock s).CoreErrorsOnly :=
  .bind (takeBits_coreErrorsOnly 16 hs) fun _ _ ht => .bind (takeBits_coreErrorsOnly 16 ht) fun _ _ hu =>
    iteInduction (fun _ => .raise (by decide)) fun _ => storedBody_coreErrorsOnly hu

theorem readClLens_coreErrorsOnly (order : List Nat) {s : State} (hs : s.NotInError) :
    (readClLens order s).CoreErrorsOnly := by
  induction order generalizing s with
  | nil => exact .ok hs
  | cons j js ih => exact .bind (takeBits_coreErrorsOnly 3 hs) fun _ _ ht => ih ht

theorem readCodeLengthCode_coreErrorsOnly {s : State} (hs : s.NotInError) :
    (readCodeLengthCode s).CoreErrorsOnly := by
  refine .bind (readClLens_coreErrorsOnly _ hs) fun _ t ht => ?_
  cases hcheck : checkLengths t.inflate.clLen with
  | some e => rw [build_of_some hcheck]; exact .raise (checkLengths_not_parser hcheck)
  | none => rw [build_of_none hcheck]; exact .ok ht

/-- R208: a dynamic block's header raises BadCodeCount besides what its code-length code raises. -/
theorem dynamicBlock_coreErrorsOnly {s : State} (hs : s.NotInError) : (dynamicBlock s).CoreErrorsOnly :=
  .bind (takeBits_coreErrorsOnly 5 hs) fun _ _ ht => .bind (takeBits_coreErrorsOnly 5 ht) fun _ _ hu =>
    .bind (takeBits_coreErrorsOnly 4 hu) fun _ _ hv =>
      iteInduction (fun _ => .raise (by decide)) fun _ => readCodeLengthCode_coreErrorsOnly hv

theorem lengthLoop_coreErrorsOnly {s : State} (hs : s.NotInError) : (lengthLoop s).CoreErrorsOnly := by
  refine iteInduction (fun _ => .ok hs) fun _ => ?_
  rcases buildLitDist_cases s with ⟨e, hcheck, he⟩ | ⟨-, e, hcheck, he⟩ | ⟨-, -, he⟩ <;> rw [he]
  · exact .raise (checkLengths_not_parser hcheck)
  · exact .raise (checkLengths_not_parser hcheck)
  · exact .ok hs

/-- R214: a repeat raises BadCodeLengthRepeat besides what the tables raise. -/
theorem putLengths_coreErrorsOnly (p r : Nat) {s : State} (hs : s.NotInError) : (putLengths p r s).CoreErrorsOnly :=
  iteInduction (fun _ => .raise (by decide)) fun _ => lengthLoop_coreErrorsOnly hs

/-- Every element of the inflate engine is a datapath result that raises errors of the core only. -/
theorem exec_inflate_coreErrorsOnly {i : Instr} {s : State} (hf : i.format ∈ [.bhdr, .cl, .litlen, .dist])
    (hs : s.NotInError) : ∃ r : CoreResult Unit, exec i s = r.outcome ∧ r.CoreErrorsOnly := by
  have hrepeat (n base : Nat) (p : State → Nat) :
      ((takeBits n s).bind fun x t => putLengths (p t) (base + x) t).CoreErrorsOnly :=
    .bind (takeBits_coreErrorsOnly n hs) fun _ _ ht => putLengths_coreErrorsOnly _ _ ht
  cases i with
  | blkStored f => exact ⟨_, rfl, storedBlock_coreErrorsOnly hs⟩
  | blkFixed f => exact ⟨.ok () _, rfl, .ok hs⟩
  | blkDynamic f => exact ⟨_, rfl, dynamicBlock_coreErrorsOnly hs⟩
  | blkInvalid f => exact ⟨.raise .invalidBlockType _, rfl, .raise (by decide)⟩
  | clLen v => exact ⟨_, rfl, lengthLoop_coreErrorsOnly hs⟩
  | clRepPrev =>
    exact ⟨_, rfl, iteInduction (fun _ => .raise (by decide)) fun _ =>
      hrepeat 2 3 fun t => t.inflate.len.getD (t.inflate.lenIdx - 1) 0⟩
  | clRepZero3 => exact ⟨_, rfl, hrepeat 3 3 fun _ => 0⟩
  | clRepZero11 => exact ⟨_, rfl, hrepeat 7 11 fun _ => 0⟩
  | lit b => exact ⟨_, rfl, CoreResult.OnlyOutput.coreErrorsOnly (emit_onlyOutput b s) hs⟩
  | eob => exact ⟨.ok () _, rfl, .ok hs⟩
  | len sym =>
    simp only [exec, execLen]
    generalize sym - 257 = k
    exact ⟨_, rfl, .bind (takeBits_coreErrorsOnly _ hs) fun _ _ ht => .ok ht⟩
  | lenInvalid sym => exact ⟨.raise .invalidCode s, rfl, .raise (by decide)⟩
  | dist sym =>
    exact ⟨_, rfl, .bind (takeBits_coreErrorsOnly _ hs) fun _ _ ht =>
      iteInduction (fun _ => .raise (by decide)) fun _ =>
        CoreResult.OnlyOutput.coreErrorsOnly (copyMatch_onlyOutput ..) ht⟩
  | distInvalid sym =>
    exact ⟨_, rfl, .bind (CoreResult.OnlyCursor.coreErrorsOnly (readOn_onlyCursor 10 s) hs) fun _ _ _ =>
      .raise (by decide)⟩
  | _ => simp [Instr.format] at hf

/-! ### The fetches (R110) -/

theorem fetchHeader_coreErrorsOnly {s : State} (hs : s.NotInError) : (fetchHeader s).CoreErrorsOnly :=
  .bind (takeBits_coreErrorsOnly 1 hs) fun _ _ ht => .bind (takeBits_coreErrorsOnly 2 ht) fun _ _ hu => .ok hu

/-- The fetch of a symbol from a table raises what decodeSym raises (R187). -/
theorem fetchSym_coreErrorsOnly (tab : HuffTable) (f : Format) {s : State} (hs : s.NotInError) :
    ((decodeSym tab s).bind fun v t => .ok (decode f v) t).CoreErrorsOnly :=
  .bind (CoreResult.OnlyCursor.coreErrorsOnly (decodeSym_onlyCursor tab s) hs) fun _ _ ht => .ok ht

theorem fetchDist_coreErrorsOnly {s : State} (hs : s.NotInError) : (fetchDist s).CoreErrorsOnly := by
  refine iteInduction (fun _ => ?_) fun _ => fetchSym_coreErrorsOnly _ _ hs
  refine .bind (CoreResult.OnlyCursor.coreErrorsOnly (searchSym_onlyCursor ..) hs) fun r t ht => ?_
  cases r with
  | found sym => exact .ok ht
  | missed code => exact .ok ht

/-- A step that fetches enters ERROR by an error of the core only, if the elements of the carrier do. -/
theorem runElement_raisedIfInError {v t : State} {f : Format} {r : CoreResult (Except DecodeError Instr)}
    (hr : r.CoreErrorsOnly) (hfetch : r.Fetches f v)
    (hexec : ∀ {i u}, i.format = f → u.NotInError → exec i u = .next t → t.RaisedIfInError)
    (h : runElement r = .next t) : t.RaisedIfInError := by
  cases hr with
  | @ok x u hu =>
    cases x with
    | ok i => exact hexec (hfetch.format_eq rfl) hu h
    | error e => cases h
  | raise he => exact .inr ⟨_, _, he, (Host.Outcome.next.inj h).symm⟩
  | fault => cases h

/-- A phase that fetches from an inflate carrier enters ERROR by an error of the core only. -/
theorem inflate_raisedIfInError {v t : State} {f : Format} {r : CoreResult (Except DecodeError Instr)}
    (hr : r.CoreErrorsOnly) (hfetch : r.Fetches f v) (hf : f ∈ [.bhdr, .cl, .litlen, .dist])
    (h : runElement r = .next t) : t.RaisedIfInError := by
  refine runElement_raisedIfInError hr hfetch (fun hi hu he => ?_) h
  obtain ⟨r', hexec, hr'⟩ := exec_inflate_coreErrorsOnly (hi ▸ hf) hu
  exact hr'.outcome (hexec ▸ he)

/-! ### The back end and the start (R229 to R231, R252, R292, R341 to R349) -/

theorem finishCommand_notInError (s : State) : (finishCommand s).NotInError := CoreState.noConfusion

theorem enterExpand_notInError {s : State} (hs : s.NotInError) : (enterExpand s).NotInError := by
  rcases enterExpand_cases s with ⟨p, -, he⟩ | ⟨-, he⟩ <;> rw [he]
  · exact hs
  · exact finishCommand_notInError s

theorem endRecon_notInError {s : State} (hs : s.NotInError) : (endRecon s).NotInError := by
  rcases endRecon_cases s with ⟨-, he⟩ | ⟨-, he⟩ <;> rw [he]
  · exact enterExpand_notInError hs
  · exact finishCommand_notInError _

theorem enterRecon_notInError {s : State} (hs : s.NotInError) : (enterRecon s).NotInError := by
  rcases enterRecon_cases s with ⟨p, -, he⟩ | ⟨-, he⟩ <;> rw [he]
  · exact hs
  · exact endRecon_notInError hs

theorem nextRow_notInError {s : State} (hs : s.NotInError) : (nextRow s).NotInError := by
  rcases nextRow_cases s with ⟨-, he⟩ | ⟨-, ⟨p, -, he⟩ | ⟨-, he⟩⟩ <;> rw [he]
  · exact hs
  · exact hs
  · exact endRecon_notInError hs

theorem nextPixel_notInError (il : Byte) (bits : Nat) {s : State} (hs : s.NotInError) :
    (nextPixel il bits s).NotInError := by
  rcases nextPixel_cases il bits s with ⟨_, _, _, _, he⟩ | ⟨_, he⟩ <;> rw [he]
  · exact hs
  · exact finishCommand_notInError _

theorem startPhase_coreErrorsOnly {s : State} (hs : s.NotInError) : (startPhase s).CoreErrorsOnly := by
  unfold startPhase
  cases he : earlyChecks s with
  | some e => exact .raise (earlyChecks_not_parser he)
  | none =>
    refine iteInduction (fun _ => ?_) fun _ => ?_
    · exact iteInduction (fun _ => .raise (by decide)) fun _ =>
        iteInduction (fun _ => .raise (by decide)) fun _ => .ok hs
    · exact iteInduction (fun _ => .raise (by decide)) fun _ => .ok (enterExpand_notInError hs)

theorem endChecks_coreErrorsOnly {s : State} (hs : s.NotInError) : (endChecks s).CoreErrorsOnly :=
  iteInduction (fun _ => .raise (by decide)) fun _ =>
    iteInduction (fun _ => .raise (by decide)) fun _ => .ok (enterRecon_notInError hs)

theorem exec_filter_raisedIfInError {i : Instr} {s t : State} (hf : i.format = .filter) (hs : s.NotInError)
    (h : exec i s = .next t) : t.RaisedIfInError := by
  have hrow (pred : Byte → Byte → Byte → Byte) (he : filterRow pred s = .next t) : t.RaisedIfInError := by
    rcases filterRow_cases pred s with ⟨-, hr⟩ | ⟨-, hr⟩ <;> rw [hr] at he
    · cases he
    · exact .inl (Host.Outcome.next.inj he ▸ nextRow_notInError hs)
  cases i with
  | filtNone => exact hrow _ h
  | filtSub => exact hrow _ h
  | filtUp => exact hrow _ h
  | filtAvg => exact hrow _ h
  | filtPaeth => exact hrow _ h
  | filtInvalid tag => exact .inr ⟨.invalidFilterType, s, by decide, (Host.Outcome.next.inj h).symm⟩
  | _ => cases hf

theorem pixelStep_raisedIfInError {d ch : Nat} {conv : ColorRegs → Samples → Except Err Rgba} {il : Byte} {s t : State}
    (hs : s.NotInError) (h : pixelStep d ch conv il s = .next t)
    (hconv : ∀ {c x e}, conv c x = .error e → e = .paletteIndexOutOfRange) : t.RaisedIfInError := by
  rcases pixelStep_cases d ch conv il s with ⟨-, he⟩ | ⟨e, hc, he⟩ | ⟨-, he⟩ | ⟨p, -, -, he⟩ <;> rw [he] at h
  · cases h
  · exact .inr ⟨e, _, hconv hc ▸ by decide, (Host.Outcome.next.inj h).symm⟩
  · cases h
  · exact .inl (Host.Outcome.next.inj h ▸ nextPixel_notInError _ _ hs)

/-- Of the pixel formats only the palette's raise an error (R305). -/
theorem exec_pixfmt_raisedIfInError {i : Instr} {s t : State} (hf : i.format = .pixfmt) (hs : s.NotInError)
    (h : exec i s = .next t) : t.RaisedIfInError := by
  cases i with
  | pixG1 il | pixG2 il | pixG4 il | pixG8 il => exact pixelStep_raisedIfInError (conv := grayPixel _) hs h nofun
  | pixG16 il => exact pixelStep_raisedIfInError (conv := grayPixel16) hs h nofun
  | pixRgb8 il | pixRgb16 il => exact pixelStep_raisedIfInError (conv := rgbPixel _) hs h nofun
  | pixP1 il | pixP2 il | pixP4 il | pixP8 il => exact pixelStep_raisedIfInError hs h palettePixel_error
  | pixGa8 il | pixGa16 il => exact pixelStep_raisedIfInError (conv := grayAlphaPixel _) hs h nofun
  | pixRgba8 il | pixRgba16 il => exact pixelStep_raisedIfInError (conv := rgbaPixel _) hs h nofun
  | _ => cases hf

/-! ### The step -/

/-- Whatever its phase, the core enters ERROR by an error of its own only (R62, R401). -/
theorem coreStep_raisedIfInError {s t : State} (hs : s.NotInError) (h : coreStep s = .next t) : t.RaisedIfInError := by
  unfold coreStep at h
  cases hp : s.phase <;> rw [hp] at h <;> dsimp only at h
  case idle | ended => exact .inl (Host.Outcome.next.inj h ▸ hs)
  case startCheck => exact (startPhase_coreErrorsOnly hs).outcome h
  case infHdr =>
    exact inflate_raisedIfInError (fetchHeader_coreErrorsOnly hs) (fetchHeader_fetches rfl) (by decide) h
  case infStored => exact (storedBody_coreErrorsOnly hs).outcome h
  case infDynHdr =>
    exact inflate_raisedIfInError (fetchSym_coreErrorsOnly _ _ hs) (fetchCodeLength_fetches rfl) (by decide) h
  case infSym =>
    unfold fetchSymbol at h
    split at h
    · exact inflate_raisedIfInError (fetchDist_coreErrorsOnly hs) (fetchDist_fetches rfl) (by decide) h
    · exact inflate_raisedIfInError (fetchSym_coreErrorsOnly _ _ hs) (fetchLitLen_fetches rfl) (by decide) h
  case infEnd => exact (endChecks_coreErrorsOnly hs).outcome h
  case recon =>
    exact runElement_raisedIfInError (iteInduction (fun _ => .fault) fun _ => .ok hs) (fetchTag_fetches rfl)
      exec_filter_raisedIfInError h
  case expand => exact runElement_raisedIfInError (.ok hs) (.ok rfl) exec_pixfmt_raisedIfInError h

/-- A register write enters ERROR by a START's checks only (R51, R339, R340, R341). -/
theorem regWriteStep_raisedIfInError {s t : State} {addr w : Word} {bits off : Nat}
    (hoff : regOffset s.params addr bits = some off) (hs : s.NotInError) (h : regWriteStep addr bits w s = .next t) :
    t.RaisedIfInError := by
  rcases regWriteStep_cases w hoff with ⟨-, -, he⟩ | ⟨-, -, -, he⟩ | ⟨-, he⟩ <;> rw [he] at h
  · unfold startCommand at h
    split at h
    · exact .inl (Host.Outcome.next.inj h ▸ hs)
    · refine CoreResult.CoreErrorsOnly.outcome (startPhase_coreErrorsOnly ?_) h
      rw [beginCommand_eq]
      exact CoreState.noConfusion
  · unfold execCtrlClear at h
    split at h
    · exact .inl (Host.Outcome.next.inj h ▸ hs)
    · obtain rfl := Host.Outcome.next.inj h
      refine .inl ?_
      rw [State.NotInError, clearCommand_status, cleared_state]
      split <;> exact CoreState.noConfusion
  · obtain rfl := Host.Outcome.next.inj h
    refine .inl ?_
    unfold hostPlainWrite
    split
    · exact hs
    · obtain ⟨hstatus, -⟩ := writeReg_plainWrite off w s
      rcases hstatus with ⟨-, hst⟩ | ⟨hst, -⟩ <;> rw [State.NotInError, hst]
      · exact hs
      · exact hs

theorem step_raisedIfInError {s t : State} (hs : s.NotInError) (h : step s = .next t) : t.RaisedIfInError := by
  rcases step_flags h with ⟨q, hcore⟩ | ⟨hst, -⟩ | ⟨addr, w, q, off, -, hoff, hwrite⟩ | ⟨q, -, rfl⟩
  · exact coreStep_raisedIfInError (s := s.withQueue q) hs hcore
  · exact .inl (by rwa [State.NotInError, hst])
  · exact regWriteStep_raisedIfInError (s := s.withQueue q) hoff hs hwrite
  · exact .inl CoreState.noConfusion

/-- Settles O54: a state that a step leaves in ERROR is `raiseError` of an error of the core. -/
theorem everyErrorIsEnteredTheSameWay : Obligations.EveryErrorIsEnteredTheSameWay := by
  intro s t h hs ht
  rcases step_raisedIfInError hs h with hnot | ⟨e, u, he, rfl⟩
  · exact absurd ht hnot
  · exact ⟨rfl, rfl, Bool.and_true _, code_of_not_parser he⟩

end Sys2Proof.Machine
end
